-- ==== Sys2Proof/Word.lean ====
section
/-! DEFINITION. The word types of the DG4210 and the bounded index types of its tables (00_scope.md, Table 2). -/

namespace Sys2Proof

/-- A byte of a frame, of the flash array or of a page buffer. -/
abbrev Byte := BitVec 8

/-- A two-byte parameter field of a request frame (R166). -/
abbrev Half := BitVec 16

/-- A port, 0 to 3 (Table 2). -/
abbrev PortId := Fin 4

/-- A session id, that is a slot of the Session Table, 0 to 7 (R35). -/
abbrev SessionId := Fin 8

/-- A physical block index, 0 to 511 (R1). -/
abbrev BlockId := Fin 512

/-- A logical page number, 0 to 463 (R21). -/
abbrev PageId := Fin 464

end Sys2Proof
end

