-- ==== Sys2Proof/Config.lean ====
section
/-! DEFINITION. The fixed quantities of the DG4210 (00_scope.md, Table 2). Nothing of it can be set by software, and the
guide leaves no value of it open, so no entry is a free value. -/

namespace Sys2Proof

/-- Number of logical pages (R21). -/
abbrev Config.pageCount : Nat := 464

/-- Number of physical blocks (R1). -/
abbrev Config.blockCount : Nat := 512

/-- Bytes of a block's data area and of a logical page (R1, R21). -/
abbrev Config.pageBytes : Nat := 4096

/-- Bytes of a block's data and spare area together (R1). -/
abbrev Config.blockBytes : Nat := 4160

/-- Bytes of one line (R1). -/
abbrev Config.lineBytes : Nat := 256

/-- Size of the logical address space (R21). -/
abbrev Config.logicalBytes : Nat := 1900544

/-- The windows page (R21). -/
abbrev Config.windowsPage : PageId := 463

/-- Reserve level of the Free Pool (R101). -/
abbrev Config.reserve : Nat := 4

/-- The last commit serial that can be given (R24). -/
abbrev Config.lastSerial : Nat := 0xFFFFFF00

/-- The largest erase count (R17). -/
abbrev Config.lastEraseCount : Nat := 0xFFFFFF

/-- Page buffers in the pool (R39). -/
abbrev Config.bufferCount : Nat := 8

/-- Sessions that one port may have attached (R37). -/
abbrev Config.portSessions : Nat := 2

/-- Entries of a notice queue (R147). -/
abbrev Config.noticeSlots : Nat := 16

/-- Blocks tried for one member of a commit (R76). -/
abbrev Config.maxTries : Nat := 3

/-- Program attempts for a byte of the discard word (R7). -/
abbrev Config.maxAttempts : Nat := 3

/-- Lease setting after every reset, in units of 4 ms (R54). -/
abbrev Config.defaultLease : Byte := 100

/-- Longest lease setting (R56). -/
abbrev Config.maxLease : Nat := 250

/-- Longest READ (R172). -/
abbrev Config.maxRead : Nat := 16384

end Sys2Proof
end

