-- ==== Sys2Proof/Syntax.lean ====
section
/-! DEFINITION. The commands of the DG4210: one constructor for each row of spec/opcode_table.json. -/

namespace Sys2Proof

/-- What the flash array holds after a program or erase that ran to its completion (R2). DESIGN CHOICE, log entry 4:
the outcome is physics, so it is an operand of the completion. -/
inductive Written where
  /-- Every byte of the field, line or block is at its intended value. -/
  | intended
  /-- The bytes from the start of the field, line or block as the completion left them; bytes past the end of the
  list keep the value they had before. -/
  | left (bytes : List Byte)
  deriving DecidableEq, Repr

/-- What a cut, or an end at the time limit, leaves of the operation in flight (R3, R79). DESIGN CHOICE, log entry 5.
Without an operation in flight it says nothing. -/
structure Cut where
  /-- For a block erase: the cut came in the second phase (R3). Not read for a program operation. -/
  secondPhase : Bool
  /-- The bytes left, in the order of the addresses the operation was changing when it was cut; bytes past the end of
  the list keep the value they had before. -/
  left : List Byte
  deriving DecidableEq, Repr

/-- An edge of SCK on a port, with the level of SDI at a rising one (R163). -/
inductive SckEdge where
  | rise (sdi : Bool)
  | fall
  deriving DecidableEq, Repr

/-- An owner of STATUS fields; those of one owner are taken together. `tables` is the Block Manager with the Map Unit (R177). -/
inductive StatusOwner where
  | scanner
  | tables
  | engine
  | protection
  | sessions
  | notices
  deriving DecidableEq, Repr

/-- Every owner of STATUS fields. -/
def StatusOwner.all : List StatusOwner := [.scanner, .tables, .engine, .protection, .sessions, .notices]

/-- A run of SCK on a port: its edges, in order (R163), and the owners whose STATUS fields the Port Interface takes after them
where a STATUS is then being taken (R177; log entry 33). -/
structure SckRun where
  port : PortId
  edges : List SckEdge
  gather : List StatusOwner
  deriving DecidableEq, Repr

/-- The commands. Requests carry their port and the parameter fields of their frame as Table 52 lays them out; a field
out of its range is a value the owner's checks answer (R186). -/
inductive Instr where
  /-- READ (R172). -/
  | read (port : PortId) (page offset length : Half)
  /-- MAP_QUERY (R33). -/
  | mapQuery (port : PortId) (page : Half)
  /-- STATUS (R176). -/
  | status (port : PortId)
  /-- OPEN (R40). -/
  | openSession (port : PortId) (count : Byte) (pages : List Half)
  /-- STAGE (R43). -/
  | stage (port : PortId) (session member : Byte) (offset length : Half) (data : List Byte)
  /-- COMMIT (R46). -/
  | commit (port : PortId) (session : Byte)
  /-- ABORT (R51). -/
  | abort (port : PortId) (session : Byte)
  /-- COLLECT (R58). -/
  | collect (port : PortId) (session : Byte)
  /-- WATCH_SET (R148). -/
  | watchSet (port : PortId) (slot : Byte) (first last : Half)
  /-- WATCH_CLEAR (R149). -/
  | watchClear (port : PortId) (slot : Byte)
  /-- NOTICE_FETCH (R156). -/
  | noticeFetch (port : PortId)
  /-- LEASE_SET (R56). -/
  | leaseSet (port : PortId) (units : Byte)
  /-- FREEZE (R143). -/
  | freeze (port : PortId)
  /-- UNKNOWN_REQUEST_CODE (R171). -/
  | unknownRequestCode (port : PortId) (code : Byte)
  /-- CS_FALL (R165). -/
  | csFall (port : PortId)
  /-- CHIP_SELECT_RISE (R169, R170). -/
  | chipSelectRise (port : PortId)
  /-- READ_STREAM_NEXT_PAGE (R174). -/
  | readStreamNextPage (port : PortId)
  /-- READ_STREAM_END (R175). -/
  | readStreamEnd (port : PortId)
  /-- PRST_N_ASSERT (R178). -/
  | prstAssert (port : PortId)
  /-- PRST_N_RELEASE (R155, R178). -/
  | prstRelease (port : PortId)
  /-- RESET_N_ASSERT (R181). -/
  | resetAssert (cut : Cut)
  /-- RESET_N_RELEASE (R112). -/
  | resetRelease
  /-- POWER_ON (R112). -/
  | powerOn (cut : Cut)
  /-- POWER_LOSS (R3). -/
  | powerLoss (cut : Cut)
  /-- LEASE_EXPIRY (R55). -/
  | leaseExpiry (session : SessionId)
  /-- FLASH_OP_TIMEOUT (R79). -/
  | flashOpTimeout (cut : Cut)
  /-- CHOICE_OF_WORK (R69). -/
  | choiceOfWork
  /-- BEGUN_MARK_COMPLETION (R73). -/
  | begunMarkCompletion (written : Written)
  /-- LINE_PROGRAM_COMPLETION (R74). -/
  | lineProgramCompletion (written : Written)
  /-- DATA_STAMP_COMPLETION (R75). -/
  | dataStampCompletion (written : Written)
  /-- RETIRE_MARK_COMPLETION (R76). -/
  | retireMarkCompletion (written : Written)
  /-- FAILURE_HANDOFF (R49). -/
  | failureHandoff
  /-- BOUNDARY_HANDOFF (R77). -/
  | boundaryHandoff
  /-- UNWIND_REQUEST (R80). -/
  | unwindRequest
  /-- VOID_COMPLETION (R82). -/
  | voidCompletion (written : Written)
  /-- FLIP (R28). -/
  | flip
  /-- WINDOWS_TABLE_RELOAD (R138). -/
  | windowsTableReload
  /-- REVOCATION (R62). -/
  | revocation
  /-- FLIP_END_OF_SESSION (R50). -/
  | flipEndOfSession
  /-- FLIP_NOTICE_HANDOFF (R151). -/
  | flipNoticeHandoff
  /-- ERASE_COMPLETION (R96). -/
  | eraseCompletion (written : Written)
  /-- FREE_STAMP_COMPLETION (R97). -/
  | freeStampCompletion (written : Written)
  /-- MOUNT_BLOCK_SCAN (R114). -/
  | mountBlockScan
  /-- MOUNT_TABLE_BUILD (R121). -/
  | mountTableBuild
  /-- WINDOWS_TABLE_LOAD (R122). -/
  | windowsTableLoad
  /-- MOUNT_VOID_COMPLETION (R89). -/
  | mountVoidCompletion (written : Written)
  /-- REPLY_BYTE_DELIVERY (R163, R165), with the run of SCK that clocks the byte. -/
  | replyByteDelivery (run : SckRun)
  deriving DecidableEq, Repr

end Sys2Proof
end

