-- ==== Sys2Proof/WellFormed.lean ====
section
/-! DEFINITION. Which terms of `Instr` spell a command: a request's list operand has the length its delimiting field
gives (R167), an unknown code names no request (R171), and what an operation left fits the bytes it acts on (R2, R3). -/

namespace Sys2Proof

/-- The request codes of Table 52. -/
def requestCodes : List Byte :=
  [0x10, 0x11, 0x12, 0x20, 0x21, 0x22, 0x23, 0x24, 0x30, 0x31, 0x32, 0x40, 0x41]

/-- How many page numbers follow the page count of an OPEN (R167). -/
def openPageCount (count : Byte) : Nat :=
  if 1 ≤ count.toNat ∧ count.toNat ≤ 4 then count.toNat else 0

/-- How many data bytes follow the length field of a STAGE (R167). -/
def stageDataCount (length : Half) : Nat :=
  if 1 ≤ length.toNat ∧ length.toNat ≤ 256 then length.toNat else 0

/-- What a completion left fits a field of `size` bytes. -/
def Written.fits (size : Nat) : Written → Bool
  | .intended => true
  | .left bs => decide (bs.length ≤ size)

/-- The largest number of bytes a cut operation was changing: the first phase of an erase, with the data area, the
data slot and the bytes outside the fields (R3, Table 50). -/
def cutBytes : Nat := 4096 + 24 + 28

/-- The check. -/
def Instr.wellFormed : Instr → Bool
  | .openSession _ count pages => decide (pages.length = openPageCount count)
  | .stage _ _ _ _ length data => decide (data.length = stageDataCount length)
  | .unknownRequestCode _ code => decide (code ∉ requestCodes)
  | .resetAssert cut | .powerOn cut | .powerLoss cut | .flashOpTimeout cut => decide (cut.left.length ≤ cutBytes)
  | .begunMarkCompletion w | .retireMarkCompletion w | .voidCompletion w | .mountVoidCompletion w => w.fits 1
  | .lineProgramCompletion w => w.fits 256
  | .dataStampCompletion w => w.fits 18
  | .freeStampCompletion w => w.fits 6
  | .eraseCompletion w => w.fits 4160
  | .read .. | .mapQuery .. | .status _ | .commit .. | .abort .. | .collect .. | .watchSet .. | .watchClear ..
  | .noticeFetch _ | .leaseSet .. | .freeze _ | .csFall _ | .chipSelectRise _ | .readStreamNextPage _
  | .readStreamEnd _ | .prstAssert _ | .prstRelease _ | .resetRelease | .leaseExpiry _ | .choiceOfWork
  | .failureHandoff | .boundaryHandoff | .unwindRequest | .flip | .windowsTableReload | .revocation
  | .flipEndOfSession | .flipNoticeHandoff | .mountBlockScan | .mountTableBuild | .windowsTableLoad
  | .replyByteDelivery .. => true

end Sys2Proof
end

