-- ==== Sys2Proof/Decode.lean ====
section
/-! DEFINITION. The words of the opcode table (no row gives bits), and the request frames of the SPI link: big-endian
fields, the decoder that delimits a frame by R166 and R167, and the encoder of Table 52. -/

namespace Sys2Proof

/-- Every row of spec/opcode_table.json stands without bits, so no word spells a command. -/
def decodeTableWord (_nbits _w : Nat) : Option Instr := none

/-- A two-byte big-endian field, most significant byte first (00_scope.md, Conventions). -/
def halfBytes (h : Half) : List Byte := [h.extractLsb' 8 8, h.extractLsb' 0 8]

/-- The two-byte field that a high and a low byte spell. -/
def halfOfBytes (hi lo : Byte) : Half := hi ++ lo

/-- Two-byte big-endian image of a count. -/
def natBytes2 (n : Nat) : List Byte := [BitVec.ofNat 8 (n / 256), BitVec.ofNat 8 n]

/-- Three-byte big-endian image. -/
def natBytes3 (n : Nat) : List Byte := BitVec.ofNat 8 (n / 65536) :: natBytes2 n

/-- Four-byte big-endian image. -/
def natBytes4 (n : Nat) : List Byte := BitVec.ofNat 8 (n / 16777216) :: natBytes3 n

/-- The number a big-endian byte sequence spells. -/
def natOfBytes (bs : List Byte) : Nat := bs.foldl (fun n b => n * 256 + b.toNat) 0

/-- The two-byte fields that follow one another in a byte sequence; an odd byte at the end is no field. -/
def halvesOfBytes : List Byte → List Half
  | hi :: lo :: rest => halfOfBytes hi lo :: halvesOfBytes rest
  | _ => []

/-- A request as the bytes of its frame before the turnaround: request code and parameters (Table 52, R186). `none` for
a command that is no request. -/
def encodeFrame : Instr → Option (List Byte)
  | .read _ page offset length => some (0x10 :: (halfBytes page ++ halfBytes offset ++ halfBytes length))
  | .mapQuery _ page => some (0x11 :: halfBytes page)
  | .status _ => some [0x12]
  | .openSession _ count pages => some (0x20 :: count :: pages.flatMap halfBytes)
  | .stage _ session member offset length data =>
    some (0x21 :: session :: member :: (halfBytes offset ++ halfBytes length ++ data))
  | .commit _ session => some [0x22, session]
  | .abort _ session => some [0x23, session]
  | .collect _ session => some [0x24, session]
  | .watchSet _ slot first last => some (0x30 :: slot :: (halfBytes first ++ halfBytes last))
  | .watchClear _ slot => some [0x31, slot]
  | .noticeFetch _ => some [0x32]
  | .leaseSet _ units => some [0x40, units]
  | .freeze _ => some [0x41]
  | .unknownRequestCode _ code => some [code]
  | _ => none

/-- The request that the bytes of a frame on `port` spell, as soon as its last parameter byte has arrived (R166, R167);
`none` while bytes are still missing. Bytes past the last parameter byte are ignored (R164). -/
def decodeFrame (port : PortId) : List Byte → Option Instr
  | [] => none
  | code :: ps =>
    if code = 0x10 then
      match ps with
      | a :: b :: c :: d :: e :: f :: _ => some (.read port (halfOfBytes a b) (halfOfBytes c d) (halfOfBytes e f))
      | _ => none
    else if code = 0x11 then
      match ps with
      | a :: b :: _ => some (.mapQuery port (halfOfBytes a b))
      | _ => none
    else if code = 0x12 then some (.status port)
    else if code = 0x20 then
      match ps with
      | count :: rest =>
        if 2 * openPageCount count ≤ rest.length then
          some (.openSession port count (halvesOfBytes (rest.take (2 * openPageCount count))))
        else none
      | _ => none
    else if code = 0x21 then
      match ps with
      | sid :: m :: a :: b :: c :: d :: rest =>
        if stageDataCount (halfOfBytes c d) ≤ rest.length then
          some (.stage port sid m (halfOfBytes a b) (halfOfBytes c d)
            (rest.take (stageDataCount (halfOfBytes c d))))
        else none
      | _ => none
    else if code = 0x22 then
      match ps with
      | sid :: _ => some (.commit port sid)
      | _ => none
    else if code = 0x23 then
      match ps with
      | sid :: _ => some (.abort port sid)
      | _ => none
    else if code = 0x24 then
      match ps with
      | sid :: _ => some (.collect port sid)
      | _ => none
    else if code = 0x30 then
      match ps with
      | slot :: a :: b :: c :: d :: _ => some (.watchSet port slot (halfOfBytes a b) (halfOfBytes c d))
      | _ => none
    else if code = 0x31 then
      match ps with
      | slot :: _ => some (.watchClear port slot)
      | _ => none
    else if code = 0x32 then some (.noticeFetch port)
    else if code = 0x40 then
      match ps with
      | units :: _ => some (.leaseSet port units)
      | _ => none
    else if code = 0x41 then some (.freeze port)
    else some (.unknownRequestCode port code)

/-- The port on which a command is a request; `none` for a command that is no request. -/
def Instr.requestPort : Instr → Option PortId
  | .read p _ _ _ | .mapQuery p _ | .status p | .openSession p _ _ | .stage p _ _ _ _ _ | .commit p _ | .abort p _
  | .collect p _ | .watchSet p _ _ _ | .watchClear p _ | .noticeFetch p | .leaseSet p _ | .freeze p
  | .unknownRequestCode p _ => some p
  | _ => none

end Sys2Proof
end

