-- ==== Sys2Proof/Machine/State.lean ====
section
/-! DEFINITION. The state of the DG4210: one structure for each of the blocks of Table 1, the pins, and the queue of
commands not yet taken. Everything is plain data. -/

namespace Sys2Proof.Machine

/-! ### The Flash Array (R1) -/

/-- The bytes of the flash array by address, in canonical form (`Memory.wf` in Ops.lean). An address that is not listed
reads 0xFF, the erased byte (R1). Addresses: log entry 7. -/
abbrev Memory := List Host.Cell

/-! ### The Block Manager (R8 to R20) -/

/-- The fields of a block's record that are present while it is DATA (R8). -/
structure DataInfo where
  page : PageId
  serial : Nat
  index : Nat
  count : Nat
  writer : PortId
  deriving DecidableEq, Repr

/-- The class of a block with the fields that go with it (R8, R9). -/
inductive BlockClass where
  | free
  | data (info : DataInfo)
  | dirty
  | target (session : SessionId)
  | erasing
  | retired
  deriving DecidableEq, Repr

/-- A record of the Block Table (R8). -/
structure BlockRec where
  cls : BlockClass
  eraseCount : Nat
  pins : Nat
  deriving DecidableEq, Repr

/-- The Block Manager. A record is absent while a mount has not yet placed its block (R112, R114). -/
structure BlockManager where
  table : Vector (Option BlockRec) 512
  freePool : List BlockId
  dirtyList : List BlockId
  retiredSet : List BlockId
  lowSpace : Bool
  deriving DecidableEq, Repr

/-! ### The Map Unit (R21 to R34) -/

/-- A mapped entry of the Page Map (R22). -/
structure MapEntry where
  block : BlockId
  serial : Nat
  writer : PortId
  deriving DecidableEq, Repr

/-- The hand-offs of a taken flip (R29). The four Booleans say which of them their owners have still to take; the
revocation is called for by the reload (R138). -/
structure FlipWork where
  session : SessionId
  serial : Nat
  writer : PortId
  pages : List PageId
  reloadDue : Bool
  revocationDue : Bool
  sessionEndDue : Bool
  noticesDue : Bool
  deriving DecidableEq, Repr

/-- The Map Unit. -/
structure MapUnit where
  pages : Vector (Option MapEntry) 464
  mapped : Nat
  nextSerial : Nat
  serialEnd : Bool
  flip : Option FlipWork
  deriving DecidableEq, Repr

/-! ### The Session Unit (R35 to R63) -/

/-- States of a session (R36). -/
inductive SessionState where
  | free
  | opened
  | queued
  | programming
  | unwinding
  | finished
  deriving DecidableEq, Repr

/-- Why a session FAILED (R35). -/
inductive FailReason where
  | noSpace
  | verify (member : Nat)
  | serialEnd
  deriving DecidableEq, Repr

/-- The outcome of a session with the details recorded with it (R35, R57). -/
inductive SessionOutcome where
  | done (serial : Nat)
  | abandoned
  | expired
  | revoked
  | failed (reason : FailReason)
  deriving DecidableEq, Repr

/-- A page buffer: the staged value of each staged offset, offsets rising (R39). An offset that is not listed is not
staged. -/
abbrev Buffer := List Host.Cell

/-- A session record (R35). `lease` is the deadline of the running lease timer in units of 4 ms from its last start or
restart; `none` is stopped (R54, log entry 9). -/
structure Session where
  state : SessionState
  owner : Option PortId
  members : List PageId
  buffers : List Buffer
  lease : Option Nat
  windowsLine : Bool
  boundaryPassed : Bool
  outcome : Option SessionOutcome
  deriving DecidableEq, Repr

/-- The record of a slot that is FREE: every field but the session id is removed (R35). -/
def Session.freeSlot : Session :=
  { state := .free, owner := none, members := [], buffers := [], lease := none, windowsLine := false,
    boundaryPassed := false, outcome := none }

/-- A failure the engine has handed over (R49, R78). -/
structure Failure where
  session : SessionId
  reason : FailReason
  deriving DecidableEq, Repr

/-- The Session Unit: Session Table, claim table, and the two hand-offs between it and the engine that can wait: a
failure not yet taken (R78) and an unwind request not yet taken (R80). -/
structure SessionUnit where
  table : Vector Session 8
  claims : Vector (Option SessionId) 464
  failure : Option Failure
  unwindRequest : Option SessionId
  deriving DecidableEq, Repr

/-! ### The Array Engine (R64 to R93) -/

/-- The current operation record of kind COMMIT (Table 16). -/
structure CommitRec where
  session : SessionId
  serial : Nat
  writer : PortId
  pages : List PageId
  windowsLine : Bool
  bases : List (Option BlockId)
  targets : List (Option BlockId)
  member : Nat
  tries : Nat
  unwindRequested : Bool
  boundaryHanded : Bool
  deriving DecidableEq, Repr

/-- The current operation record of kind UNWIND (Table 16). -/
structure UnwindRec where
  session : SessionId
  serial : Nat
  writer : PortId
  pages : List PageId
  targets : List (Option BlockId)
  deriving DecidableEq, Repr

/-- Sub-steps of COMMIT with a record (R65). The commit start, which has none, is `Engine.start`. `attempts` counts the ended
attempts on the discard byte in hand (log entry 21). -/
inductive CommitStep where
  | begunMark
  | line (k : Nat)
  | boundary
  | dataStamp
  | retire (attempts : Nat)
  /-- The flip request stands at the Map Unit (R86). -/
  | flipRequested
  /-- The flip is taken; the engine waits for the report (R86). -/
  | flipTaken
  deriving DecidableEq, Repr

/-- Sub-steps of UNWIND (R65), with the current block. -/
inductive UnwindStep where
  | void (block : BlockId) (attempts : Nat)
  | retire (block : BlockId) (attempts : Nat)
  deriving DecidableEq, Repr

/-- Sub-steps of ERASE (R65). -/
inductive EraseStep where
  | erase
  | freeStamp
  | retire (attempts : Nat)
  deriving DecidableEq, Repr

/-- Sub-steps of MOUNT_VOID (R65). -/
inductive MountVoidStep where
  | void (attempts : Nat)
  | retire (attempts : Nat)
  deriving DecidableEq, Repr

/-- The engine state with its sub-step and current operation record (R64, R65). In MOUNT_VOID, `rest` is the mount-void
list behind the current block. -/
inductive Work where
  | idle
  | commit (rec : CommitRec) (step : CommitStep)
  | unwind (rec : UnwindRec) (step : UnwindStep)
  | erase (block : BlockId) (step : EraseStep)
  | mountVoid (block : BlockId) (rest : List BlockId) (step : MountVoidStep)
  deriving DecidableEq, Repr

/-- What the engine hands to the Session Unit for the session it chose (R48, R72): the start, with the serial and the base
blocks that the Map Unit gave; the refusal of a serial; or a failed start check. -/
inductive StartKind where
  | start (serial : Nat) (bases : List (Option BlockId))
  | serialRefused
  | checkFailed
  deriving DecidableEq, Repr

/-- A start hand-off that the Session Unit has still to take (R48). It names the session chosen and not only its slot: `live`
says that that session is still QUEUED, and its withdrawal clears it for good (R71). -/
structure StartHandoff where
  session : SessionId
  port : PortId
  kind : StartKind
  live : Bool
  deriving DecidableEq, Repr

/-- The Array Engine. While `start` is present the engine has made its choice, holds no record (R64), and waits for the Session
Unit to take the hand-off (R65, commit start; log entry 12). -/
structure Engine where
  work : Work
  start : Option StartHandoff
  queue : Vector (List SessionId) 4
  pointer : PortId
  markFault : Bool
  deriving DecidableEq, Repr

/-! ### The Protection Unit (R128 to R146) -/

/-- A window record (R129). -/
structure Window where
  valid : Bool
  first : Nat
  last : Nat
  readSet : Byte
  writeSet : Byte
  deriving DecidableEq, Repr

/-- A windows table: empty, or the records of a well-formed line in window order (R128). -/
inductive WindowsTable where
  | empty
  | windows (records : List Window)
  deriving DecidableEq, Repr

/-- The Protection Unit. -/
structure Protection where
  table : WindowsTable
  frozen : Bool
  tableFault : Bool
  deriving DecidableEq, Repr

/-! ### The Notice Unit, per port (R147 to R161) -/

/-- What a queued notice reports (R150). -/
inductive NoticeKind where
  | pageChanged (page : PageId)
  | tableChanged
  deriving DecidableEq, Repr

/-- A queued notice record (R150). -/
structure Notice where
  kind : NoticeKind
  serial : Nat
  writer : PortId
  deriving DecidableEq, Repr

/-- The range of a watch slot (R147). -/
structure WatchRange where
  first : Nat
  last : Nat
  deriving DecidableEq, Repr

/-- The Notice Unit's state for one port. -/
structure NoticePort where
  watches : Vector (Option WatchRange) 4
  queue : List Notice
  overrun : Bool
  deriving DecidableEq, Repr

/-! ### The Port Interface, per port (R162 to R182) -/

/-- Frame decoder states (Table 44). -/
inductive Decoder where
  | idle
  | request
  | turnaround
  | reply
  | stream
  | spent
  | ignored
  deriving DecidableEq, Repr

/-- A read stream (R162, R173): the page, the position of its next byte within the page, the pinned block, and the
bytes left. -/
structure Stream where
  page : PageId
  position : Nat
  pinned : Option BlockId
  bytesLeft : Nat
  deriving DecidableEq, Repr

/-- The three conditions of ALERT_n, as their owners have handed them (R158). -/
structure AlertConds where
  finishedSession : Bool
  noticeQueued : Bool
  overrun : Bool
  deriving DecidableEq, Repr

/-- The part condition (R112). -/
inductive Condition where
  | mounting
  | ready
  deriving DecidableEq, Repr

/-- The reset cause (R112). -/
inductive ResetCause where
  | powerOn
  | resetLine
  deriving DecidableEq, Repr

/-- The STATUS fields of the Mount Scanner (R177). -/
structure ScannerGroup where
  condition : Condition
  position : Nat
  cause : ResetCause
  deriving DecidableEq, Repr

/-- The STATUS fields of the Block Manager and the Map Unit (R177). -/
structure TablesGroup where
  free : Nat
  dirty : Nat
  retired : Nat
  mapped : Nat
  lowSpace : Bool
  serialEnd : Bool
  deriving DecidableEq, Repr

/-- The STATUS fields of the Protection Unit (R177). -/
structure ProtectionGroup where
  tableFault : Bool
  frozen : Bool
  deriving DecidableEq, Repr

/-- The STATUS fields of the Notice Unit (R177). -/
structure NoticeGroup where
  count : Nat
  overrun : Bool
  deriving DecidableEq, Repr

/-- The fields of a STATUS, owner by owner (R176, R177). `late` are the owners whose group was taken after an event that came while
the STATUS was being taken (log entry 33). -/
structure StatusGroups where
  scanner : ScannerGroup
  tables : TablesGroup
  markFault : Bool
  protection : ProtectionGroup
  sessions : List (SessionId × SessionState)
  notices : NoticeGroup
  late : List StatusOwner
  deriving DecidableEq, Repr

/-- The Port Interface of one port, with the levels of its input pins and the byte it last delivered on SDO (`none`: high
impedance). `received` counts the request bytes received (Table 43), `request` holds those of a request that is not complete
yet (R166, R167), `bits` are the bits of the byte in progress that have been sampled, the first first (R163), and
`statusTaken` holds the fields of the STATUS taken in this frame (R177). -/
structure Port where
  decoder : Decoder
  received : Nat
  request : List Byte
  turnaroundLeft : Nat
  reply : List Byte
  stream : Option Stream
  lease : Byte
  alert : AlertConds
  sdo : Option Byte
  bits : List Bool
  statusTaken : Option StatusGroups
  sckHigh : Bool
  csLow : Bool
  prstLow : Bool
  deriving DecidableEq, Repr

/-! ### The Mount Scanner (R112 to R127) -/

/-- How far a mount has come: pass 1 (R114), tables built (R121), windows table loaded and voiding handed over (R122,
R123), ended (R124). -/
inductive MountStage where
  | scan
  | built
  | voiding
  | ended
  deriving DecidableEq, Repr

/-- A candidate block of a tally entry with its own member index and page (R116, R117). -/
structure Candidate where
  index : Nat
  block : BlockId
  page : PageId
  deriving DecidableEq, Repr

/-- An entry of the group tally (R116). `complete := none` is "undecided". -/
structure TallyEntry where
  serial : Nat
  count : Nat
  pages : List PageId
  writer : PortId
  members : List Candidate
  consistent : Bool
  complete : Option Bool
  deriving DecidableEq, Repr

/-- The Mount Scanner. `largestSerial` is the largest serial in a valid data stamp that pass 1 has found, 0 when none
(R27). -/
structure Mount where
  condition : Condition
  stage : MountStage
  position : Nat
  cause : ResetCause
  tally : List TallyEntry
  largestSerial : Nat
  voidList : List BlockId
  deriving DecidableEq, Repr

/-- The supply and the RESET_n input of the whole part. -/
structure Power where
  supplied : Bool
  resetLow : Bool
  deriving DecidableEq, Repr

/-! ### The whole part -/

/-- The part, and the commands that wait to be taken, first in first out. -/
structure State where
  flash : Memory
  bm : BlockManager
  map : MapUnit
  ses : SessionUnit
  eng : Engine
  prot : Protection
  notices : Vector NoticePort 4
  ports : Vector Port 4
  mount : Mount
  power : Power
  pending : List Instr
  deriving DecidableEq, Repr

/-- Reasons to stop with a fault. The guide names no condition in which the part stops, and no command of the model
raises one. -/
inductive Fault where
  /-- An access outside the 512 blocks of R1. Raised by no command: every block index of State is below 512. Safe. -/
  | outsideArray
  deriving DecidableEq, Repr

/-- Reasons to refuse a command. -/
inductive Refusal where
  /-- A command of the table without a meaning, by its mnemonic. Raised only by an arm of exec that has none; safe. -/
  | notModelled (mnemonic : String)
  deriving DecidableEq, Repr

/-! ### Reset values -/

/-- The Block Manager with an empty Block Table, counts 0 and LOW_SPACE set (R102, R112). -/
def BlockManager.reset : BlockManager :=
  { table := Vector.replicate 512 none, freePool := [], dirtyList := [], retiredSet := [], lowSpace := true }

/-- The Map Unit with every entry unmapped (R112). The next serial is set by the mount; 1 until then (log entry 20). -/
def MapUnit.reset : MapUnit :=
  { pages := Vector.replicate 464 none, mapped := 0, nextSerial := 1, serialEnd := false, flip := none }

/-- The Session Unit of R63. -/
def SessionUnit.reset : SessionUnit :=
  { table := Vector.replicate 8 Session.freeSlot, claims := Vector.replicate 464 none, failure := none,
    unwindRequest := none }

/-- The engine of R93, with the MARK_FAULT flag given: power-on clears it, RESET_n keeps it. -/
def Engine.reset (markFault : Bool) : Engine :=
  { work := .idle, start := none, queue := Vector.replicate 4 [], pointer := 3, markFault := markFault }

/-- The Notice Unit of R161 for one port. -/
def NoticePort.reset : NoticePort :=
  { watches := Vector.replicate 4 none, queue := [], overrun := false }

/-- The Port Interface of Table 43 with SCK low, and chip select and PRST_n high. -/
def Port.reset : Port :=
  { decoder := .idle, received := 0, request := [], turnaroundLeft := 0, reply := [], stream := none, lease := Config.defaultLease,
    alert := { finishedSession := false, noticeQueued := false, overrun := false }, sdo := none, bits := [],
    statusTaken := none, sckHigh := false, csLow := false, prstLow := false }

/-- The Mount Scanner at the start of mounting (R112). -/
def Mount.start (cause : ResetCause) : Mount :=
  { condition := .mounting, stage := .scan, position := 0, cause := cause, tally := [], largestSerial := 0,
    voidList := [] }

/-- The part right after reset: at the start of the mounting that follows a power-on, with a blank array, SCK low and
every other input pin high (R112; log entries 7 and 8). -/
def State.reset : State :=
  { flash := [], bm := BlockManager.reset, map := MapUnit.reset, ses := SessionUnit.reset, eng := Engine.reset false,
    prot := { table := .empty, frozen := false, tableFault := false },
    notices := Vector.replicate 4 NoticePort.reset, ports := Vector.replicate 4 Port.reset,
    mount := Mount.start .powerOn, power := { supplied := true, resetLow := false }, pending := [] }

end Sys2Proof.Machine
end

