-- ==== Sys2Proof/Machine/Ops.lean ====
section
/-! DEFINITION. The named operations over the flash array, the page buffers and the tables of State. -/

namespace Sys2Proof.Machine

/-! ### Cells: lists of (address, byte) with rising addresses -/

/-- The byte listed at an address, if any. -/
def cellGet : List Host.Cell → Nat → Option Byte
  | [], _ => none
  | (k, v) :: rest, a => if k = a then some v else cellGet rest a

/-- List a byte at an address, in its place, replacing what was listed there. -/
def cellPut : List Host.Cell → Nat → Byte → List Host.Cell
  | [], a, v => [(a, v)]
  | (k, w) :: rest, a, v =>
    if a < k then (a, v) :: (k, w) :: rest
    else if a = k then (a, v) :: rest
    else (k, w) :: cellPut rest a v

/-- List nothing at an address. -/
def cellDrop (cells : List Host.Cell) (a : Nat) : List Host.Cell := cells.filter fun c => c.1 != a

/-! ### Flash memory (R1) -/

/-- What an unlisted address of the array reads as: the erased byte (R1). -/
def Memory.erased : Byte := 0xFF

/-- The canonical form: addresses strictly rising, and no entry equal to what an unlisted address reads as. -/
abbrev Memory.wf (m : Memory) : Prop :=
  m.Pairwise (fun c d => c.1 < d.1) ∧ ∀ c ∈ m, c.2 ≠ Memory.erased

/-- Read one byte. -/
def Memory.read (m : Memory) (a : Nat) : Byte := (cellGet m a).getD Memory.erased

/-- Set one byte, keeping the canonical form. -/
def Memory.write (m : Memory) (a : Nat) (v : Byte) : Memory :=
  if v = Memory.erased then cellDrop m a else cellPut m a v

/-- Read `n` bytes from address `a` up. -/
def Memory.readBytes (m : Memory) (a n : Nat) : List Byte := (List.range n).map fun i => m.read (a + i)

/-- Set the bytes from address `a` up. -/
def Memory.writeBytes : Memory → Nat → List Byte → Memory
  | m, _, [] => m
  | m, a, v :: vs => Memory.writeBytes (m.write a v) (a + 1) vs

/-- Program the bytes from address `a` up: a byte that reads erased takes its value, any other keeps the value it was programmed
to (R1). -/
def Memory.programBytes : Memory → Nat → List Byte → Memory
  | m, _, [] => m
  | m, a, v :: vs => Memory.programBytes (if m.read a = Memory.erased then m.write a v else m) (a + 1) vs

/-- Set the `n` bytes from address `a` up to the erased byte. -/
def Memory.eraseRange (m : Memory) (a n : Nat) : Memory := m.filter fun c => decide (c.1 < a ∨ a + n ≤ c.1)

/-- Set the bytes at the addresses of a list, one value each; addresses without a value keep theirs. -/
def Memory.overlay : Memory → List Nat → List Byte → Memory
  | m, a :: as, v :: vs => Memory.overlay (m.write a v) as vs
  | m, _, _ => m

/-- Address of byte `offset` of the data area of a block (R1, log entry 7). -/
def dataAddr (b : BlockId) (offset : Nat) : Nat := Config.blockBytes * b.val + offset

/-- Address of byte `j` of the spare area of a block (R1, log entry 7). -/
def spareAddr (b : BlockId) (j : Nat) : Nat := Config.blockBytes * b.val + Config.pageBytes + j

/-- The 64 spare bytes of a block. -/
def Memory.spare (m : Memory) (b : BlockId) : List Byte := m.readBytes (spareAddr b 0) 64

/-- The 256 bytes of line `k` of a block (R1). -/
def Memory.line (m : Memory) (b : BlockId) (k : Nat) : List Byte :=
  m.readBytes (dataAddr b (Config.lineBytes * k)) Config.lineBytes

/-! ### Page buffers (R39) -/

/-- The staged value at an offset, if one is staged (R39). -/
def Buffer.staged (b : Buffer) (offset : Nat) : Option Byte := cellGet b offset

/-- Stage bytes from an offset up; a value already staged there is replaced (R44). -/
def Buffer.stageBytes : Buffer → Nat → List Byte → Buffer
  | b, _, [] => b
  | b, offset, v :: vs => Buffer.stageBytes (cellPut b offset v) (offset + 1) vs

/-! ### Ordered lists of blocks -/

/-- Put a block into an ascending list without repeats. -/
def insertBlock (b : BlockId) : List BlockId → List BlockId
  | [] => [b]
  | c :: rest =>
    if b.val < c.val then b :: c :: rest
    else if b = c then c :: rest
    else c :: insertBlock b rest

/-- The list without a block; the rest keeps its order. -/
def removeBlock (b : BlockId) (l : List BlockId) : List BlockId := l.filter fun c => c != b

/-- Every block index, ascending. -/
def allBlocks : List BlockId := List.finRange 512

/-! ### Access to the tables -/

/-- The record of a block, if the block is placed. -/
def BlockManager.block (bm : BlockManager) (b : BlockId) : Option BlockRec := bm.table[b.val]

/-- The erase count of a block's record; 0 where unknown (R8). -/
def BlockManager.eraseCount (bm : BlockManager) (b : BlockId) : Nat := ((bm.block b).map (·.eraseCount)).getD 0

/-- The pin count of a block (R18). -/
def BlockManager.pins (bm : BlockManager) (b : BlockId) : Nat := ((bm.block b).map (·.pins)).getD 0

/-- Change the record of a placed block. -/
def BlockManager.modify (bm : BlockManager) (b : BlockId) (f : BlockRec → BlockRec) : BlockManager :=
  { bm with table := bm.table.set b.val ((bm.table[b.val]).map f) }

/-- Place the record of a block. -/
def BlockManager.place (bm : BlockManager) (b : BlockId) (r : BlockRec) : BlockManager :=
  { bm with table := bm.table.set b.val (some r) }

/-- Give a block a class; its erase count and pin count are kept (R8). -/
def BlockManager.setClass (bm : BlockManager) (b : BlockId) (c : BlockClass) : BlockManager :=
  bm.modify b fun r => { r with cls := c }

/-- The Page Map entry of a page (R22). -/
def MapUnit.entry (m : MapUnit) (p : PageId) : Option MapEntry := m.pages[p.val]

/-- The current block of a page, or `none` when it is unmapped. -/
def MapUnit.currentBlock (m : MapUnit) (p : PageId) : Option BlockId := (m.entry p).map (·.block)

/-- The record of a session slot (R35). -/
def SessionUnit.session (u : SessionUnit) (i : SessionId) : Session := u.table[i.val]

/-- Replace the record of a session slot. -/
def SessionUnit.setSession (u : SessionUnit) (i : SessionId) (r : Session) : SessionUnit :=
  { u with table := u.table.set i.val r }

/-- The session that claims a page, if any (R38). -/
def SessionUnit.claim (u : SessionUnit) (p : PageId) : Option SessionId := u.claims[p.val]

/-- The Port Interface of a port. -/
def State.port (s : State) (p : PortId) : Port := s.ports[p.val]

/-- Replace the Port Interface state of a port. -/
def State.setPort (s : State) (p : PortId) (r : Port) : State := { s with ports := s.ports.set p.val r }

/-- The Notice Unit's state for a port. -/
def State.notice (s : State) (p : PortId) : NoticePort := s.notices[p.val]

/-- Replace the Notice Unit's state for a port. -/
def State.setNotice (s : State) (p : PortId) (r : NoticePort) : State :=
  { s with notices := s.notices.set p.val r }

/-- Replace the engine's state, sub-step and record. -/
def State.setWork (s : State) (w : Work) : State := { s with eng := { s.eng with work := w } }

/-- The part takes events: it is supplied and RESET_n is high. -/
def State.running (s : State) : Bool := s.power.supplied && !s.power.resetLow

end Sys2Proof.Machine
end

