-- ==== Sys2Proof/Machine/Formats.lean ====
section
/-! DEFINITION. The byte images of the Formats chapter: CRC-16 (R183), spare-area fields (R184), windows line (R185),
status codes and reply fields (R186 to R188). -/

namespace Sys2Proof.Machine

/-! ### CRC-16 (R183) -/

/-- One bit: compare with the most significant bit, shift left, exclusive-OR 0x1021 if they differ. -/
def crcBit (r : BitVec 16) (b : Bool) : BitVec 16 :=
  if b != r.msb then (r <<< 1) ^^^ 0x1021 else r <<< 1

/-- The bits of a byte from the most to the least significant. -/
def byteBits (b : Byte) : List Bool := [7, 6, 5, 4, 3, 2, 1, 0].map b.getLsbD

/-- The byte that eight bits make, the most significant first (R163). -/
def byteOfBits (bits : List Bool) : Byte := BitVec.ofNat 8 (bits.foldl (fun n b => 2 * n + b.toNat) 0)

/-- The CRC-16 of a sequence of bytes. -/
def crc16 (bs : List Byte) : BitVec 16 := (bs.flatMap byteBits).foldl crcBit 0xFFFF

/-- The two stored CRC bytes, the high byte first. -/
def crcBytes (bs : List Byte) : List Byte := halfBytes (crc16 bs)

/-! ### Slices of a byte list -/

/-- Bytes `first` to `first + n - 1`. -/
def slice (bs : List Byte) (first n : Nat) : List Byte := (bs.drop first).take n

/-- One byte of a list; the erased byte past its end. -/
def byteAt (bs : List Byte) (i : Nat) : Byte := bs.getD i Memory.erased

/-- Every byte of a slice reads 0xFF. -/
def allErased (bs : List Byte) : Bool := bs.all fun b => b == Memory.erased

/-! ### The free stamp (R4, R184) -/

/-- The six bytes of the free stamp program for an erase count. -/
def freeStampBytes (count : Nat) : List Byte :=
  let head := 0xA5 :: natBytes3 count
  head ++ crcBytes head

/-- The erase count of a spare area whose free stamp is valid (R4). -/
def freeStampCount (spare : List Byte) : Option Nat :=
  if byteAt spare 0 = 0xA5 ∧ slice spare 4 2 = crcBytes (slice spare 0 4) then some (natOfBytes (slice spare 1 3))
  else none

/-! ### The data stamp (R6, R184) -/

/-- The fields of a valid data stamp. -/
structure DataStamp where
  count : Nat
  index : Nat
  pages : List PageId
  serial : Nat
  writer : PortId
  deriving DecidableEq, Repr

/-- The page list of a data stamp: two bytes each, entries beyond the member count 0xFFFF. -/
def pageListBytes (pages : List PageId) : List Byte :=
  (List.range 4).flatMap fun i =>
    match pages[i]? with
    | some p => natBytes2 p.val
    | none => [0xFF, 0xFF]

/-- The eighteen bytes of the data stamp program (R75, R184). -/
def dataStampBytes (st : DataStamp) : List Byte :=
  let head := 0x5A :: BitVec.ofNat 8 st.count :: BitVec.ofNat 8 st.index :: (pageListBytes st.pages
    ++ natBytes4 st.serial ++ [BitVec.ofNat 8 st.writer.val])
  head ++ crcBytes head

/-- Entry `i` of the page list of a spare area, as a number. -/
def stampPage (spare : List Byte) (i : Nat) : Nat := natOfBytes (slice spare (11 + 2 * i) 2)

/-- The first `n` entries of the page list, where each is a page number. -/
def stampPages (spare : List Byte) (n : Nat) : Option (List PageId) :=
  (List.range n).mapM fun i => if h : stampPage spare i < 464 then some ⟨stampPage spare i, h⟩ else none

/-- The data stamp of a spare area, if it is valid (R6, R184). -/
def dataStamp (spare : List Byte) : Option DataStamp :=
  let n := (byteAt spare 9).toNat
  let index := (byteAt spare 10).toNat
  let serial := natOfBytes (slice spare 19 4)
  let writer := (byteAt spare 23).toNat
  if byteAt spare 8 = 0x5A ∧ slice spare 24 2 = crcBytes (slice spare 8 16) ∧ 1 ≤ n ∧ n ≤ 4 ∧ index < n
      ∧ (∀ i ∈ List.range 4, n ≤ i → stampPage spare i = 0xFFFF) ∧ 1 ≤ serial ∧ serial ≤ Config.lastSerial then
    match stampPages spare n with
    | some pages =>
      if h : writer < 4 then
        if pages.Nodup then some { count := n, index := index, pages := pages, serial := serial, writer := ⟨writer, h⟩ }
        else none
      else none
    | none => none
  else none

/-! ### The other spare-area tests (R5, R7, R184) -/

/-- A byte of the discard word or the begun mark counts as programmed when it reads other than 0xFF (R5, R7). -/
def programmed (b : Byte) : Bool := b != Memory.erased

/-- Discard byte 0 (VOID) is programmed. -/
def voidProgrammed (spare : List Byte) : Bool := programmed (byteAt spare 32)

/-- Discard byte 1 (RETIRED) is programmed. -/
def retireProgrammed (spare : List Byte) : Bool := programmed (byteAt spare 33)

/-- The data slot, bytes 8 to 31, is all 0xFF. -/
def slotErased (spare : List Byte) : Bool := allErased (slice spare 8 24)

/-- The discard word, bytes 32 to 35, is all 0xFF. -/
def discardErased (spare : List Byte) : Bool := allErased (slice spare 32 4)

/-- Rows of Table 26 (R114). -/
inductive ScanRow where
  | retired (eraseCount : Nat)
  | voided (eraseCount : Nat)
  | unknownErase
  | free (eraseCount : Nat)
  | candidate (stamp : DataStamp)
  | torn (eraseCount : Nat)
  deriving DecidableEq, Repr

/-- The first row of Table 26 that matches a spare area. -/
def classify (spare : List Byte) : ScanRow :=
  let count := freeStampCount spare
  if retireProgrammed spare then .retired (count.getD 0)
  else if voidProgrammed spare then .voided (count.getD 0)
  else
    match count with
    | none => .unknownErase
    | some c =>
      if slotErased spare && discardErased spare then .free c
      else
        match dataStamp spare with
        | some st => .candidate st
        | none => .torn c

/-! ### The windows line (R130, R185) -/

/-- What the Protection Unit finds a line to be (R130). -/
inductive LineJudgement where
  | empty
  | malformed
  | wellFormed (records : List Window)
  deriving DecidableEq, Repr

/-- Record `w` of a windows line (Table 51). -/
def windowRecord (line : List Byte) (w : Nat) : Window :=
  { valid := byteAt line (2 + 8 * w) == 0x01
    first := natOfBytes (slice line (3 + 8 * w) 2)
    last := natOfBytes (slice line (5 + 8 * w) 2)
    readSet := byteAt line (7 + 8 * w)
    writeSet := byteAt line (8 + 8 * w) }

/-- The tests of R130 on record `w`: valid flag, pad, and the page range of a valid record. -/
def windowRecordOk (line : List Byte) (w : Nat) : Bool :=
  let flag := byteAt line (2 + 8 * w)
  let r := windowRecord line w
  (flag == 0x00 || flag == 0x01) && byteAt line (9 + 8 * w) == 0x00
    && (!r.valid || (decide (r.first ≤ r.last) && decide (r.last ≤ 463)))

/-- The judgement of a line of 256 bytes (R130). -/
def judgeLine (line : List Byte) : LineJudgement :=
  if allErased line then .empty
  else if slice line 0 2 = [0xD6, 0x47] ∧ slice line 66 2 = crcBytes (slice line 0 66)
      ∧ (List.range 8).all (windowRecordOk line) then .wellFormed ((List.range 8).map (windowRecord line))
  else .malformed

/-! ### Status codes and reply fields (R186, R187) -/

/-- Statuses (Table 53). -/
inductive Status where
  | ok
  | notReady
  | badRequest
  | denied
  | pageBusy
  | noSession
  | noBuffer
  | badState
  | notOwner
  | frozen
  | badTable
  | tooLate
  | empty
  | unknown
  deriving DecidableEq, Repr

/-- The status byte (Table 53). -/
def statusByte : Status → Byte
  | .ok => 0x00
  | .notReady => 0x01
  | .badRequest => 0x02
  | .denied => 0x03
  | .pageBusy => 0x04
  | .noSession => 0x05
  | .noBuffer => 0x06
  | .badState => 0x08
  | .notOwner => 0x09
  | .frozen => 0x0A
  | .badTable => 0x0B
  | .tooLate => 0x0C
  | .empty => 0x0D
  | .unknown => 0x0E

/-- A flag as a byte. -/
def flagByte (b : Bool) : Byte := if b then 0x01 else 0x00

/-- A small number as a byte. -/
def natByte (n : Nat) : Byte := BitVec.ofNat 8 n

/-- Outcome codes (Table 54). -/
def outcomeByte : SessionOutcome → Byte
  | .done _ => 0x01
  | .abandoned => 0x02
  | .expired => 0x03
  | .revoked => 0x04
  | .failed _ => 0x05

/-- The result record of COLLECT (Table 14, Table 54). -/
def resultRecord (i : SessionId) (o : SessionOutcome) : List Byte :=
  let serial : Nat := match o with | .done n => n | _ => 0
  let reason : Byte := match o with
    | .failed .noSpace => 0x01
    | .failed (.verify _) => 0x02
    | .failed .serialEnd => 0x03
    | _ => 0x00
  let member : Byte := match o with | .failed (.verify m) => natByte m | _ => 0xFF
  natByte i.val :: outcomeByte o :: (natBytes4 serial ++ [reason, member])

/-- The notice record of NOTICE_FETCH with the number of entries left (Table 54). -/
def noticeRecord (n : Notice) (left : Nat) : List Byte :=
  let kind : Byte := match n.kind with | .pageChanged _ => 0x01 | .tableChanged => 0x02
  let page : List Byte := match n.kind with | .pageChanged p => natBytes2 p.val | .tableChanged => [0xFF, 0xFF]
  kind :: (page ++ natBytes4 n.serial ++ [natByte n.writer.val, natByte left])

/-- The OVERRUN record of NOTICE_FETCH (R150, R156). -/
def overrunRecord : List Byte := [0x03, 0xFF, 0xFF, 0x00, 0x00, 0x00, 0x00, 0xFF, 0x00]

/-- State codes of a STATUS session entry; 0xFF for FREE, which is never listed (R188). -/
def sessionStateByte : SessionState → Byte
  | .free => 0xFF
  | .opened => 0x01
  | .queued => 0x02
  | .programming => 0x03
  | .unwinding => 0x04
  | .finished => 0x05

end Sys2Proof.Machine
end

