-- ==== Sys2Proof/Machine/Flags.lean ====
section
/-! DEFINITION. The condition flags that are computed from other state: LOW_SPACE (R102), the three conditions of ALERT_n
(R158), and the flags byte of STATUS (R188). -/

namespace Sys2Proof.Machine

/-- LOW_SPACE is set when the free count plus the dirty count is less than 4 (R102). -/
def lowSpaceOf (free dirty : Nat) : Bool := decide (free + dirty < Config.reserve)

/-- Recompute LOW_SPACE from the free and the dirty count (R102). -/
def BlockManager.refresh (bm : BlockManager) : BlockManager :=
  { bm with lowSpace := lowSpaceOf bm.freePool.length bm.dirtyList.length }

/-- The port owns at least one FINISHED session (R59). -/
def SessionUnit.ownsFinished (u : SessionUnit) (p : PortId) : Bool :=
  (List.finRange 8).any fun i => (u.session i).owner == some p && (u.session i).state == .finished

/-- The three conditions of ALERT_n of a port as its owners see them (R158). -/
def State.alertConds (s : State) (p : PortId) : AlertConds :=
  { finishedSession := s.ses.ownsFinished p
    noticeQueued := !(s.notice p).queue.isEmpty
    overrun := (s.notice p).overrun }

/-- The owners hand their conditions to the Port Interface of every port (R158). -/
def State.refreshAlerts (s : State) : State :=
  { s with ports := Vector.ofFn fun p => { s.port p with alert := s.alertConds p } }

/-- ALERT_n of a port is asserted, that is driven low (R158). -/
def State.alertAsserted (s : State) (p : PortId) : Bool :=
  let a := (s.port p).alert
  a.finishedSession || a.noticeQueued || a.overrun

/-- SERIAL_END is set when the next serial is greater than 0xFFFFFF00 (R24, R27). -/
def serialEndOf (next : Nat) : Bool := decide (Config.lastSerial < next)

/-- The flags byte of STATUS (Table 55). -/
def statusFlags (t : TablesGroup) (markFault : Bool) (w : ProtectionGroup) : Byte :=
  natByte ((if t.lowSpace then 1 else 0) + (if t.serialEnd then 2 else 0) + (if markFault then 4 else 0)
    + (if w.tableFault then 8 else 0) + (if w.frozen then 16 else 0))

end Sys2Proof.Machine
end

