-- ==== Sys2Proof/Machine/Blocks.lean ====
section
/-! DEFINITION. The operations of the Block Manager: allocation, moves between classes, erase hand-offs and pins
(R10 to R18, R94). Each one that changes a count recomputes LOW_SPACE (R102). -/

namespace Sys2Proof.Machine

/-- Order of the Free Pool: erase count, then block index (R15). -/
def BlockManager.poolBefore (bm : BlockManager) (a b : BlockId) : Bool :=
  bm.eraseCount a < bm.eraseCount b || (bm.eraseCount a == bm.eraseCount b && a.val < b.val)

/-- Insert a block into a pool at its place in the order (R15). -/
def BlockManager.insertByOrder (bm : BlockManager) (b : BlockId) : List BlockId → List BlockId
  | [] => [b]
  | c :: rest => if bm.poolBefore b c then b :: c :: rest else c :: bm.insertByOrder b rest

/-- Allocation for a session: the first block of the Free Pool becomes TARGET; `none` when the pool is empty (R10). -/
def BlockManager.allocate (bm : BlockManager) (i : SessionId) : Option (BlockId × BlockManager) :=
  match bm.freePool with
  | [] => none
  | b :: rest => some (b, ({ bm with freePool := rest }.setClass b (.target i)).refresh)

/-- The block becomes DIRTY at the tail of the Dirty List (R11, R12, R16). -/
def BlockManager.toDirty (bm : BlockManager) (b : BlockId) : BlockManager :=
  ({ bm with dirtyList := bm.dirtyList ++ [b] }.setClass b .dirty).refresh

/-- The block becomes RETIRED and joins the Retired Set; a DIRTY block leaves the Dirty List (R13). -/
def BlockManager.retire (bm : BlockManager) (b : BlockId) : BlockManager :=
  ({ bm with dirtyList := removeBlock b bm.dirtyList, retiredSet := insertBlock b bm.retiredSet }.setClass b
    .retired).refresh

/-- The block leaves the Dirty List and becomes ERASING (R14). -/
def BlockManager.eraseStart (bm : BlockManager) (b : BlockId) : BlockManager :=
  ({ bm with dirtyList := removeBlock b bm.dirtyList }.setClass b .erasing).refresh

/-- The erased block becomes FREE with its new erase count and enters the Free Pool (R14, R98). -/
def BlockManager.eraseDone (bm : BlockManager) (b : BlockId) (count : Nat) : BlockManager :=
  let bm' := bm.modify b fun r => { r with cls := .free, eraseCount := count }
  { bm' with freePool := bm'.insertByOrder b bm'.freePool }.refresh

/-- The erase count of the free stamp that follows an erase (R17, R97). -/
def nextEraseCount (count : Nat) : Nat := min (count + 1) Config.lastEraseCount

/-- The oldest dirty block whose pin count is 0 (R94). -/
def BlockManager.oldestUnpinned (bm : BlockManager) : Option BlockId := bm.dirtyList.find? fun b => bm.pins b == 0

/-- One member of a flip: its target becomes DATA, and the block it supersedes, if any, becomes DIRTY (R11). -/
def BlockManager.flipMember (bm : BlockManager) (target : BlockId) (info : DataInfo) (previous : Option BlockId) :
    BlockManager :=
  let bm' := bm.setClass target (.data info)
  match previous with
  | some b => bm'.toDirty b
  | none => bm'

/-- A pin (R18). -/
def BlockManager.pin (bm : BlockManager) (b : BlockId) : BlockManager := bm.modify b fun r => { r with pins := r.pins + 1 }

/-- An unpin (R18). -/
def BlockManager.unpin (bm : BlockManager) (b : BlockId) : BlockManager := bm.modify b fun r => { r with pins := r.pins - 1 }

/-- The pin that a translation takes: none for an unmapped page (R30). -/
def BlockManager.pinPage (bm : BlockManager) (block : Option BlockId) : BlockManager :=
  match block with
  | some b => bm.pin b
  | none => bm

/-- Release the pin of a page that a stream leaves: a stream on an unmapped page has none (R32). -/
def BlockManager.unpinPage (bm : BlockManager) (block : Option BlockId) : BlockManager :=
  match block with
  | some b => bm.unpin b
  | none => bm

/-- The block that a port's stream, if any, has pinned (R173). -/
def streamPin (stream : Option Stream) : Option BlockId := stream.bind fun st => st.pinned

/-- Translation of a page for a read stream: the current block is pinned. The stream records that block, or none for an
unmapped page (R30). -/
def State.translate (s : State) (p : PageId) : State := { s with bm := s.bm.pinPage (s.map.currentBlock p) }

end Sys2Proof.Machine
end

