-- ==== Sys2Proof/Machine/Windows.lean ====
section
/-! DEFINITION. The permission rule of the Protection Unit (R132) and the content of a windows line. -/

namespace Sys2Proof.Machine

/-- The window covers the page (R129). -/
def Window.covers (w : Window) (page : Nat) : Bool := w.valid && decide (w.first ≤ page) && decide (page ≤ w.last)

/-- The records of a table; the empty table has none. -/
def WindowsTable.records : WindowsTable → List Window
  | .empty => []
  | .windows ws => ws

/-- The window that decides a page: the first that covers it (R132). -/
def WindowsTable.deciding (t : WindowsTable) (page : Nat) : Option Window := t.records.find? fun w => w.covers page

/-- Read permission of a port on a page (R132). -/
def WindowsTable.canRead (t : WindowsTable) (p : PortId) (page : Nat) : Bool :=
  match t.deciding page with
  | some w => w.readSet.getLsbD p.val
  | none => true

/-- Write permission of a port on a page (R132). -/
def WindowsTable.canWrite (t : WindowsTable) (p : PortId) (page : Nat) : Bool :=
  match t.deciding page with
  | some w => w.writeSet.getLsbD p.val
  | none => true

/-- Read permission on every page from `first` to `last` (R132). -/
def WindowsTable.canReadRange (t : WindowsTable) (p : PortId) (first last : Nat) : Bool :=
  (List.range (last + 1 - first)).all fun i => t.canRead p (first + i)

/-- Write permission on every page of a list (R132). -/
def WindowsTable.canWriteAll (t : WindowsTable) (p : PortId) (pages : List PageId) : Bool :=
  pages.all fun q => t.canWrite p q.val

/-- The table a line puts in force, with TABLE_FAULT: a malformed line gives the empty table and sets it (R131). -/
def tableOfLine (line : List Byte) : WindowsTable × Bool :=
  match judgeLine line with
  | .empty => (.empty, false)
  | .wellFormed ws => (.windows ws, false)
  | .malformed => (.empty, true)

/-- One line of the current version of a page, 0xFF where the page is unmapped (R22, R122). -/
def State.currentLine (s : State) (p : PageId) (k : Nat) : List Byte :=
  match s.map.currentBlock p with
  | some b => s.flash.line b k
  | none => List.replicate Config.lineBytes Memory.erased

end Sys2Proof.Machine
end

