-- ==== Sys2Proof/Machine/Sessions.lean ====
section
/-! DEFINITION. The operations of the Session Unit: claims, buffers, the merge, and the ways a session ends (R37 to R39,
R45, R50, R57, R60 to R62). -/

namespace Sys2Proof.Machine

/-- The session holds claims and buffers in this state (R36). -/
def SessionState.holds : SessionState → Bool
  | .opened | .queued | .programming | .unwinding => true
  | .free | .finished => false

/-- The session is attached to a port (R37). -/
def SessionUnit.attachedTo (u : SessionUnit) (p : PortId) (i : SessionId) : Bool :=
  (u.session i).state != .free && (u.session i).owner == some p

/-- The sessions attached to a port, in ascending session id (R37, R59). -/
def SessionUnit.attached (u : SessionUnit) (p : PortId) : List SessionId := (List.finRange 8).filter (u.attachedTo p)

/-- The lowest-numbered FREE slot (R37). -/
def SessionUnit.lowestFree (u : SessionUnit) : Option SessionId :=
  (List.finRange 8).find? fun i => (u.session i).state == .free

/-- Page buffers in use: one for each member of a session that holds buffers (R39). -/
def SessionUnit.buffersInUse (u : SessionUnit) : Nat :=
  ((List.finRange 8).map fun i => (u.session i).buffers.length).sum

/-- The free buffer count (R39). -/
def SessionUnit.freeBuffers (u : SessionUnit) : Nat := Config.bufferCount - u.buffersInUse

/-- Claim pages for a session (R38). -/
def SessionUnit.claimPages (u : SessionUnit) (i : SessionId) (pages : List PageId) : SessionUnit :=
  { u with claims := pages.foldl (fun c p => c.set p.val (some i)) u.claims }

/-- Release all claims of a session together (R38). -/
def SessionUnit.releaseClaims (u : SessionUnit) (i : SessionId) : SessionUnit :=
  { u with claims := u.claims.map fun c => if c = some i then none else c }

/-- The session becomes FINISHED: claims released, buffers freed, timer stopped (R57). -/
def SessionUnit.finish (u : SessionUnit) (i : SessionId) (o : SessionOutcome) : SessionUnit :=
  (u.setSession i { u.session i with state := .finished, buffers := [], lease := none, boundaryPassed := false,
                                     outcome := some o }).releaseClaims i

/-- The slot becomes FREE: every field removed, claims released (R35, R38). -/
def SessionUnit.release (u : SessionUnit) (i : SessionId) : SessionUnit :=
  (u.setSession i Session.freeSlot).releaseClaims i

/-- The end of an engine-held session: FINISHED when it has an owner, FREE when it is detached (R50, R61). -/
def SessionUnit.endSession (u : SessionUnit) (i : SessionId) (o : SessionOutcome) : SessionUnit :=
  if (u.session i).owner.isSome then u.finish i o else u.release i

/-- The effect of PRST_n of port `p` on one session (Table 15). -/
def SessionUnit.portResetSession (p : PortId) (u : SessionUnit) (i : SessionId) : SessionUnit :=
  if (u.session i).owner = some p then
    match (u.session i).state with
    | .opened | .queued | .finished => u.release i
    | .programming | .unwinding => u.setSession i { u.session i with owner := none }
    | .free => u
  else u

/-- The port reset at the Session Unit (R60). -/
def SessionUnit.portReset (u : SessionUnit) (p : PortId) : SessionUnit :=
  (List.finRange 8).foldl (SessionUnit.portResetSession p) u

/-- The session is revoked under a table: it is OPEN or QUEUED and its owner lacks write permission on a member page
(R62). -/
def SessionUnit.denied (u : SessionUnit) (t : WindowsTable) (i : SessionId) : Bool :=
  let r := u.session i
  (r.state == .opened || r.state == .queued) &&
    match r.owner with
    | some q => !t.canWriteAll q r.members
    | none => false

/-- Revocation of one session, where the table denies it (R62). -/
def SessionUnit.revokeSession (t : WindowsTable) (u : SessionUnit) (i : SessionId) : SessionUnit :=
  if u.denied t i then u.finish i .revoked else u

/-- Revocation of every session the table denies (R62). -/
def SessionUnit.revoke (u : SessionUnit) (t : WindowsTable) : SessionUnit :=
  (List.finRange 8).foldl (SessionUnit.revokeSession t) u

/-- A session leaves its list in the engine queue, wherever it stands (R66). -/
def Engine.dequeue (e : Engine) (i : SessionId) : Engine :=
  { e with queue := e.queue.map fun l => l.filter fun j => j != i }

/-- A start hand-off after the withdrawal of the sessions that a test names: the session it names has left QUEUED (R48). -/
def StartHandoff.without (h : StartHandoff) (left : Bool) : StartHandoff := { h with live := h.live && !left }

/-- A session is withdrawn from the engine: out of its list, and a hand-off that names it will be refused (R48, R66, R71). -/
def Engine.withdraw (e : Engine) (i : SessionId) : Engine :=
  { e.dequeue i with start := e.start.map fun h => h.without (h.session == i) }

/-- The buffer of a member (R39). -/
def Session.buffer (r : Session) (m : Nat) : Buffer := r.buffers.getD m []

/-- Line `k` of merged content: the staged byte, else the base block's byte, else 0xFF (R45). -/
def mergedLine (flash : Memory) (buffer : Buffer) (base : Option BlockId) (k : Nat) : List Byte :=
  (List.range Config.lineBytes).map fun j =>
    match buffer.staged (Config.lineBytes * k + j) with
    | some v => v
    | none =>
      match base with
      | some b => flash.read (dataAddr b (Config.lineBytes * k + j))
      | none => Memory.erased

/-- Merged line 0 of page 463 of a session, as COMMIT hands it to the Protection Unit (R47). -/
def State.mergedWindowsLine (s : State) (i : SessionId) : List Byte :=
  let r := s.ses.session i
  mergedLine s.flash (r.buffer (r.members.idxOf Config.windowsPage)) (s.map.currentBlock Config.windowsPage) 0

/-- The session unit takes the engine's failure: a PROGRAMMING session becomes UNWINDING with outcome FAILED; any other
is not changed (R49). -/
def SessionUnit.takeFailure (u : SessionUnit) (i : SessionId) (reason : FailReason) : SessionUnit :=
  if (u.session i).state = .programming then
    u.setSession i { u.session i with state := .unwinding, outcome := some (.failed reason) }
  else u

/-- The Session Unit takes the failure that the engine has handed it, if one stands (R49). -/
def SessionUnit.takePending (u : SessionUnit) : SessionUnit :=
  match u.failure with
  | some f => { u.takeFailure f.session f.reason with failure := none }
  | none => u

/-- A session ends before its commit starts, by an event that the Session Unit takes: FINISHED, withdrawn from the engine
queue, ALERT_n updated (R57, R59, R66). -/
def State.finishSession (s : State) (i : SessionId) (o : SessionOutcome) : State :=
  { s with ses := s.ses.finish i o, eng := s.eng.withdraw i }.refreshAlerts

end Sys2Proof.Machine
end

