-- ==== Sys2Proof/Machine/Notices.lean ====
section
/-! DEFINITION. The notice queues: entry of an offer (R153), the offers of a flip (R151) and of a reload (R152). -/

namespace Sys2Proof.Machine

/-- The page is watched by the port: some slot's range contains it (R147). -/
def NoticePort.watchesPage (n : NoticePort) (page : PageId) : Bool :=
  n.watches.toList.any fun w =>
    match w with
    | some r => decide (r.first ≤ page.val) && decide (page.val ≤ r.last)
    | none => false

/-- Replace the serial and the writer port of the entries of the offer's kind; positions are kept (R153). -/
def coalesce (offer : Notice) (queue : List Notice) : List Notice :=
  queue.map fun e => if e.kind = offer.kind then offer else e

/-- Entry of an offered notice: coalesce, append or drop (Table 38). -/
def NoticePort.offer (n : NoticePort) (offer : Notice) : NoticePort :=
  if n.queue.any fun e => e.kind == offer.kind then { n with queue := coalesce offer n.queue }
  else if n.queue.length < Config.noticeSlots then { n with queue := n.queue ++ [offer] }
  else { n with overrun := true }

/-- An offer to one port: a port whose PRST_n is low takes none (R155). -/
def State.offerTo (s : State) (p : PortId) (offer : Notice) : State :=
  if (s.port p).prstLow then s else s.setNotice p ((s.notice p).offer offer)

/-- The port is offered a PAGE_CHANGED for the page (R151). -/
def State.pageOfferDue (s : State) (writer : PortId) (page : PageId) (p : PortId) : Bool :=
  p != writer && (s.notice p).watchesPage page && s.prot.table.canRead p page.val

/-- The offers of one member page to all ports (R151). -/
def State.offerPage (serial : Nat) (writer : PortId) (s : State) (page : PageId) : State :=
  (List.finRange 4).foldl
    (fun t p => if t.pageOfferDue writer page p then t.offerTo p ⟨.pageChanged page, serial, writer⟩ else t) s

/-- The offers of a flip, in member order (R151). -/
def State.offerFlip (s : State) (serial : Nat) (writer : PortId) (pages : List PageId) : State :=
  pages.foldl (State.offerPage serial writer) s

/-- The TABLE_CHANGED offers of a reload: to every port other than the writer port (R152). -/
def State.offerTable (s : State) (serial : Nat) (writer : PortId) : State :=
  (List.finRange 4).foldl
    (fun t p => if p = writer then t else t.offerTo p ⟨.tableChanged, serial, writer⟩) s

end Sys2Proof.Machine
end

