-- ==== Sys2Proof/Machine/EngineOps.lean ====
section
/-! DEFINITION. The shared operations of the Array Engine: flash operations and their read-back (R2, R3, R184), the start
of a commit (R70, R72), a member (R73), retiring (R76, R83, R99), unwinding (R81, R85) and the choice of work (R69). -/

namespace Sys2Proof.Machine

/-! ### Flash operations -/

/-- A flash operation in flight, with the block it acts on (R2). -/
inductive FlashOp where
  | begunMark (block : BlockId)
  | line (block : BlockId) (k : Nat)
  | dataStamp (block : BlockId)
  | void (block : BlockId)
  | retire (block : BlockId)
  | erase (block : BlockId)
  | freeStamp (block : BlockId)
  deriving DecidableEq, Repr

/-- The address of the first byte that the operation acts on (R184). -/
def FlashOp.start : FlashOp → Nat
  | .begunMark b => spareAddr b 31
  | .line b k => dataAddr b (Config.lineBytes * k)
  | .dataStamp b => spareAddr b 8
  | .void b => spareAddr b 32
  | .retire b => spareAddr b 33
  | .erase b => dataAddr b 0
  | .freeStamp b => spareAddr b 0

/-- The block that the operation acts on. -/
def FlashOp.block : FlashOp → BlockId
  | .begunMark b | .line b _ | .dataStamp b | .void b | .retire b | .erase b | .freeStamp b => b

/-- The number of bytes that the operation acts on (R2, R184). -/
def FlashOp.size : FlashOp → Nat
  | .begunMark _ | .void _ | .retire _ => 1
  | .line _ _ => 256
  | .dataStamp _ => 18
  | .erase _ => 4160
  | .freeStamp _ => 6

/-- The target of the current member of a commit. -/
def CommitRec.currentTarget (r : CommitRec) : Option BlockId := r.targets.getD r.member none

/-- The commit's last member. -/
def CommitRec.lastMember (r : CommitRec) : Bool := decide (r.pages.length ≤ r.member + 1)

/-- The flash operation in flight in an engine state (Table 17). -/
def Work.inFlight : Work → Option FlashOp
  | .idle => none
  | .commit r step =>
    match step with
    | .begunMark => r.currentTarget.map .begunMark
    | .line k => r.currentTarget.map fun b => .line b k
    | .dataStamp => r.currentTarget.map .dataStamp
    | .retire _ => r.currentTarget.map .retire
    | .boundary | .flipRequested | .flipTaken => none
  | .unwind _ step =>
    match step with
    | .void b _ => some (.void b)
    | .retire b _ => some (.retire b)
  | .erase b step =>
    match step with
    | .erase => some (.erase b)
    | .freeStamp => some (.freeStamp b)
    | .retire _ => some (.retire b)
  | .mountVoid b _ step =>
    match step with
    | .void _ => some (.void b)
    | .retire _ => some (.retire b)

/-- The bytes that a program operation gives its field (R5, R7, R74, R75, R97). An erase programs none. -/
def State.intendedBytes (s : State) : FlashOp → List Byte
  | .begunMark _ | .void _ | .retire _ => [0x00]
  | .line _ k =>
    match s.eng.work with
    | .commit r _ =>
      mergedLine s.flash ((s.ses.session r.session).buffer r.member) (r.bases.getD r.member none) k
    | _ => []
  | .dataStamp _ =>
    match s.eng.work with
    | .commit r _ =>
      dataStampBytes { count := r.pages.length, index := r.member, pages := r.pages, serial := r.serial, writer := r.writer }
    | _ => []
  | .freeStamp b => freeStampBytes (nextEraseCount (s.bm.eraseCount b))
  | .erase _ => []

/-- The data stamp of a block after an operation left `m`: one that reads valid is whole, the bytes that were being programmed or
those that stood there before. The guide excludes any other valid stamp (R91, R92), and a command that spells one leaves
the field as it was (log entry 32). -/
def Memory.wholeDataStamp (old m : Memory) (b : BlockId) (intended : List Byte) : Memory :=
  if (dataStamp (m.spare b)).isSome = true ∧ m.readBytes (spareAddr b 8) 18 ≠ intended then
    m.writeBytes (spareAddr b 8) (old.readBytes (spareAddr b 8) 18)
  else m

/-- The same of the free stamp (R109; log entry 32). -/
def Memory.wholeFreeStamp (old m : Memory) (b : BlockId) (intended : List Byte) : Memory :=
  if (freeStampCount (m.spare b)).isSome = true ∧ m.readBytes (spareAddr b 0) 6 ≠ intended then
    m.writeBytes (spareAddr b 0) (old.readBytes (spareAddr b 0) 6)
  else m

/-- The discard word of a block that was voided or retired, after an erase left `m`: it stays as it was for as long as the data
stamp reads valid. The guide excludes that such a block comes back as a member of its group (R3, note; R92), and a command that
spells it leaves the discard word as it was (log entry 32). -/
def Memory.keptDiscard (old m : Memory) (b : BlockId) : Memory :=
  if (dataStamp (m.spare b)).isSome = true ∧ (retireProgrammed (old.spare b) || voidProgrammed (old.spare b)) = true then
    m.writeBytes (spareAddr b 32) (old.readBytes (spareAddr b 32) 4)
  else m

/-- The array after an operation that left `m`, with the stamps that it acts on whole, and the discard word of an erased block
behind them (R91, R92, R109). An erase programs no stamp. -/
def State.settle (s : State) (op : FlashOp) (m : Memory) : Memory :=
  match op with
  | .dataStamp b => s.flash.wholeDataStamp m b (s.intendedBytes op)
  | .freeStamp b => s.flash.wholeFreeStamp m b (s.intendedBytes op)
  | .erase b => s.flash.wholeDataStamp (s.flash.wholeFreeStamp (s.flash.keptDiscard m b) b []) b []
  | .begunMark _ | .line _ _ | .void _ | .retire _ => m

/-- The array after an operation ran to its completion (R2). A program turns erased bytes only (R1). -/
def State.flashAfter (s : State) (op : FlashOp) (w : Written) : Memory :=
  s.settle op <|
    match op, w with
    | .erase _, .intended => s.flash.eraseRange op.start op.size
    | .erase _, .left bs => s.flash.writeBytes op.start (bs.take op.size)
    | _, .intended => s.flash.programBytes op.start (s.intendedBytes op)
    | _, .left bs => s.flash.programBytes op.start (bs.take op.size)

/-- The read-back (R2): every byte at its intended value, for a byte of the discard word "programmed" (R7), for an erase
every byte 0xFF (R96). `s` is the state before the operation wrote, `m` the array after it. -/
def State.readBackOk (s : State) (op : FlashOp) (m : Memory) : Bool :=
  match op with
  | .void _ | .retire _ => programmed (m.read op.start)
  | .erase _ => allErased (m.readBytes op.start op.size)
  | _ => m.readBytes op.start op.size == s.intendedBytes op

/-- Completion of the operation in flight: the array as `w` says, and the engine's next act by the read-back. Without an
operation in flight nothing changes. -/
def State.completeOp (s : State) (w : Written) (next : Bool → State → State) : State :=
  match s.eng.work.inFlight with
  | some op => next (s.readBackOk op (s.flashAfter op w)) { s with flash := s.flashAfter op w }
  | none => s

/-- What a cut leaves of an operation (R3): a program leaves bytes of its field that were erased; an erase leaves the phases of
R3. Bytes 36 to 63 of the spare area may be left by either phase (log entry 5). -/
def Memory.cutOp (m : Memory) (op : FlashOp) (c : Cut) : Memory :=
  match op with
  | .erase b =>
    let outside := (List.range 28).map fun j => spareAddr b (36 + j)
    if c.secondPhase then
      ((m.eraseRange (dataAddr b 0) 4096).eraseRange (spareAddr b 8) 24).overlay
        ((List.range 8).map (fun j => spareAddr b j) ++ (List.range 4).map (fun j => spareAddr b (32 + j)) ++ outside) c.left
    else
      m.overlay ((List.range 4096).map (fun o => dataAddr b o) ++ (List.range 24).map (fun j => spareAddr b (8 + j))
        ++ outside) c.left
  | _ => m.programBytes op.start (c.left.take op.size)

/-- The array after an operation is cut, with its stamps whole (R3, R91). -/
def State.flashCut (s : State) (op : FlashOp) (c : Cut) : Memory := s.settle op (s.flash.cutOp op c)

/-- The operation in flight, if any, is cut (R3). -/
def State.cutFlash (s : State) (c : Cut) : State :=
  match s.eng.work.inFlight with
  | some op => { s with flash := s.flashCut op c }
  | none => s

/-! ### Unwinding (R81 to R85) -/

/-- The record of UNWIND that a commit leaves. -/
def CommitRec.toUnwind (r : CommitRec) : UnwindRec :=
  { session := r.session, serial := r.serial, writer := r.writer, pages := r.pages, targets := r.targets }

/-- The outcome noted when the session entered UNWINDING (R50). -/
def SessionUnit.notedOutcome (u : SessionUnit) (i : SessionId) : SessionOutcome :=
  ((u.session i).outcome).getD .abandoned

/-- The Session Unit takes the end of unwinding: an UNWINDING session ends, and the unwind request is spent (R50; log entry 14). -/
def SessionUnit.takeUnwindEnd (u : SessionUnit) (i : SessionId) : SessionUnit :=
  { if (u.session i).state = .unwinding then u.endSession i (u.notedOutcome i) else u with unwindRequest := none }

/-- The end of unwinding: the session ends and the engine is IDLE, in one event. A failure that the engine handed before and that
still stands is taken before the end, in the order of the two hand-offs (R49, R50, R85; log entry 13). -/
def State.unwindFinish (s : State) (i : SessionId) : State :=
  ({ s with ses := s.ses.takePending.takeUnwindEnd i }.setWork .idle).refreshAlerts

/-- The first target that an UNWIND record holds (R81). -/
def UnwindRec.firstTarget (u : UnwindRec) : Option BlockId := u.targets.findSome? id

/-- Go on to the next target, or to the end of unwinding (R81, R85). -/
def State.unwindNext (s : State) (u : UnwindRec) : State :=
  match u.firstTarget with
  | some b => s.setWork (.unwind u (.void b 0))
  | none => s.unwindFinish u.session

/-- Pass from COMMIT to UNWIND (R80, R81). -/
def State.startUnwind (s : State) (r : CommitRec) : State := s.unwindNext r.toUnwind

/-- The record without a block that is voided or retired. -/
def dropTarget (b : BlockId) (targets : List (Option BlockId)) : List (Option BlockId) :=
  targets.map fun t => if t = some b then none else t

/-- A void attempt of unwinding has ended (R82). -/
def State.unwindVoidEnded (s : State) (u : UnwindRec) (b : BlockId) (attempts : Nat) (ok : Bool) : State :=
  if ok then { s with bm := s.bm.toDirty b }.unwindNext { u with targets := dropTarget b u.targets }
  else if attempts + 1 < Config.maxAttempts then s.setWork (.unwind u (.void b (attempts + 1)))
  else s.setWork (.unwind u (.retire b 0))

/-! ### Commit (R72 to R78) -/

/-- The engine gives up: it hands the failure to the Session Unit and passes to UNWIND (R78). -/
def State.giveUp (s : State) (r : CommitRec) (reason : FailReason) : State :=
  { s with ses := { s.ses with failure := some { session := r.session, reason := reason } } }.startUnwind r

/-- Begin, or begin again, the current member: allocation and the begun mark program (R73). -/
def State.beginMember (s : State) (r : CommitRec) : State :=
  match s.bm.allocate r.session with
  | some (b, bm) =>
    { s with bm := bm }.setWork
      (.commit { r with targets := r.targets.set r.member (some b), tries := r.tries + 1 } .begunMark)
  | none => s.giveUp r .noSpace

/-- A program operation of a commit has ended: a failed one retires the target (R76), after a successful one an unwind
request is honoured (R80), and otherwise the commit goes on. -/
def State.commitOpEnded (s : State) (r : CommitRec) (ok : Bool) (goOn : State → State) : State :=
  if ok then if r.unwindRequested then s.startUnwind r else goOn s
  else s.setWork (.commit r (.retire 0))

/-- After the begun mark: line 0 (R73). -/
def State.begunMarkEnded (s : State) (r : CommitRec) (ok : Bool) : State :=
  s.commitOpEnded r ok fun t => t.setWork (.commit r (.line 0))

/-- After line `k`: the next line, or the data stamp, for the last member through the boundary hand-off (R74, R77). -/
def State.lineEnded (s : State) (r : CommitRec) (k : Nat) (ok : Bool) : State :=
  s.commitOpEnded r ok fun t =>
    if k < 15 then t.setWork (.commit r (.line (k + 1)))
    else if r.lastMember && !r.boundaryHanded then t.setWork (.commit r .boundary)
    else t.setWork (.commit r .dataStamp)

/-- After the data stamp: the next member, or the flip request (R75, R86). -/
def State.dataStampEnded (s : State) (r : CommitRec) (ok : Bool) : State :=
  s.commitOpEnded r ok fun t =>
    if r.lastMember then t.setWork (.commit r .flipRequested)
    else t.beginMember { r with member := r.member + 1, tries := 0 }

/-- MARK_FAULT is set when the third attempt on a discard byte 1 has failed (R84). -/
def Engine.noteMark (e : Engine) (ok : Bool) : Engine := { e with markFault := e.markFault || !ok }

/-- The engine hands a block over as retired; `ok` says whether its retire mark reads programmed (R13, R76, R84). -/
def State.handRetired (s : State) (b : BlockId) (ok : Bool) : State :=
  { s with bm := s.bm.retire b, eng := s.eng.noteMark ok }

/-- What follows the retirement of a commit's target (R76). -/
def State.afterRetire (s : State) (r : CommitRec) : State :=
  if r.unwindRequested then s.startUnwind r
  else if r.tries < Config.maxTries then s.beginMember r
  else s.giveUp r (.verify r.member)

/-! ### The choice of work (R66 to R72) -/

/-- Erase start: the block becomes ERASING and its block erase starts (R96). -/
def State.reclaimStart (s : State) (b : BlockId) : State :=
  { s with bm := s.bm.eraseStart b }.setWork (.erase b .erase)

/-- The sessions of a port's list in the engine queue, oldest first (R66). -/
def Engine.queueOf (e : Engine) (p : PortId) : List SessionId := e.queue[p.val]

/-- The ports in the order in which the engine looks for queued work (R67). -/
def Engine.lookOrder (e : Engine) : List PortId := [e.pointer + 1, e.pointer + 2, e.pointer + 3, e.pointer]

/-- The oldest session of the first port that has one, with its port (R69). -/
def Engine.nextQueued (e : Engine) : Option (PortId × SessionId) :=
  e.lookOrder.findSome? fun p => (e.queueOf p).head?.map fun i => (p, i)

/-- The Map Unit gives the next serial (R24). -/
def MapUnit.giveSerial (m : MapUnit) : MapUnit :=
  { m with nextSerial := m.nextSerial + 1, serialEnd := m.serialEnd || serialEndOf (m.nextSerial + 1) }

/-- The engine hands a start, or the failure of one, to the Session Unit (R48). -/
def State.handStart (s : State) (p : PortId) (i : SessionId) (kind : StartKind) : State :=
  { s with eng := { s.eng with
      start := some { session := i, port := p, kind := kind, live := decide ((s.ses.session i).state = .queued) } } }

/-- A start that fails: the session leaves its list in the event in which the engine hands the failure (R66, R70, R72). -/
def State.handFailedStart (s : State) (p : PortId) (i : SessionId) (kind : StartKind) : State :=
  { s with eng := s.eng.dequeue i }.handStart p i kind

/-- The serial request of a commit start, with which the Map Unit gives the base blocks (R24, R72). -/
def State.askSerial (s : State) (p : PortId) (i : SessionId) : State :=
  if serialEndOf s.map.nextSerial then s.handFailedStart p i .serialRefused
  else
    { s with map := s.map.giveSerial }.handStart p i
      (.start s.map.nextSerial ((s.ses.session i).members.map s.map.currentBlock))

/-- The record of a commit that starts (R72). -/
def State.startRecord (s : State) (h : StartHandoff) (serial : Nat) (bases : List (Option BlockId)) : CommitRec :=
  let r := s.ses.session h.session
  { session := h.session, serial := serial, writer := r.owner.getD h.port, pages := r.members,
    windowsLine := r.windowsLine, bases := bases, targets := r.members.map fun _ => none, member := 0, tries := 0,
    unwindRequested := false, boundaryHanded := false }

/-- The start is accepted: the session is PROGRAMMING and leaves its list, the pointer moves, the record is built, and the first
member begins (R48, R66, R72). -/
def State.commitStart (s : State) (h : StartHandoff) (serial : Nat) (bases : List (Option BlockId)) : State :=
  { s with
    ses := s.ses.setSession h.session
      { s.ses.session h.session with state := .programming, boundaryPassed := false }
    eng := { s.eng.dequeue h.session with pointer := h.port } }.beginMember (s.startRecord h serial bases)

/-- The Session Unit takes a start hand-off. One whose session has left QUEUED since the choice is refused, or changes nothing
(R48, R71); a serial that was given stays consumed (R25). -/
def State.takeStart (s : State) (h : StartHandoff) : State :=
  let t := { s with eng := { s.eng with start := none } }
  if h.live = true ∧ (s.ses.session h.session).state = .queued then
    match h.kind with
    | .start serial bases => t.commitStart h serial bases
    | .serialRefused => t.finishSession h.session (.failed .serialEnd)
    | .checkFailed => t.finishSession h.session (.failed .noSpace)
  else t

/-- The start check (R70). -/
def State.startCheck (s : State) (p : PortId) (i : SessionId) : State :=
  let n := (s.ses.session i).members.length
  if n ≤ s.bm.freePool.length then s.askSerial p i
  else if s.bm.freePool.length + s.bm.dirtyList.length < n then s.handFailedStart p i .checkFailed
  else s

/-- The block of a reserve erase, when the choice makes one (R69 case 1). -/
def BlockManager.reserveErase (bm : BlockManager) : Option BlockId :=
  if bm.freePool.length < Config.reserve then bm.oldestUnpinned else none

/-- The choice of work (R69). -/
def State.choose (s : State) : State :=
  match s.bm.reserveErase with
  | some b => s.reclaimStart b
  | none =>
    match s.eng.nextQueued with
    | some (p, i) => s.startCheck p i
    | none =>
      match s.bm.oldestUnpinned with
      | some b => s.reclaimStart b
      | none => s

/-- The event CHOICE_OF_WORK: an IDLE engine of a READY part makes its choice, or, when it has made one and its start hand-off
stands, the Session Unit takes the hand-off (R48, R68 to R72; log entries 11 and 12). -/
def State.choiceEvent (s : State) : State :=
  if s.running = true ∧ s.mount.condition = .ready ∧ s.eng.work = .idle then
    match s.eng.start with
    | some h => s.takeStart h
    | none => s.choose
  else s

/-! ### Mount voiding (R89, R124) -/

/-- The Mount Scanner takes the end of the voiding list: READY, the tally discarded (R124). -/
def Mount.finish (m : Mount) : Mount := { m with condition := .ready, stage := .ended, tally := [], voidList := [] }

/-- The next block of the mount-void list, or the end of mounting, with the first choice of work in the same event (R89,
R124). -/
def State.mountVoidNext (s : State) : List BlockId → State
  | b :: rest => s.setWork (.mountVoid b rest (.void 0))
  | [] => ({ s with mount := s.mount.finish }.setWork .idle).choiceEvent

/-- A void attempt of mount voiding has ended (R89). -/
def State.mountVoidEnded (s : State) (b : BlockId) (rest : List BlockId) (attempts : Nat) (ok : Bool) : State :=
  if ok then s.mountVoidNext rest
  else if attempts + 1 < Config.maxAttempts then s.setWork (.mountVoid b rest (.void (attempts + 1)))
  else s.setWork (.mountVoid b rest (.retire 0))

/-! ### Retiring -/

/-- An attempt on discard byte 1 has ended: again after a failed one, up to 3 attempts; then the block is handed over as
retired and the engine goes on with its work (R76, R83, R89, R99). -/
def State.retireEnded (s : State) (ok : Bool) : State :=
  match s.eng.work with
  | .commit r (.retire n) =>
    if ok = false ∧ n + 1 < Config.maxAttempts then s.setWork (.commit r (.retire (n + 1)))
    else
      match r.currentTarget with
      | some b => (s.handRetired b ok).afterRetire { r with targets := r.targets.set r.member none }
      | none => s
  | .unwind u (.retire b n) =>
    if ok = false ∧ n + 1 < Config.maxAttempts then s.setWork (.unwind u (.retire b (n + 1)))
    else (s.handRetired b ok).unwindNext { u with targets := dropTarget b u.targets }
  | .erase b (.retire n) =>
    if ok = false ∧ n + 1 < Config.maxAttempts then s.setWork (.erase b (.retire (n + 1)))
    else (s.handRetired b ok).setWork .idle
  | .mountVoid b rest (.retire n) =>
    if ok = false ∧ n + 1 < Config.maxAttempts then s.setWork (.mountVoid b rest (.retire (n + 1)))
    else (s.handRetired b ok).mountVoidNext rest
  | _ => s

/-! ### Reclaim (R96 to R99) -/

/-- The block erase has ended (R96). -/
def State.eraseEnded (s : State) (b : BlockId) (ok : Bool) : State :=
  if ok then s.setWork (.erase b .freeStamp) else s.setWork (.erase b (.retire 0))

/-- The free stamp program has ended (R97, R98). -/
def State.freeStampEnded (s : State) (b : BlockId) (ok : Bool) : State :=
  if ok then { s with bm := s.bm.eraseDone b (nextEraseCount (s.bm.eraseCount b)) }.setWork .idle
  else s.setWork (.erase b (.retire 0))

/-! ### Any operation that fails at its time limit (R79) -/

/-- The operation in flight has ended in failure; the engine does what it does after a failed read-back (R79). -/
def State.opFailed (s : State) : State :=
  match s.eng.work with
  | .commit r .begunMark => s.begunMarkEnded r false
  | .commit r (.line k) => s.lineEnded r k false
  | .commit r .dataStamp => s.dataStampEnded r false
  | .unwind u (.void b n) => s.unwindVoidEnded u b n false
  | .erase b .erase => s.eraseEnded b false
  | .erase b .freeStamp => s.freeStampEnded b false
  | .mountVoid b rest (.void n) => s.mountVoidEnded b rest n false
  | _ => s.retireEnded false

end Sys2Proof.Machine
end

