-- ==== Sys2Proof/Machine/EngineFamily.lean ====
section
/-! DEFINITION. The events of the Array Engine: the choice of work (R68), the completions of its flash operations (R73 to
R76, R82, R96, R97), the time limit (R79), and its hand-offs with the Session Unit (R49, R77, R80). A completion finds
the engine at the sub-step it completes, or it is not the event and nothing changes (log entry 3). -/

namespace Sys2Proof.Machine

/-- CHOICE_OF_WORK: made while the engine is IDLE and the part READY (R68, R69), with the commit start (R72). -/
def execChoiceOfWork (s : State) : Host.Outcome State Fault Refusal := .next s.choiceEvent

/-- BEGUN_MARK_COMPLETION (R73). -/
def execBegunMarkCompletion (w : Written) (s : State) : Host.Outcome State Fault Refusal :=
  match s.eng.work with
  | .commit r .begunMark => .next (s.completeOp w fun ok t => t.begunMarkEnded r ok)
  | _ => .next s

/-- LINE_PROGRAM_COMPLETION (R74). -/
def execLineProgramCompletion (w : Written) (s : State) : Host.Outcome State Fault Refusal :=
  match s.eng.work with
  | .commit r (.line k) => .next (s.completeOp w fun ok t => t.lineEnded r k ok)
  | _ => .next s

/-- DATA_STAMP_COMPLETION (R75, R86). -/
def execDataStampCompletion (w : Written) (s : State) : Host.Outcome State Fault Refusal :=
  match s.eng.work with
  | .commit r .dataStamp => .next (s.completeOp w fun ok t => t.dataStampEnded r ok)
  | _ => .next s

/-- The engine programs a discard byte 1 (R76, R83, R89, R99). -/
def Work.retiring : Work → Bool
  | .commit _ (.retire _) | .unwind _ (.retire ..) | .erase _ (.retire _) | .mountVoid _ _ (.retire _) => true
  | _ => false

/-- RETIRE_MARK_COMPLETION (R76, R83, R99; in mount voiding R89, log entry 28). -/
def execRetireMarkCompletion (w : Written) (s : State) : Host.Outcome State Fault Refusal :=
  if s.eng.work.retiring then .next (s.completeOp w fun ok t => t.retireEnded ok) else .next s

/-- VOID_COMPLETION, during unwinding (R82). -/
def execVoidCompletion (w : Written) (s : State) : Host.Outcome State Fault Refusal :=
  match s.eng.work with
  | .unwind u (.void b n) => .next (s.completeOp w fun ok t => t.unwindVoidEnded u b n ok)
  | _ => .next s

/-- ERASE_COMPLETION (R96). -/
def execEraseCompletion (w : Written) (s : State) : Host.Outcome State Fault Refusal :=
  match s.eng.work with
  | .erase b .erase => .next (s.completeOp w fun ok t => t.eraseEnded b ok)
  | _ => .next s

/-- FREE_STAMP_COMPLETION (R97, R98). -/
def execFreeStampCompletion (w : Written) (s : State) : Host.Outcome State Fault Refusal :=
  match s.eng.work with
  | .erase b .freeStamp => .next (s.completeOp w fun ok t => t.freeStampEnded b ok)
  | _ => .next s

/-- FLASH_OP_TIMEOUT: the operation in flight is ended at its limit, leaves its bytes as a cut does, and is a failure
(R79). -/
def execFlashOpTimeout (c : Cut) (s : State) : Host.Outcome State Fault Refusal :=
  match s.eng.work.inFlight with
  | some op => .next { s with flash := s.flashCut op c }.opFailed
  | none => .next s

/-- FAILURE_HANDOFF: the Session Unit takes the engine's failure (R49), if it has not taken it with the end of the unwinding already
(log entry 13). -/
def execFailureHandoff (s : State) : Host.Outcome State Fault Refusal := .next { s with ses := s.ses.takePending }

/-- BOUNDARY_HANDOFF: boundary passed becomes yes and the last data stamp starts; a session that is no longer PROGRAMMING
is unwound instead (R49, R77). -/
def execBoundaryHandoff (s : State) : Host.Outcome State Fault Refusal :=
  match s.eng.work with
  | .commit r .boundary =>
    let i := r.session
    if (s.ses.session i).state = .programming then
      .next ({ s with ses := s.ses.setSession i { s.ses.session i with boundaryPassed := true } }.setWork
        (.commit { r with boundaryHanded := true } .dataStamp))
    else .next (s.startUnwind r)
  | _ => .next s

/-- What an unwind request for a session does at the engine (R80, log entry 14). -/
def State.takeUnwind (s : State) (i : SessionId) : State :=
  match s.eng.work with
  | .commit r step =>
    if r.session = i then
      match step with
      | .begunMark | .line _ | .dataStamp | .retire _ => s.setWork (.commit { r with unwindRequested := true } step)
      | .boundary => s.startUnwind r
      | .flipRequested | .flipTaken => s
    else s
  | _ => s

/-- UNWIND_REQUEST: the engine takes an abort's request to unwind (R80). -/
def execUnwindRequest (s : State) : Host.Outcome State Fault Refusal :=
  match s.ses.unwindRequest with
  | none => .next s
  | some i => .next ({ s with ses := { s.ses with unwindRequest := none } }.takeUnwind i)

end Sys2Proof.Machine
end

