-- ==== Sys2Proof/Machine/FlipFamily.lean ====
section
/-! DEFINITION. The flip and its hand-offs: FLIP (R28, R11), WINDOWS_TABLE_RELOAD (R138), REVOCATION (R62),
FLIP_END_OF_SESSION (R50, R61) and FLIP_NOTICE_HANDOFF (R151). -/

namespace Sys2Proof.Machine

/-- Point a page at a new version; the mapped count rises if the page was unmapped (R23, R28). -/
def MapUnit.point (m : MapUnit) (page : PageId) (e : MapEntry) : MapUnit :=
  { m with pages := m.pages.set page.val (some e), mapped := m.mapped + (if (m.entry page).isSome then 0 else 1) }

/-- Member `m` of a flip, at the Map Unit and at the Block Manager (R11, R28). A record that holds no page or no target for
the member has none to flip; the engine never requests such a flip. -/
def State.flipMember (r : CommitRec) (s : State) (m : Nat) : State :=
  match r.pages[m]?, r.targets.getD m none with
  | some page, some target =>
    { s with
      map := s.map.point page { block := target, serial := r.serial, writer := r.writer }
      bm := s.bm.flipMember target
        { page := page, serial := r.serial, index := m, count := r.pages.length, writer := r.writer }
        (s.map.currentBlock page) }
  | _, _ => s

/-- All members of a flip, in member order, in one event (R28). -/
def State.flipMembers (s : State) (r : CommitRec) : State := (List.range r.pages.length).foldl (State.flipMember r) s

/-- The hand-offs that a flip leaves to be taken (R29, R138). -/
def CommitRec.flipWork (r : CommitRec) : FlipWork :=
  { session := r.session, serial := r.serial, writer := r.writer, pages := r.pages
    reloadDue := r.windowsLine && r.pages.contains Config.windowsPage
    revocationDue := false, sessionEndDue := true, noticesDue := true }

/-- FLIP (R28). The Map Unit takes it once every hand-off of the flip before has been taken (R29, R151; log entry 15). -/
def execFlip (s : State) : Host.Outcome State Fault Refusal :=
  match s.eng.work, s.map.flip with
  | .commit r .flipRequested, none =>
    let t := s.flipMembers r
    .next ({ t with map := { t.map with flip := some r.flipWork } }.setWork (.commit r .flipTaken))
  | _, _ => .next s

/-- The flip is to be reported complete to the engine: the end of the session is taken, and any revocation (R29). -/
def FlipWork.reported (w : FlipWork) : Bool := !w.reloadDue && !w.revocationDue && !w.sessionEndDue

/-- The hand-offs that remain; none when all are taken. -/
def FlipWork.rest (w : FlipWork) : Option FlipWork := if w.reported && !w.noticesDue then none else some w

/-- The engine takes the report of a complete flip and is IDLE (R86). -/
def Engine.takeReport (e : Engine) : Engine :=
  match e.work with
  | .commit _ .flipTaken => { e with work := .idle }
  | _ => e

/-- Note that a hand-off was taken; when the flip is complete, report it to the engine (R29, R86). -/
def State.noteHandoff (s : State) (w : FlipWork) : State :=
  { s with map := { s.map with flip := w.rest }, eng := if w.reported then s.eng.takeReport else s.eng }

/-- The table that the new line 0 brings into force: the empty table if it is all 0xFF, else the table it holds. The line
was judged at COMMIT and is not judged again (R131, R138). -/
def reloadedTable (line : List Byte) : WindowsTable :=
  if allErased line then .empty else .windows ((List.range 8).map (windowRecord line))

/-- WINDOWS_TABLE_RELOAD (R138): the new line in force, TABLE_FAULT cleared, revocation requested, TABLE_CHANGED offered. -/
def execWindowsTableReload (s : State) : Host.Outcome State Fault Refusal :=
  match s.map.flip with
  | some w =>
    if w.reloadDue then
      let t := { s with prot := { s.prot with table := reloadedTable (s.currentLine Config.windowsPage 0),
                                              tableFault := false } }
      .next ((t.offerTable w.serial w.writer).refreshAlerts.noteHandoff { w with reloadDue := false, revocationDue := true })
    else .next s
  | none => .next s

/-- Withdraw from the engine queue every session that a table denies (R62, R66). -/
def Engine.withdrawDenied (e : Engine) (u : SessionUnit) (t : WindowsTable) : Engine :=
  { e with queue := e.queue.map fun (l : List SessionId) => l.filter fun i => !u.denied t i
           start := e.start.map fun h => h.without (u.denied t h.session) }

/-- REVOCATION (R62, R139): every OPEN or QUEUED session that the table in force denies is revoked and withdrawn. -/
def execRevocation (s : State) : Host.Outcome State Fault Refusal :=
  match s.map.flip with
  | some w =>
    if w.revocationDue then
      let t := { s with ses := s.ses.revoke s.prot.table, eng := s.eng.withdrawDenied s.ses s.prot.table }
      .next (t.refreshAlerts.noteHandoff { w with revocationDue := false })
    else .next s
  | none => .next s

/-- FLIP_END_OF_SESSION (R50, R61): the PROGRAMMING session ends DONE, or FREE if detached, once the reload has been taken
(R138). -/
def execFlipEndOfSession (s : State) : Host.Outcome State Fault Refusal :=
  match s.map.flip with
  | some w =>
    if w.sessionEndDue && !w.reloadDue then
      let ses := if (s.ses.session w.session).state = .programming then s.ses.endSession w.session (.done w.serial) else s.ses
      .next ({ s with ses := ses }.refreshAlerts.noteHandoff { w with sessionEndDue := false })
    else .next s
  | none => .next s

/-- FLIP_NOTICE_HANDOFF (R151): the offers of the member pages, once the reload has been taken (R29). -/
def execFlipNoticeHandoff (s : State) : Host.Outcome State Fault Refusal :=
  match s.map.flip with
  | some w =>
    if w.noticesDue && !w.reloadDue then
      .next ((s.offerFlip w.serial w.writer w.pages).refreshAlerts.noteHandoff { w with noticesDue := false })
    else .next s
  | none => .next s

end Sys2Proof.Machine
end

