-- ==== Sys2Proof/Machine/MountFamily.lean ====
section
/-! DEFINITION. Mounting: the scan of one block (R114, R116), the building of the tables (R117 to R121, R27), the load of
the windows table (R122, R123) and mount voiding (R89, R124). -/

namespace Sys2Proof.Machine

/-- The part is MOUNTING and not held in reset: the scan runs (R112). -/
def State.mountRuns (s : State) : Bool := s.running && decide (s.mount.condition = .mounting)

/-! ### Pass 1 (R114 to R116) -/

/-- The page of a block with this data stamp: the entry of its page list at its own member index (R6). -/
def DataStamp.page (st : DataStamp) : PageId := st.pages.getD st.index 0

/-- The candidate that a block with a valid data stamp is (R116). -/
def DataStamp.candidate (st : DataStamp) (b : BlockId) : Candidate := { index := st.index, block := b, page := st.page }

/-- Enter a candidate into the group tally (R116). -/
def tallyAdd (st : DataStamp) (b : BlockId) : List TallyEntry → List TallyEntry
  | [] => [{ serial := st.serial, count := st.count, pages := st.pages, writer := st.writer
             members := [st.candidate b], consistent := true, complete := none }]
  | e :: rest =>
    if e.serial = st.serial then
      { e with members := e.members ++ [st.candidate b]
               consistent := e.consistent && e.count == st.count && e.pages == st.pages && e.writer == st.writer } :: rest
    else e :: tallyAdd st b rest

/-- Place a DIRTY block found by pass 1, at the tail of the Dirty List (R114). -/
def BlockManager.placeDirty (bm : BlockManager) (b : BlockId) (count : Nat) : BlockManager :=
  { bm.place b { cls := .dirty, eraseCount := count, pins := 0 } with dirtyList := bm.dirtyList ++ [b] }.refresh

/-- Place a RETIRED block found by pass 1 (R114). -/
def BlockManager.placeRetired (bm : BlockManager) (b : BlockId) (count : Nat) : BlockManager :=
  { bm.place b { cls := .retired, eraseCount := count, pins := 0 } with
    retiredSet := insertBlock b bm.retiredSet }.refresh

/-- What pass 1 does with a block by its row of Table 26. A FREE block is held, and enters the pool when the pool is
built; a candidate enters the tally (R114, R116). -/
def State.placeRow (s : State) (b : BlockId) : ScanRow → State
  | .retired c => { s with bm := s.bm.placeRetired b c }
  | .voided c | .torn c => { s with bm := s.bm.placeDirty b c }
  | .unknownErase => { s with bm := s.bm.placeDirty b 0 }
  | .free c => { s with bm := s.bm.place b { cls := .free, eraseCount := c, pins := 0 } }
  | .candidate st => { s with mount := { s.mount with tally := tallyAdd st b s.mount.tally } }

/-- The largest serial found so far, with the data stamp of one more block, whatever its row (R27). -/
def largestWith (largest : Nat) (spare : List Byte) : Nat :=
  match dataStamp spare with
  | some st => max largest st.serial
  | none => largest

/-- Pass 1 over one block (R114). -/
def State.scanBlock (s : State) (b : BlockId) : State :=
  let spare := s.flash.spare b
  let t := s.placeRow b (classify spare)
  { t with mount := { t.mount with position := s.mount.position + 1
                                   largestSerial := largestWith s.mount.largestSerial spare } }

/-- MOUNT_BLOCK_SCAN (R114). -/
def execMountBlockScan (s : State) : Host.Outcome State Fault Refusal :=
  if h : s.mount.position < 512 then
    if s.mountRuns = true ∧ s.mount.stage = .scan then .next (s.scanBlock ⟨s.mount.position, h⟩) else .next s
  else .next s

/-! ### Pass 2 (R117 to R119) -/

/-- Some candidate for the page carries a higher serial (R117). -/
def coveredBy (tally : List TallyEntry) (serial : Nat) (page : PageId) : Bool :=
  tally.any fun f => decide (serial < f.serial) && f.members.any fun c => c.page == page

/-- Member `i` of an entry is present or covered (R117). -/
def TallyEntry.memberOk (tally : List TallyEntry) (e : TallyEntry) (i : Nat) : Bool :=
  (e.members.any fun c => c.index == i) ||
    match e.pages[i]? with
    | some page => coveredBy tally e.serial page
    | none => false

/-- The judgement of an entry; an inconsistent one is incomplete (R117, R119). -/
def TallyEntry.judge (tally : List TallyEntry) (e : TallyEntry) : Bool :=
  e.consistent && (List.range e.count).all (e.memberOk tally)

/-- The tally with every entry judged. -/
def judgeTally (tally : List TallyEntry) : List TallyEntry :=
  tally.map fun e => { e with complete := some (e.judge tally) }

/-- The mount voiding list: the blocks of incomplete entries in ascending block index (R118, R119). -/
def voidingList (judged : List TallyEntry) : List BlockId :=
  allBlocks.filter fun b => judged.any fun e => e.complete != some true && e.members.any fun c => c.block == b

/-! ### Pass 3 (R120) -/

/-- The candidates of complete entries, each with its entry. -/
def completeCandidates (judged : List TallyEntry) : List (TallyEntry × Candidate) :=
  (judged.filter fun e => e.complete == some true).flatMap fun e => e.members.map fun c => (e, c)

/-- The better of two candidates of one page: the higher serial, then the lower block index (R120). -/
def betterVersion (a b : TallyEntry × Candidate) : TallyEntry × Candidate :=
  if b.1.serial < a.1.serial ∨ (b.1.serial = a.1.serial ∧ a.2.block.val ≤ b.2.block.val) then a else b

/-- The current version among the candidates of one page (R120). -/
def bestVersion : List (TallyEntry × Candidate) → Option (TallyEntry × Candidate)
  | [] => none
  | a :: rest =>
    match bestVersion rest with
    | some b => some (betterVersion a b)
    | none => some a

/-- The current version of a page (R120). -/
def currentVersion (cands : List (TallyEntry × Candidate)) (page : PageId) : Option (TallyEntry × Candidate) :=
  bestVersion (cands.filter fun x => x.2.page == page)

/-- The Page Map that pass 3 builds (R120). -/
def builtPages (cands : List (TallyEntry × Candidate)) : Vector (Option MapEntry) 464 :=
  Vector.ofFn fun page => (currentVersion cands page).map fun x =>
    { block := x.2.block, serial := x.1.serial, writer := x.1.writer }

/-! ### The tables (R121, R27) -/

/-- The DATA fields of a block that pass 3 mapped, if it did (R8, R120). -/
def builtData (cands : List (TallyEntry × Candidate)) (pages : Vector (Option MapEntry) 464) (b : BlockId) :
    Option DataInfo :=
  (cands.find? fun x => x.2.block == b && (pages[x.2.page.val].map (·.block)) == some b).map fun x =>
    { page := x.2.page, serial := x.1.serial, index := x.2.index, count := x.1.count, writer := x.1.writer }

/-- The record of a block when the tables are complete: as pass 1 placed it, DATA if pass 3 mapped it, DIRTY for every
other candidate (R118 to R121). -/
def State.builtRecord (s : State) (cands : List (TallyEntry × Candidate)) (pages : Vector (Option MapEntry) 464)
    (b : BlockId) : BlockRec :=
  match s.bm.block b with
  | some r => { r with pins := 0 }
  | none =>
    let count := (freeStampCount (s.flash.spare b)).getD 0
    match builtData cands pages b with
    | some info => { cls := .data info, eraseCount := count, pins := 0 }
    | none => { cls := .dirty, eraseCount := count, pins := 0 }

/-- The blocks of a class in ascending block index. -/
def BlockManager.blocksOf (bm : BlockManager) (c : BlockClass) : List BlockId :=
  allBlocks.filter fun b => (bm.block b).map (·.cls) == some c

/-- The collections of a complete Block Table (R121). -/
def BlockManager.collect (bm : BlockManager) : BlockManager :=
  { bm with
    freePool := (bm.blocksOf .free).foldl (fun pool b => bm.insertByOrder b pool) []
    dirtyList := bm.blocksOf .dirty
    retiredSet := bm.blocksOf .retired }.refresh

/-- The Map Unit after the mount: the Page Map, the mapped count, and the next serial with SERIAL_END (R23, R27, R121). -/
def MapUnit.built (m : MapUnit) (pages : Vector (Option MapEntry) 464) (largest : Nat) : MapUnit :=
  { m with
    pages := pages
    mapped := (pages.toList.filter fun e => e.isSome).length
    nextSerial := largest + 1
    serialEnd := serialEndOf (largest + 1) }

/-- Passes 2 and 3 and the building of the tables (R117 to R121). -/
def State.buildTables (s : State) : State :=
  let judged := judgeTally s.mount.tally
  let cands := completeCandidates judged
  let pages := builtPages cands
  { s with
    bm := { s.bm with table := Vector.ofFn fun b => some (s.builtRecord cands pages b) }.collect
    map := s.map.built pages s.mount.largestSerial
    mount := { s.mount with stage := .built, tally := judged, voidList := voidingList judged } }

/-- MOUNT_TABLE_BUILD: after pass 1 (R121). -/
def execMountTableBuild (s : State) : Host.Outcome State Fault Refusal :=
  if s.mountRuns = true ∧ s.mount.stage = .scan ∧ 512 ≤ s.mount.position then .next s.buildTables else .next s

/-! ### The windows table and voiding (R122 to R124) -/

/-- WINDOWS_TABLE_LOAD (R122, R131), and the hand-over of the mount voiding list (R123); an empty list ends the mount at
once (R124). -/
def execWindowsTableLoad (s : State) : Host.Outcome State Fault Refusal :=
  if s.mountRuns = true ∧ s.mount.stage = .built then
    let loaded := tableOfLine (s.currentLine Config.windowsPage 0)
    let t := { s with
      prot := { s.prot with table := loaded.1, tableFault := loaded.2 }
      mount := { s.mount with stage := .voiding, voidList := [] } }
    .next (t.mountVoidNext s.mount.voidList)
  else .next s

/-- MOUNT_VOID_COMPLETION: an attempt on discard byte 0, or on discard byte 1 after three failed ones (R89). -/
def execMountVoidCompletion (w : Written) (s : State) : Host.Outcome State Fault Refusal :=
  match s.eng.work with
  | .mountVoid b rest (.void n) => .next (s.completeOp w fun ok t => t.mountVoidEnded b rest n ok)
  | .mountVoid _ _ (.retire _) => .next (s.completeOp w fun ok t => t.retireEnded ok)
  | _ => .next s

end Sys2Proof.Machine
end

