-- ==== Sys2Proof/Machine/Operands.lean ====
section
/-! DEFINITION. Frames and operands: how a request is taken and answered (R164 to R168), and the checks on operands that
several requests share (R37, R43, R46, R51, R58, R189). -/

namespace Sys2Proof.Machine

/-- What the owner of a request answers in the event in which it takes it: the new state, the status, and the reply
fields, which are none unless the status is OK (R168). -/
structure Answer where
  state : State
  status : Status
  fields : List Byte

/-- A refusal: the status alone, and nothing changes. -/
def State.refuse (s : State) (st : Status) : Answer := { state := s, status := st, fields := [] }

/-- The port's frame after its request is taken, at the rising edge of SCK that samples the last bit of its last parameter
byte: two turnaround bytes, then the status byte and the reply fields (R163 to R165). `params` is the number of parameter
bytes (Table 45). -/
def Port.answered (r : Port) (params : Nat) (st : Status) (fields : List Byte) : Port :=
  { r with decoder := .turnaround, received := params + 1, turnaroundLeft := 2, reply := statusByte st :: fields
           bits := [], sckHigh := true }

/-- The state after an owner's answer (R166, R168). -/
def Answer.taken (a : Answer) (p : PortId) (params : Nat) : State :=
  a.state.setPort p ((a.state.port p).answered params a.status a.fields)

/-- The decoder waits for the first bit of a frame (R165): a request command stands for all the bits of its frame (log entry
18). -/
def Port.atFrameStart (r : Port) : Bool := decide (r.decoder = .request) && r.request.isEmpty && r.bits.isEmpty

/-- A request command is taken at the start of a frame (R165). In every decoder state but REQUEST its bytes are not counted, not
decoded or ignored (R163, R164, R180), and a frame whose bits have begun to come goes on with them: nothing changes (log
entry 2). -/
def State.takeRequest (s : State) (p : PortId) (params : Nat) (f : State → Answer) : State :=
  if (s.port p).atFrameStart then (f s).taken p params else s

/-- Every request but STATUS and UNKNOWN is refused NOT_READY while the part is MOUNTING (R113). -/
def State.whenReady (s : State) (f : State → Answer) : Answer :=
  if s.mount.condition = .mounting then s.refuse .notReady else f s

/-- The session that a session id operand names; `none` for an id greater than 7. -/
def sessionOfByte (b : Byte) : Option SessionId := if h : b.toNat < 8 then some ⟨b.toNat, h⟩ else none

/-- The watch slot that a slot operand names; `none` for a slot greater than 3. -/
def slotOfByte (b : Byte) : Option (Fin 4) := if h : b.toNat < 4 then some ⟨b.toNat, h⟩ else none

/-- The page that a page operand names; `none` above 463. -/
def pageOfHalf (h : Half) : Option PageId := if g : h.toNat < 464 then some ⟨h.toNat, g⟩ else none

/-- The pages that a list of page operands names; `none` if one of them is above 463. -/
def pagesOfHalves (hs : List Half) : Option (List PageId) := hs.mapM pageOfHalf

/-- The session checks common to STAGE, COMMIT, ABORT and COLLECT: a session id above 7 is BAD_REQUEST; a session that is
FREE, detached or owned by another port is NOT_OWNER (R43, R46, R51, R58). The slot's present occupant is what is judged
(R189). -/
def State.namedSession (s : State) (p : PortId) (sid : Byte) (f : SessionId → Answer) : Answer :=
  match sessionOfByte sid with
  | none => s.refuse .badRequest
  | some i => if s.ses.attachedTo p i then f i else s.refuse .notOwner

/-- OPEN's pages as its frame delimits them: none while bytes of the frame are missing (R167, log entry 27). -/
def openOperands (count : Byte) (pages : List Half) : Option (List Half) :=
  if openPageCount count ≤ pages.length then some (pages.take (openPageCount count)) else none

/-- STAGE's data as its frame delimits it: none while bytes of the frame are missing (R167, log entry 27). -/
def stageOperands (length : Half) (data : List Byte) : Option (List Byte) :=
  if stageDataCount length ≤ data.length then some (data.take (stageDataCount length)) else none

end Sys2Proof.Machine
end

