-- ==== Sys2Proof/Machine/NoticeFamily.lean ====
section
/-! DEFINITION. The requests of the Notice Unit, WATCH_SET, WATCH_CLEAR and NOTICE_FETCH (R148, R149, R156), and FREEZE of
the Protection Unit (R143). -/

namespace Sys2Proof.Machine

/-- Set or empty a watch slot (R148, R149). -/
def NoticePort.setWatch (n : NoticePort) (slot : Fin 4) (w : Option WatchRange) : NoticePort :=
  { n with watches := n.watches.set slot.val w }

/-- The answer to WATCH_SET (Table 36). -/
def State.answerWatchSet (p : PortId) (slot : Byte) (first last : Half) (s : State) : Answer :=
  match slotOfByte slot with
  | none => s.refuse .badRequest
  | some k =>
    if last.toNat < first.toNat ∨ 463 < last.toNat then s.refuse .badRequest
    else if s.prot.table.canReadRange p first.toNat last.toNat then
      { state := s.setNotice p ((s.notice p).setWatch k (some { first := first.toNat, last := last.toNat }))
        status := .ok, fields := [] }
    else s.refuse .denied

/-- WATCH_SET (R148). -/
def execWatchSet (p : PortId) (slot : Byte) (first last : Half) (s : State) : Host.Outcome State Fault Refusal :=
  .next (s.takeRequest p 5 fun t => t.whenReady (State.answerWatchSet p slot first last))

/-- The answer to WATCH_CLEAR (R149). -/
def State.answerWatchClear (p : PortId) (slot : Byte) (s : State) : Answer :=
  match slotOfByte slot with
  | none => s.refuse .badRequest
  | some k => { state := s.setNotice p ((s.notice p).setWatch k none), status := .ok, fields := [] }

/-- WATCH_CLEAR (R149). -/
def execWatchClear (p : PortId) (slot : Byte) (s : State) : Host.Outcome State Fault Refusal :=
  .next (s.takeRequest p 1 fun t => t.whenReady (State.answerWatchClear p slot))

/-- The answer to NOTICE_FETCH (Table 39). -/
def State.answerNoticeFetch (p : PortId) (s : State) : Answer :=
  let n := s.notice p
  match n.queue with
  | e :: rest =>
    { state := (s.setNotice p { n with queue := rest }).refreshAlerts, status := .ok, fields := noticeRecord e rest.length }
  | [] =>
    if n.overrun then
      { state := (s.setNotice p { n with overrun := false }).refreshAlerts, status := .ok, fields := overrunRecord }
    else s.refuse .empty

/-- NOTICE_FETCH (R156). -/
def execNoticeFetch (p : PortId) (s : State) : Host.Outcome State Fault Refusal :=
  .next (s.takeRequest p 0 fun t => t.whenReady (State.answerNoticeFetch p))

/-- The answer to FREEZE (Table 34). -/
def State.answerFreeze (p : PortId) (s : State) : Answer :=
  if (s.ses.claim Config.windowsPage).isSome then s.refuse .pageBusy
  else if s.prot.table.canWrite p Config.windowsPage.val then
    { state := { s with prot := { s.prot with frozen := true } }, status := .ok, fields := [] }
  else s.refuse .denied

/-- FREEZE (R143). -/
def execFreeze (p : PortId) (s : State) : Host.Outcome State Fault Refusal :=
  .next (s.takeRequest p 0 fun t => t.whenReady (State.answerFreeze p))

end Sys2Proof.Machine
end

