-- ==== Sys2Proof/Machine/ReadFamily.lean ====
section
/-! DEFINITION. The requests that read: READ (R172, R173), MAP_QUERY (R33), STATUS (R176, R177, R188), and the code that names
no request (R171). -/

namespace Sys2Proof.Machine

/-- The read is within the limits of Table 46, orders 2 to 4. -/
def readInRange (page offset length : Half) : Bool :=
  decide (page.toNat ≤ 463) && decide (1 ≤ length.toNat) && decide (length.toNat ≤ Config.maxRead)
    && decide (Config.pageBytes * page.toNat + offset.toNat + length.toNat ≤ Config.logicalBytes)

/-- The stream of an accepted READ: its first page is translated and pinned (R173). -/
def State.createStream (s : State) (p : PortId) (start length : Nat) : State :=
  if h : start / Config.pageBytes < 464 then
    let page : PageId := ⟨start / Config.pageBytes, h⟩
    (s.translate page).setPort p
      { s.port p with stream := some { page := page, position := start % Config.pageBytes,
                                       pinned := s.map.currentBlock page, bytesLeft := length } }
  else s

/-- The answer to READ (Table 46). -/
def State.answerRead (p : PortId) (page offset length : Half) (s : State) : Answer :=
  let start := Config.pageBytes * page.toNat + offset.toNat
  if readInRange page offset length then
    if s.prot.table.canReadRange p (start / Config.pageBytes) ((start + length.toNat - 1) / Config.pageBytes) then
      { state := s.createStream p start length.toNat, status := .ok, fields := [] }
    else s.refuse .denied
  else s.refuse .badRequest

/-- READ (R172). -/
def execRead (p : PortId) (page offset length : Half) (s : State) : Host.Outcome State Fault Refusal :=
  .next (s.takeRequest p 6 fun t => t.whenReady (State.answerRead p page offset length))

/-- The claim and claim port fields of MAP_QUERY (R33). -/
def State.claimFields (s : State) (page : PageId) : List Byte :=
  match s.ses.claim page with
  | none => [0x00, 0xFF]
  | some i =>
    match (s.ses.session i).owner with
    | some q => [0x01, natByte q.val]
    | none => [0x02, 0xFF]

/-- The mapped, serial and writer port fields of MAP_QUERY (R33). -/
def State.mapFields (s : State) (page : PageId) : List Byte :=
  match s.map.entry page with
  | some e => 0x01 :: (natBytes4 e.serial ++ [natByte e.writer.val])
  | none => [0x00, 0x00, 0x00, 0x00, 0x00, 0xFF]

/-- The answer to MAP_QUERY (R33). Both halves, that of the Map Unit and that of the Session Unit, are taken from one state. R33 has
each exact for the moment its owner took it and leaves open whether an event comes between the two; that none does here is the
model's choice (log entry 34). -/
def State.answerMapQuery (page : Half) (s : State) : Answer :=
  match pageOfHalf page with
  | none => s.refuse .badRequest
  | some q => { state := s, status := .ok, fields := s.mapFields q ++ s.claimFields q }

/-- MAP_QUERY (R33). -/
def execMapQuery (p : PortId) (page : Half) (s : State) : Host.Outcome State Fault Refusal :=
  .next (s.takeRequest p 2 fun t => t.whenReady (State.answerMapQuery page))

/-! ### STATUS (R176, R177, R188) -/

/-- The fields of the Mount Scanner (R177). -/
def State.scannerGroup (s : State) : ScannerGroup :=
  { condition := s.mount.condition, position := s.mount.position, cause := s.mount.cause }

/-- The fields of the Block Manager and the Map Unit (R177). -/
def State.tablesGroup (s : State) : TablesGroup :=
  { free := s.bm.freePool.length, dirty := s.bm.dirtyList.length, retired := s.bm.retiredSet.length, mapped := s.map.mapped,
    lowSpace := s.bm.lowSpace, serialEnd := s.map.serialEnd }

/-- The fields of the Protection Unit (R177). -/
def State.protectionGroup (s : State) : ProtectionGroup := { tableFault := s.prot.tableFault, frozen := s.prot.frozen }

/-- The session entries of a port, in ascending session id (R176, R177). -/
def State.sessionsGroup (s : State) (p : PortId) : List (SessionId × SessionState) :=
  (s.ses.attached p).map fun i => (i, (s.ses.session i).state)

/-- The fields of the Notice Unit for a port (R177). -/
def State.noticeGroup (s : State) (p : PortId) : NoticeGroup :=
  { count := (s.notice p).queue.length, overrun := (s.notice p).overrun }

/-- The fields of all owners, as a port takes them now (R176, R177). -/
def State.statusGroups (s : State) (p : PortId) : StatusGroups :=
  { scanner := s.scannerGroup, tables := s.tablesGroup, markFault := s.eng.markFault, protection := s.protectionGroup
    sessions := s.sessionsGroup p, notices := s.noticeGroup p, late := [] }

/-- The fields `g` of a STATUS with the groups of some owners taken from `now` instead. -/
def StatusGroups.retake (g now : StatusGroups) (owners : List StatusOwner) : StatusGroups :=
  { scanner := if .scanner ∈ owners then now.scanner else g.scanner
    tables := if .tables ∈ owners then now.tables else g.tables
    markFault := if .engine ∈ owners then now.markFault else g.markFault
    protection := if .protection ∈ owners then now.protection else g.protection
    sessions := if .sessions ∈ owners then now.sessions else g.sessions
    notices := if .notices ∈ owners then now.notices else g.notices
    late := g.late ++ owners }

/-- Session entry `k` of STATUS: id and state, 0xFF for an entry that is absent (R188). -/
def statusEntry (entries : List (SessionId × SessionState)) (k : Nat) : List Byte :=
  match entries[k]? with
  | some (i, st) => [natByte i.val, sessionStateByte st]
  | none => [0xFF, 0xFF]

/-- The STATUS reply fields (Table 55), with the port's lease setting. -/
def StatusGroups.fields (g : StatusGroups) (lease : Byte) : List Byte :=
  [0x42, 0x10, if g.scanner.condition = .ready then 0x01 else 0x00]
    ++ natBytes2 g.scanner.position
    ++ [if g.scanner.cause = .powerOn then 0x01 else 0x02]
    ++ natBytes2 g.tables.free ++ natBytes2 g.tables.dirty ++ natBytes2 g.tables.retired ++ natBytes2 g.tables.mapped
    ++ [statusFlags g.tables g.markFault g.protection, natByte g.sessions.length]
    ++ statusEntry g.sessions 0 ++ statusEntry g.sessions 1
    ++ [natByte g.notices.count, flagByte g.notices.overrun, lease]

/-- The answer to STATUS: OK, with the fields of all owners. The port holds them while the STATUS is being taken (R176, R177). -/
def State.answerStatus (p : PortId) (s : State) : Answer :=
  let r := s.port p
  let g := s.statusGroups p
  { state := s.setPort p { r with statusTaken := some g }, status := .ok, fields := g.fields r.lease }

/-- STATUS: answered OK in every condition of the part, and nothing but the frame changes (R176, R177). -/
def execStatus (p : PortId) (s : State) : Host.Outcome State Fault Refusal :=
  .next (s.takeRequest p 0 (State.answerStatus p))

/-- UNKNOWN_REQUEST_CODE: answered UNKNOWN whether the part is MOUNTING or READY (R171). A code that names a request is
not this event, and nothing changes (log entry 27). -/
def execUnknownRequestCode (p : PortId) (code : Byte) (s : State) : Host.Outcome State Fault Refusal :=
  if code ∈ requestCodes then .next s else .next (s.takeRequest p 0 fun t => t.refuse .unknown)

end Sys2Proof.Machine
end

