-- ==== Sys2Proof/Machine/SessionFamily.lean ====
section
/-! DEFINITION. The session requests OPEN, STAGE, COMMIT, ABORT and COLLECT, the lease, and lease expiry
(R40 to R58). -/

namespace Sys2Proof.Machine

/-- The record of a session that an accepted OPEN creates (R41). -/
def openedSession (p : PortId) (pages : List PageId) (lease : Nat) : Session :=
  { state := .opened, owner := some p, members := pages, buffers := pages.map fun _ => [], lease := some lease,
    windowsLine := false, boundaryPassed := false, outcome := none }

/-- An accepted OPEN in slot `i` (R41). -/
def State.acceptOpen (s : State) (p : PortId) (pages : List PageId) (i : SessionId) : Answer :=
  { state := { s with ses :=
      (s.ses.setSession i (openedSession p pages (s.port p).lease.toNat)).claimPages i pages }
    status := .ok, fields := [natByte i.val] }

/-- The checks of OPEN from order 3 on, for a list of distinct pages (Table 11). -/
def State.openChecked (s : State) (p : PortId) (pages : List PageId) : Answer :=
  if !s.prot.table.canWriteAll p pages then s.refuse .denied
  else if s.prot.frozen && pages.contains Config.windowsPage then s.refuse .frozen
  else if pages.any fun q => (s.ses.claim q).isSome then s.refuse .pageBusy
  else if Config.portSessions ≤ (s.ses.attached p).length then s.refuse .noSession
  else
    match s.ses.lowestFree with
    | none => s.refuse .noSession
    | some i => if s.ses.freeBuffers < pages.length then s.refuse .noBuffer else s.acceptOpen p pages i

/-- The answer to OPEN over the pages its frame carries (R40). -/
def State.answerOpen (p : PortId) (pages : List Half) (s : State) : Answer :=
  match pagesOfHalves pages with
  | none => s.refuse .badRequest
  | some qs => if qs.length = 0 ∨ 4 < qs.length ∨ ¬ qs.Nodup then s.refuse .badRequest else s.openChecked p qs

/-- OPEN (R40, R167). -/
def execOpenSession (p : PortId) (count : Byte) (pages : List Half) (s : State) : Host.Outcome State Fault Refusal :=
  match openOperands count pages with
  | none => .next s
  | some ps => .next (s.takeRequest p (1 + 2 * ps.length) fun t => t.whenReady (State.answerOpen p ps))

/-- The range of a STAGE is allowed: member, length, offset and line (R43, last order). -/
def stageInRange (r : Session) (member : Byte) (offset length : Half) : Bool :=
  decide (member.toNat < r.members.length) && decide (1 ≤ length.toNat) && decide (length.toNat ≤ 256)
    && decide (offset.toNat ≤ 4095) && decide (offset.toNat % 256 + length.toNat ≤ 256)

/-- The session after an accepted STAGE (R44). -/
def stagedSession (r : Session) (member offset lease : Nat) (data : List Byte) : Session :=
  { r with
    buffers := r.buffers.set member ((r.buffer member).stageBytes offset data)
    lease := some lease
    windowsLine := r.windowsLine || (r.members[member]? == some Config.windowsPage && decide (offset < 256)) }

/-- The answer to STAGE (R43). -/
def State.answerStage (p : PortId) (sid member : Byte) (offset length : Half) (data : List Byte) (s : State) : Answer :=
  s.namedSession p sid fun i =>
    let r := s.ses.session i
    if r.state ≠ .opened then s.refuse .badState
    else if stageInRange r member offset length then
      let r' := stagedSession r member.toNat offset.toNat (s.port p).lease.toNat data
      { state := { s with ses := s.ses.setSession i r' }, status := .ok, fields := [] }
    else s.refuse .badRequest

/-- STAGE (R43, R167). -/
def execStage (p : PortId) (sid member : Byte) (offset length : Half) (data : List Byte) (s : State) :
    Host.Outcome State Fault Refusal :=
  match stageOperands length data with
  | none => .next s
  | some ds => .next (s.takeRequest p (6 + ds.length) fun t => t.whenReady (State.answerStage p sid member offset length ds))

/-- The session enters the engine queue at the tail of a port's list (R66). -/
def Engine.enqueue (e : Engine) (p : PortId) (i : SessionId) : Engine :=
  { e with queue := e.queue.set p.val (e.queueOf p ++ [i]) }

/-- The answer to COMMIT: the checks of R46, then the windows-line check and queueing (R47). -/
def State.answerCommit (p : PortId) (sid : Byte) (s : State) : Answer :=
  s.namedSession p sid fun i =>
    let r := s.ses.session i
    if r.state ≠ .opened then s.refuse .badState
    else if r.windowsLine && judgeLine (s.mergedWindowsLine i) == .malformed then
      { state := { s with ses := s.ses.setSession i { r with lease := some (s.port p).lease.toNat } }
        status := .badTable, fields := [] }
    else
      { state := { s with ses := s.ses.setSession i { r with state := .queued, lease := none }
                          eng := s.eng.enqueue p i }
        status := .ok, fields := [] }

/-- COMMIT (R46, R47). -/
def execCommit (p : PortId) (sid : Byte) (s : State) : Host.Outcome State Fault Refusal :=
  .next (s.takeRequest p 1 fun t => t.whenReady (State.answerCommit p sid))

/-- The answer to ABORT (Table 12, R51 to R53). -/
def State.answerAbort (p : PortId) (sid : Byte) (s : State) : Answer :=
  s.namedSession p sid fun i =>
    let r := s.ses.session i
    match r.state with
    | .opened | .queued => { state := s.finishSession i .abandoned, status := .ok, fields := [] }
    | .programming =>
      if r.boundaryPassed then s.refuse .tooLate
      else
        { state := { s with ses := { s.ses.setSession i { r with state := .unwinding, outcome := some .abandoned } with
                                       unwindRequest := some i } }
          status := .ok, fields := [] }
    | .unwinding | .finished => s.refuse .badState
    | .free => s.refuse .notOwner

/-- ABORT (R51). -/
def execAbort (p : PortId) (sid : Byte) (s : State) : Host.Outcome State Fault Refusal :=
  .next (s.takeRequest p 1 fun t => t.whenReady (State.answerAbort p sid))

/-- The answer to COLLECT (R58). -/
def State.answerCollect (p : PortId) (sid : Byte) (s : State) : Answer :=
  s.namedSession p sid fun i =>
    let r := s.ses.session i
    if r.state = .finished then
      { state := { s with ses := s.ses.release i }.refreshAlerts
        status := .ok, fields := resultRecord i (r.outcome.getD .abandoned) }
    else s.refuse .badState

/-- COLLECT (R58). -/
def execCollect (p : PortId) (sid : Byte) (s : State) : Host.Outcome State Fault Refusal :=
  .next (s.takeRequest p 1 fun t => t.whenReady (State.answerCollect p sid))

/-- The answer to LEASE_SET (R56). -/
def State.answerLeaseSet (p : PortId) (units : Byte) (s : State) : Answer :=
  if 1 ≤ units.toNat ∧ units.toNat ≤ Config.maxLease then
    { state := s.setPort p { s.port p with lease := units }, status := .ok, fields := [] }
  else s.refuse .badRequest

/-- LEASE_SET (R56). -/
def execLeaseSet (p : PortId) (units : Byte) (s : State) : Host.Outcome State Fault Refusal :=
  .next (s.takeRequest p 1 fun t => t.whenReady (State.answerLeaseSet p units))

/-- LEASE_EXPIRY: the timer of an OPEN session runs out. Only an OPEN session has a running timer (R54, R55). -/
def execLeaseExpiry (i : SessionId) (s : State) : Host.Outcome State Fault Refusal :=
  if (s.ses.session i).state = .opened then .next (s.finishSession i .expired) else .next s

end Sys2Proof.Machine
end

