-- ==== Sys2Proof/Machine/PortFamily.lean ====
section
/-! DEFINITION. The frame on a port: chip select (R163 to R165, R169, R170), the edges of SCK and the bits of a byte (R163), the
arrival of a request byte by byte (R165 to R167), the taking of a STATUS (R177), delivery of bytes (R164, R165, R173), and the read
stream (R174, R175). -/

namespace Sys2Proof.Machine

/-- The port's frames are ignored: its PRST_n or RESET_n is low, or the part has no supply (R180, R181). -/
def State.portHeld (s : State) (p : PortId) : Bool := !s.running || (s.port p).prstLow

/-- The read stream of a port ends: its pin is released and the stream is gone (R175). -/
def State.endStream (s : State) (p : PortId) : State :=
  { s with bm := s.bm.unpinPage (streamPin (s.port p).stream) }.setPort p { s.port p with stream := none }

/-- The port after a fall of chip select (R165). -/
def Port.fallen (r : Port) (held : Bool) : Port :=
  { r with csLow := true, received := 0, request := [], turnaroundLeft := 0, reply := [], bits := [], statusTaken := none
           decoder := if held then .ignored else .request
           sdo := if held then none else some 0xFF }

/-- CS_FALL: a fall of chip select begins a frame, or is ignored under reset (R165, R180, R181). -/
def execCsFall (p : PortId) (s : State) : Host.Outcome State Fault Refusal :=
  if (s.port p).csLow then .next s else .next (s.setPort p ((s.port p).fallen (s.portHeld p)))

/-- The port after a rise of chip select: the frame is over, the bits of an unfinished byte are discarded, and SDO is high
impedance (R163, R169, R170). Under reset the decoder stays IGNORED (R162, R181; log entry 16). -/
def Port.risen (r : Port) (held : Bool) : Port :=
  { r with csLow := false, received := 0, request := [], turnaroundLeft := 0, reply := [], stream := none, bits := []
           statusTaken := none
           decoder := if held then .ignored else .idle
           sdo := none }

/-- CHIP_SELECT_RISE: a frame whose request was not taken is discarded; after that the reply and any read stream end, and
the request stands (R169, R170, R175). -/
def execChipSelectRise (p : PortId) (s : State) : Host.Outcome State Fault Refusal :=
  if (s.port p).csLow then
    let t := s.endStream p
    .next (t.setPort p ((t.port p).risen (s.portHeld p)))
  else .next s

/-- The byte that a stream delivers next: from the pinned block, or 0xFF on an unmapped page (R173). -/
def State.streamByte (s : State) (st : Stream) : Byte :=
  match st.pinned with
  | some b => s.flash.read (dataAddr b st.position)
  | none => Memory.erased

/-- Delivery of the last data byte: the stream ends, and the decoder is SPENT (R175). -/
def State.deliverLast (s : State) (p : PortId) (st : Stream) : State :=
  let t := s.endStream p
  t.setPort p { t.port p with decoder := .spent, sdo := some (s.streamByte st) }

/-- Delivery of the last byte of a page with bytes left: unpin first, then the next page is translated (R174). The page
after 463 does not exist, and the range check of R172 keeps a stream from it. -/
def State.deliverPageEnd (s : State) (p : PortId) (st : Stream) : State :=
  if h : st.page.val + 1 < 464 then
    let page : PageId := ⟨st.page.val + 1, h⟩
    (State.translate { s with bm := s.bm.unpinPage st.pinned } page).setPort p
      { s.port p with sdo := some (s.streamByte st)
                      stream := some { page := page, position := 0, pinned := s.map.currentBlock page,
                                       bytesLeft := st.bytesLeft - 1 } }
  else s

/-- Delivery of any other data byte (R174). -/
def State.deliverOrdinary (s : State) (p : PortId) (st : Stream) : State :=
  s.setPort p { s.port p with sdo := some (s.streamByte st)
                              stream := some { st with position := st.position + 1, bytesLeft := st.bytesLeft - 1 } }

/-- The next data byte is the last one of the stream. -/
def Stream.atEnd (st : Stream) : Bool := decide (st.bytesLeft ≤ 1)

/-- The next data byte is the last one of its page, with bytes left behind it. -/
def Stream.atPageEnd (st : Stream) : Bool := decide (1 < st.bytesLeft) && decide (4095 ≤ st.position)

/-- Delivery of a data byte of a stream, whichever of the three it is (R174, R175; log entry 17). -/
def State.deliverData (s : State) (p : PortId) (st : Stream) : State :=
  if st.atEnd then s.deliverLast p st
  else if st.atPageEnd then s.deliverPageEnd p st
  else s.deliverOrdinary p st

/-- The port delivers 0xFF (R164). -/
def State.driveOnes (s : State) (p : PortId) : State := s.setPort p { s.port p with sdo := some 0xFF }

/-- A byte of the part's has been delivered on SDO, its eighth bit sampled (R163, R164, R165, R173, R174). While chip select is
high or the decoder is IGNORED nothing is driven (R163). -/
def State.deliverByte (s : State) (p : PortId) : State :=
  let r := s.port p
  match r.decoder with
  | .idle | .ignored => s
  | .request | .spent => s.driveOnes p
  | .turnaround =>
    s.setPort p { r with sdo := some 0xFF, turnaroundLeft := r.turnaroundLeft - 1
                         decoder := if r.turnaroundLeft ≤ 1 then .reply else .turnaround }
  | .reply =>
    match r.reply with
    | [] => s
    | b :: rest =>
      s.setPort p { r with sdo := some b, reply := rest
                           decoder := if rest ≠ [] then .reply else if r.stream.isSome then .stream else .spent }
  | .stream =>
    match r.stream with
    | some st => s.deliverData p st
    | none => s

/-! ### The arrival of a request (R165 to R167) -/

/-- The state in an outcome; `s` where there is none. -/
def nextOr (s : State) : Host.Outcome State Fault Refusal → State
  | .next t => t
  | _ => s

/-- The state after a request has been taken: its command's meaning (R166). Another command is no request. -/
def State.afterRequest (c : Instr) (s : State) : State :=
  match c with
  | .read p page offset length => nextOr s (execRead p page offset length s)
  | .mapQuery p page => nextOr s (execMapQuery p page s)
  | .status p => nextOr s (execStatus p s)
  | .openSession p count pages => nextOr s (execOpenSession p count pages s)
  | .stage p sid member offset length data => nextOr s (execStage p sid member offset length data s)
  | .commit p sid => nextOr s (execCommit p sid s)
  | .abort p sid => nextOr s (execAbort p sid s)
  | .collect p sid => nextOr s (execCollect p sid s)
  | .watchSet p slot first last => nextOr s (execWatchSet p slot first last s)
  | .watchClear p slot => nextOr s (execWatchClear p slot s)
  | .noticeFetch p => nextOr s (execNoticeFetch p s)
  | .leaseSet p units => nextOr s (execLeaseSet p units s)
  | .freeze p => nextOr s (execFreeze p s)
  | .unknownRequestCode p code => nextOr s (execUnknownRequestCode p code s)
  | _ => s

/-- A byte of the master's has arrived. With the last parameter byte the frame is delimited, and its request is taken; before
that the byte is held (R164 to R167). -/
def State.arrive (s : State) (p : PortId) (b : Byte) : State :=
  let r := s.port p
  match decodeFrame p (r.request ++ [b]) with
  | some c => (s.setPort p { r with request := [], received := 0 }).afterRequest c
  | none => s.setPort p { r with request := r.request ++ [b], received := r.received + 1 }

/-! ### The edges of SCK (R163) -/

/-- The port after the eighth bit of a byte has been sampled: SCK is high, and the next byte has no bit yet. -/
def Port.sampledByte (r : Port) : Port := { r with bits := [], sckHigh := true }

/-- A rising edge of SCK samples SDI; the eighth completes a byte in both directions. The master's byte counts in REQUEST alone,
and is ignored in every later phase (R164). Edges while chip select is high are not counted, and an ignored frame has no bytes
(R163, R180). -/
def State.sckRise (s : State) (p : PortId) (sdi : Bool) : State :=
  let r := s.port p
  if r.sckHigh then s
  else if r.decoder = .idle ∨ r.decoder = .ignored then s.setPort p { r with sckHigh := true }
  else if r.bits.length < 7 then s.setPort p { r with bits := r.bits ++ [sdi], sckHigh := true }
  else
    let t := (s.setPort p r.sampledByte).deliverByte p
    if r.decoder = .request then t.arrive p (byteOfBits (r.bits ++ [sdi])) else t

/-- An edge of SCK. A falling one puts the next bit on SDO, which `State.sdoLevel` reads (R163). -/
def State.sckEdge (p : PortId) (s : State) : SckEdge → State
  | .rise sdi => s.sckRise p sdi
  | .fall => s.setPort p { s.port p with sckHigh := false }

/-- A STATUS is being taken: its code has arrived, and SCK has not moved since (R168, R177; log entry 33). -/
def Port.takingStatus (r : Port) : Bool :=
  decide (r.decoder = .turnaround) && decide (r.turnaroundLeft = 2) && r.bits.isEmpty && r.sckHigh

/-- While a STATUS is being taken, the groups of some owners are taken now: an event that came since its code arrived shows in them
and not in the others. One group at least is of the moment at which the code arrived; a STATUS with none is a STATUS later in
the queue (R177; log entry 33). -/
def State.gatherStatus (p : PortId) (owners : List StatusOwner) (s : State) : State :=
  let r := s.port p
  match r.statusTaken with
  | some g =>
    if r.takingStatus && !owners.isEmpty && StatusOwner.all.any (fun o => decide (o ∉ g.late ++ owners)) then
      let g' := g.retake (s.statusGroups p) owners
      s.setPort p { r with statusTaken := some g', reply := statusByte .ok :: g'.fields r.lease }
    else s
  | none => s

/-- REPLY_BYTE_DELIVERY: the edges of SCK that clock a byte of the part's, or as many of them as have come (R163, R165). Those of
the request phase come with the same command (log entry 18), and behind them the STATUS groups that are taken while a STATUS is
being taken (R177; log entry 33). -/
def execReplyByteDelivery (run : SckRun) (s : State) : Host.Outcome State Fault Refusal :=
  .next ((run.edges.foldl (State.sckEdge run.port) s).gatherStatus run.port run.gather)

/-- READ_STREAM_NEXT_PAGE (R174), at the eighth bit of the byte. When the stream does not deliver the last byte of a page with bytes
left, this is not the event, and nothing changes (log entry 17). -/
def execReadStreamNextPage (p : PortId) (s : State) : Host.Outcome State Fault Refusal :=
  match (s.port p).decoder, (s.port p).stream with
  | .stream, some st => if st.atPageEnd then .next ((s.setPort p (s.port p).sampledByte).deliverPageEnd p st) else .next s
  | _, _ => .next s

/-- READ_STREAM_END (R175), at the eighth bit of the byte. When the next byte is not the last one, this is not the event, and
nothing changes (log entry 17). -/
def execReadStreamEnd (p : PortId) (s : State) : Host.Outcome State Fault Refusal :=
  match (s.port p).decoder, (s.port p).stream with
  | .stream, some st => if st.atEnd then .next ((s.setPort p (s.port p).sampledByte).deliverLast p st) else .next s
  | _, _ => .next s

/-! ### SDO between the edges (R163) -/

/-- The byte that the part is sending on a port whose SDO it drives (R164, R173). -/
def State.sending (s : State) (p : PortId) : Byte :=
  let r := s.port p
  match r.decoder, r.stream with
  | .reply, _ => r.reply.headD 0xFF
  | .stream, some st => s.streamByte st
  | _, _ => 0xFF

/-- The level of SDO; none is high impedance. The most significant bit comes first: before the first rising edge of a byte bit 7,
after each falling edge the next; while SCK is high the bit just sampled stays (R163). -/
def State.sdoLevel (s : State) (p : PortId) : Option Bool :=
  let r := s.port p
  r.sdo.map fun last =>
    if r.sckHigh then
      if r.bits = [] then last.getLsbD 0 else (s.sending p).getLsbD (8 - r.bits.length)
    else (s.sending p).getLsbD (7 - r.bits.length)

end Sys2Proof.Machine
end

