-- ==== Sys2Proof/Machine/ResetFamily.lean ====
section
/-! DEFINITION. The resets: PRST_n of a port (R60, R155, R178 to R180), RESET_n (R91, R93, R112, R181) and the supply
(R3, R112). -/

namespace Sys2Proof.Machine

/-- A port in its reset state, held IGNORED, with its pin levels (Table 43). -/
def Port.held (r : Port) : Port :=
  { Port.reset with decoder := .ignored, sckHigh := r.sckHigh, csLow := r.csLow, prstLow := r.prstLow }

/-- Every session of a port is withdrawn from the engine (R60, R66). -/
def Engine.withdrawPort (e : Engine) (p : PortId) : Engine :=
  { e with queue := e.queue.set p.val [], start := e.start.map fun h => h.without (h.port == p) }

/-- The port reset of R178. -/
def State.portReset (s : State) (p : PortId) : State :=
  (({ s with
      bm := s.bm.unpinPage (streamPin (s.port p).stream)
      ses := s.ses.portReset p
      eng := s.eng.withdrawPort p }.setNotice p NoticePort.reset).setPort p
    { (s.port p).held with prstLow := true }).refreshAlerts

/-- PRST_N_ASSERT (R178). While the part is held in reset or has no supply, the port is in its reset state already, and
only the level of the pin changes. -/
def execPrstAssert (p : PortId) (s : State) : Host.Outcome State Fault Refusal :=
  if (s.port p).prstLow then .next s
  else if s.running then .next (s.portReset p)
  else .next (s.setPort p { s.port p with prstLow := true })

/-- PRST_N_RELEASE: offers are taken again, and the decoder returns to IDLE if chip select and RESET_n are high (R155,
R178, R180). -/
def execPrstRelease (p : PortId) (s : State) : Host.Outcome State Fault Refusal :=
  let r := s.port p
  if r.prstLow then
    .next (s.setPort p { r with prstLow := false, decoder := if s.running && !r.csLow then .idle else r.decoder })
  else .next s

/-- Every SRAM table at its reset state and every port held (R20, R34, R63, R93, R161, R181). The flags that a reset may
keep are given. The reset cause is recorded at the start of mounting. -/
def State.clearSram (s : State) (markFault frozen tableFault : Bool) : State :=
  { flash := s.flash
    bm := BlockManager.reset
    map := MapUnit.reset
    ses := SessionUnit.reset
    eng := Engine.reset markFault
    prot := { table := .empty, frozen := frozen, tableFault := tableFault }
    notices := Vector.replicate 4 NoticePort.reset
    ports := s.ports.map Port.held
    mount := Mount.start s.mount.cause
    power := s.power
    pending := s.pending }

/-- The decoder of a port when a reset of the part ends: IDLE, or IGNORED if chip select or PRST_n is low (R162, R181). -/
def Port.freed (r : Port) : Port := { r with decoder := if r.csLow || r.prstLow then .ignored else .idle }

/-- The start of mounting (R112, R126). -/
def State.mountStart (s : State) (cause : ResetCause) : State :=
  let t := s.clearSram s.eng.markFault s.prot.frozen false
  { t with mount := Mount.start cause, ports := t.ports.map Port.freed }

/-- RESET_N_ASSERT: the operation in flight is cut and every SRAM table discarded; MARK_FAULT and FROZEN are kept, and
TABLE_FAULT stands until the start of mounting (R91, R126, R181). -/
def execResetAssert (c : Cut) (s : State) : Host.Outcome State Fault Refusal :=
  if s.power.resetLow then .next s
  else if s.power.supplied then
    .next { (s.cutFlash c).clearSram s.eng.markFault s.prot.frozen s.prot.tableFault with
      power := { s.power with resetLow := true } }
  else .next { s with power := { s.power with resetLow := true } }

/-- RESET_N_RELEASE: mounting starts with reset cause RESET_LINE (R112). -/
def execResetRelease (s : State) : Host.Outcome State Fault Refusal :=
  if s.power.resetLow then
    let t := { s with power := { s.power with resetLow := false } }
    if s.power.supplied then .next (t.mountStart .resetLine) else .next t
  else .next s

/-- The supply is lost: the operation in flight is cut, and all SRAM state is lost (R3, R91). -/
def State.supplyLost (s : State) (c : Cut) : State :=
  { (s.cutFlash c).clearSram false false false with power := { s.power with supplied := false } }

/-- POWER_LOSS (R3). -/
def execPowerLoss (c : Cut) (s : State) : Host.Outcome State Fault Refusal :=
  if s.power.supplied then .next (s.supplyLost c) else .next s

/-- POWER_ON: all SRAM state is cleared, MARK_FAULT and FROZEN with it, and mounting starts with reset cause POWER_ON; with
RESET_n low it waits for the release (R112, R126). A part that is supplied is first taken through the loss of its supply
(log entry 19). -/
def execPowerOn (c : Cut) (s : State) : Host.Outcome State Fault Refusal :=
  let t := if s.power.supplied then s.supplyLost c else s
  let u := { t.clearSram false false false with
    mount := Mount.start .powerOn, power := { s.power with supplied := true } }
  if s.power.resetLow then .next u else .next (u.mountStart .powerOn)

end Sys2Proof.Machine
end

