-- ==== Sys2Proof/Machine/Dispatch.lean ====
section
/-! DEFINITION. The dispatch: one arm for each command, each one call of its meaning. -/

namespace Sys2Proof.Machine

def exec (i : Instr) (s : State) : Host.Outcome State Fault Refusal :=
  match i with
  | .read p page offset length => Sys2Proof.Machine.execRead p page offset length s
  | .mapQuery p page => Sys2Proof.Machine.execMapQuery p page s
  | .status p => Sys2Proof.Machine.execStatus p s
  | .openSession p count pages => Sys2Proof.Machine.execOpenSession p count pages s
  | .stage p session member offset length data => Sys2Proof.Machine.execStage p session member offset length data s
  | .commit p session => Sys2Proof.Machine.execCommit p session s
  | .abort p session => Sys2Proof.Machine.execAbort p session s
  | .collect p session => Sys2Proof.Machine.execCollect p session s
  | .watchSet p slot first last => Sys2Proof.Machine.execWatchSet p slot first last s
  | .watchClear p slot => Sys2Proof.Machine.execWatchClear p slot s
  | .noticeFetch p => Sys2Proof.Machine.execNoticeFetch p s
  | .leaseSet p units => Sys2Proof.Machine.execLeaseSet p units s
  | .freeze p => Sys2Proof.Machine.execFreeze p s
  | .unknownRequestCode p code => Sys2Proof.Machine.execUnknownRequestCode p code s
  | .csFall p => Sys2Proof.Machine.execCsFall p s
  | .chipSelectRise p => Sys2Proof.Machine.execChipSelectRise p s
  | .readStreamNextPage p => Sys2Proof.Machine.execReadStreamNextPage p s
  | .readStreamEnd p => Sys2Proof.Machine.execReadStreamEnd p s
  | .prstAssert p => Sys2Proof.Machine.execPrstAssert p s
  | .prstRelease p => Sys2Proof.Machine.execPrstRelease p s
  | .resetAssert cut => Sys2Proof.Machine.execResetAssert cut s
  | .resetRelease => Sys2Proof.Machine.execResetRelease s
  | .powerOn cut => Sys2Proof.Machine.execPowerOn cut s
  | .powerLoss cut => Sys2Proof.Machine.execPowerLoss cut s
  | .leaseExpiry session => Sys2Proof.Machine.execLeaseExpiry session s
  | .flashOpTimeout cut => Sys2Proof.Machine.execFlashOpTimeout cut s
  | .choiceOfWork => Sys2Proof.Machine.execChoiceOfWork s
  | .begunMarkCompletion written => Sys2Proof.Machine.execBegunMarkCompletion written s
  | .lineProgramCompletion written => Sys2Proof.Machine.execLineProgramCompletion written s
  | .dataStampCompletion written => Sys2Proof.Machine.execDataStampCompletion written s
  | .retireMarkCompletion written => Sys2Proof.Machine.execRetireMarkCompletion written s
  | .failureHandoff => Sys2Proof.Machine.execFailureHandoff s
  | .boundaryHandoff => Sys2Proof.Machine.execBoundaryHandoff s
  | .unwindRequest => Sys2Proof.Machine.execUnwindRequest s
  | .voidCompletion written => Sys2Proof.Machine.execVoidCompletion written s
  | .flip => Sys2Proof.Machine.execFlip s
  | .windowsTableReload => Sys2Proof.Machine.execWindowsTableReload s
  | .revocation => Sys2Proof.Machine.execRevocation s
  | .flipEndOfSession => Sys2Proof.Machine.execFlipEndOfSession s
  | .flipNoticeHandoff => Sys2Proof.Machine.execFlipNoticeHandoff s
  | .eraseCompletion written => Sys2Proof.Machine.execEraseCompletion written s
  | .freeStampCompletion written => Sys2Proof.Machine.execFreeStampCompletion written s
  | .mountBlockScan => Sys2Proof.Machine.execMountBlockScan s
  | .mountTableBuild => Sys2Proof.Machine.execMountTableBuild s
  | .windowsTableLoad => Sys2Proof.Machine.execWindowsTableLoad s
  | .mountVoidCompletion written => Sys2Proof.Machine.execMountVoidCompletion written s
  | .replyByteDelivery run => Sys2Proof.Machine.execReplyByteDelivery run s

end Sys2Proof.Machine
end

