-- ==== Sys2Proof/Machine/Step.lean ====
section
/-! DEFINITION. The step: take the command at the front of the queue. -/

namespace Sys2Proof.Machine

/-- One step: the front command on the state with the queue's rest; on an empty queue the part idles (log entry 10). -/
def step (s : State) : Host.Outcome State Fault Refusal :=
  match s.pending with
  | [] => .next s
  | c :: rest => exec c { s with pending := rest }

/-- The state with the command that a word spells at the front of its queue; unchanged where the word spells none. -/
def State.withFetchWord (s : State) (nbits w : Nat) : State :=
  match decodeTableWord nbits w with
  | some c => { s with pending := c :: s.pending }
  | none => s

end Sys2Proof.Machine
end

