-- ==== Sys2Proof/Safety.lean ====
section
/-! DEFINITION. What a safe run is: the laws of the part that the guide states, as predicates on State, and the vocabulary
of the claims. -/

namespace Sys2Proof.Machine

/-! ### Laws of the part -/

/-- The array is in canonical form. -/
def State.FlashLaw (s : State) : Prop := Memory.wf s.flash

/-- LOW_SPACE is set exactly when the free count plus the dirty count is less than 4 (R102). -/
def State.SpaceLaw (s : State) : Prop :=
  s.bm.lowSpace = decide (s.bm.freePool.length + s.bm.dirtyList.length < 4)

/-- The port owns a FINISHED session (R59). -/
def State.OwnsFinished (s : State) (p : PortId) : Prop :=
  ∃ i : SessionId, (s.ses.session i).owner = some p ∧ (s.ses.session i).state = .finished

/-- ALERT_n of a port is asserted if and only if the port owns a FINISHED session, has a non-empty notice queue, or has
its overrun flag set (R158). -/
def State.AlertLaw (s : State) : Prop :=
  ∀ p : PortId, s.alertAsserted p = true ↔
    s.OwnsFinished p ∨ (s.notice p).queue ≠ [] ∨ (s.notice p).overrun = true

/-- A notice queue holds at most 16 entries, at most one PAGE_CHANGED for each page and at most one TABLE_CHANGED
(R153). -/
def State.NoticeLaw (s : State) : Prop :=
  ∀ p : PortId, (s.notice p).queue.length ≤ 16 ∧ ((s.notice p).queue.map Notice.kind).Nodup

/-- A page is claimed by a session exactly when the session is in OPEN, QUEUED, PROGRAMMING or UNWINDING and the page is
one of its members (R38). -/
def State.ClaimLaw (s : State) : Prop :=
  ∀ (page : PageId) (i : SessionId), s.ses.claim page = some i ↔
    (s.ses.session i).state.holds = true ∧ page ∈ (s.ses.session i).members

/-- A session that holds buffers has one for each member, any other has none, and at most 8 buffers are in use (R39). -/
def State.BufferLaw (s : State) : Prop :=
  (∀ i : SessionId, (s.ses.session i).buffers.length =
    if (s.ses.session i).state.holds then (s.ses.session i).members.length else 0) ∧ s.ses.buffersInUse ≤ 8

/-- While FROZEN is set, page 463 is not claimed (R145). -/
def State.FreezeLaw (s : State) : Prop := s.prot.frozen = true → s.ses.claim Config.windowsPage = none

/-- SERIAL_END is set exactly when the next serial is greater than 0xFFFFFF00 (R24, R26, R27). -/
def State.SerialLaw (s : State) : Prop := s.map.serialEnd = decide (0xFFFFFF00 < s.map.nextSerial)

/-- The lease setting of every port is 1 to 250 (R162). -/
def State.LeaseLaw (s : State) : Prop :=
  ∀ p : PortId, 1 ≤ (s.port p).lease.toNat ∧ (s.port p).lease.toNat ≤ 250

/-- While chip select of a port is high, no stream stands, no STATUS is being taken, and SDO is high impedance (R163, R165, R175);
in REQUEST the count of bytes received is that of the bytes held (R162); the groups held of a STATUS are not all late (log entry
33), and none of its session entries is of a FREE slot (R176, R177). -/
def State.FrameLaw (s : State) : Prop :=
  ∀ p : PortId,
    ((s.port p).csLow = false →
      (s.port p).stream = none ∧ (s.port p).statusTaken = none ∧ (s.port p).sdo = none
      ∧ ((s.port p).decoder = .idle ∨ (s.port p).decoder = .ignored))
    ∧ ((s.port p).decoder = .request → (s.port p).received = (s.port p).request.length)
    ∧ ∀ g, (s.port p).statusTaken = some g → (∃ o : StatusOwner, o ∉ g.late) ∧ ∀ e ∈ g.sessions, e.2 ≠ SessionState.free

/-! ### Vocabulary of the claims -/

/-- The state with the frame of a port answered: `n` request bytes received, the last with the eighth rising edge of SCK, two
turnaround bytes to come, and then the reply bytes; nothing else is changed (R163, R164). -/
def State.replied (s : State) (p : PortId) (n : Nat) (bytes : List Byte) : State :=
  s.setPort p { s.port p with decoder := .turnaround, received := n, turnaroundLeft := 2, reply := bytes, bits := [],
                              sckHigh := true }

/-- The bytes of a STATUS reply with fields `g`: OK, and the fields of Table 55 (R176, R188). -/
def StatusGroups.Spells (g : StatusGroups) (lease : Byte) (bytes : List Byte) : Prop :=
  ∃ (flags : Byte) (code : SessionState → Byte),
    code .opened = 0x01 ∧ code .queued = 0x02 ∧ code .programming = 0x03 ∧ code .unwinding = 0x04 ∧ code .finished = 0x05
    ∧ flags.getLsbD 0 = g.tables.lowSpace ∧ flags.getLsbD 1 = g.tables.serialEnd ∧ flags.getLsbD 2 = g.markFault
    ∧ flags.getLsbD 3 = g.protection.tableFault ∧ flags.getLsbD 4 = g.protection.frozen
    ∧ (∀ k, 5 ≤ k → flags.getLsbD k = false)
    ∧ let entry (k : Nat) : List Byte :=
        match g.sessions[k]? with
        | some (i, st) => [BitVec.ofNat 8 i.val, code st]
        | none => [0xFF, 0xFF]
      bytes = [0x00, 0x42, 0x10, if g.scanner.condition = .ready then 0x01 else 0x00]
        ++ natBytes2 g.scanner.position ++ [if g.scanner.cause = .powerOn then 0x01 else 0x02]
        ++ natBytes2 g.tables.free ++ natBytes2 g.tables.dirty ++ natBytes2 g.tables.retired ++ natBytes2 g.tables.mapped
        ++ [flags, BitVec.ofNat 8 g.sessions.length] ++ entry 0 ++ entry 1
        ++ [BitVec.ofNat 8 g.notices.count, if g.notices.overrun then 0x01 else 0x00, lease]

/-- The state with another record in a session slot. -/
def State.withSession (s : State) (i : SessionId) (r : Session) : State := { s with ses := s.ses.setSession i r }

/-- A frame has begun on the port and no bit of it has come, so that a request command can be taken (R165; log entry 18). -/
def State.Receiving (s : State) (p : PortId) : Prop :=
  (s.port p).decoder = .request ∧ (s.port p).request = [] ∧ (s.port p).bits = []

/-- The part is READY. -/
def State.Ready (s : State) : Prop := s.mount.condition = .ready

/-- The session is the port's own: in use and owned by it (R37). -/
def State.Own (s : State) (p : PortId) (i : SessionId) : Prop :=
  (s.ses.session i).state ≠ .free ∧ (s.ses.session i).owner = some p

/-- The edges of SCK that clock bits of SDI: for each bit a fall and a rise (R163). -/
def clockEdges (bits : List Bool) : List SckEdge := bits.flatMap fun b => [.fall, .rise b]

/-- The bits that the rising edges of SCK sample from SDI; `high` is the level of SCK before them (R163). -/
def sampledBits : Bool → List SckEdge → List Bool
  | _, [] => []
  | _, .fall :: rest => sampledBits false rest
  | true, .rise _ :: rest => sampledBits true rest
  | false, .rise sdi :: rest => sdi :: sampledBits true rest

/-- The bytes that have arrived, each at its eighth bit; the bits of an unfinished byte are discarded (R163). -/
def arrivedBytes : List Bool → List Byte
  | a :: b :: c :: d :: e :: f :: g :: h :: rest => byteOfBits [a, b, c, d, e, f, g, h] :: arrivedBytes rest
  | _ => []

/-- The bits of a sequence of bytes on the wire (R163). -/
def wireBits (bytes : List Byte) : List Bool := bytes.flatMap byteBits

/-- The request that the bits of a frame spell, as soon as the last bit of its last parameter byte has been sampled (R163,
R166, R167). -/
def decodeBits (port : PortId) (bits : List Bool) : Option Instr := decodeFrame port (arrivedBytes bits)

/-- The byte that spells a session id. -/
def sidByte (i : SessionId) : Byte := BitVec.ofNat 8 i.val

/-- The two-byte field that spells a page number. -/
def pageHalf (q : PageId) : Half := BitVec.ofNat 16 q.val

/-- Outside a range of addresses two arrays read the same. -/
def Memory.SameOutside (m m' : Memory) (first n : Nat) : Prop := ∀ a, a < first ∨ first + n ≤ a → m'.read a = m.read a

/-- The two states have the same ports up to the conditions of ALERT_n, which their owners hand over. -/
def State.SamePorts (s t : State) : Prop := ∀ p : PortId, { t.port p with alert := (s.port p).alert } = s.port p

/-- The merged content of a byte: the staged value, else the base block's byte, else 0xFF (R45). -/
def mergedByte (flash : Memory) (buffer : Buffer) (base : Option BlockId) (offset : Nat) : Byte :=
  match buffer.staged offset with
  | some v => v
  | none =>
    match base with
    | some b => flash.read (dataAddr b offset)
    | none => 0xFF

/-! ### Relations between a state and the next -/

/-- Only pins moved: one off `down`, then one on `up`; classes, erase counts and collections are unchanged (R18). -/
def BlockManager.PinsMoved (bm bm' : BlockManager) (down up : Option BlockId) : Prop :=
  bm' = { bm with table := bm'.table } ∧
  ∀ c : BlockId, bm'.block c = (bm.block c).map fun r =>
    { r with pins := r.pins - (if down = some c then 1 else 0) + (if up = some c then 1 else 0) }

/-- Only block `b` changed its class, with its erase count and pin count kept (R8), and LOW_SPACE follows the counts
(R102). The collections are not spoken of. -/
def BlockManager.Reclassed (bm bm' : BlockManager) (b : BlockId) (c : BlockClass) : Prop :=
  (∀ x : BlockId, bm'.block x = if x = b then (bm.block b).map (fun r => { r with cls := c }) else bm.block x)
  ∧ bm'.lowSpace = decide (bm'.freePool.length + bm'.dirtyList.length < 4)

/-- The block that was allocated for session `i`: the first of the Free Pool, now TARGET (R10). -/
def BlockManager.Allocated (bm bm' : BlockManager) (i : SessionId) (b : BlockId) : Prop :=
  bm.freePool = b :: bm'.freePool ∧ bm'.dirtyList = bm.dirtyList ∧ bm'.retiredSet = bm.retiredSet
  ∧ bm.Reclassed bm' b (.target i)

/-- A record that has become FINISHED (R57). -/
def Session.finishedAs (r : Session) (o : SessionOutcome) : Session :=
  { r with state := .finished, buffers := [], lease := none, boundaryPassed := false, outcome := some o }

/-- Session `i` ended with record `r`: its claims are released together, and no other session changed (R38, R57). -/
def SessionUnit.EndedWith (u v : SessionUnit) (i : SessionId) (r : Session) : Prop :=
  v.session i = r ∧ (∀ j : SessionId, j ≠ i → v.session j = u.session j)
  ∧ (∀ q : PageId, v.claim q = if u.claim q = some i then none else u.claim q)
  ∧ v.failure = u.failure ∧ v.unwindRequest = u.unwindRequest

/-- Session `i` has left the engine queue, wherever it stood; the rest of each list keeps its order, and a start hand-off that names
the session will be refused (R48, R66). -/
def Engine.Without (e e' : Engine) (i : SessionId) : Prop :=
  e' = { e with queue := e'.queue, start := e'.start } ∧ (∀ q : PortId, e'.queueOf q = (e.queueOf q).filter (· != i))
  ∧ e'.start = e.start.map fun h => { h with live := h.live && !(h.session == i) }

/-- The ports changed in nothing but ALERT_n, which agrees with its conditions (R158). -/
def State.AlertsFollow (s t : State) : Prop := s.SamePorts t ∧ t.AlertLaw

/-- Session `i` ended before its commit started: FINISHED with outcome `o`, out of the engine queue, ALERT_n following;
nothing else changed (R57, R66). -/
def State.FinishedEarly (s t : State) (i : SessionId) (o : SessionOutcome) : Prop :=
  t = { s with ses := t.ses, eng := t.eng, ports := t.ports }
  ∧ s.ses.EndedWith t.ses i ((s.ses.session i).finishedAs o) ∧ s.eng.Without t.eng i ∧ s.AlertsFollow t

/-- What an operation that ran to its completion left, before its stamps are judged: bytes outside the field, line or block as
before; inside, the intended bytes (for an erase 0xFF), or those that the completion is said to have left (R2; log entry 4).
A program changes no byte that was programmed already (R1). -/
def State.Leaves (s : State) (op : FlashOp) (w : Written) (m : Memory) : Prop :=
  s.flash.SameOutside m op.start op.size ∧ ∀ k, k < op.size →
    let old : Byte := s.flash.read (op.start + k)
    m.read (op.start + k) =
      match op, w with
      | .erase _, .intended => 0xFF
      | .erase _, .left bs => bs.getD k old
      | _, .intended => if old = 0xFF then (s.intendedBytes op).getD k old else old
      | _, .left bs => if old = 0xFF then bs.getD k old else old

/-- The operation would leave a data stamp that reads valid without being the one it programs (R91, R92). -/
def State.StrayDataStamp (s : State) (op : FlashOp) (m : Memory) : Prop :=
  (op = .dataStamp op.block ∨ op = .erase op.block) ∧ (dataStamp (m.readBytes (spareAddr op.block 0) 64)).isSome = true
  ∧ m.readBytes (spareAddr op.block 8) 18 ≠ s.intendedBytes op

/-- The operation would leave a free stamp that reads valid without being the one it programs (R109). -/
def State.StrayFreeStamp (s : State) (op : FlashOp) (m : Memory) : Prop :=
  (op = .freeStamp op.block ∨ op = .erase op.block) ∧ (freeStampCount (m.readBytes (spareAddr op.block 0) 64)).isSome = true
  ∧ m.readBytes (spareAddr op.block 0) 6 ≠ s.intendedBytes op

/-- The erase of a block that was voided or retired would leave its data stamp reading valid (R3, note; R92). -/
def State.StrayDiscard (s : State) (op : FlashOp) (m : Memory) : Prop :=
  op = .erase op.block ∧ (dataStamp (m.readBytes (spareAddr op.block 0) 64)).isSome = true
  ∧ (s.flash.read (spareAddr op.block 32) ≠ 0xFF ∨ s.flash.read (spareAddr op.block 33) ≠ 0xFF)

/-- What a completion left in the array: the bytes of the operation, but a stray stamp leaves its field as it was, and so does the
discard word of a block that was voided or retired and whose stamp still reads valid (R2; log entries 4 and 32). -/
def State.Writes (s : State) (op : FlashOp) (w : Written) (m : Memory) : Prop :=
  ∃ raw : Memory, s.Leaves op w raw ∧ ∀ a,
    let keeps : Prop :=
      s.StrayDataStamp op raw ∧ spareAddr op.block 8 ≤ a ∧ a < spareAddr op.block 26
      ∨ s.StrayFreeStamp op raw ∧ spareAddr op.block 0 ≤ a ∧ a < spareAddr op.block 6
      ∨ s.StrayDiscard op raw ∧ spareAddr op.block 32 ≤ a ∧ a < spareAddr op.block 36
    (keeps → m.read a = s.flash.read a) ∧ (¬ keeps → m.read a = raw.read a)

/-- The first target that a list of targets holds, in member order (R81). -/
def FirstTarget (targets : List (Option BlockId)) (b : BlockId) : Prop :=
  ∃ before after : List (Option BlockId), targets = before ++ some b :: after ∧ ∀ x ∈ before, x = none

/-- The Session Unit has taken a failure: a PROGRAMMING session is UNWINDING with outcome FAILED and the reason, any other is as it was
(R49). -/
def SessionUnit.FailureTaken (u v : SessionUnit) (f : Failure) : Prop :=
  let r := u.session f.session
  (r.state = .programming →
    v = { u.setSession f.session { r with state := .unwinding, outcome := some (.failed f.reason) } with failure := none })
  ∧ (r.state ≠ .programming → v = { u with failure := none })

/-- Unwinding has ended: the UNWINDING session is FINISHED with its noted outcome, or FREE if it is detached, the engine is IDLE,
and no unwind request stands (R50, R61, R85; log entry 14). -/
def State.UnwindEnded (s t : State) (i : SessionId) (o : SessionOutcome) : Prop :=
  t = { s with ses := t.ses, eng := { s.eng with work := .idle }, ports := t.ports }
  ∧ t.ses.unwindRequest = none
  ∧ s.ses.EndedWith { t.ses with unwindRequest := s.ses.unwindRequest } i
      (if (s.ses.session i).owner.isSome then (s.ses.session i).finishedAs o else Session.freeSlot)
  ∧ s.AlertsFollow t

/-- The engine goes on unwinding: to the first target held, or, with none held, to the end, at once (R81, R85). A failure that
still stands is taken before the end, in the same event (log entry 13). -/
def State.UnwindGoesOn (s t : State) (u : UnwindRec) : Prop :=
  (∀ b, FirstTarget u.targets b → t = s.setWork (.unwind u (.void b 0)))
  ∧ ((∀ x ∈ u.targets, x = none) → ∃ v : SessionUnit,
      (s.ses.failure = none → v = s.ses) ∧ (∀ f, s.ses.failure = some f → s.ses.FailureTaken v f)
      ∧ ∀ o : SessionOutcome, (v.session u.session).state = .unwinding → (v.session u.session).outcome = some o →
          State.UnwindEnded { s with ses := v } t u.session o)

/-- The engine gives up on a commit: the failure is handed to the Session Unit, and unwinding begins (R78). -/
def State.GivesUp (s t : State) (r : CommitRec) (reason : FailReason) : Prop :=
  State.UnwindGoesOn { s with ses := { s.ses with failure := some { session := r.session, reason := reason } } } t r.toUnwind

/-- The engine begins member `r.member` on a new block, or gives up with NO_SPACE when the Free Pool is empty (R73). -/
def State.BeginsMember (s t : State) (r : CommitRec) : Prop :=
  (∀ (b : BlockId) (rest : List BlockId), s.bm.freePool = b :: rest → ∃ bm : BlockManager,
    s.bm.Allocated bm r.session b ∧
    let r' : CommitRec := { r with targets := r.targets.set r.member (some b), tries := r.tries + 1 }
    t = { s with bm := bm, eng := { s.eng with work := .commit r' .begunMark } })
  ∧ (s.bm.freePool = [] → s.GivesUp t r .noSpace)

/-- A flip hand-off has been taken and `w` says which remain. The flip is reported to the engine, which is then IDLE, when the
reload, the revocation and the end of session have been taken (R29, R86). -/
def State.HandoffTaken (s t : State) (w : FlipWork) : Prop :=
  let complete : Prop := w.reloadDue = false ∧ w.revocationDue = false ∧ w.sessionEndDue = false
  (complete → w.noticesDue = false → t.map = { s.map with flip := none })
  ∧ (¬ (complete ∧ w.noticesDue = false) → t.map = { s.map with flip := some w })
  ∧ (∀ r, complete → s.eng.work = .commit r .flipTaken → t.eng = { s.eng with work := .idle })
  ∧ ((¬ complete ∨ ∀ r, s.eng.work ≠ .commit r .flipTaken) → t.eng = s.eng)

/-- A port right after a reset of the part or of itself, held IGNORED (Table 43). -/
def Port.Cleared (r r' : Port) (prstLow : Bool) : Prop :=
  r' = { decoder := .ignored, received := 0, request := [], turnaroundLeft := 0, reply := [], stream := none, lease := 100,
         alert := { finishedSession := false, noticeQueued := false, overrun := false }, sdo := none,
         bits := [], statusTaken := none, sckHigh := r.sckHigh, csLow := r.csLow, prstLow := prstLow }

/-- Every SRAM table of the part is in its reset state (R20, R34, R63, R93, R112, R146, R161). The flags that a reset may
keep, the ports and the pins are not spoken of. -/
def State.TablesReset (t : State) : Prop :=
  (∀ b, t.bm.block b = none) ∧ t.bm.freePool = [] ∧ t.bm.dirtyList = [] ∧ t.bm.retiredSet = [] ∧ t.bm.lowSpace = true
  ∧ (∀ q, t.map.entry q = none) ∧ t.map.mapped = 0 ∧ t.map.serialEnd = false ∧ t.map.flip = none
  ∧ (∀ i, t.ses.session i = Session.freeSlot) ∧ (∀ q, t.ses.claim q = none) ∧ t.ses.freeBuffers = 8
  ∧ t.ses.failure = none ∧ t.ses.unwindRequest = none
  ∧ t.eng.work = .idle ∧ t.eng.start = none ∧ (∀ p, t.eng.queueOf p = []) ∧ t.eng.pointer = 3
  ∧ t.prot.table = .empty
  ∧ (∀ p, (∀ k : Fin 4, (t.notice p).watches[k.val] = none) ∧ (t.notice p).queue = [] ∧ (t.notice p).overrun = false)
  ∧ t.mount.position = 0 ∧ t.mount.tally = [] ∧ t.mount.voidList = []

/-- The array after the operation in flight was cut (R3): with none in flight as before; a program leaves everything outside
its field or line, and every byte programmed before (R1); an erase leaves every other block, and in its first phase the free
stamp and the discard word, in its second phase an erased data area and data slot. A stamp that reads valid afterwards is
whole: the one that stood there, or the one that was being programmed (R91, R92, R109; log entry 32). -/
def State.CutArray (s t : State) (c : Cut) : Prop :=
  (s.eng.work.inFlight = none → t.flash = s.flash)
  ∧ (∀ op, s.eng.work.inFlight = some op → s.flash.SameOutside t.flash op.start op.size)
  ∧ (∀ b, s.eng.work.inFlight = some (.erase b) → c.secondPhase = false →
      ∀ j, j < 8 ∨ (32 ≤ j ∧ j < 36) → t.flash.read (spareAddr b j) = s.flash.read (spareAddr b j))
  ∧ (∀ b, s.eng.work.inFlight = some (.erase b) → c.secondPhase = true →
      (∀ o, o < 4096 → t.flash.read (dataAddr b o) = 0xFF)
      ∧ ∀ j, 8 ≤ j → j < 32 → t.flash.read (spareAddr b j) = 0xFF)
  ∧ ∀ op, s.eng.work.inFlight = some op →
      ((∀ b, op ≠ .erase b) → ∀ a, s.flash.read a ≠ 0xFF → t.flash.read a = s.flash.read a)
      ∧ ((∀ k, op = .line op.block k → k < 16) →
        ((dataStamp (t.flash.readBytes (spareAddr op.block 0) 64)).isSome = true →
          t.flash.readBytes (spareAddr op.block 8) 18 = s.flash.readBytes (spareAddr op.block 8) 18
          ∨ op = .dataStamp op.block ∧ t.flash.readBytes (spareAddr op.block 8) 18 = s.intendedBytes op)
      ∧ ((freeStampCount (t.flash.readBytes (spareAddr op.block 0) 64)).isSome = true →
          t.flash.readBytes (spareAddr op.block 0) 6 = s.flash.readBytes (spareAddr op.block 0) 6
          ∨ op = .freeStamp op.block ∧ t.flash.readBytes (spareAddr op.block 0) 6 = s.intendedBytes op))

/-- An entry of the group tally is complete: consistent, and every member present or covered by a candidate of its page with a
higher serial (R117, R119). -/
def TallyEntry.Complete (tally : List TallyEntry) (e : TallyEntry) : Prop :=
  e.consistent = true ∧ ∀ i, i < e.count →
    (∃ c ∈ e.members, c.index = i)
    ∨ ∃ page, e.pages[i]? = some page ∧ ∃ f ∈ tally, e.serial < f.serial ∧ ∃ c ∈ f.members, c.page = page

/-- Candidate `c` of entry `e` is the current version of its page: it is of a complete entry, and no candidate of the page from
a complete entry has a higher serial, or the same serial on a lower block (R120). -/
def CurrentVersion (tally : List TallyEntry) (e : TallyEntry) (c : Candidate) : Prop :=
  e ∈ tally ∧ e.Complete tally ∧ c ∈ e.members ∧
  ∀ f ∈ tally, f.Complete tally → ∀ d ∈ f.members, d.page = c.page →
    f.serial < e.serial ∨ (f.serial = e.serial ∧ c.block.val ≤ d.block.val)


/-- The block was retired: RETIRED, in the Retired Set, and off the Dirty List, whose rest keeps its order (R13). -/
def BlockManager.Retired (bm bm' : BlockManager) (b : BlockId) : Prop :=
  bm'.freePool = bm.freePool ∧ bm'.dirtyList = bm.dirtyList.filter (· != b)
  ∧ (∀ x, x ∈ bm'.retiredSet ↔ x = b ∨ x ∈ bm.retiredSet) ∧ bm.Reclassed bm' b .retired

/-- The voided target became DIRTY at the tail of the Dirty List (R12). -/
def BlockManager.Voided (bm bm' : BlockManager) (b : BlockId) : Prop :=
  bm'.freePool = bm.freePool ∧ bm'.dirtyList = bm.dirtyList ++ [b] ∧ bm'.retiredSet = bm.retiredSet
  ∧ bm.Reclassed bm' b .dirty

/-- The block stands before another in the order of the Free Pool: by erase count, then by block index (R15). -/
def BlockManager.Before (bm : BlockManager) (a b : BlockId) : Prop :=
  bm.eraseCount a < bm.eraseCount b ∨ (bm.eraseCount a = bm.eraseCount b ∧ a.val < b.val)

/-- The erased block became FREE with its erase count one higher, at most 0xFFFFFF, and entered the Free Pool in front of the
first block that it stands before (R14, R15, R17, R98). -/
def BlockManager.Returned (bm bm' : BlockManager) (b : BlockId) : Prop :=
  bm'.dirtyList = bm.dirtyList ∧ bm'.retiredSet = bm.retiredSet
  ∧ (∀ x : BlockId, bm'.block x = if x = b then (bm.block b).map fun r =>
      { r with cls := .free, eraseCount := min (bm.eraseCount b + 1) 0xFFFFFF } else bm.block x)
  ∧ (∃ before after : List BlockId, bm.freePool = before ++ after ∧ bm'.freePool = before ++ b :: after
      ∧ (∀ x ∈ before, ¬ bm'.Before b x) ∧ ∀ x, after.head? = some x → bm'.Before b x)
  ∧ bm'.lowSpace = decide (bm'.freePool.length + bm'.dirtyList.length < 4)

/-! ### Operations in flight -/

/-- The read-back shows success: a byte of the discard word reads other than 0xFF (R7), an erased block reads 0xFF throughout
(R96), any other field or line reads as intended (R2). -/
def State.Verified (s : State) (op : FlashOp) (m : Memory) : Prop :=
  match op with
  | .void b => m.read (spareAddr b 32) ≠ 0xFF
  | .retire b => m.read (spareAddr b 33) ≠ 0xFF
  | .erase b => ∀ k, k < 4160 → m.read (dataAddr b k) = 0xFF
  | _ => m.readBytes op.start op.size = s.intendedBytes op

/-- A program of a commit has ended: a failed one retires the target (R76), a verified one is followed by unwinding when that
was requested (R80), and by `next` otherwise. -/
def State.ProgramEnds (s t : State) (r : CommitRec) (ok next : Prop) : Prop :=
  (¬ ok → t = s.setWork (.commit r (.retire 0)))
  ∧ (ok → r.unwindRequested = true → s.UnwindGoesOn t r.toUnwind)
  ∧ (ok → r.unwindRequested = false → next)

/-- An attempt on discard byte 1 has ended: again after a failed one, up to 3 attempts; then the block is retired, with
MARK_FAULT set if the last attempt failed, and `after` follows (R76, R83, R84, R89, R99). -/
def State.MarkEnds (s t : State) (b : BlockId) (attempts : Nat) (ok : Prop) (again : Work) (after : State → Prop) : Prop :=
  (¬ ok → attempts + 1 < 3 → t = s.setWork again)
  ∧ (ok ∨ 3 ≤ attempts + 1 → ∃ (bm : BlockManager) (fault : Bool), s.bm.Retired bm b
      ∧ (fault = true ↔ s.eng.markFault = true ∨ ¬ ok)
      ∧ after { s with bm := bm, eng := { s.eng with markFault := fault } })

/-- The engine goes on with the mount-void list, or ends it: the part is READY, and the first choice of work is made in the same
event (R89, R124). -/
def State.MountVoidGoesOn (s t : State) (rest : List BlockId) : Prop :=
  (∀ b l, rest = b :: l → t = s.setWork (.mountVoid b l (.void 0)))
  ∧ (rest = [] → exec .choiceOfWork { s with
      eng := { s.eng with work := .idle },
      mount := { s.mount with condition := .ready, stage := .ended, tally := [], voidList := [] } } = .next t)

/-- What follows the end of the operation in flight, by whether it verified (R73 to R77, R82 to R86, R89, R96 to R99). -/
def State.OpEnds (s t : State) (ok : Prop) : Prop :=
  match s.eng.work with
  | .commit r .begunMark => s.ProgramEnds t r ok (t = s.setWork (.commit r (.line 0)))
  | .commit r (.line k) =>
    let last : Prop := r.pages.length ≤ r.member + 1
    s.ProgramEnds t r ok
      ((k < 15 → t = s.setWork (.commit r (.line (k + 1))))
        ∧ (k = 15 → last ∧ r.boundaryHanded = false → t = s.setWork (.commit r .boundary))
        ∧ (k = 15 → ¬ (last ∧ r.boundaryHanded = false) → t = s.setWork (.commit r .dataStamp)))
  | .commit r .dataStamp =>
    s.ProgramEnds t r ok
      ((r.pages.length ≤ r.member + 1 → t = s.setWork (.commit r .flipRequested))
        ∧ (r.member + 1 < r.pages.length → s.BeginsMember t { r with member := r.member + 1, tries := 0 }))
  | .commit r (.retire n) => ∀ b, r.currentTarget = some b →
    s.MarkEnds t b n ok (.commit r (.retire (n + 1))) fun u =>
      let r' : CommitRec := { r with targets := r.targets.set r.member none }
      (r.unwindRequested = true → u.UnwindGoesOn t r'.toUnwind)
      ∧ (r.unwindRequested = false → r.tries < 3 → u.BeginsMember t r')
      ∧ (r.unwindRequested = false → 3 ≤ r.tries → u.GivesUp t r' (.verify r.member))
  | .unwind r (.void b n) =>
    (ok → ∃ bm, s.bm.Voided bm b ∧ State.UnwindGoesOn { s with bm := bm } t { r with targets := dropTarget b r.targets })
    ∧ (¬ ok → t = s.setWork (.unwind r (if n + 1 < 3 then .void b (n + 1) else .retire b 0)))
  | .unwind r (.retire b n) =>
    s.MarkEnds t b n ok (.unwind r (.retire b (n + 1))) fun u =>
      u.UnwindGoesOn t { r with targets := dropTarget b r.targets }
  | .erase b .erase => (ok → t = s.setWork (.erase b .freeStamp)) ∧ (¬ ok → t = s.setWork (.erase b (.retire 0)))
  | .erase b .freeStamp =>
    (ok → ∃ bm, s.bm.Returned bm b ∧ t = State.setWork { s with bm := bm } .idle)
    ∧ (¬ ok → t = s.setWork (.erase b (.retire 0)))
  | .erase b (.retire n) => s.MarkEnds t b n ok (.erase b (.retire (n + 1))) fun u => t = u.setWork .idle
  | .mountVoid b rest (.void n) =>
    (ok → s.MountVoidGoesOn t rest)
    ∧ (¬ ok → t = s.setWork (.mountVoid b rest (if n + 1 < 3 then .void (n + 1) else .retire 0)))
  | .mountVoid b rest (.retire n) =>
    s.MarkEnds t b n ok (.mountVoid b rest (.retire (n + 1))) fun u => u.MountVoidGoesOn t rest
  | .idle | .commit _ .boundary | .commit _ .flipRequested | .commit _ .flipTaken => False

/-- Command `c` completes operation `op`: it takes what `w` says the completion left in the array, and the engine goes on by the
read-back of it. -/
def State.Completes (s : State) (c : Instr) (op : FlashOp) (w : Written) : Prop :=
  ∃ (m : Memory) (t : State), s.Writes op w m ∧ exec c s = .next t ∧ State.OpEnds { s with flash := m } t (s.Verified op m)

/-! ### Queues -/

/-- The session that a choice of work takes: the oldest of the first port, after the round-robin pointer, that has one (R67,
R69). -/
def Engine.NextIs (e : Engine) (p : PortId) (i : SessionId) : Prop :=
  (e.queueOf p).head? = some i ∧ ∃ d, d < 4 ∧ p.val = (e.pointer.val + 1 + d) % 4
    ∧ ∀ (d' : Nat) (q : PortId), d' < d → q.val = (e.pointer.val + 1 + d') % 4 → e.queueOf q = []

/-- An offered notice entered a port's queue: coalesced, appended or dropped (R153). -/
def NoticePort.Took (n n' : NoticePort) (o : Notice) : Prop :=
  n'.watches = n.watches
  ∧ ((∃ e ∈ n.queue, e.kind = o.kind) →
      n'.queue = n.queue.map (fun e => if e.kind = o.kind then { e with serial := o.serial, writer := o.writer } else e)
      ∧ n'.overrun = n.overrun)
  ∧ ((∀ e ∈ n.queue, e.kind ≠ o.kind) → n.queue.length < 16 → n'.queue = n.queue ++ [o] ∧ n'.overrun = n.overrun)
  ∧ ((∀ e ∈ n.queue, e.kind ≠ o.kind) → 16 ≤ n.queue.length → n'.queue = n.queue ∧ n'.overrun = true)

/-- The notices of a list entered a port's queue in its order. -/
def NoticePort.TookAll (n n' : NoticePort) : List Notice → Prop
  | [] => n' = n
  | o :: os => ∃ k : NoticePort, n.Took k o ∧ k.TookAll n' os

/-! ### When a command is an event -/

/-- What a command other than a request is about is due, so that it is an event (log entries 3 and 17). -/
def State.Due (s : State) : Instr → Prop
  | .begunMarkCompletion _ => ∃ r, s.eng.work = .commit r .begunMark
  | .lineProgramCompletion _ => ∃ r k, s.eng.work = .commit r (.line k)
  | .dataStampCompletion _ => ∃ r, s.eng.work = .commit r .dataStamp
  | .retireMarkCompletion _ => ∃ b, s.eng.work.inFlight = some (.retire b)
  | .voidCompletion _ => ∃ u b n, s.eng.work = .unwind u (.void b n)
  | .eraseCompletion _ => ∃ b, s.eng.work = .erase b .erase
  | .freeStampCompletion _ => ∃ b, s.eng.work = .erase b .freeStamp
  | .mountVoidCompletion _ => ∃ b rest step, s.eng.work = .mountVoid b rest step
  | .flashOpTimeout _ => s.eng.work.inFlight ≠ none
  | .choiceOfWork => s.running = true ∧ s.Ready ∧ s.eng.work = .idle
  | .failureHandoff => s.ses.failure ≠ none
  | .boundaryHandoff => ∃ r, s.eng.work = .commit r .boundary
  | .unwindRequest => s.ses.unwindRequest ≠ none
  | .flip => (∃ r, s.eng.work = .commit r .flipRequested) ∧ s.map.flip = none
  | .windowsTableReload => ∃ w, s.map.flip = some w ∧ w.reloadDue = true
  | .revocation => ∃ w, s.map.flip = some w ∧ w.revocationDue = true
  | .flipEndOfSession => ∃ w, s.map.flip = some w ∧ w.sessionEndDue = true ∧ w.reloadDue = false
  | .flipNoticeHandoff => ∃ w, s.map.flip = some w ∧ w.noticesDue = true ∧ w.reloadDue = false
  | .mountBlockScan => s.mountRuns = true ∧ s.mount.stage = .scan ∧ s.mount.position < 512
  | .mountTableBuild => s.mountRuns = true ∧ s.mount.stage = .scan ∧ 512 ≤ s.mount.position
  | .windowsTableLoad => s.mountRuns = true ∧ s.mount.stage = .built
  | .leaseExpiry i => (s.ses.session i).state = .opened
  | .readStreamNextPage p =>
    (s.port p).decoder = .stream ∧ ∃ st, (s.port p).stream = some st ∧ 1 < st.bytesLeft ∧ 4095 ≤ st.position
  | .readStreamEnd p => (s.port p).decoder = .stream ∧ ∃ st, (s.port p).stream = some st ∧ st.bytesLeft ≤ 1
  | .csFall p => (s.port p).csLow = false
  | .chipSelectRise p => (s.port p).csLow = true
  | .prstAssert p => (s.port p).prstLow = false
  | .prstRelease p => (s.port p).prstLow = true
  | .resetAssert _ => s.power.resetLow = false
  | .resetRelease => s.power.resetLow = true
  | .powerLoss _ => s.power.supplied = true
  | _ => True


/-! ### Laws of the blocks and of the mount -/

/-- The class in a block's record, if the block is placed. -/
def BlockManager.classOf (bm : BlockManager) (b : BlockId) : Option BlockClass := (bm.block b).map (·.cls)

/-- The targets that a record holds are distinct blocks, each TARGET for the session (R9, R10). -/
def HoldsTargets (bm : BlockManager) (i : SessionId) (targets : List (Option BlockId)) : Prop :=
  (targets.filterMap id).Nodup ∧ ∀ b, some b ∈ targets → bm.classOf b = some (.target i)

/-- The blocks that the engine's work holds are in the classes that go with it (R9, R64, R65), and a commit holds a target for
every member up to the current one. -/
def Work.HoldsBlocks (bm : BlockManager) : Work → Prop
  | .idle => True
  | .commit r step =>
    r.pages.Nodup ∧ r.targets.length = r.pages.length ∧ r.member < r.pages.length
    ∧ (∀ m, m ≤ r.member → ∃ b, r.targets[m]? = some (some b))
    ∧ (step ≠ .flipTaken → HoldsTargets bm r.session r.targets)
    ∧ (step = .flipRequested → r.pages.length = r.member + 1)
  | .unwind u step =>
    HoldsTargets bm u.session u.targets ∧
    match step with
    | .void b _ | .retire b _ => some b ∈ u.targets
  | .erase b _ => bm.classOf b = some .erasing
  | .mountVoid b rest _ => (b :: rest).Nodup ∧ ∀ x ∈ b :: rest, bm.classOf x = some .dirty

/-- The Free Pool, Dirty List and Retired Set hold the blocks of their class, each once (R9, R13, R15, R16); every mapped entry
names one DATA block that carries its page, serial and writer, and every DATA block is named by one entry (R22); the engine
holds its blocks; and a session's member list is one of at most 4 distinct pages (R35). The Free Pool is built at the end
of pass 1 (R121). -/
def State.BlockLaw (s : State) : Prop :=
  (s.bm.freePool.Nodup ∧ (∀ b ∈ s.bm.freePool, s.bm.classOf b = some .free)
    ∧ (s.mount.stage ≠ .scan → ∀ b, s.bm.classOf b = some .free → b ∈ s.bm.freePool))
  ∧ (s.bm.dirtyList.Nodup ∧ ∀ b, b ∈ s.bm.dirtyList ↔ s.bm.classOf b = some .dirty)
  ∧ (s.bm.retiredSet.Nodup ∧ ∀ b, b ∈ s.bm.retiredSet ↔ s.bm.classOf b = some .retired)
  ∧ (∀ q b, (∃ serial writer, s.map.entry q = some { block := b, serial := serial, writer := writer }) ↔
      ∃ info, s.bm.classOf b = some (.data info) ∧ info.page = q)
  ∧ (∀ q e info, s.map.entry q = some e → s.bm.classOf e.block = some (.data info) →
      info.serial = e.serial ∧ info.writer = e.writer)
  ∧ s.eng.work.HoldsBlocks s.bm
  ∧ ∀ i : SessionId, (s.ses.session i).members.Nodup ∧ (s.ses.session i).members.length ≤ 4
      ∧ ((s.ses.session i).state ≠ .free → (s.ses.session i).members ≠ [])

/-- The candidates of the group tally. -/
def Mount.candidates (m : Mount) : List Candidate := m.tally.flatMap TallyEntry.members

/-- The mount's stages (R112, R124): READY is its end; until the voiding the engine is IDLE; during pass 1 no page is mapped, and
the blocks from the scan position on and the candidates have no record yet; each block is a candidate once, in one entry for
its serial (R116); and the blocks to be voided are DIRTY (R118). -/
def State.MountLaw (s : State) : Prop :=
  (s.Ready ↔ s.mount.stage = .ended)
  ∧ (s.mount.stage = .scan ∨ s.mount.stage = .built → s.eng.work = .idle)
  ∧ (s.mount.stage = .scan →
      (∀ q, s.map.entry q = none)
      ∧ (∀ b : BlockId, s.mount.position ≤ b.val → s.bm.block b = none)
      ∧ ∀ c ∈ s.mount.candidates, c.block.val < s.mount.position ∧ s.bm.block c.block = none)
  ∧ (s.mount.candidates.map Candidate.block).Nodup ∧ (s.mount.tally.map TallyEntry.serial).Nodup
  ∧ (s.mount.stage = .built → s.mount.voidList.Nodup ∧ ∀ b ∈ s.mount.voidList, s.bm.classOf b = some .dirty)

/-! ### Laws of the sessions in the engine -/

/-- The session's start has failed, and the Session Unit has still to take the failure: it has left its list already (R66). -/
def Engine.Failing (e : Engine) (i : SessionId) : Prop :=
  ∃ h, e.start = some h ∧ h.live = true ∧ h.session = i ∧ ∀ serial bases, h.kind ≠ .start serial bases

/-- The list of a port in the engine queue holds exactly the QUEUED sessions that the port owns, each once, but for one whose
start has failed; every QUEUED session has an owner; and a live start hand-off names a QUEUED session of its port (R48,
R66). -/
def State.QueueLaw (s : State) : Prop :=
  (∀ p, (s.eng.queueOf p).Nodup)
  ∧ (∀ p i, i ∈ s.eng.queueOf p ↔
      (s.ses.session i).state = .queued ∧ (s.ses.session i).owner = some p ∧ ¬ s.eng.Failing i)
  ∧ (∀ i : SessionId, (s.ses.session i).state = .queued → (s.ses.session i).owner ≠ none)
  ∧ ∀ h, s.eng.start = some h → h.live = true →
      (s.ses.session h.session).state = .queued ∧ (s.ses.session h.session).owner = some h.port

/-- At most 2 sessions are attached to a port (R37). -/
def State.AttachLaw (s : State) : Prop := ∀ p : PortId, (s.ses.attached p).length ≤ 2

/-- The session whose group the engine holds a record of (R64, R65). -/
def Work.session : Work → Option SessionId
  | .commit r _ => some r.session
  | .unwind u _ => some u.session
  | .idle | .erase _ _ | .mountVoid _ _ _ => none

/-- The session is in PROGRAMMING or UNWINDING. -/
def State.InEngine (s : State) (i : SessionId) : Prop :=
  (s.ses.session i).state = .programming ∨ (s.ses.session i).state = .unwinding

/-- A session in PROGRAMMING or UNWINDING is the one that the engine holds a record of, so that there is at most one (R36, R64).
Its state follows the engine's steps: past the boundary it stays PROGRAMMING (R52, R77); where an unwind was requested it is
UNWINDING (R80); a failure handed over is that of the session being unwound (R78); and while the engine waits for its flip,
the flip's hand-offs are those of its session (R29, R86). -/
def State.EngineLaw (s : State) : Prop :=
  (∀ i, s.InEngine i → s.eng.work.session = some i)
  ∧ (∀ r step, s.eng.work = .commit r step → step ≠ .flipTaken →
      s.InEngine r.session
      ∧ (r.boundaryHanded = true →
          (s.ses.session r.session).state = .programming ∧ (s.ses.session r.session).boundaryPassed = true)
      ∧ (r.unwindRequested = true → (s.ses.session r.session).state = .unwinding)
      ∧ (step = .flipRequested ∨ step = .dataStamp ∧ r.pages.length ≤ r.member + 1 → r.boundaryHanded = true))
  ∧ (∀ u step, s.eng.work = .unwind u step → (s.ses.session u.session).state = .unwinding
      ∨ (s.ses.session u.session).state = .programming ∧ s.ses.failure ≠ none)
  ∧ (∀ f, s.ses.failure = some f → ∃ u step, s.eng.work = .unwind u step ∧ f.session = u.session)
  ∧ (∀ i, s.ses.unwindRequest = some i → (s.ses.session i).state = .unwinding)
  ∧ (∀ r, s.eng.work = .commit r .flipTaken → ∃ w, s.map.flip = some w ∧ w.session = r.session
      ∧ (w.reloadDue = true ∨ w.revocationDue = true ∨ w.sessionEndDue = true)
      ∧ (w.sessionEndDue = true →
          (s.ses.session r.session).state = .programming ∧ (s.ses.session r.session).boundaryPassed = true)
      ∧ (w.sessionEndDue = false → ¬ s.InEngine r.session))
  ∧ ∀ w, s.map.flip = some w → (∀ r, s.eng.work ≠ .commit r .flipTaken) →
      w.reloadDue = false ∧ w.revocationDue = false ∧ w.sessionEndDue = false

/-! ### Laws of counts, pins and the mount's voiding -/

/-- The pin count of a block is the number of ports whose read stream holds it; a pinned block is DATA, or DIRTY since a flip
superseded it; and a stream stands only on a READY part, behind a reply (R18, R95, R175). -/
def State.PinLaw (s : State) : Prop :=
  (∀ b : BlockId, s.bm.pins b =
    ((List.finRange 4).filter fun p => decide ((s.port p).stream.bind (fun st => st.pinned) = some b)).length)
  ∧ (∀ b : BlockId, 0 < s.bm.pins b → (∃ info, s.bm.classOf b = some (.data info)) ∨ s.bm.classOf b = some .dirty)
  ∧ ∀ p : PortId, (s.port p).stream ≠ none →
      s.Ready ∧ ((s.port p).decoder = .turnaround ∨ (s.port p).decoder = .reply ∨ (s.port p).decoder = .stream)

/-- The Free Pool stands in its order: by erase count, then by block index (R15). -/
def State.PoolLaw (s : State) : Prop := s.bm.freePool.Pairwise s.bm.Before

/-- The mapped count is the number of mapped entries (R23). -/
def State.MappedLaw (s : State) : Prop := s.map.mapped = ((List.finRange 464).filter fun q => (s.map.entry q).isSome).length

/-- The engine voids for the mount exactly in the mount's last stage, before READY (R89, R123, R124). -/
def State.VoidingLaw (s : State) : Prop :=
  (∃ b rest step, s.eng.work = .mountVoid b rest step) ↔ s.mount.stage = .voiding

/-! ### Groups on the array -/

/-- The data stamp of a block that a mount would take as a candidate: the last row of Table 26 (R114, R116). -/
def Memory.candidate (m : Memory) (b : BlockId) : Option DataStamp :=
  match classify (m.spare b) with
  | .candidate st => some st
  | _ => none

/-- The group tally that pass 1 of a mount makes of the first `n` blocks (R116). -/
def Memory.tallied (m : Memory) (n : Nat) : List TallyEntry :=
  (allBlocks.take n).foldl
    (fun tally b => match m.candidate b with
      | some st => tallyAdd st b tally
      | none => tally) []

/-- The largest serial in a valid data stamp of the first `n` blocks, 0 when none (R27). -/
def Memory.largestSerial (m : Memory) (n : Nat) : Nat :=
  (allBlocks.take n).foldl (fun largest b => largestWith largest (m.spare b)) 0

/-- During pass 1 the tally and the largest serial are those of the blocks that have been scanned (R27, R114, R116). -/
def State.ScanLaw (s : State) : Prop :=
  s.mount.stage = .scan → s.mount.position ≤ 512 ∧ s.mount.tally = s.flash.tallied s.mount.position
    ∧ s.mount.largestSerial = s.flash.largestSerial s.mount.position

/-- A mount would take the group of the serial as complete, and so show its new versions (R117 to R120). -/
def Memory.GroupComplete (m : Memory) (serial : Nat) : Prop :=
  ∃ e ∈ m.tallied 512, e.serial = serial ∧ e.Complete (m.tallied 512)

/-- The data stamp that a commit gives its member `m` (R5, R75). -/
def CommitRec.stamp (r : CommitRec) (m : Nat) : DataStamp :=
  { count := r.pages.length, index := m, pages := r.pages, serial := r.serial, writer := r.writer }

/-- The candidates that carry the serial are targets of members below `n`, each with the stamp of its own member. -/
def Memory.GroupWithin (m : Memory) (r : CommitRec) (n : Nat) : Prop :=
  ∀ (b : BlockId) (st : DataStamp), m.candidate b = some st → st.serial = r.serial →
    st.index < n ∧ r.targets[st.index]? = some (some b) ∧ st = r.stamp st.index

/-- The record of a commit carries the last serial given, which a stamp can hold, and 1 to 4 distinct pages (R24, R35, R72). -/
def CommitRec.Stampable (r : CommitRec) (next : Nat) : Prop :=
  r.serial + 1 = next ∧ 1 ≤ r.serial ∧ r.serial ≤ 0xFFFFFF00 ∧ 1 ≤ r.pages.length ∧ r.pages.length ≤ 4 ∧ r.pages.Nodup

/-- What the array holds of the group of a commit: the finished members whole, the target of the current member ready for its next
program, and, unless a retire mark has failed, nothing of the group elsewhere (R73 to R76, R92). -/
def State.CommitOnArray (s : State) (r : CommitRec) (step : CommitStep) : Prop :=
  let byte (b : BlockId) (j : Nat) : Byte := s.flash.read (spareAddr b j)
  r.Stampable s.map.nextSerial
  ∧ (∀ k, step = .line k → k < 16)
  ∧ (∀ m b, m < r.member → r.targets[m]? = some (some b) → s.flash.candidate b = some (r.stamp m))
  ∧ (∀ b, r.targets[r.member]? = some (some b) →
      (freeStampCount (s.flash.spare b)).isSome = true
      ∧ ((∀ n, step ≠ .retire n) → byte b 32 = 0xFF ∧ byte b 33 = 0xFF)
      ∧ (step = .begunMark ∨ (∃ k, step = .line k) ∨ step = .boundary ∨ step = .dataStamp →
          ∀ j, 8 ≤ j → j < 26 → byte b j = 0xFF)
      ∧ (step = .flipRequested ∨ step = .flipTaken → s.flash.candidate b = some (r.stamp r.member)))
  ∧ (∀ m b, r.member < m → r.targets[m]? ≠ some (some b))
  ∧ (step = .flipRequested ∨ step = .flipTaken → r.pages.length = r.member + 1)
  ∧ (s.eng.markFault = false → s.flash.GroupWithin r (r.member + 1))

/-- What the array holds of the group that is unwound: never its last member, unless a retire mark has failed (R81, R92). -/
def State.UnwindOnArray (s : State) (u : UnwindRec) : Prop :=
  s.eng.markFault = false → ∃ r : CommitRec, r.toUnwind = u ∧ r.Stampable s.map.nextSerial
    ∧ s.flash.GroupWithin r (r.pages.length - 1)

/-- The stamps on the array. Every serial in a valid data stamp is below the next serial, and below one just given (R25, R27); a
FREE block has a valid free stamp with its erase count, and nothing else from its data slot to its discard word (R97, R98, R114); a
block that takes its free stamp is erased there; and the group that the engine works on stands as its steps left it. -/
def State.StampLaw (s : State) : Prop :=
  (s.mount.stage ≠ .scan → 1 ≤ s.map.nextSerial
    ∧ ∀ b st, dataStamp (s.flash.spare b) = some st → st.serial < s.map.nextSerial)
  ∧ (∀ b, s.bm.classOf b = some .free → freeStampCount (s.flash.spare b) = some (s.bm.eraseCount b)
      ∧ ∀ j, 8 ≤ j → j < 36 → s.flash.read (spareAddr b j) = 0xFF)
  ∧ (∀ b, s.eng.work = .erase b .freeStamp → ∀ j, 8 ≤ j → j < 36 → s.flash.read (spareAddr b j) = 0xFF)
  ∧ (∀ r step, s.eng.work = .commit r step → s.CommitOnArray r step)
  ∧ (∀ u step, s.eng.work = .unwind u step → s.UnwindOnArray u)
  ∧ ∀ h, s.eng.start = some h → s.Ready ∧ s.eng.work = .idle
      ∧ ∀ serial bases, h.kind = .start serial bases →
          serial + 1 = s.map.nextSerial ∧ 1 ≤ serial ∧ serial ≤ 0xFFFFFF00
          ∧ ∀ b st, dataStamp (s.flash.spare b) = some st → st.serial < serial

/-! ### All groups on the array -/

/-- The candidates of one serial are of one group, each member on one block (R75, R116). -/
def Memory.Agrees (m : Memory) : Prop :=
  ∀ (b b' : BlockId) (st st' : DataStamp), m.candidate b = some st → m.candidate b' = some st' → st.serial = st'.serial →
    st.pages = st'.pages ∧ st.writer = st'.writer ∧ (st.index = st'.index → b = b')

/-- A mount would map page `q` to `e`: its current version among the candidates of complete groups (R120). -/
def Memory.Shows (m : Memory) (q : PageId) (e : MapEntry) : Prop :=
  ∃ g c, CurrentVersion (m.tallied 512) g c ∧ c.page = q ∧ e = { block := c.block, serial := g.serial, writer := g.writer }

/-- Every page of a complete group has a version at least as new in a complete group (R117, R120). -/
def Memory.Recoverable (m : Memory) : Prop :=
  ∀ (b : BlockId) (st : DataStamp), m.candidate b = some st → m.GroupComplete st.serial →
    ∀ page ∈ st.pages, ∃ b' st', m.candidate b' = some st' ∧ st'.page = page ∧ st.serial ≤ st'.serial
      ∧ m.GroupComplete st'.serial

/-- The group of a data stamp was flipped: each of its pages is mapped to that version or a newer one (R28). -/
def State.WasFlipped (s : State) (st : DataStamp) : Prop :=
  ∀ page ∈ st.pages, ∃ e, s.map.entry page = some e ∧ st.serial ≤ e.serial

/-- The serial of the group at work that has not been flipped and whose targets have not all been dropped (R72, R81, R86). -/
def Work.unflipped : Work → Option Nat
  | .commit r step => if step = .flipTaken then none else some r.serial
  | .unwind u _ => some u.serial
  | .idle | .erase _ _ | .mountVoid _ _ _ => none

/-- The blocks that mount voiding has still to void (R118, R123). -/
def State.toVoid (s : State) : List BlockId :=
  match s.eng.work with
  | .mountVoid b rest _ => b :: rest
  | _ => if s.mount.stage = .built then s.mount.voidList else []

/-- All groups on the array, while no retire mark has failed (R92). Candidates of one serial agree. Up to the building of the
tables, every page of a complete group has a version of a complete group. From then on every mapped page is on a candidate with
its serial and writer, of a group that was flipped; and every candidate is of a group that was flipped, of the group at work, or
still to be voided, its group incomplete (R117 to R120). -/
def State.ArrayLaw (s : State) : Prop :=
  s.flash.Agrees
  ∧ (s.mount.stage = .scan → s.flash.Recoverable)
  ∧ (s.mount.stage ≠ .scan →
      (∀ q e, s.map.entry q = some e → ∃ st, s.flash.candidate e.block = some st ∧ st.serial = e.serial ∧ st.writer = e.writer
        ∧ st.page = q ∧ s.WasFlipped st)
      ∧ ∀ b st, s.flash.candidate b = some st → s.WasFlipped st ∨ s.eng.work.unflipped = some st.serial
          ∨ b ∈ s.toVoid ∧ ¬ s.flash.GroupComplete st.serial)

/-! ### Pass 1 -/

/-- Block `b` was placed with a class and an erase count, no pin, and no other record changed (R114). -/
def BlockManager.Placed (bm bm' : BlockManager) (b : BlockId) (c : BlockClass) (count : Nat) : Prop :=
  ∀ x : BlockId, bm'.block x = if x = b then some { cls := c, eraseCount := count, pins := 0 } else bm.block x

/-- The block was placed DIRTY, at the tail of the list under construction (R114). -/
def BlockManager.PlacedDirty (bm bm' : BlockManager) (b : BlockId) (count : Nat) : Prop :=
  bm.Placed bm' b .dirty count ∧ bm'.dirtyList = bm.dirtyList ++ [b] ∧ bm'.freePool = bm.freePool
  ∧ bm'.retiredSet = bm.retiredSet ∧ bm'.lowSpace = decide (bm'.freePool.length + bm'.dirtyList.length < 4)

/-- A candidate was entered in the group tally: in the entry of its serial, which it may show to be inconsistent, or in a new
entry (R116). -/
def TallyEntered (tally tally' : List TallyEntry) (st : DataStamp) (c : Candidate) : Prop :=
  ((∀ e ∈ tally, e.serial ≠ st.serial) →
      let e : TallyEntry := { serial := st.serial, count := st.count, pages := st.pages, writer := st.writer, members := [c],
                              consistent := true, complete := none }
      tally' = tally ++ [e])
  ∧ ∀ (before after : List TallyEntry) (e : TallyEntry), tally = before ++ e :: after → e.serial = st.serial →
      (∀ x ∈ before, x.serial ≠ st.serial) →
      let same : Bool := decide (e.count = st.count ∧ e.pages = st.pages ∧ e.writer = st.writer)
      tally' = before ++ { e with members := e.members ++ [c], consistent := e.consistent && same } :: after

end Sys2Proof.Machine
end

