-- ==== Sys2Proof/Certificates/Slice0/Obligations.lean ====
section
/-! DEFINITION. The statements for the provers, each a `def Obligations.<Name> : Prop`. The rules named in the docstrings are
those of spec/. -/

open Sys2Proof Sys2Proof.Machine

/-! ### The machine -/

/-- A step takes the command at the front of the queue and runs it on the state with the queue's rest; on an empty queue the
part idles (log entry 10). -/
def Obligations.StepTakesTheFrontCommand : Prop :=
  (∀ (c : Instr) (s : State) (rest : List Instr),
    step { s with pending := c :: rest } = exec c { s with pending := rest })
  ∧ ∀ s : State, s.pending = [] → step s = .next s

/-- What the spec gives for the start of mounting after power-on (R63, R93, R112, R146, R161, R162). The pins stand high in
State.reset by the model's choice (log entry 8), so the decoders are IDLE. -/
def Obligations.ResetLeaves : Prop :=
  State.reset.TablesReset
  ∧ State.reset.mount.condition = .mounting ∧ State.reset.mount.cause = .powerOn
  ∧ State.reset.eng.markFault = false ∧ State.reset.prot.frozen = false ∧ State.reset.prot.tableFault = false
  ∧ ∀ p : PortId,
      (State.reset.port p).decoder = .idle ∧ (State.reset.port p).received = 0 ∧ (State.reset.port p).request = []
      ∧ (State.reset.port p).bits = [] ∧ (State.reset.port p).stream = none
      ∧ (State.reset.port p).lease = 100 ∧ State.reset.alertAsserted p = false

/-! ### Requests: when they are taken, and what none of them touches -/

/-- While the part is MOUNTING, every request but STATUS and an unknown code is answered NOT_READY, and nothing but its frame
changes (R113). The count of bytes received is that of the frame. -/
def Obligations.MountingRefusesRequests : Prop :=
  ∀ (c : Instr) (p : PortId) (bytes : List Byte) (s : State),
    c.wellFormed = true → encodeFrame c = some bytes → c.requestPort = some p → c ≠ .status p →
    (∀ code, c ≠ .unknownRequestCode p code) → s.Receiving p → s.mount.condition = .mounting →
    exec c s = .next (s.replied p bytes.length [0x01])

/-- What no request changes: the array, the Page Map and serials, the flash work in flight, the pointer, MARK_FAULT, the windows
table and TABLE_FAULT, the mount, the pins of the part, the classes, erase counts and collections of the blocks; and
of every other port the frame, stream, lease and Notice Unit state (R162, R166). -/
def Obligations.RequestsLeaveTheRest : Prop :=
  ∀ (c : Instr) (p : PortId) (s t : State), c.requestPort = some p → exec c s = .next t →
    t.flash = s.flash ∧ t.map = s.map ∧ t.mount = s.mount ∧ t.power = s.power ∧ t.pending = s.pending
    ∧ t.eng.work = s.eng.work ∧ t.eng.pointer = s.eng.pointer ∧ t.eng.markFault = s.eng.markFault
    ∧ t.prot.table = s.prot.table ∧ t.prot.tableFault = s.prot.tableFault
    ∧ t.bm = { s.bm with table := t.bm.table }
    ∧ (∀ b, (t.bm.block b).map (fun r => (r.cls, r.eraseCount)) = (s.bm.block b).map (fun r => (r.cls, r.eraseCount)))
    ∧ ∀ q : PortId, q ≠ p →
        { t.port q with alert := (s.port q).alert } = s.port q ∧ t.notice q = s.notice q

/-! ### Requests that read -/

/-- READ (R172, R173): the range checks, the permission check, and the stream with its first page translated and pinned. -/
def Obligations.ReadAnswers : Prop :=
  ∀ (p : PortId) (page offset length : Half) (s : State), s.Receiving p → s.Ready →
    let start := 4096 * page.toNat + offset.toNat
    let c := Instr.read p page offset length
    (463 < page.toNat ∨ length.toNat = 0 ∨ 16384 < length.toNat ∨ 1900544 < start + length.toNat →
      exec c s = .next (s.replied p 7 [0x02]))
    ∧ (page.toNat ≤ 463 → 1 ≤ length.toNat → length.toNat ≤ 16384 → start + length.toNat ≤ 1900544 →
        let last := (start + length.toNat - 1) / 4096
        ((∃ q, start / 4096 ≤ q ∧ q ≤ last ∧ s.prot.table.canRead p q = false) →
          exec c s = .next (s.replied p 7 [0x03]))
        ∧ ((∀ q, start / 4096 ≤ q → q ≤ last → s.prot.table.canRead p q = true) →
            ∃ (first : PageId) (bm : BlockManager), first.val = start / 4096
              ∧ s.bm.PinsMoved bm none (s.map.currentBlock first)
              ∧ let stream : Stream := { page := first, position := start % 4096, pinned := s.map.currentBlock first,
                                         bytesLeft := length.toNat }
                let r : Port := { s.port p with decoder := .turnaround, received := 7, turnaroundLeft := 2,
                                                reply := [0x00], stream := some stream, bits := [], sckHigh := true }
                exec c s = .next ({ s with bm := bm }.setPort p r)))

/-- MAP_QUERY (R33): the entry and the claim of one page, with no permission asked. Both halves are taken from one state, which is the
model's choice among the moments that R33 leaves to the two owners (log entry 34). -/
def Obligations.MapQueryAnswers : Prop :=
  ∀ (p : PortId) (s : State), s.Receiving p → s.Ready →
    (∀ page : Half, 463 < page.toNat → exec (.mapQuery p page) s = .next (s.replied p 3 [0x02]))
    ∧ ∀ (q : PageId) (entry claim : List Byte),
        (s.map.entry q = none → entry = [0x00, 0, 0, 0, 0, 0xFF]) →
        (∀ e, s.map.entry q = some e → entry = 0x01 :: (natBytes4 e.serial ++ [BitVec.ofNat 8 e.writer.val])) →
        (s.ses.claim q = none → claim = [0x00, 0xFF]) →
        (∀ i o, s.ses.claim q = some i → (s.ses.session i).owner = some o → claim = [0x01, BitVec.ofNat 8 o.val]) →
        (∀ i, s.ses.claim q = some i → (s.ses.session i).owner = none → claim = [0x02, 0xFF]) →
        exec (.mapQuery p (pageHalf q)) s = .next (s.replied p 3 (0x00 :: (entry ++ claim)))

/-- STATUS (R176, R177, R188): answered OK in every condition with the fields of all owners, and nothing but the frame changes. The
fields of one owner are taken together. While the STATUS is being taken, that is until SCK moves again, an event can show in the
groups of some owners and not in the others: the groups that a REPLY_BYTE_DELIVERY then names are those of its moment, and the
others stay, one at least as it was when the code arrived. At any other time no group is taken. How long the taking lasts is the
model's choice (log entry 33). -/
def Obligations.StatusAnswers : Prop :=
  ∀ (p : PortId) (s : State) (mine : List (SessionId × SessionState)),
    (mine.map Prod.fst).Pairwise (· < ·) → (∀ i st, (i, st) ∈ mine ↔ s.Own p i ∧ (s.ses.session i).state = st) →
    let r := s.port p
    let now : StatusGroups :=
      { scanner := { condition := s.mount.condition, position := s.mount.position, cause := s.mount.cause }
        tables := { free := s.bm.freePool.length, dirty := s.bm.dirtyList.length, retired := s.bm.retiredSet.length,
                    mapped := s.map.mapped, lowSpace := s.bm.lowSpace, serialEnd := s.map.serialEnd }
        markFault := s.eng.markFault
        protection := { tableFault := s.prot.tableFault, frozen := s.prot.frozen }
        sessions := mine
        notices := { count := (s.notice p).queue.length, overrun := (s.notice p).overrun }
        late := [] }
    let taking : Prop := r.decoder = .turnaround ∧ r.turnaroundLeft = 2 ∧ r.bits = [] ∧ r.sckHigh = true
    let takes (owners : List StatusOwner) : Instr := .replyByteDelivery ⟨p, [], owners⟩
    (s.Receiving p → ∃ bytes, now.Spells r.lease bytes ∧ exec (.status p) s =
      .next ((s.replied p 1 bytes).setPort p { (s.replied p 1 bytes).port p with statusTaken := some now }))
    ∧ (∀ g owners, r.statusTaken = some g → taking → owners ≠ [] → (∃ o, o ∉ g.late ∧ o ∉ owners) →
        let g' : StatusGroups :=
          { scanner := if .scanner ∈ owners then now.scanner else g.scanner
            tables := if .tables ∈ owners then now.tables else g.tables
            markFault := if .engine ∈ owners then now.markFault else g.markFault
            protection := if .protection ∈ owners then now.protection else g.protection
            sessions := if .sessions ∈ owners then now.sessions else g.sessions
            notices := if .notices ∈ owners then now.notices else g.notices
            late := g.late ++ owners }
        ∃ bytes, g'.Spells r.lease bytes
          ∧ exec (takes owners) s = .next (s.setPort p { r with statusTaken := some g', reply := bytes }))
    ∧ (∀ g owners, r.statusTaken = some g → (∀ o, o ∈ g.late ∨ o ∈ owners) → exec (takes owners) s = .next s)
    ∧ (r.statusTaken = none ∨ ¬ taking → ∀ owners, exec (takes owners) s = .next s)

/-- A code that names no request is answered UNKNOWN in every condition of the part, after two turnaround bytes, and 0xFF
follows; it changes no state but the frame's; no later byte of the frame makes a request, wherever in the frame it comes; and
while PRST_n of the port or RESET_n is low, the frame is IGNORED and nothing is answered (R171). Each byte is clocked by
eight falls and rises of SCK, whatever SDI carries. -/
def Obligations.UnknownCodeAnswered : Prop :=
  ∀ (p : PortId) (code : Byte) (s : State), code ∉ requestCodes →
    let ignores (t : State) : Prop := ∀ c : Instr, c.requestPort = some p → exec c t = .next t
    let byte (sdi : List Bool) : Instr := .replyByteDelivery ⟨p, clockEdges sdi, []⟩
    (s.Receiving p → exec (.unknownRequestCode p code) s = .next (s.replied p 1 [0x0E]))
    ∧ ignores (s.replied p 1 [0x0E])
    ∧ (∀ b1 b2 b3 : List Bool, b1.length = 8 → b2.length = 8 → b3.length = 8 → ∃ t1 t2 t3 : State,
        exec (byte b1) (s.replied p 1 [0x0E]) = .next t1 ∧ (t1.port p).sdo = some 0xFF ∧ ignores t1
        ∧ exec (byte b2) t1 = .next t2 ∧ (t2.port p).sdo = some 0xFF ∧ ignores t2
        ∧ exec (byte b3) t2 = .next t3 ∧ (t3.port p).sdo = some 0x0E ∧ ignores t3
        ∧ ((s.port p).stream = none → ∀ b4 : List Bool, b4.length = 8 → ∃ t4 : State,
            exec (byte b4) t3 = .next t4 ∧ (t4.port p).sdo = some 0xFF ∧ ignores t4
            ∧ ∀ b5 : List Bool, b5.length = 8 → exec (byte b5) t4 = .next t4))
    ∧ ((s.port p).csLow = false → ((s.port p).prstLow = true ∨ s.power.resetLow = true) →
        ∃ t : State, exec (.csFall p) s = .next t ∧ (t.port p).sdo = none
          ∧ exec (.unknownRequestCode p code) t = .next t
          ∧ ∀ edges owners, ∃ level, exec (.replyByteDelivery ⟨p, edges, owners⟩) t = .next (t.setPort p { t.port p with sckHigh := level }))

/-! ### Sessions -/

/-- An OPEN that passes every check of R40 is accepted (R41): the lowest FREE slot, the claims, one empty buffer for each
member and the lease together, and nothing else but the frame. -/
def Obligations.OpenAccepted : Prop :=
  ∀ (p : PortId) (pages : List PageId) (i : SessionId) (s : State), s.Receiving p → s.Ready →
    1 ≤ pages.length → pages.length ≤ 4 → pages.Nodup →
    (∀ q ∈ pages, s.prot.table.canWrite p q.val = true) →
    ¬ (s.prot.frozen = true ∧ Config.windowsPage ∈ pages) →
    (∀ q ∈ pages, s.ses.claim q = none) →
    (s.ses.attached p).length < 2 → (s.ses.session i).state = .free →
    (∀ j : SessionId, j < i → (s.ses.session j).state ≠ .free) →
    s.ses.buffersInUse + pages.length ≤ 8 →
    ∃ u : SessionUnit,
      exec (.openSession p (BitVec.ofNat 8 pages.length) (pages.map pageHalf)) s =
        .next (State.replied { s with ses := u } p (2 + 2 * pages.length) [0x00, sidByte i])
      ∧ u.session i = { state := .opened, owner := some p, members := pages, buffers := pages.map fun _ => [],
                        lease := some (s.port p).lease.toNat, windowsLine := false, boundaryPassed := false,
                        outcome := none }
      ∧ (∀ j : SessionId, j ≠ i → u.session j = s.ses.session j)
      ∧ (∀ q : PageId, u.claim q = if q ∈ pages then some i else s.ses.claim q)
      ∧ u.failure = s.ses.failure ∧ u.unwindRequest = s.ses.unwindRequest

/-- The refusals of OPEN in the order of Table 11, for every list that its frame can carry (R40, R167). -/
def Obligations.OpenRefused : Prop :=
  ∀ (p : PortId) (count : Byte) (list : List Half) (s : State), s.Receiving p → s.Ready →
    list.length = openPageCount count →
    let answer (status : Byte) : Prop :=
      exec (.openSession p count list) s = .next (s.replied p (2 + 2 * list.length) [status])
    (list = [] ∨ ¬ list.Nodup ∨ (∃ h ∈ list, 463 < h.toNat) → answer 0x02)
    ∧ ∀ pages : List PageId, list = pages.map pageHalf → pages ≠ [] → pages.Nodup →
        ((∃ q ∈ pages, s.prot.table.canWrite p q.val = false) → answer 0x03)
        ∧ ((∀ q ∈ pages, s.prot.table.canWrite p q.val = true) →
            (s.prot.frozen = true → Config.windowsPage ∈ pages → answer 0x0A)
            ∧ (¬ (s.prot.frozen = true ∧ Config.windowsPage ∈ pages) →
                ((∃ q ∈ pages, s.ses.claim q ≠ none) → answer 0x04)
                ∧ ((∀ q ∈ pages, s.ses.claim q = none) →
                    (2 ≤ (s.ses.attached p).length ∨ (∀ i, (s.ses.session i).state ≠ .free) → answer 0x05)
                    ∧ ((s.ses.attached p).length < 2 → (∃ i, (s.ses.session i).state = .free) →
                        8 < s.ses.buffersInUse + pages.length → answer 0x06))))

/-- STAGE, COMMIT, ABORT and COLLECT judge the session that stands in the slot they name: a session id above 7 is BAD_REQUEST,
and a slot that is FREE, detached or another port's is NOT_OWNER (R43, R46, R51, R58, R189). Nothing but the frame
changes. -/
def Obligations.ForeignSessionsRefused : Prop :=
  ∀ (p : PortId) (sid : Byte) (c : Instr) (n : Nat) (s : State), s.Receiving p → s.Ready →
    ((∃ member offset length data, c = .stage p sid member offset length data ∧ data.length = stageDataCount length
        ∧ n = 7 + data.length)
      ∨ c = .commit p sid ∧ n = 2 ∨ c = .abort p sid ∧ n = 2 ∨ c = .collect p sid ∧ n = 2) →
    (7 < sid.toNat → exec c s = .next (s.replied p n [0x02]))
    ∧ ∀ i : SessionId, sid = sidByte i → ¬ s.Own p i → exec c s = .next (s.replied p n [0x09])

/-- STAGE on a session of the port (R43, R44): BAD_STATE outside OPEN; BAD_REQUEST for a range outside its line or member; else
the bytes are staged, the lease restarts, and a byte in line 0 of page 463 sets the windows-line flag. -/
def Obligations.StageAnswers : Prop :=
  ∀ (p : PortId) (i : SessionId) (member : Byte) (offset length : Half) (data : List Byte) (s : State),
    s.Receiving p → s.Ready → s.Own p i → data.length = stageDataCount length →
    let r := s.ses.session i
    let c := Instr.stage p (sidByte i) member offset length data
    let allowed : Prop := member.toNat < r.members.length ∧ 1 ≤ length.toNat ∧ length.toNat ≤ 256 ∧ offset.toNat ≤ 4095
      ∧ offset.toNat % 256 + length.toNat ≤ 256
    (r.state ≠ .opened → exec c s = .next (s.replied p (7 + data.length) [0x08]))
    ∧ (r.state = .opened → ¬ allowed → exec c s = .next (s.replied p (7 + data.length) [0x02]))
    ∧ (r.state = .opened → allowed → ∃ buffer : Buffer,
        exec c s = .next ((s.withSession i
          { r with buffers := r.buffers.set member.toNat buffer
                   lease := some (s.port p).lease.toNat
                   windowsLine := r.windowsLine
                     || (r.members[member.toNat]? == some Config.windowsPage && decide (offset.toNat < 256)) }).replied
          p (7 + data.length) [0x00])
        ∧ ∀ o : Nat, buffer.staged o =
            if h : offset.toNat ≤ o ∧ o - offset.toNat < data.length then some (data[o - offset.toNat]'h.2)
            else (r.buffers.getD member.toNat []).staged o)

/-- COMMIT on a session of the port (R46, R47): BAD_STATE outside OPEN; BAD_TABLE, with the lease restarted, when the merged
line 0 of page 463 is flagged and malformed; else QUEUED at the tail of the port's list, with the lease stopped. -/
def Obligations.CommitAnswers : Prop :=
  ∀ (p : PortId) (i : SessionId) (s : State) (merged : List Byte), s.Receiving p → s.Ready → s.Own p i →
    let r := s.ses.session i
    (merged.length = 256 ∧ ∀ o, o < 256 → merged[o]? = some (mergedByte s.flash
        (r.buffers.getD (r.members.idxOf Config.windowsPage) []) (s.map.currentBlock Config.windowsPage) o)) →
    let c := Instr.commit p (sidByte i)
    (r.state ≠ .opened → exec c s = .next (s.replied p 2 [0x08]))
    ∧ (r.state = .opened → r.windowsLine = true → judgeLine merged = .malformed →
        exec c s = .next ((s.withSession i { r with lease := some (s.port p).lease.toNat }).replied p 2 [0x0B]))
    ∧ (r.state = .opened → ¬ (r.windowsLine = true ∧ judgeLine merged = .malformed) →
        let queue := s.eng.queue.set p.val (s.eng.queueOf p ++ [i])
        exec c s = .next (State.replied { s.withSession i { r with state := .queued, lease := none } with
          eng := { s.eng with queue := queue } } p 2 [0x00]))

/-- ABORT of the port's session before the boundary, or past it in PROGRAMMING (R51, R52, R57, R66): in OPEN or QUEUED it ends
ABANDONED at once, out of the engine queue; in PROGRAMMING before the boundary it becomes UNWINDING with outcome ABANDONED
and the engine is asked to unwind; in PROGRAMMING past the boundary the answer is TOO_LATE and nothing but the frame
changes. -/
def Obligations.AbortEndsOrUnwinds : Prop :=
  ∀ (p : PortId) (i : SessionId) (s : State), s.Receiving p → s.Ready → s.Own p i →
    let r := s.ses.session i
    (r.state = .opened ∨ r.state = .queued →
      ∃ t : State, exec (.abort p (sidByte i)) s = .next (t.replied p 2 [0x00]) ∧ s.FinishedEarly t i .abandoned)
    ∧ (r.state = .programming → r.boundaryPassed = true →
        exec (.abort p (sidByte i)) s = .next (s.replied p 2 [0x0C]))
    ∧ (r.state = .programming → r.boundaryPassed = false →
        let u := s.ses.setSession i { r with state := .unwinding, outcome := some .abandoned }
        exec (.abort p (sidByte i)) s =
          .next (State.replied { s with ses := { u with unwindRequest := some i } } p 2 [0x00]))

/-- ABORT of the port's session in UNWINDING or FINISHED is refused BAD_STATE, and the session, with its outcome, is unchanged,
as is everything but the frame (R53). -/
def Obligations.AbortTooLateIsBadState : Prop :=
  ∀ (p : PortId) (i : SessionId) (s : State), s.Receiving p → s.Ready → s.Own p i →
    (s.ses.session i).state = .unwinding ∨ (s.ses.session i).state = .finished →
    exec (.abort p (sidByte i)) s = .next (s.replied p 2 [0x08])

/-- COLLECT on a session of the port (R58): BAD_STATE unless it is FINISHED; else the result record of Table 54, and the slot is
FREE, with ALERT_n following. -/
def Obligations.CollectAnswers : Prop :=
  ∀ (p : PortId) (i : SessionId) (s : State), s.Receiving p → s.Ready → s.Own p i →
    ((s.ses.session i).state ≠ .finished → exec (.collect p (sidByte i)) s = .next (s.replied p 2 [0x08]))
    ∧ ∀ (o : SessionOutcome) (detail : List Byte), (s.ses.session i).state = .finished → (s.ses.session i).outcome = some o →
        (∀ n, o = .done n → detail = 0x01 :: (natBytes4 n ++ [0x00, 0xFF])) →
        (o = .abandoned → detail = [0x02, 0, 0, 0, 0, 0x00, 0xFF]) →
        (o = .expired → detail = [0x03, 0, 0, 0, 0, 0x00, 0xFF]) →
        (o = .revoked → detail = [0x04, 0, 0, 0, 0, 0x00, 0xFF]) →
        (o = .failed .noSpace → detail = [0x05, 0, 0, 0, 0, 0x01, 0xFF]) →
        (∀ m, o = .failed (.verify m) → detail = [0x05, 0, 0, 0, 0, 0x02, BitVec.ofNat 8 m]) →
        (o = .failed .serialEnd → detail = [0x05, 0, 0, 0, 0, 0x03, 0xFF]) →
        ∃ t : State, exec (.collect p (sidByte i)) s = .next (t.replied p 2 (0x00 :: sidByte i :: detail))
          ∧ t = { s with ses := t.ses, ports := t.ports } ∧ s.ses.EndedWith t.ses i Session.freeSlot ∧ s.AlertsFollow t

/-- LEASE_SET: BAD_REQUEST for 0 or more than 250 units; else the port's setting, and nothing else but its frame, changes: no
running timer and no other port's setting (R56). -/
def Obligations.LeaseSetAnswers : Prop :=
  ∀ (p : PortId) (units : Byte) (s : State), s.Receiving p → s.Ready →
    (units.toNat = 0 ∨ 250 < units.toNat → exec (.leaseSet p units) s = .next (s.replied p 2 [0x02]))
    ∧ (1 ≤ units.toNat → units.toNat ≤ 250 →
        exec (.leaseSet p units) s = .next (State.replied (s.setPort p { s.port p with lease := units }) p 2 [0x00]))

/-- Lease expiry of a session in OPEN: FINISHED with outcome EXPIRED (R55). Of any other session it is no event, since its timer
does not run (R54). -/
def Obligations.LeaseExpires : Prop :=
  ∀ (i : SessionId) (s : State),
    ((s.ses.session i).state = .opened →
      ∃ t : State, exec (.leaseExpiry i) s = .next t ∧ s.FinishedEarly t i .expired)
    ∧ ((s.ses.session i).state ≠ .opened → exec (.leaseExpiry i) s = .next s)

/-! ### Watches, notices, protection -/

/-- WATCH_SET (R148): the slot and range checks, the read permission over the range, then the slot takes the range. -/
def Obligations.WatchSetAnswers : Prop :=
  ∀ (p : PortId) (slot : Byte) (first last : Half) (s : State), s.Receiving p → s.Ready →
    let c := Instr.watchSet p slot first last
    let bad : Prop := 3 < slot.toNat ∨ last.toNat < first.toNat ∨ 463 < last.toNat
    (bad → exec c s = .next (s.replied p 6 [0x02]))
    ∧ (¬ bad → (∃ q, first.toNat ≤ q ∧ q ≤ last.toNat ∧ s.prot.table.canRead p q = false) →
        exec c s = .next (s.replied p 6 [0x03]))
    ∧ (¬ bad → (∀ q, first.toNat ≤ q → q ≤ last.toNat → s.prot.table.canRead p q = true) →
        ∃ watches : Vector (Option WatchRange) 4,
          exec c s = .next (State.replied (s.setNotice p { s.notice p with watches := watches }) p 6 [0x00])
          ∧ ∀ k : Fin 4, watches[k.val] =
              if k.val = slot.toNat then some { first := first.toNat, last := last.toNat }
              else (s.notice p).watches[k.val])

/-- WATCH_CLEAR is refused NOT_READY while the part is MOUNTING, and BAD_REQUEST for a slot number above 3; otherwise the slot
becomes empty and the reply is OK, whatever the slot held and whatever the permissions; the queue and the overrun flag
are unchanged, and a page is watched afterwards exactly when another slot contains it (R149). -/
def Obligations.WatchClearEmptiesTheSlot : Prop :=
  ∀ (p : PortId) (slot : Byte) (s : State), s.Receiving p →
    (s.mount.condition = .mounting → exec (.watchClear p slot) s = .next (s.replied p 2 [0x01]))
    ∧ (s.Ready → 3 < slot.toNat → exec (.watchClear p slot) s = .next (s.replied p 2 [0x02]))
    ∧ (s.Ready → slot.toNat ≤ 3 →
        ∃ n : NoticePort, exec (.watchClear p slot) s = .next (State.replied (s.setNotice p n) p 2 [0x00])
          ∧ (∀ k : Fin 4, n.watches[k.val] = if k.val = slot.toNat then none else (s.notice p).watches[k.val])
          ∧ n.queue = (s.notice p).queue ∧ n.overrun = (s.notice p).overrun
          ∧ ∀ page : PageId, n.watchesPage page = true ↔
              ∃ (k : Fin 4) (r : WatchRange), k.val ≠ slot.toNat ∧ (s.notice p).watches[k.val] = some r
                ∧ r.first ≤ page.val ∧ page.val ≤ r.last)

/-- NOTICE_FETCH (R156): the head entry with the number left; with an empty queue the OVERRUN record, which clears the flag, or
EMPTY. ALERT_n follows. -/
def Obligations.NoticeFetchAnswers : Prop :=
  ∀ (p : PortId) (s : State), s.Receiving p → s.Ready →
    (∀ (e : Notice) (rest : List Notice) (kind page : List Byte), (s.notice p).queue = e :: rest →
      (∀ q, e.kind = .pageChanged q → kind = [0x01] ∧ page = natBytes2 q.val) →
      (e.kind = .tableChanged → kind = [0x02] ∧ page = [0xFF, 0xFF]) →
      ∃ t : State,
        exec (.noticeFetch p) s = .next (t.replied p 1 (0x00 :: (kind ++ page ++ natBytes4 e.serial
          ++ [BitVec.ofNat 8 e.writer.val, BitVec.ofNat 8 rest.length])))
        ∧ t = { s.setNotice p { s.notice p with queue := rest } with ports := t.ports } ∧ s.AlertsFollow t)
    ∧ ((s.notice p).queue = [] → (s.notice p).overrun = true → ∃ t : State,
        exec (.noticeFetch p) s = .next (t.replied p 1 [0x00, 0x03, 0xFF, 0xFF, 0, 0, 0, 0, 0xFF, 0x00])
        ∧ t = { s.setNotice p { s.notice p with overrun := false } with ports := t.ports } ∧ s.AlertsFollow t)
    ∧ ((s.notice p).queue = [] → (s.notice p).overrun = false →
        exec (.noticeFetch p) s = .next (s.replied p 1 [0x0D]))

/-- FREEZE answers by the first case of Table 34 that applies: NOT_READY while MOUNTING; PAGE_BUSY while any session claims page
463; DENIED without write permission on it; else OK, and FROZEN is set (no change where it is set already). Nothing
else but the frame changes, and the reply is the status byte alone. A FREEZE taken so stands although chip select rises during its
reply (R143). -/
def Obligations.FreezeAnswers : Prop :=
  ∀ (p : PortId) (s : State), s.Receiving p →
    (s.mount.condition = .mounting → exec (.freeze p) s = .next (s.replied p 1 [0x01]))
    ∧ (s.Ready → s.ses.claim Config.windowsPage ≠ none → exec (.freeze p) s = .next (s.replied p 1 [0x04]))
    ∧ (s.Ready → s.ses.claim Config.windowsPage = none → s.prot.table.canWrite p 463 = false →
        exec (.freeze p) s = .next (s.replied p 1 [0x03]))
    ∧ (s.Ready → s.ses.claim Config.windowsPage = none → s.prot.table.canWrite p 463 = true →
        exec (.freeze p) s = .next (State.replied { s with prot := { s.prot with frozen := true } } p 1 [0x00]))
    ∧ (s.Ready → s.ses.claim Config.windowsPage = none → s.prot.table.canWrite p 463 = true → s.prot.frozen = true →
        exec (.freeze p) s = .next (s.replied p 1 [0x00]))
    ∧ (s.Ready → s.ses.claim Config.windowsPage = none → s.prot.table.canWrite p 463 = true → (s.port p).csLow = true →
        ∃ t u : State, exec (.freeze p) s = .next t ∧ exec (.chipSelectRise p) t = .next u ∧ u.prot.frozen = true)

/-- The permission rule of R132: the first window that covers the page decides, and without one every port has both
permissions. -/
def Obligations.FirstCoveringWindowDecides : Prop :=
  ∀ (p : PortId) (page : Nat),
    WindowsTable.empty.canRead p page = true ∧ WindowsTable.empty.canWrite p page = true
    ∧ ∀ ws : List Window,
        ((∀ w ∈ ws, ¬ (w.valid = true ∧ w.first ≤ page ∧ page ≤ w.last)) →
          (WindowsTable.windows ws).canRead p page = true ∧ (WindowsTable.windows ws).canWrite p page = true)
        ∧ ∀ (before after : List Window) (w : Window), ws = before ++ w :: after →
            (∀ v ∈ before, ¬ (v.valid = true ∧ v.first ≤ page ∧ page ≤ v.last)) →
            w.valid = true → w.first ≤ page → page ≤ w.last →
            (WindowsTable.windows ws).canRead p page = w.readSet.getLsbD p.val
            ∧ (WindowsTable.windows ws).canWrite p page = w.writeSet.getLsbD p.val

/-- The judgement of a line of 256 bytes (R130): empty, malformed or well formed, by the tests of tag, CRC-16, valid flag, pad and
page range; the records of a well-formed line are the eight of Table 51. -/
def Obligations.WindowsLineJudged : Prop :=
  ∀ line : List Byte, line.length = 256 →
    let b (k : Nat) : Byte := line.getD k 0xFF
    let half (k : Nat) : Nat := (b k).toNat * 256 + (b (k + 1)).toNat
    let sound : Prop :=
      b 0 = 0xD6 ∧ b 1 = 0x47 ∧ half 66 = (crc16 (line.take 66)).toNat
      ∧ ∀ w, w < 8 → (b (2 + 8 * w) = 0x00 ∨ b (2 + 8 * w) = 0x01) ∧ b (9 + 8 * w) = 0x00
          ∧ (b (2 + 8 * w) = 0x01 → half (3 + 8 * w) ≤ half (5 + 8 * w) ∧ half (5 + 8 * w) ≤ 463)
    ((∀ v ∈ line, v = 0xFF) → judgeLine line = .empty)
    ∧ ((∃ v ∈ line, v ≠ 0xFF) → ¬ sound → judgeLine line = .malformed)
    ∧ ((∃ v ∈ line, v ≠ 0xFF) → sound → ∃ ws : List Window, judgeLine line = .wellFormed ws ∧ ws.length = 8
        ∧ ∀ w, w < 8 → ws[w]? = some { valid := decide (b (2 + 8 * w) = 0x01), first := half (3 + 8 * w),
                                       last := half (5 + 8 * w), readSet := b (7 + 8 * w), writeSet := b (8 + 8 * w) })

/-! ### Frames -/

/-- A fall of chip select begins a frame, or, while PRST_n of the port or RESET_n is low or the part has no supply, an ignored one
with SDO at high impedance (R163, R165, R180, R181); no bit of a byte has come. Nothing but the port's frame changes. -/
def Obligations.ChipSelectFalls : Prop :=
  ∀ (p : PortId) (s : State), (s.port p).csLow = false →
    let r := s.port p
    let held : Prop := r.prstLow = true ∨ s.power.resetLow = true ∨ s.power.supplied = false
    (¬ held → exec (.csFall p) s = .next (s.setPort p
      { r with csLow := true, decoder := .request, received := 0, request := [], turnaroundLeft := 0, reply := [], sdo := some 0xFF,
               bits := [], statusTaken := none }))
    ∧ (held → exec (.csFall p) s = .next (s.setPort p
      { r with csLow := true, decoder := .ignored, received := 0, request := [], turnaroundLeft := 0, reply := [], sdo := none,
               bits := [], statusTaken := none }))

/-- A rise of chip select ends the frame, whatever had been received or delivered of it: the bits of an unfinished byte are
discarded, the reply not yet delivered is lost, a read stream ends with its pin released, SDO is high impedance, and nothing else
changes (R163, R165, R169, R170, R175). Under reset the decoder stays IGNORED (R162, R181; log entry 16). -/
def Obligations.ChipSelectRises : Prop :=
  ∀ (p : PortId) (s : State), (s.port p).csLow = true →
    let r := s.port p
    let held : Prop := r.prstLow = true ∨ s.power.resetLow = true ∨ s.power.supplied = false
    ∃ bm : BlockManager, s.bm.PinsMoved bm (r.stream.bind fun st => st.pinned) none
      ∧ (¬ held → exec (.chipSelectRise p) s = .next (State.setPort { s with bm := bm } p
          { r with csLow := false, decoder := .idle, received := 0, request := [], turnaroundLeft := 0, reply := [],
                   stream := none, bits := [], statusTaken := none, sdo := none }))
      ∧ (held → exec (.chipSelectRise p) s = .next (State.setPort { s with bm := bm } p
          { r with csLow := false, decoder := .ignored, received := 0, request := [], turnaroundLeft := 0, reply := [],
                   stream := none, bits := [], statusTaken := none, sdo := none }))

/-- The edges of SCK (R163 to R167). Edges act one after another; a fall only lowers SCK; a rise samples SDI; while the decoder is
IDLE or IGNORED no bit counts. The eighth rise completes a byte in both directions. The part has delivered 0xFF during the request,
during the two turnaround bytes and after the reply, and the bytes of the reply in order between. In REQUEST the master's byte, the
most significant bit first, has arrived: it is held while the frame is not complete, and with the last parameter byte the request is
taken as its command takes it. From the turnaround on the master's bytes are ignored. A bit stands on SDO from the fall before its
rise until the next fall, the most significant first. That one command carries the edges of every phase, and that a request command
stands for the bits of its whole frame, is the model's choice (log entries 1 and 18). -/
def Obligations.ReplyBytesDelivered : Prop :=
  ∀ (p : PortId) (s : State) (sdi : Bool),
    let r := s.port p
    let e := exec (.replyByteDelivery ⟨p, [.rise sdi], []⟩) s
    exec (.replyByteDelivery ⟨p, [], []⟩) s = .next s
    ∧ (r.decoder ≠ .turnaround → ∀ owners, exec (.replyByteDelivery ⟨p, [], owners⟩) s = .next s)
    ∧ (∀ x edges owners, ∃ t : State, exec (.replyByteDelivery ⟨p, [x], []⟩) s = .next t
        ∧ exec (.replyByteDelivery ⟨p, x :: edges, owners⟩) s = exec (.replyByteDelivery ⟨p, edges, owners⟩) t)
    ∧ exec (.replyByteDelivery ⟨p, [.fall], []⟩) s = .next (s.setPort p { r with sckHigh := false })
    ∧ (r.sckHigh = true → e = .next s)
    ∧ (r.sckHigh = false → r.decoder = .idle ∨ r.decoder = .ignored → e = .next (s.setPort p { r with sckHigh := true }))
    ∧ (r.sckHigh = false → r.decoder ≠ .idle → r.decoder ≠ .ignored → r.bits.length < 7 →
        e = .next (s.setPort p { r with bits := r.bits ++ [sdi], sckHigh := true }))
    ∧ (r.sckHigh = false → r.bits.length = 7 →
        let done : Port := { r with bits := [], sckHigh := true }
        (r.decoder = .request → ∀ byte : Byte, (∀ k, k < 8 → (r.bits ++ [sdi])[k]? = some (byte.getLsbD (7 - k))) →
          let bytes := r.request ++ [byte]
          (decodeFrame p bytes = none → e = .next (s.setPort p
            { done with sdo := some 0xFF, received := r.received + 1, request := bytes }))
          ∧ ∀ c, decodeFrame p bytes = some c →
              let begun : State := s.setPort p { done with sdo := some 0xFF, received := 0, request := [] }
              begun.Receiving p ∧ e = exec c begun ∧ ∃ t : State, e = .next t)
        ∧ (r.decoder = .spent → e = .next (s.setPort p { done with sdo := some 0xFF }))
        ∧ (r.decoder = .turnaround → r.turnaroundLeft = 2 →
            e = .next (s.setPort p { done with sdo := some 0xFF, turnaroundLeft := 1 }))
        ∧ (r.decoder = .turnaround → r.turnaroundLeft = 1 →
            e = .next (s.setPort p { done with sdo := some 0xFF, turnaroundLeft := 0, decoder := .reply }))
        ∧ ∀ (b : Byte) (rest : List Byte), r.decoder = .reply → r.reply = b :: rest →
            (rest ≠ [] → e = .next (s.setPort p { done with sdo := some b, reply := rest }))
            ∧ (rest = [] → r.stream = none →
                e = .next (s.setPort p { done with sdo := some b, reply := [], decoder := .spent }))
            ∧ (rest = [] → r.stream ≠ none →
                e = .next (s.setPort p { done with sdo := some b, reply := [], decoder := .stream })))
    ∧ (r.sdo = none → s.sdoLevel p = none)
    ∧ (r.sdo ≠ none → r.sckHigh = false → r.bits.length ≤ 7 →
        (r.decoder = .request ∨ r.decoder = .turnaround ∨ r.decoder = .spent → s.sdoLevel p = some true)
        ∧ ∀ (b : Byte) (rest : List Byte), r.decoder = .reply → r.reply = b :: rest →
            s.sdoLevel p = some (b.getLsbD (7 - r.bits.length)) ∧ ∃ t : State, e = .next t ∧ t.sdoLevel p = s.sdoLevel p)

/-- A data byte of a read stream (R173 to R175): the pinned block's byte, or 0xFF without one, on SDO the most significant bit first
(R163). At the end of a page with bytes left the old block is unpinned before the next page is translated and pinned; with the
last byte the stream ends. Each of the two is an event of its own as well as the eighth rise of SCK (log entry 17). -/
def Obligations.StreamDelivers : Prop :=
  ∀ (p : PortId) (s : State) (st : Stream) (byte : Byte), (s.port p).decoder = .stream → (s.port p).stream = some st →
    (∀ b, st.pinned = some b → byte = s.flash.read (4160 * b.val + st.position)) → (st.pinned = none → byte = 0xFF) →
    let r := s.port p
    let eighth (c : Instr) : Prop :=
      r.sckHigh = false ∧ r.bits.length = 7 ∧ ∃ sdi, c = .replyByteDelivery ⟨p, [.rise sdi], []⟩
    let done : Port := { r with sdo := some byte, bits := [], sckHigh := true }
    (r.sdo ≠ none → r.sckHigh = false → r.bits.length ≤ 7 → s.sdoLevel p = some (byte.getLsbD (7 - r.bits.length)))
    ∧ (1 < st.bytesLeft → st.position < 4095 → ∀ c, eighth c → exec c s = .next (s.setPort p { done with
        stream := some { st with position := st.position + 1, bytesLeft := st.bytesLeft - 1 } }))
    ∧ (1 < st.bytesLeft → st.position = 4095 → ∀ page : PageId, page.val = st.page.val + 1 →
        ∃ bm : BlockManager, s.bm.PinsMoved bm st.pinned (s.map.currentBlock page)
          ∧ ∀ c, eighth c ∨ c = .readStreamNextPage p →
              exec c s = .next (State.setPort { s with bm := bm } p { done with
                stream := some { page := page, position := 0, pinned := s.map.currentBlock page,
                                 bytesLeft := st.bytesLeft - 1 } }))
    ∧ (st.bytesLeft = 1 → ∃ bm : BlockManager, s.bm.PinsMoved bm st.pinned none
        ∧ ∀ c, eighth c ∨ c = .readStreamEnd p →
            exec c s = .next (State.setPort { s with bm := bm } p { done with stream := none, decoder := .spent }))

/-! ### Resets -/

/-- The port reset (R60, R155, R161, R178): the frame, stream, lease setting and notices of the port return to their reset state,
its sessions end or are detached as Table 15 gives, with a start hand-off that names one of them to be refused (R48), and nothing
else changes. While the part is held in reset or has no
supply, only the level of the pin changes. The release frees the decoder when chip select and RESET_n are high. -/
def Obligations.PortReset : Prop :=
  ∀ (p : PortId) (s : State),
    let up : Prop := s.power.supplied = true ∧ s.power.resetLow = false
    let ends (i : SessionId) : Prop := (s.ses.session i).owner = some p ∧
      ((s.ses.session i).state = .opened ∨ (s.ses.session i).state = .queued ∨ (s.ses.session i).state = .finished)
    ((s.port p).prstLow = false → up → ∃ t : State, exec (.prstAssert p) s = .next t
      ∧ t = { s with bm := t.bm, ses := t.ses, notices := t.notices, ports := t.ports,
                     eng := { s.eng with
                       queue := s.eng.queue.set p.val []
                       start := s.eng.start.map fun h => { h with live := h.live && !(h.port == p) } } }
      ∧ s.bm.PinsMoved t.bm ((s.port p).stream.bind fun st => st.pinned) none
      ∧ Port.Cleared (s.port p) (t.port p) true
      ∧ (∀ q : PortId, q ≠ p → { t.port q with alert := (s.port q).alert } = s.port q ∧ t.notice q = s.notice q)
      ∧ ((∀ k : Fin 4, (t.notice p).watches[k.val] = none) ∧ (t.notice p).queue = [] ∧ (t.notice p).overrun = false)
      ∧ t.AlertLaw
      ∧ (∀ i, ends i → t.ses.session i = Session.freeSlot)
      ∧ (∀ i, (s.ses.session i).owner = some p →
          (s.ses.session i).state = .programming ∨ (s.ses.session i).state = .unwinding →
          t.ses.session i = { s.ses.session i with owner := none })
      ∧ (∀ i, (s.ses.session i).owner ≠ some p → t.ses.session i = s.ses.session i)
      ∧ (∀ page i, s.ses.claim page = some i → ends i → t.ses.claim page = none)
      ∧ (∀ page, (∀ i, s.ses.claim page = some i → ¬ ends i) → t.ses.claim page = s.ses.claim page)
      ∧ t.ses.failure = s.ses.failure ∧ t.ses.unwindRequest = s.ses.unwindRequest)
    ∧ ((s.port p).prstLow = false → ¬ up → exec (.prstAssert p) s = .next (s.setPort p { s.port p with prstLow := true }))
    ∧ ((s.port p).prstLow = true →
        (up → (s.port p).csLow = false →
          exec (.prstRelease p) s = .next (s.setPort p { s.port p with prstLow := false, decoder := .idle }))
        ∧ (¬ (up ∧ (s.port p).csLow = false) →
          exec (.prstRelease p) s = .next (s.setPort p { s.port p with prstLow := false })))

/-- The assertion of RESET_n: the operation in flight is cut, every SRAM table is reset, every port is held, and MARK_FAULT and
FROZEN are kept (R3, R91, R126, R181). On a part without supply only the level of the pin changes. -/
def Obligations.ResetAssertDiscards : Prop :=
  ∀ (cut : Cut) (s : State), s.power.resetLow = false →
    (s.power.supplied = true → ∃ t : State, exec (.resetAssert cut) s = .next t
      ∧ s.CutArray t cut ∧ t.TablesReset ∧ (∀ p, Port.Cleared (s.port p) (t.port p) (s.port p).prstLow)
      ∧ t.eng.markFault = s.eng.markFault ∧ t.prot.frozen = s.prot.frozen
      ∧ t.power = { s.power with resetLow := true } ∧ t.pending = s.pending)
    ∧ (s.power.supplied = false →
        exec (.resetAssert cut) s = .next { s with power := { s.power with resetLow := true } })

/-- The start of mounting at the release of RESET_n (R112, R126): MOUNTING with reset cause RESET_LINE, scan position 0, every SRAM
table in its reset state, TABLE_FAULT cleared, MARK_FAULT, FROZEN and the array kept. The decoders are freed, except where
chip select or PRST_n is low (R162, R181). -/
def Obligations.ResetReleaseMounts : Prop :=
  ∀ s : State, s.power.resetLow = true →
    (s.power.supplied = true → ∃ t : State, exec .resetRelease s = .next t
      ∧ t.mount.condition = .mounting ∧ t.mount.cause = .resetLine ∧ t.TablesReset
      ∧ t.flash = s.flash ∧ t.eng.markFault = s.eng.markFault ∧ t.prot.frozen = s.prot.frozen
      ∧ t.prot.tableFault = false ∧ t.power = { s.power with resetLow := false } ∧ t.pending = s.pending
      ∧ ∀ p, Port.Cleared (s.port p) { t.port p with decoder := .ignored } (s.port p).prstLow
          ∧ ((t.port p).decoder = .idle ↔ (s.port p).csLow = false ∧ (s.port p).prstLow = false)
          ∧ ((t.port p).decoder = .ignored ↔ (s.port p).csLow = true ∨ (s.port p).prstLow = true))
    ∧ (s.power.supplied = false → exec .resetRelease s = .next { s with power := { s.power with resetLow := false } })

/-- Power loss cuts the operation in flight and loses all SRAM state (R3, R91). Power-on starts a mount with reset cause POWER_ON,
MARK_FAULT, FROZEN and TABLE_FAULT cleared and the array kept (R112, R126); with RESET_n low the mount waits for the
release. A power-on of a part that is supplied is the loss of its supply and its return (log entry 19). -/
def Obligations.SupplyLossAndReturn : Prop :=
  ∀ (cut : Cut) (s : State),
    (s.power.supplied = true → ∃ t : State, exec (.powerLoss cut) s = .next t
      ∧ s.CutArray t cut ∧ t.TablesReset ∧ (∀ p, Port.Cleared (s.port p) (t.port p) (s.port p).prstLow)
      ∧ t.power = { s.power with supplied := false } ∧ t.pending = s.pending
      ∧ exec (.powerOn cut) s = exec (.powerOn cut) t)
    ∧ (s.power.supplied = false → ∃ t : State, exec (.powerOn cut) s = .next t
      ∧ t.mount.condition = .mounting ∧ t.mount.cause = .powerOn ∧ t.TablesReset ∧ t.flash = s.flash
      ∧ t.eng.markFault = false ∧ t.prot.frozen = false ∧ t.prot.tableFault = false
      ∧ t.power = { s.power with supplied := true } ∧ t.pending = s.pending
      ∧ ∀ p, Port.Cleared (s.port p) { t.port p with decoder := .ignored } (s.port p).prstLow
          ∧ ((t.port p).decoder = .idle ↔
              s.power.resetLow = false ∧ (s.port p).csLow = false ∧ (s.port p).prstLow = false)
          ∧ ((t.port p).decoder = .ignored ↔
              s.power.resetLow = true ∨ (s.port p).csLow = true ∨ (s.port p).prstLow = true))

/-! ### The engine's choice of work -/

/-- Cases 1, 3 and 4 of the choice (R69, R94, R96). With the free count below 4, or with no session queued, the oldest dirty block
that is not pinned leaves the Dirty List and its erase starts; with no such block and no session queued, the engine
rests. -/
def Obligations.ChoiceErases : Prop :=
  ∀ s : State, s.Due .choiceOfWork → s.eng.start = none →
    (∀ (b : BlockId) (before after : List BlockId), s.bm.dirtyList = before ++ b :: after →
      (∀ x ∈ before, s.bm.pins x ≠ 0) → s.bm.pins b = 0 →
      s.bm.freePool.length < 4 ∨ (∀ p, s.eng.queueOf p = []) →
      ∃ bm : BlockManager,
        exec .choiceOfWork s = .next { s with bm := bm, eng := { s.eng with work := .erase b .erase } }
        ∧ bm.dirtyList = before ++ after.filter (· != b) ∧ bm.freePool = s.bm.freePool ∧ bm.retiredSet = s.bm.retiredSet
        ∧ s.bm.Reclassed bm b .erasing)
    ∧ ((∀ x ∈ s.bm.dirtyList, s.bm.pins x ≠ 0) → (∀ p, s.eng.queueOf p = []) → exec .choiceOfWork s = .next s)

/-- Case 2 of the choice, when the start check lets the commit start (R24, R48, R69 to R72): the Map Unit gives the next serial and
the base blocks, and the engine hands the start to the Session Unit. When that takes it (the next CHOICE_OF_WORK; log entry
12), a session still QUEUED becomes PROGRAMMING and leaves its list, the pointer moves to its port, and member 0 begins; one
that has left QUEUED meanwhile is not started, and the serial stays consumed (R25, R71). With no free block for member 0 the engine
gives up with no target, and the unwinding ends in the same event, the failure taken before its end, and the unwind request is
cleared, which is the model's choice of order (R49, R50, R73, R78, R85; log entries 13 and 14). -/
def Obligations.ChoiceStartsCommit : Prop :=
  (∀ (s : State) (p : PortId) (i : SessionId), s.Due .choiceOfWork → s.eng.start = none →
    ¬ (s.bm.freePool.length < 4 ∧ ∃ b ∈ s.bm.dirtyList, s.bm.pins b = 0) → s.eng.NextIs p i →
    let r := s.ses.session i
    r.state = .queued → r.members.length ≤ s.bm.freePool.length → s.map.nextSerial ≤ 0xFFFFFF00 →
    let map : MapUnit := { s.map with
      nextSerial := s.map.nextSerial + 1
      serialEnd := s.map.serialEnd || decide (0xFFFFFF00 < s.map.nextSerial + 1) }
    let start : StartHandoff := { session := i, port := p, live := true,
                                  kind := .start s.map.nextSerial (r.members.map s.map.currentBlock) }
    exec .choiceOfWork s = .next { s with map := map, eng := { s.eng with start := some start } })
  ∧ ∀ (s : State) (h : StartHandoff) (serial : Nat) (bases : List (Option BlockId)), s.Due .choiceOfWork →
    s.eng.start = some h → h.kind = .start serial bases →
    let r := s.ses.session h.session
    let taken : State := { s with eng := { s.eng with start := none } }
    (h.live = true → r.state = .queued → ∀ writer, r.owner = some writer →
      ∃ (t : State) (e : Engine), exec .choiceOfWork s = .next t ∧ taken.eng.Without e h.session
        ∧ State.BeginsMember
            { s with ses := s.ses.setSession h.session { r with state := .programming, boundaryPassed := false },
                     eng := { e with pointer := h.port } } t
            { session := h.session, serial := serial, writer := writer, pages := r.members, windowsLine := r.windowsLine,
              bases := bases, targets := r.members.map fun _ => none, member := 0, tries := 0,
              unwindRequested := false, boundaryHanded := false })
    ∧ (h.live = false ∨ r.state ≠ .queued → exec .choiceOfWork s = .next taken)

/-- Case 2 of the choice, when the commit does not start (R24, R48, R66, R70): when free and dirty blocks together are too few, or
the serials are exhausted, the session leaves its list and the failure is handed over; otherwise it waits at the head of its list.
When the failure is taken (the next CHOICE_OF_WORK; log entry 12), a session still QUEUED is FINISHED with NO_SPACE or
SERIAL_END, and one that has left QUEUED is not changed. -/
def Obligations.ChoiceFailsOrWaits : Prop :=
  (∀ (s : State) (p : PortId) (i : SessionId), s.Due .choiceOfWork → s.eng.start = none →
    ¬ (s.bm.freePool.length < 4 ∧ ∃ b ∈ s.bm.dirtyList, s.bm.pins b = 0) → s.eng.NextIs p i →
    (s.ses.session i).state = .queued →
    let n := (s.ses.session i).members.length
    let fails (kind : StartKind) : Prop := ∃ e : Engine, exec .choiceOfWork s = .next { s with eng := e }
      ∧ e = { s.eng with queue := e.queue, start := some { session := i, port := p, kind := kind, live := true } }
      ∧ ∀ q, e.queueOf q = (s.eng.queueOf q).filter (· != i)
    (s.bm.freePool.length + s.bm.dirtyList.length < n → fails .checkFailed)
    ∧ (n ≤ s.bm.freePool.length → 0xFFFFFF00 < s.map.nextSerial → fails .serialRefused)
    ∧ (s.bm.freePool.length < n → n ≤ s.bm.freePool.length + s.bm.dirtyList.length → exec .choiceOfWork s = .next s))
  ∧ ∀ (s : State) (h : StartHandoff) (reason : FailReason), s.Due .choiceOfWork → s.eng.start = some h →
    h.kind = .checkFailed ∧ reason = .noSpace ∨ h.kind = .serialRefused ∧ reason = .serialEnd →
    let taken : State := { s with eng := { s.eng with start := none } }
    (h.live = true → (s.ses.session h.session).state = .queued →
      ∃ t : State, exec .choiceOfWork s = .next t ∧ taken.FinishedEarly t h.session (.failed reason))
    ∧ (h.live = false ∨ (s.ses.session h.session).state ≠ .queued → exec .choiceOfWork s = .next taken)

/-! ### Flash operations -/

/-- The place and the bytes of each program operation (R5, R7, R45, R74, R75, R97, R183, R184), and the check value of the CRC-16. The
guide gives the places inside a block; that block b stands at 4160 * b, its data area first and its spare area at 4096, is the
model's choice (log entry 7, DESIGN CHOICE). -/
def Obligations.WhatIsProgrammed : Prop :=
  (∀ b : BlockId, FlashOp.start (.begunMark b) = 4160 * b.val + 4096 + 31 ∧ FlashOp.size (.begunMark b) = 1
    ∧ FlashOp.start (.dataStamp b) = 4160 * b.val + 4096 + 8 ∧ FlashOp.size (.dataStamp b) = 18
    ∧ FlashOp.start (.void b) = 4160 * b.val + 4096 + 32 ∧ FlashOp.size (.void b) = 1
    ∧ FlashOp.start (.retire b) = 4160 * b.val + 4096 + 33 ∧ FlashOp.size (.retire b) = 1
    ∧ FlashOp.start (.freeStamp b) = 4160 * b.val + 4096 ∧ FlashOp.size (.freeStamp b) = 6
    ∧ FlashOp.start (.erase b) = 4160 * b.val ∧ FlashOp.size (.erase b) = 4160
    ∧ ∀ k, FlashOp.start (.line b k) = 4160 * b.val + 256 * k ∧ FlashOp.size (.line b k) = 256)
  ∧ (∀ (s : State) (b : BlockId),
      s.intendedBytes (.begunMark b) = [0x00] ∧ s.intendedBytes (.void b) = [0x00] ∧ s.intendedBytes (.retire b) = [0x00]
      ∧ (let head : List Byte := 0xA5 :: natBytes3 (min (s.bm.eraseCount b + 1) 0xFFFFFF)
         s.intendedBytes (.freeStamp b) = head ++ halfBytes (crc16 head))
      ∧ ∀ (r : CommitRec) (step : CommitStep), s.eng.work = .commit r step →
          (∀ k, s.intendedBytes (.line b k) = (List.range 256).map fun j =>
            mergedByte s.flash ((s.ses.session r.session).buffers.getD r.member []) (r.bases.getD r.member none) (256 * k + j))
          ∧ (r.pages.length ≤ 4 →
              let list : List Byte := r.pages.flatMap (fun q => natBytes2 q.val) ++ List.replicate (2 * (4 - r.pages.length)) 0xFF
              let head : List Byte := [0x5A, BitVec.ofNat 8 r.pages.length, BitVec.ofNat 8 r.member] ++ list
                ++ natBytes4 r.serial ++ [BitVec.ofNat 8 r.writer.val]
              s.intendedBytes (.dataStamp b) = head ++ halfBytes (crc16 head)))
  ∧ crc16 [0x31, 0x32, 0x33, 0x34, 0x35, 0x36, 0x37, 0x38, 0x39] = 0x29B1

/-- The programs of a commit complete: begun mark, line and data stamp (R73 to R77, R80, R86). Where an unwinding ends here, a
failure that still stands is taken in the same event, before the end, and the unwind request is cleared, which is the model's choice
of order (R49, R50, R85; log entries 13 and 14). -/
def Obligations.CommitProgramsEnd : Prop :=
  ∀ (r : CommitRec) (b : BlockId) (w : Written) (s : State), r.currentTarget = some b →
    (s.eng.work = .commit r .begunMark → s.Completes (.begunMarkCompletion w) (.begunMark b) w)
    ∧ (∀ k, s.eng.work = .commit r (.line k) → s.Completes (.lineProgramCompletion w) (.line b k) w)
    ∧ (s.eng.work = .commit r .dataStamp → s.Completes (.dataStampCompletion w) (.dataStamp b) w)

/-- The attempts on the bytes of the discard word complete: voids of an unwinding and of a mount, and retire marks in every engine
state that makes them (R76, R82, R83, R89, R99; log entry 28). An attempt has succeeded when the byte reads other than 0xFF (R2,
R7); the bytes that a completion left are its operand (log entry 4). Where an unwinding ends here, a failure that still stands is
taken in the same event, before the end, and the unwind request is cleared, which is the model's choice of order (R49, R50, R85; log
entries 13 and 14). -/
def Obligations.DiscardMarksEnd : Prop :=
  ∀ (b : BlockId) (n : Nat) (w : Written) (s : State),
    (∀ u, s.eng.work = .unwind u (.void b n) → s.Completes (.voidCompletion w) (.void b) w)
    ∧ (∀ rest, s.eng.work = .mountVoid b rest (.void n) → s.Completes (.mountVoidCompletion w) (.void b) w)
    ∧ (∀ r, s.eng.work = .commit r (.retire n) → r.currentTarget = some b →
        s.Completes (.retireMarkCompletion w) (.retire b) w)
    ∧ (∀ u, s.eng.work = .unwind u (.retire b n) → s.Completes (.retireMarkCompletion w) (.retire b) w)
    ∧ (s.eng.work = .erase b (.retire n) → s.Completes (.retireMarkCompletion w) (.retire b) w)
    ∧ ∀ rest, s.eng.work = .mountVoid b rest (.retire n) →
        s.Completes (.retireMarkCompletion w) (.retire b) w ∧ s.Completes (.mountVoidCompletion w) (.retire b) w

/-- The operations of a reclaim erase complete: the erase and the free stamp (R96 to R99). -/
def Obligations.ReclaimOpsEnd : Prop :=
  ∀ (b : BlockId) (w : Written) (s : State),
    (s.eng.work = .erase b .erase → s.Completes (.eraseCompletion w) (.erase b) w)
    ∧ (s.eng.work = .erase b .freeStamp → s.Completes (.freeStampCompletion w) (.freeStamp b) w)

/-- An operation that runs past its limit is ended, leaves its bytes as a cut operation does, and is taken as a failure (R79; a valid
stamp nobody programmed is not left, log entry 32). Where an unwinding ends here, a failure that still stands is taken
in the same event, before the end, and the unwind request is cleared, which is the model's choice of order (R49, R50, R85; log
entries 13 and 14). -/
def Obligations.TimeoutFails : Prop :=
  ∀ (cut : Cut) (op : FlashOp) (s : State), s.eng.work.inFlight = some op →
    ∃ (m : Memory) (t : State), s.CutArray { s with flash := m } cut ∧ exec (.flashOpTimeout cut) s = .next t
      ∧ State.OpEnds { s with flash := m } t False

/-! ### Hand-offs of the engine -/

/-- FAILURE_HANDOFF (R49): a PROGRAMMING session becomes UNWINDING with outcome FAILED and the reason; any other session, and
everything else of the part, is unchanged. -/
def Obligations.FailureTaken : Prop :=
  ∀ (s : State) (f : Failure), s.ses.failure = some f →
    ∃ u : SessionUnit, s.ses.FailureTaken u f ∧ exec .failureHandoff s = .next { s with ses := u }

/-- BOUNDARY_HANDOFF and UNWIND_REQUEST (R49, R77, R80). A PROGRAMMING session passes the boundary and the last data stamp starts;
any other is unwound. A request to unwind is noted while an operation is in flight, acts at once in the boundary wait, and changes
nothing where the engine no longer commits that session (log entry 14). Where an unwinding ends here, a failure that still stands is
taken in the same event, before the end, and the unwind request is cleared, which is the model's choice of order (R49, R50, R85; log
entries 13 and 14). -/
def Obligations.BoundaryAndUnwindRequest : Prop :=
  (∀ (s : State) (r : CommitRec), s.eng.work = .commit r .boundary →
    ((s.ses.session r.session).state = .programming →
      exec .boundaryHandoff s = .next (State.setWork { s with
          ses := s.ses.setSession r.session { s.ses.session r.session with boundaryPassed := true } }
        (.commit { r with boundaryHanded := true } .dataStamp)))
    ∧ ((s.ses.session r.session).state ≠ .programming →
        ∃ t : State, exec .boundaryHandoff s = .next t ∧ s.UnwindGoesOn t r.toUnwind))
  ∧ ∀ (s : State) (i : SessionId), s.ses.unwindRequest = some i →
      let s' : State := { s with ses := { s.ses with unwindRequest := none } }
      (∀ r step, s.eng.work = .commit r step → r.session = i → (s.eng.work.inFlight).isSome →
        exec .unwindRequest s = .next (s'.setWork (.commit { r with unwindRequested := true } step)))
      ∧ (∀ r, s.eng.work = .commit r .boundary → r.session = i →
          ∃ t : State, exec .unwindRequest s = .next t ∧ s'.UnwindGoesOn t r.toUnwind)
      ∧ ((∀ r step, s.eng.work = .commit r step → r.session = i → step = .flipRequested ∨ step = .flipTaken) →
          exec .unwindRequest s = .next s')

/-! ### The flip -/

/-- FLIP (R11, R23, R28, R29): in one event every member page points at its target, the targets become DATA, the superseded blocks
become DIRTY at the tail of the Dirty List in member order, and the hand-offs of the flip stand to be taken. Stated
where no hand-off of an earlier flip is still to be taken (log entry 15). -/
def Obligations.FlipPoints : Prop :=
  ∀ (s : State) (r : CommitRec), s.BlockLaw → s.eng.work = .commit r .flipRequested → s.map.flip = none →
    ∃ t : State, exec .flip s = .next t
      ∧ t = { s with map := t.map, bm := t.bm, eng := { s.eng with work := .commit r .flipTaken } }
      ∧ (∀ m q b, r.pages[m]? = some q → r.targets[m]? = some (some b) →
          t.map.entry q = some { block := b, serial := r.serial, writer := r.writer }
          ∧ let info : DataInfo := { page := q, serial := r.serial, index := m, count := r.pages.length, writer := r.writer }
            t.bm.block b = (s.bm.block b).map fun x => { x with cls := .data info })
      ∧ (∀ q, q ∉ r.pages → t.map.entry q = s.map.entry q)
      ∧ t.map.mapped = s.map.mapped + (r.pages.filter fun q => (s.map.entry q).isNone).length
      ∧ t.map.nextSerial = s.map.nextSerial ∧ t.map.serialEnd = s.map.serialEnd
      ∧ t.map.flip = some { session := r.session, serial := r.serial, writer := r.writer, pages := r.pages,
                            reloadDue := r.windowsLine && decide (Config.windowsPage ∈ r.pages), revocationDue := false,
                            sessionEndDue := true, noticesDue := true }
      ∧ (∀ q ∈ r.pages, ∀ b, s.map.currentBlock q = some b →
          t.bm.block b = (s.bm.block b).map fun x => { x with cls := .dirty })
      ∧ (∀ b, some b ∉ r.targets → (∀ q ∈ r.pages, s.map.currentBlock q ≠ some b) → t.bm.block b = s.bm.block b)
      ∧ t.bm.dirtyList = s.bm.dirtyList ++ r.pages.filterMap s.map.currentBlock
      ∧ t.bm.freePool = s.bm.freePool ∧ t.bm.retiredSet = s.bm.retiredSet

/-- WINDOWS_TABLE_RELOAD (R138, R140, R152): the new line 0 of page 463 comes into force, TABLE_FAULT is cleared, FROZEN is
unchanged, revocation is called for, and TABLE_CHANGED is offered to every port but the writer. -/
def Obligations.ReloadPutsInForce : Prop :=
  ∀ (s : State) (w : FlipWork) (bytes : List Byte), s.map.flip = some w → w.reloadDue = true →
    (bytes.length = 256 ∧ ∀ o, o < 256 →
      bytes[o]? = some (mergedByte s.flash [] (s.map.currentBlock Config.windowsPage) o)) →
    ∃ t : State, exec .windowsTableReload s = .next t
      ∧ t = { s with prot := t.prot, notices := t.notices, ports := t.ports, map := t.map, eng := t.eng }
      ∧ (judgeLine bytes = .empty → t.prot.table = .empty)
      ∧ (∀ ws, judgeLine bytes = .wellFormed ws → t.prot.table = .windows ws)
      ∧ t.prot.tableFault = false ∧ t.prot.frozen = s.prot.frozen
      ∧ (∀ p, p = w.writer ∨ (s.port p).prstLow = true → t.notice p = s.notice p)
      ∧ (∀ p, p ≠ w.writer → (s.port p).prstLow = false →
          (s.notice p).Took (t.notice p) { kind := .tableChanged, serial := w.serial, writer := w.writer })
      ∧ s.AlertsFollow t ∧ s.HandoffTaken t { w with reloadDue := false, revocationDue := true }

/-- REVOCATION (R62, R139): every OPEN or QUEUED session whose owner may not write all its pages under the table in force is
FINISHED with outcome REVOKED and withdrawn from the engine queue, with a start hand-off that names it to be refused (R48); no
other session changes. -/
def Obligations.RevocationRevokes : Prop :=
  ∀ (s : State) (w : FlipWork) (revoked : SessionId → Bool), s.map.flip = some w → w.revocationDue = true →
    (∀ i, revoked i = true ↔ ((s.ses.session i).state = .opened ∨ (s.ses.session i).state = .queued)
      ∧ ∃ o, (s.ses.session i).owner = some o ∧ ∃ q ∈ (s.ses.session i).members, s.prot.table.canWrite o q.val = false) →
    ∃ (t : State) (e : Engine), exec .revocation s = .next t
      ∧ t = { s with ses := t.ses, ports := t.ports, map := t.map, eng := t.eng }
      ∧ (∀ i, t.ses.session i = if revoked i then (s.ses.session i).finishedAs .revoked else s.ses.session i)
      ∧ (∀ q, t.ses.claim q = (s.ses.claim q).bind fun i => if revoked i then none else some i)
      ∧ t.ses.failure = s.ses.failure ∧ t.ses.unwindRequest = s.ses.unwindRequest
      ∧ e = { s.eng with queue := e.queue
                         start := s.eng.start.map fun h => { h with live := h.live && !revoked h.session } }
      ∧ (∀ p, e.queueOf p = (s.eng.queueOf p).filter fun i => !revoked i)
      ∧ s.AlertsFollow t ∧ State.HandoffTaken { s with eng := e } t { w with revocationDue := false }

/-- FLIP_END_OF_SESSION (R50, R57, R61): the PROGRAMMING session is FINISHED with outcome DONE and the serial, or FREE if it is
detached. The reload has been taken before (R138). -/
def Obligations.FlipEndsSession : Prop :=
  ∀ (s : State) (w : FlipWork), s.map.flip = some w → w.sessionEndDue = true → w.reloadDue = false →
    let r := s.ses.session w.session
    ∃ t : State, exec .flipEndOfSession s = .next t
      ∧ t = { s with ses := t.ses, ports := t.ports, map := t.map, eng := t.eng }
      ∧ (r.state = .programming → s.ses.EndedWith t.ses w.session
          (if r.owner.isSome then r.finishedAs (.done w.serial) else Session.freeSlot))
      ∧ (r.state ≠ .programming → t.ses = s.ses)
      ∧ s.AlertsFollow t ∧ s.HandoffTaken t { w with sessionEndDue := false }

/-- FLIP_NOTICE_HANDOFF (R151, R153, R155): every port but the writer is offered, in member order, a PAGE_CHANGED for each member
page that it watches and may read; a port whose PRST_n is low takes none. The reload has been taken before (R29). -/
def Obligations.FlipNoticesOffered : Prop :=
  ∀ (s : State) (w : FlipWork), s.map.flip = some w → w.noticesDue = true → w.reloadDue = false →
    ∃ t : State, exec .flipNoticeHandoff s = .next t
      ∧ t = { s with notices := t.notices, ports := t.ports, map := t.map, eng := t.eng }
      ∧ (∀ p, p = w.writer ∨ (s.port p).prstLow = true → t.notice p = s.notice p)
      ∧ (∀ p, p ≠ w.writer → (s.port p).prstLow = false →
          (s.notice p).TookAll (t.notice p)
            ((w.pages.filter fun q => (s.notice p).watchesPage q && s.prot.table.canRead p q.val).map fun q =>
              { kind := .pageChanged q, serial := w.serial, writer := w.writer }))
      ∧ s.AlertsFollow t ∧ s.HandoffTaken t { w with noticesDue := false }

/-! ### Mounting -/

/-- The tests of the two stamps of a spare area and the fields they carry (R4, R6, R184). -/
def Obligations.StampsJudged : Prop :=
  ∀ spare : List Byte, spare.length = 64 →
    let b (k : Nat) : Nat := (spare.getD k 0xFF).toNat
    let half (k : Nat) : Nat := b k * 256 + b (k + 1)
    (∀ count, freeStampCount spare = some count ↔
      b 0 = 0xA5 ∧ half 4 = (crc16 (spare.take 4)).toNat ∧ count = b 1 * 65536 + half 2)
    ∧ ∀ st : DataStamp, dataStamp spare = some st ↔
        b 8 = 0x5A ∧ half 24 = (crc16 ((spare.drop 8).take 16)).toNat
        ∧ st.count = b 9 ∧ 1 ≤ st.count ∧ st.count ≤ 4 ∧ st.index = b 10 ∧ st.index < st.count
        ∧ st.pages.length = st.count ∧ (∀ i q, st.pages[i]? = some q → half (11 + 2 * i) = q.val) ∧ st.pages.Nodup
        ∧ (∀ i, st.count ≤ i → i < 4 → half (11 + 2 * i) = 0xFFFF)
        ∧ st.serial = half 19 * 65536 + half 21 ∧ 1 ≤ st.serial ∧ st.serial ≤ 0xFFFFFF00 ∧ st.writer.val = b 23

/-- MOUNT_BLOCK_SCAN (R27, R114, R116): the block at the scan position is placed by the first row of Table 26 that matches its
spare area, or entered in the group tally, and the scan position rises by one. -/
def Obligations.ScanPlaces : Prop :=
  ∀ (s : State) (b : BlockId), s.Due .mountBlockScan → s.mount.position = b.val →
    let spare := s.flash.readBytes (4160 * b.val + 4096) 64
    let byte (k : Nat) : Byte := spare.getD k 0xFF
    let count := (freeStampCount spare).getD 0
    let clean : Prop := ∀ k, 8 ≤ k → k < 36 → byte k = 0xFF
    ∃ t : State, exec .mountBlockScan s = .next t ∧ t = { s with bm := t.bm, mount := t.mount }
      ∧ t.mount = { s.mount with position := b.val + 1, tally := t.mount.tally, largestSerial := t.mount.largestSerial }
      ∧ (∀ st, dataStamp spare = some st → t.mount.largestSerial = max s.mount.largestSerial st.serial)
      ∧ (dataStamp spare = none → t.mount.largestSerial = s.mount.largestSerial)
      ∧ (byte 33 ≠ 0xFF → t.mount.tally = s.mount.tally ∧ s.bm.Placed t.bm b .retired count
          ∧ (∀ x, x ∈ t.bm.retiredSet ↔ x = b ∨ x ∈ s.bm.retiredSet) ∧ t.bm.dirtyList = s.bm.dirtyList
          ∧ t.bm.freePool = s.bm.freePool
          ∧ t.bm.lowSpace = decide (t.bm.freePool.length + t.bm.dirtyList.length < 4))
      ∧ (byte 33 = 0xFF → byte 32 ≠ 0xFF → t.mount.tally = s.mount.tally ∧ s.bm.PlacedDirty t.bm b count)
      ∧ (byte 33 = 0xFF → byte 32 = 0xFF → freeStampCount spare = none →
          t.mount.tally = s.mount.tally ∧ s.bm.PlacedDirty t.bm b 0)
      ∧ (byte 33 = 0xFF → byte 32 = 0xFF → freeStampCount spare ≠ none →
          (clean → t.mount.tally = s.mount.tally ∧ s.bm.Placed t.bm b .free count
            ∧ t.bm = { s.bm with table := t.bm.table })
          ∧ (¬ clean → dataStamp spare = none → t.mount.tally = s.mount.tally ∧ s.bm.PlacedDirty t.bm b count)
          ∧ ∀ st page, ¬ clean → dataStamp spare = some st → st.pages[st.index]? = some page →
              t.bm = s.bm ∧ TallyEntered s.mount.tally t.mount.tally st { index := st.index, block := b, page := page })

/-- MOUNT_TABLE_BUILD (R27, R117 to R121): each page is mapped to its current version among the candidates of complete groups; the
other candidates are DIRTY, and those of incomplete groups are to be voided; the collections are built; the next serial is
set above every serial found. -/
def Obligations.TablesBuilt : Prop :=
  ∀ s : State, s.MountLaw → s.Due .mountTableBuild →
    let tally := s.mount.tally
    let count (b : BlockId) : Nat := (freeStampCount (s.flash.readBytes (4160 * b.val + 4096) 64)).getD 0
    ∃ t : State, exec .mountTableBuild s = .next t ∧ t = { s with bm := t.bm, map := t.map, mount := t.mount }
      ∧ (∀ e c, CurrentVersion tally e c →
          t.map.entry c.page = some { block := c.block, serial := e.serial, writer := e.writer }
          ∧ let info : DataInfo := { page := c.page, serial := e.serial, index := c.index, count := e.count, writer := e.writer }
            t.bm.block c.block = some { cls := .data info, eraseCount := count c.block, pins := 0 })
      ∧ (∀ q, (∀ e ∈ tally, e.Complete tally → ∀ c ∈ e.members, c.page ≠ q) → t.map.entry q = none)
      ∧ (∀ e ∈ tally, ∀ c ∈ e.members, ¬ CurrentVersion tally e c →
          t.bm.block c.block = some { cls := .dirty, eraseCount := count c.block, pins := 0 })
      ∧ (∀ b r, s.bm.block b = some r → t.bm.block b = some { r with pins := 0 })
      ∧ t.map.mapped = ((List.finRange 464).filter fun q => (t.map.entry q).isSome).length
      ∧ t.map.nextSerial = s.mount.largestSerial + 1
      ∧ t.map.serialEnd = decide (0xFFFFFF00 < s.mount.largestSerial + 1) ∧ t.map.flip = s.map.flip
      ∧ (t.bm.freePool.Pairwise t.bm.Before ∧ ∀ b, b ∈ t.bm.freePool ↔ t.bm.classOf b = some .free)
      ∧ (t.bm.dirtyList.Pairwise (· < ·) ∧ ∀ b, b ∈ t.bm.dirtyList ↔ t.bm.classOf b = some .dirty)
      ∧ (∀ b, b ∈ t.bm.retiredSet ↔ t.bm.classOf b = some .retired)
      ∧ t.bm.lowSpace = decide (t.bm.freePool.length + t.bm.dirtyList.length < 4)
      ∧ (t.mount.voidList.Pairwise (· < ·)
          ∧ ∀ b, b ∈ t.mount.voidList ↔ ∃ e ∈ tally, ¬ e.Complete tally ∧ ∃ c ∈ e.members, c.block = b)
      ∧ t.mount = { s.mount with stage := .built, tally := t.mount.tally, voidList := t.mount.voidList }

/-- WINDOWS_TABLE_LOAD (R122 to R124, R131): line 0 of page 463 is judged and its table, or the empty table, is in force; the
voiding list is handed to the engine, and an empty list ends the mount, with the part READY and the first choice of work made. -/
def Obligations.WindowsLoaded : Prop :=
  ∀ (s : State) (bytes : List Byte), s.Due .windowsTableLoad →
    (bytes.length = 256 ∧ ∀ o, o < 256 →
      bytes[o]? = some (mergedByte s.flash [] (s.map.currentBlock Config.windowsPage) o)) →
    ∃ (t : State) (prot : Protection), exec .windowsTableLoad s = .next t ∧ prot.frozen = s.prot.frozen
      ∧ (judgeLine bytes = .empty → prot.table = .empty ∧ prot.tableFault = false)
      ∧ (∀ ws, judgeLine bytes = .wellFormed ws → prot.table = .windows ws ∧ prot.tableFault = false)
      ∧ (judgeLine bytes = .malformed → prot.table = .empty ∧ prot.tableFault = true)
      ∧ State.MountVoidGoesOn { s with prot := prot, mount := { s.mount with stage := .voiding, voidList := [] } } t
          s.mount.voidList

/-! ### Commands that are no event -/

/-- A request command changes nothing but at the start of a frame: outside REQUEST no frame is being received that could spell it
(R163, R164, R180; log entry 2), and a frame whose bits have begun to come goes on with them (log entry 18). Any other command
that finds nothing due changes nothing: a completion of no operation in flight, a hand-off that is not pending, a level that a
pin has already, a step of a mount that is not at it (log entries 3 and 17). Both are the model's reading. -/
def Obligations.NoEventChangesNothing : Prop :=
  (∀ (c : Instr) (p : PortId) (s : State), c.requestPort = some p → ¬ s.Receiving p → exec c s = .next s)
  ∧ ∀ (c : Instr) (s : State), ¬ s.Due c → exec c s = .next s

/-! ### Frames on the wire -/

/-- The frame of a well-formed request is delimited at its last parameter byte and spells that request again (R166, R167, R186):
whatever bytes follow are ignored (R164), and no shorter prefix is taken. On the wire the same holds of its bits, the most
significant of each byte first: the request is spelled at the last bit of its last byte, and the bits of an unfinished byte spell
nothing; eight falls and rises of SCK sample the bits of a byte (R163). And the part takes it so: the run of SCK that clocks the
frame in, from the fall of chip select on, does what the request command does; that the request has the two spellings, a run of SCK
and one command, is the model's choice (log entries 1 and 18). -/
def Obligations.FramesRoundTrip : Prop :=
  ∀ (c : Instr) (p : PortId) (bytes more : List Byte), c.wellFormed = true → c.requestPort = some p →
    encodeFrame c = some bytes →
    decodeFrame p (bytes ++ more) = some c ∧ (∀ n, n < bytes.length → decodeFrame p (bytes.take n) = none)
    ∧ (∀ tail : List Bool, decodeBits p (wireBits bytes ++ tail) = some c)
    ∧ (∀ n, n < 8 * bytes.length → decodeBits p ((wireBits bytes).take n) = none)
    ∧ (∀ (high : Bool) (bits : List Bool), sampledBits high (clockEdges bits) = bits)
    ∧ ∀ s : State, s.Receiving p → (s.port p).received = 0 →
        exec (.replyByteDelivery ⟨p, clockEdges (wireBits bytes), []⟩) s
          = exec c (s.setPort p { s.port p with sckHigh := true, sdo := some 0xFF })

/-! ### Laws of the part -/

/-- The laws hold at the start of mounting (R102, R107, R153, R158, R163; log entries 7 and 8). -/
def Obligations.LawsAtReset : Prop :=
  State.reset.FlashLaw ∧ State.reset.SpaceLaw ∧ State.reset.AlertLaw ∧ State.reset.NoticeLaw ∧ State.reset.ClaimLaw
  ∧ State.reset.BufferLaw ∧ State.reset.FreezeLaw ∧ State.reset.SerialLaw ∧ State.reset.LeaseLaw ∧ State.reset.FrameLaw
  ∧ State.reset.BlockLaw ∧ State.reset.MountLaw ∧ State.reset.QueueLaw ∧ State.reset.AttachLaw ∧ State.reset.EngineLaw
  ∧ State.reset.PinLaw ∧ State.reset.PoolLaw ∧ State.reset.MappedLaw ∧ State.reset.VoidingLaw ∧ State.reset.ScanLaw
  ∧ State.reset.StampLaw ∧ State.reset.ArrayLaw

/-- Every step keeps the array in canonical form, ALERT_n in agreement with its conditions (R158), and every notice queue within
its law (R153). -/
def Obligations.FlashAlertAndNoticeLawsKept : Prop :=
  ∀ s t : State, step s = .next t →
    (s.FlashLaw → t.FlashLaw) ∧ (s.AlertLaw → t.AlertLaw) ∧ (s.NoticeLaw → t.NoticeLaw)

/-- Every step keeps the laws of claims (R38), buffers (R39) and FROZEN (R145), and at most 2 sessions attached to a port (R37). Where
the laws of the blocks and of the mount hold (BlockAndMountLawsKept), it also keeps the lists of the engine queue, which hold exactly
the QUEUED sessions of their ports, each once, but for one whose failed start stands to be taken (R66; log entry 12), and at most one
session in PROGRAMMING or UNWINDING, the one that the engine holds the record of (R36, R64). -/
def Obligations.SessionLawsKept : Prop :=
  ∀ s t : State, step s = .next t →
    (s.ClaimLaw → t.ClaimLaw) ∧ (s.ClaimLaw → s.BufferLaw → t.BufferLaw) ∧ (s.FreezeLaw → t.FreezeLaw)
    ∧ (s.AttachLaw → t.AttachLaw)
    ∧ (s.BlockLaw → s.MountLaw → (s.QueueLaw → t.QueueLaw)
        ∧ (s.EngineLaw → t.EngineLaw
            ∧ ∀ i j, (s.InEngine i ∧ s.InEngine j ∨ t.InEngine i ∧ t.InEngine j) → i = j))

/-- Every step keeps LOW_SPACE in agreement with the counts (R102), SERIAL_END with the next serial (R24), the mapped count with the
mapped entries (R23), and, where the laws of the blocks and of the mount hold, the Free Pool in its order (R15). No serial is given
again while the part runs (R25), and MARK_FAULT and FROZEN, once set, outlive everything but the loss of the supply (R84, R126,
R145). -/
def Obligations.CountersAndFlagsKept : Prop :=
  ∀ s t : State, step s = .next t →
    (s.SpaceLaw → t.SpaceLaw) ∧ (s.SerialLaw → t.SerialLaw) ∧ (s.MappedLaw → t.MappedLaw)
    ∧ (s.BlockLaw → s.MountLaw → s.PoolLaw → t.PoolLaw)
    ∧ (s.Ready → t.Ready → s.map.nextSerial ≤ t.map.nextSerial)
    ∧ (t.power.supplied = true → (∀ rest cut, s.pending ≠ .powerOn cut :: rest) →
        (s.eng.markFault = true → t.eng.markFault = true) ∧ (s.prot.frozen = true → t.prot.frozen = true))

/-- Every step keeps the lease setting of each port in its range (R162), the idle frame of a port whose chip select is high (R163,
R175), and, where the laws of the blocks and of the mount hold, the pin count of each block equal to the read streams on it, with no
pin off DATA and DIRTY (R18, R95). -/
def Obligations.PortLawsKept : Prop :=
  ∀ s t : State, step s = .next t → (s.LeaseLaw → t.LeaseLaw) ∧ (s.FrameLaw → t.FrameLaw)
    ∧ (s.FrameLaw → s.BlockLaw → s.MountLaw → s.VoidingLaw → s.PinLaw → t.PinLaw)

/-- Every step keeps the agreement of the Block Table, its collections, the Page Map and the engine's record (R9, R22), together
with the stages of the mount; the engine voids for the mount exactly in the mount's last stage (R89, R123, R124). -/
def Obligations.BlockAndMountLawsKept : Prop :=
  ∀ s t : State, step s = .next t → s.BlockLaw ∧ s.MountLaw →
    (t.BlockLaw ∧ t.MountLaw) ∧ (s.VoidingLaw → t.VoidingLaw)

/-- Groups become visible whole or not at all (R92). Where the laws of blocks, mount and engine hold, every step keeps what the array
holds of the group that the engine works on (R73 to R76, R81, R91), the tally of a mount that of the blocks scanned (R114, R116), and,
while no retire mark has failed, the law of all groups; until the tables are built no step changes the array, and the tables map each
page as the array shows it (R117 to R120). Whenever the part loses its supply or is reset, and whatever the cut leaves, the next mount
takes the group of a commit as complete exactly when its last data stamp reads valid on its target, once the flip is requested always,
and the group of an unwinding never. Then it shows each page of that commit, complete, on its target, and every other page, or every
page when it is not complete, as the Page Map had it, with the bytes that its block held; unless a retire mark has failed, which
MARK_FAULT reports. -/
def Obligations.GroupsShownWhole : Prop :=
  (∀ s t : State, step s = .next t → s.BlockLaw → s.MountLaw → s.EngineLaw → s.ScanLaw → s.StampLaw →
    t.ScanLaw ∧ t.StampLaw
    ∧ (s.eng.markFault = false → t.eng.markFault = false → s.ArrayLaw → t.ArrayLaw)
    ∧ (s.mount.stage = .scan → t.flash = s.flash))
  ∧ (∀ s t : State, s.MountLaw → s.ScanLaw → s.Due .mountTableBuild → exec .mountTableBuild s = .next t →
    t.flash = s.flash ∧ ∀ q e, t.map.entry q = some e ↔ s.flash.Shows q e)
  ∧ ∀ (s t : State) (cut : Cut) (c : Instr), s.BlockLaw → s.MountLaw → s.StampLaw → s.power.supplied = true →
    c = .powerLoss cut ∨ c = .resetAssert cut ∧ s.power.resetLow = false → exec c s = .next t →
    s.eng.markFault = false →
    (∀ r step, s.eng.work = .commit r step →
      (t.flash.GroupComplete r.serial ↔ ∃ b, r.targets[r.pages.length - 1]? = some (some b)
        ∧ t.flash.candidate b = some (r.stamp (r.pages.length - 1)))
      ∧ (step = .flipRequested ∨ step = .flipTaken → t.flash.GroupComplete r.serial))
    ∧ (∀ u step, s.eng.work = .unwind u step → ¬ t.flash.GroupComplete u.serial)
    ∧ (s.ArrayLaw → s.mount.stage ≠ .scan → ∀ q : PageId,
        (∀ (r : CommitRec) (step : CommitStep) (i : Nat), s.eng.work = .commit r step → r.pages[i]? = some q →
          t.flash.GroupComplete r.serial →
          ∀ e, t.flash.Shows q e ↔ ∃ b, r.targets[i]? = some (some b) ∧ e = { block := b, serial := r.serial, writer := r.writer })
        ∧ ((∀ (r : CommitRec) (step : CommitStep), s.eng.work = .commit r step → q ∈ r.pages → ¬ t.flash.GroupComplete r.serial) →
          ∀ e, t.flash.Shows q e ↔ s.map.entry q = some e)
        ∧ ∀ e, s.map.entry q = some e → ∀ o, o < 4096 →
            t.flash.read (dataAddr e.block o) = s.flash.read (dataAddr e.block o))
end

