-- ==== Sys2Proof/Laws/State.lean ====
section
/-! SUPPORT. The small lemmas of the updates of State: one for each field and update, and reading after writing. -/

namespace Sys2Proof.Laws

open Sys2Proof Sys2Proof.Machine

variable (s : State) (p q : PortId)

/-! ### `setPort` -/

@[simp] theorem setPort_flash (r : Port) : (s.setPort p r).flash = s.flash := rfl
@[simp] theorem setPort_bm (r : Port) : (s.setPort p r).bm = s.bm := rfl
@[simp] theorem setPort_map (r : Port) : (s.setPort p r).map = s.map := rfl
@[simp] theorem setPort_ses (r : Port) : (s.setPort p r).ses = s.ses := rfl
@[simp] theorem setPort_eng (r : Port) : (s.setPort p r).eng = s.eng := rfl
@[simp] theorem setPort_prot (r : Port) : (s.setPort p r).prot = s.prot := rfl
@[simp] theorem setPort_notices (r : Port) : (s.setPort p r).notices = s.notices := rfl
@[simp] theorem setPort_mount (r : Port) : (s.setPort p r).mount = s.mount := rfl
@[simp] theorem setPort_power (r : Port) : (s.setPort p r).power = s.power := rfl
@[simp] theorem setPort_pending (r : Port) : (s.setPort p r).pending = s.pending := rfl

/-! ### `setNotice` -/

@[simp] theorem setNotice_flash (r : NoticePort) : (s.setNotice p r).flash = s.flash := rfl
@[simp] theorem setNotice_bm (r : NoticePort) : (s.setNotice p r).bm = s.bm := rfl
@[simp] theorem setNotice_map (r : NoticePort) : (s.setNotice p r).map = s.map := rfl
@[simp] theorem setNotice_ses (r : NoticePort) : (s.setNotice p r).ses = s.ses := rfl
@[simp] theorem setNotice_eng (r : NoticePort) : (s.setNotice p r).eng = s.eng := rfl
@[simp] theorem setNotice_prot (r : NoticePort) : (s.setNotice p r).prot = s.prot := rfl
@[simp] theorem setNotice_ports (r : NoticePort) : (s.setNotice p r).ports = s.ports := rfl
@[simp] theorem setNotice_mount (r : NoticePort) : (s.setNotice p r).mount = s.mount := rfl
@[simp] theorem setNotice_power (r : NoticePort) : (s.setNotice p r).power = s.power := rfl
@[simp] theorem setNotice_pending (r : NoticePort) : (s.setNotice p r).pending = s.pending := rfl

/-! ### `setWork` -/

@[simp] theorem setWork_flash (w : Work) : (s.setWork w).flash = s.flash := rfl
@[simp] theorem setWork_bm (w : Work) : (s.setWork w).bm = s.bm := rfl
@[simp] theorem setWork_map (w : Work) : (s.setWork w).map = s.map := rfl
@[simp] theorem setWork_ses (w : Work) : (s.setWork w).ses = s.ses := rfl
@[simp] theorem setWork_prot (w : Work) : (s.setWork w).prot = s.prot := rfl
@[simp] theorem setWork_notices (w : Work) : (s.setWork w).notices = s.notices := rfl
@[simp] theorem setWork_ports (w : Work) : (s.setWork w).ports = s.ports := rfl
@[simp] theorem setWork_mount (w : Work) : (s.setWork w).mount = s.mount := rfl
@[simp] theorem setWork_power (w : Work) : (s.setWork w).power = s.power := rfl
@[simp] theorem setWork_pending (w : Work) : (s.setWork w).pending = s.pending := rfl

/-! ### `refreshAlerts` -/

@[simp] theorem refreshAlerts_flash : (s.refreshAlerts).flash = s.flash := rfl
@[simp] theorem refreshAlerts_bm : (s.refreshAlerts).bm = s.bm := rfl
@[simp] theorem refreshAlerts_map : (s.refreshAlerts).map = s.map := rfl
@[simp] theorem refreshAlerts_ses : (s.refreshAlerts).ses = s.ses := rfl
@[simp] theorem refreshAlerts_eng : (s.refreshAlerts).eng = s.eng := rfl
@[simp] theorem refreshAlerts_prot : (s.refreshAlerts).prot = s.prot := rfl
@[simp] theorem refreshAlerts_notices : (s.refreshAlerts).notices = s.notices := rfl
@[simp] theorem refreshAlerts_mount : (s.refreshAlerts).mount = s.mount := rfl
@[simp] theorem refreshAlerts_power : (s.refreshAlerts).power = s.power := rfl
@[simp] theorem refreshAlerts_pending : (s.refreshAlerts).pending = s.pending := rfl

@[simp] theorem setWork_work (w : Work) : (s.setWork w).eng.work = w := rfl
@[simp] theorem setWork_start (w : Work) : (s.setWork w).eng.start = s.eng.start := rfl
@[simp] theorem setWork_queue (w : Work) : (s.setWork w).eng.queue = s.eng.queue := rfl
@[simp] theorem setWork_pointer (w : Work) : (s.setWork w).eng.pointer = s.eng.pointer := rfl
@[simp] theorem setWork_markFault (w : Work) : (s.setWork w).eng.markFault = s.eng.markFault := rfl
@[simp] theorem setWork_port (w : Work) : (s.setWork w).port p = s.port p := rfl
@[simp] theorem setWork_notice (w : Work) : (s.setWork w).notice p = s.notice p := rfl
@[simp] theorem setPort_notice (r : Port) : (s.setPort p r).notice q = s.notice q := rfl
@[simp] theorem setNotice_port (r : NoticePort) : (s.setNotice p r).port q = s.port q := rfl
@[simp] theorem refreshAlerts_notice : s.refreshAlerts.notice p = s.notice p := rfl

/-! ### Reading after writing -/

@[simp] theorem port_setPort (r : Port) : (s.setPort p r).port p = r := by simp [State.setPort, State.port]

theorem port_setPort_ne (r : Port) (h : q ≠ p) : (s.setPort p r).port q = s.port q := by
  have h' : p.val ≠ q.val := fun e => h (Fin.ext e.symm)
  simp [State.setPort, State.port, h']

theorem port_setPort_eq (r : Port) : (s.setPort p r).port q = if q = p then r else s.port q := by
  by_cases h : q = p
  · subst h; simp
  · simp [h, port_setPort_ne s p q r h]

@[simp] theorem notice_setNotice (r : NoticePort) : (s.setNotice p r).notice p = r := by
  simp [State.setNotice, State.notice]

theorem notice_setNotice_eq (r : NoticePort) : (s.setNotice p r).notice q = if q = p then r else s.notice q := by
  by_cases h : q = p
  · subst h; simp
  · have h' : p.val ≠ q.val := fun e => h (Fin.ext e.symm)
    simp [State.setNotice, State.notice, h, h']

@[simp] theorem setPort_setPort (a b : Port) : (s.setPort p a).setPort p b = s.setPort p b := by
  simp [State.setPort]

@[simp] theorem port_refreshAlerts : s.refreshAlerts.port p = { s.port p with alert := s.alertConds p } := by
  simp [State.refreshAlerts, State.port]

variable (u : SessionUnit) (i j : SessionId) (r : Session)

@[simp] theorem setSession_claims : (u.setSession i r).claims = u.claims := rfl
@[simp] theorem setSession_failure : (u.setSession i r).failure = u.failure := rfl
@[simp] theorem setSession_unwindRequest : (u.setSession i r).unwindRequest = u.unwindRequest := rfl
@[simp] theorem setSession_claim (page : PageId) : (u.setSession i r).claim page = u.claim page := rfl
@[simp] theorem releaseClaims_table : (u.releaseClaims i).table = u.table := rfl
@[simp] theorem releaseClaims_failure : (u.releaseClaims i).failure = u.failure := rfl
@[simp] theorem releaseClaims_unwindRequest : (u.releaseClaims i).unwindRequest = u.unwindRequest := rfl
@[simp] theorem releaseClaims_session : (u.releaseClaims i).session j = u.session j := rfl
@[simp] theorem claimPages_table (ps : List PageId) : (u.claimPages i ps).table = u.table := rfl
@[simp] theorem claimPages_session (ps : List PageId) : (u.claimPages i ps).session j = u.session j := rfl
@[simp] theorem claimPages_failure (ps : List PageId) : (u.claimPages i ps).failure = u.failure := rfl
@[simp] theorem claimPages_unwindRequest (ps : List PageId) :
    (u.claimPages i ps).unwindRequest = u.unwindRequest := rfl

theorem session_setSession : (u.setSession i r).session j = if j = i then r else u.session j := by
  by_cases h : j = i
  · subst h; simp [SessionUnit.setSession, SessionUnit.session]
  · have h' : i.val ≠ j.val := fun e => h (Fin.ext e.symm)
    simp [SessionUnit.setSession, SessionUnit.session, h, h']

@[simp] theorem session_setSession_self : (u.setSession i r).session i = r := by simp [session_setSession]

theorem claim_releaseClaims (page : PageId) :
    (u.releaseClaims i).claim page = if u.claim page = some i then none else u.claim page := by
  by_cases h : u.claims[page.val] = some i <;> simp [SessionUnit.releaseClaims, SessionUnit.claim, h]

theorem claim_claimPages (ps : List PageId) (page : PageId) :
    (u.claimPages i ps).claim page = if page ∈ ps then some i else u.claim page := by
  show (ps.foldl (fun c p => c.set p.val (some i)) u.claims)[page.val] = if page ∈ ps then some i else u.claims[page.val]
  generalize u.claims = c
  induction ps generalizing c with
  | nil => simp
  | cons a rest ih =>
    rw [List.foldl_cons, ih]
    by_cases h : page ∈ rest
    · simp [h]
    · by_cases g : page = a
      · subst g; simp [h]
      · have g' : a.val ≠ page.val := fun e => g (Fin.ext e.symm)
        simp [h, g, g']

/-! ### The engine queue and the start hand-off -/

variable (e : Engine)

@[simp] theorem dequeue_work : (e.dequeue i).work = e.work := rfl
@[simp] theorem dequeue_start : (e.dequeue i).start = e.start := rfl
@[simp] theorem dequeue_pointer : (e.dequeue i).pointer = e.pointer := rfl
@[simp] theorem dequeue_markFault : (e.dequeue i).markFault = e.markFault := rfl
@[simp] theorem withdraw_work : (e.withdraw i).work = e.work := rfl
@[simp] theorem withdraw_queue : (e.withdraw i).queue = (e.dequeue i).queue := rfl
@[simp] theorem withdraw_pointer : (e.withdraw i).pointer = e.pointer := rfl
@[simp] theorem withdraw_markFault : (e.withdraw i).markFault = e.markFault := rfl
@[simp] theorem withdrawPort_work : (e.withdrawPort p).work = e.work := rfl
@[simp] theorem withdrawPort_pointer : (e.withdrawPort p).pointer = e.pointer := rfl
@[simp] theorem withdrawPort_markFault : (e.withdrawPort p).markFault = e.markFault := rfl
@[simp] theorem without_session (h : StartHandoff) (left : Bool) : (h.without left).session = h.session := rfl
@[simp] theorem without_port (h : StartHandoff) (left : Bool) : (h.without left).port = h.port := rfl
@[simp] theorem without_kind (h : StartHandoff) (left : Bool) : (h.without left).kind = h.kind := rfl
@[simp] theorem without_live (h : StartHandoff) (left : Bool) : (h.without left).live = (h.live && !left) := rfl

variable (bm : BlockManager) (b c : BlockId)

@[simp] theorem modify_freePool (f : BlockRec → BlockRec) : (bm.modify b f).freePool = bm.freePool := rfl
@[simp] theorem modify_dirtyList (f : BlockRec → BlockRec) : (bm.modify b f).dirtyList = bm.dirtyList := rfl
@[simp] theorem modify_retiredSet (f : BlockRec → BlockRec) : (bm.modify b f).retiredSet = bm.retiredSet := rfl
@[simp] theorem modify_lowSpace (f : BlockRec → BlockRec) : (bm.modify b f).lowSpace = bm.lowSpace := rfl
@[simp] theorem setClass_freePool (k : BlockClass) : (bm.setClass b k).freePool = bm.freePool := rfl
@[simp] theorem setClass_dirtyList (k : BlockClass) : (bm.setClass b k).dirtyList = bm.dirtyList := rfl
@[simp] theorem setClass_retiredSet (k : BlockClass) : (bm.setClass b k).retiredSet = bm.retiredSet := rfl
@[simp] theorem setClass_lowSpace (k : BlockClass) : (bm.setClass b k).lowSpace = bm.lowSpace := rfl
@[simp] theorem place_freePool (k : BlockRec) : (bm.place b k).freePool = bm.freePool := rfl
@[simp] theorem place_dirtyList (k : BlockRec) : (bm.place b k).dirtyList = bm.dirtyList := rfl
@[simp] theorem place_retiredSet (k : BlockRec) : (bm.place b k).retiredSet = bm.retiredSet := rfl
@[simp] theorem place_lowSpace (k : BlockRec) : (bm.place b k).lowSpace = bm.lowSpace := rfl
@[simp] theorem refresh_table : bm.refresh.table = bm.table := rfl
@[simp] theorem refresh_freePool : bm.refresh.freePool = bm.freePool := rfl
@[simp] theorem refresh_dirtyList : bm.refresh.dirtyList = bm.dirtyList := rfl
@[simp] theorem refresh_retiredSet : bm.refresh.retiredSet = bm.retiredSet := rfl
@[simp] theorem refresh_block : bm.refresh.block b = bm.block b := rfl

theorem block_modify (f : BlockRec → BlockRec) :
    (bm.modify b f).block c = if c = b then (bm.block b).map f else bm.block c := by
  by_cases h : c = b
  · subst h; simp [BlockManager.modify, BlockManager.block]
  · have h' : b.val ≠ c.val := fun e => h (Fin.ext e.symm)
    simp [BlockManager.modify, BlockManager.block, h, h']

theorem block_setClass (k : BlockClass) :
    (bm.setClass b k).block c = if c = b then (bm.block b).map (fun r => { r with cls := k }) else bm.block c :=
  block_modify bm b c _

theorem block_place (k : BlockRec) : (bm.place b k).block c = if c = b then some k else bm.block c := by
  by_cases h : c = b
  · subst h; simp [BlockManager.place, BlockManager.block]
  · have h' : b.val ≠ c.val := fun e => h (Fin.ext e.symm)
    simp [BlockManager.place, BlockManager.block, h, h']

end Sys2Proof.Laws
end

