-- ==== Sys2Proof/Laws/Memory.lean ====
section
/-! SUPPORT. The laws of the flash memory and of page buffers: reading after writing, and that every operation keeps the
canonical form. -/

namespace Sys2Proof.Laws

open Sys2Proof Sys2Proof.Machine

variable (cells : List Host.Cell) (m : Memory) (a b n : Nat) (v : Byte)

/-! ### Cells -/

theorem cellGet_cellPut : cellGet (cellPut cells a v) b = if b = a then some v else cellGet cells b := by
  induction cells with
  | nil =>
    by_cases h : b = a
    · simp [cellPut, cellGet, h]
    · simp [cellPut, cellGet, h, Ne.symm h]
  | cons c rest ih =>
    obtain ⟨k, w⟩ := c
    unfold cellPut
    split
    · by_cases h : b = a
      · simp [cellGet, h]
      · simp [cellGet, h, Ne.symm h]
    · split
      · next _ hk =>
        subst hk
        by_cases h : b = a
        · simp [cellGet, h]
        · simp [cellGet, h, Ne.symm h]
      · next _ hk =>
        by_cases h : b = a
        · subst h; simp [cellGet, ih, Ne.symm hk]
        · simp [cellGet, ih, h]

theorem cellGet_cellDrop : cellGet (cellDrop cells a) b = if b = a then none else cellGet cells b := by
  induction cells with
  | nil => simp [cellDrop, cellGet]
  | cons c rest ih =>
    obtain ⟨k, w⟩ := c
    unfold cellDrop at ih ⊢
    by_cases hk : k = a
    · subst hk
      simp only [List.filter_cons, bne_self_eq_false, Bool.false_eq_true, if_false, ih]
      by_cases h : b = k
      · simp [h]
      · simp [cellGet, h, Ne.symm h]
    · simp only [List.filter_cons, bne_iff_ne, ne_eq, hk, not_false_iff, if_true, cellGet, ih]
      by_cases h : b = a
      · subst h; simp [hk]
      · simp [h]

theorem mem_cellPut (c : Host.Cell) : c ∈ cellPut cells a v → c = (a, v) ∨ c ∈ cells := by
  induction cells with
  | nil => simp [cellPut]
  | cons d rest ih =>
    obtain ⟨k, w⟩ := d
    unfold cellPut
    intro h
    split at h
    · simp_all
    · split at h
      · simp only [List.mem_cons] at h ⊢; tauto
      · simp only [List.mem_cons] at h ⊢
        rcases h with h | h
        · exact .inr (.inl h)
        · rcases ih h with h | h
          · exact .inl h
          · exact .inr (.inr h)

theorem pairwise_cellPut (h : cells.Pairwise fun c d => c.1 < d.1) :
    (cellPut cells a v).Pairwise fun c d => c.1 < d.1 := by
  induction cells with
  | nil => simp [cellPut]
  | cons d rest ih =>
    obtain ⟨k, w⟩ := d
    obtain ⟨hd, hr⟩ := List.pairwise_cons.1 h
    unfold cellPut
    split
    · next hk =>
      refine List.pairwise_cons.2 ⟨fun e he => ?_, h⟩
      rcases List.mem_cons.1 he with rfl | he
      · exact hk
      · exact Nat.lt_trans hk (hd e he)
    · split
      · next hk => subst hk; exact List.pairwise_cons.2 ⟨hd, hr⟩
      · next h1 h2 =>
        refine List.pairwise_cons.2 ⟨fun e he => ?_, ih hr⟩
        rcases mem_cellPut _ _ _ _ he with rfl | he
        · show k < a; omega
        · exact hd e he

/-! ### Flash memory -/

theorem read_write : (m.write a v).read b = if b = a then v else m.read b := by
  unfold Memory.write Memory.read
  split
  · next h => rw [cellGet_cellDrop]; split <;> simp_all
  · rw [cellGet_cellPut]; split <;> simp

theorem read_writeBytes (vs : List Byte) :
    (m.writeBytes a vs).read b = if h : a ≤ b ∧ b - a < vs.length then vs[b - a]'h.2 else m.read b := by
  induction vs generalizing m a with
  | nil => simp [Memory.writeBytes]
  | cons w ws ih =>
    rw [Memory.writeBytes, ih, read_write]
    by_cases h1 : b = a
    · subst h1
      have : ¬ (b + 1 ≤ b ∧ b - (b + 1) < ws.length) := by omega
      simp
    · by_cases h2 : a + 1 ≤ b ∧ b - (a + 1) < ws.length
      · have h3 : a ≤ b ∧ b - a < (w :: ws).length := by simp only [List.length_cons]; omega
        have h4 : b - a = b - (a + 1) + 1 := by omega
        rw [dif_pos h2, dif_pos h3]
        simp [h4]
      · have h3 : ¬ (a ≤ b ∧ b - a < (w :: ws).length) := by simp only [List.length_cons]; omega
        rw [dif_neg h2, dif_neg h3, if_neg h1]

/-- Outside the written bytes nothing changes. -/
theorem read_writeBytes_outside (vs : List Byte) (h : b < a ∨ a + vs.length ≤ b) :
    (m.writeBytes a vs).read b = m.read b := by
  rw [read_writeBytes, dif_neg (by omega)]

theorem readBytes_writeBytes (vs : List Byte) : (m.writeBytes a vs).readBytes a vs.length = vs := by
  apply List.ext_getElem
  · simp [Memory.readBytes]
  · intro i h1 h2
    simp only [Memory.readBytes, List.getElem_map, List.getElem_range]
    rw [read_writeBytes, dif_pos (by omega)]
    simp

/-- Programming turns erased bytes only (R1). -/
theorem read_programBytes (vs : List Byte) :
    (m.programBytes a vs).read b =
      if h : (a ≤ b ∧ b - a < vs.length) ∧ m.read b = Memory.erased then vs[b - a]'h.1.2 else m.read b := by
  induction vs generalizing m a with
  | nil => simp [Memory.programBytes]
  | cons w ws ih =>
    rw [Memory.programBytes, ih]
    have hm : ∀ c, (if m.read a = Memory.erased then m.write a w else m).read c
        = if c = a ∧ m.read a = Memory.erased then w else m.read c := by
      intro c
      split
      · next e => rw [read_write]; simp [e]
      · next e => simp [e]
    by_cases h1 : b = a
    · subst h1
      have n1 : ¬ (b + 1 ≤ b ∧ b - (b + 1) < ws.length) := by omega
      rw [dif_neg (fun h => n1 h.1), hm]
      by_cases e : m.read b = Memory.erased <;> simp [e]
    · have hb : (if m.read a = Memory.erased then m.write a w else m).read b = m.read b := by rw [hm]; simp [h1]
      rw [hb]
      by_cases h2 : a + 1 ≤ b ∧ b - (a + 1) < ws.length
      · have h3 : a ≤ b ∧ b - a < (w :: ws).length := by simp only [List.length_cons]; omega
        have h4 : b - a = b - (a + 1) + 1 := by omega
        by_cases e : m.read b = Memory.erased
        · rw [dif_pos ⟨h2, e⟩, dif_pos ⟨h3, e⟩]; simp [h4]
        · rw [dif_neg (fun h => e h.2), dif_neg (fun h => e h.2)]
      · have h3 : ¬ (a ≤ b ∧ b - a < (w :: ws).length) := by simp only [List.length_cons]; omega
        rw [dif_neg (fun h => h2 h.1), dif_neg (fun h => h3 h.1)]

/-- A byte that was programmed keeps its value (R1). -/
theorem read_programBytes_kept (vs : List Byte) (h : m.read b ≠ Memory.erased) : (m.programBytes a vs).read b = m.read b := by
  rw [read_programBytes, dif_neg fun k => h k.2]

/-- Outside the field nothing changes. -/
theorem read_programBytes_outside (vs : List Byte) (h : b < a ∨ a + vs.length ≤ b) :
    (m.programBytes a vs).read b = m.read b := by
  rw [read_programBytes, dif_neg fun k => by have := k.1; omega]

theorem read_eraseRange :
    (m.eraseRange a n).read b = if a ≤ b ∧ b < a + n then Memory.erased else m.read b := by
  unfold Memory.eraseRange Memory.read
  induction m with
  | nil => simp [cellGet]
  | cons c rest ih =>
    obtain ⟨k, w⟩ := c
    by_cases hk : k < a ∨ a + n ≤ k
    · simp only [List.filter_cons, hk, decide_true, if_true, cellGet]
      by_cases h : k = b
      · subst h
        have : ¬ (a ≤ k ∧ k < a + n) := by omega
        simp [this]
      · simp only [h, if_false]; exact ih
    · simp only [List.filter_cons, hk, decide_false, Bool.false_eq_true, if_false, cellGet]
      by_cases h : k = b
      · subst h
        have h' : a ≤ k ∧ k < a + n := by omega
        rw [ih]; simp [h']
      · simp only [h, if_false]; exact ih

theorem allErased_eraseRange : allErased ((m.eraseRange a n).readBytes a n) = true := by
  simp only [allErased, Memory.readBytes, List.all_map, List.all_eq_true, List.mem_range, Function.comp_apply]
  intro i hi
  rw [read_eraseRange, if_pos (by omega)]; simp

/-! ### The canonical form is kept -/

theorem wf_nil : Memory.wf [] := by simp [Memory.wf]

theorem wf_filter (m : Memory) (f : Host.Cell → Bool) (h : Memory.wf m) : Memory.wf (m.filter f) :=
  ⟨h.1.filter _, fun c hc => h.2 c (List.mem_filter.1 hc).1⟩

theorem wf_write (m : Memory) (a : Nat) (v : Byte) (h : Memory.wf m) : Memory.wf (m.write a v) := by
  unfold Memory.write
  split
  · exact wf_filter m _ h
  · next hv =>
    refine ⟨pairwise_cellPut m a v h.1, fun c hc => ?_⟩
    rcases mem_cellPut m a v c hc with rfl | hc
    · exact hv
    · exact h.2 c hc

theorem wf_writeBytes (m : Memory) (a : Nat) (vs : List Byte) (h : Memory.wf m) : Memory.wf (m.writeBytes a vs) := by
  induction vs generalizing m a with
  | nil => exact h
  | cons v vs ih => exact ih _ _ (wf_write m a v h)

theorem wf_eraseRange (m : Memory) (a n : Nat) (h : Memory.wf m) : Memory.wf (m.eraseRange a n) := wf_filter m _ h

theorem wf_overlay (m : Memory) (as : List Nat) (vs : List Byte) (h : Memory.wf m) : Memory.wf (m.overlay as vs) := by
  induction as generalizing m vs with
  | nil => exact h
  | cons a as ih =>
    cases vs with
    | nil => exact h
    | cons v vs => exact ih _ _ (wf_write m a v h)

theorem wf_programBytes (m : Memory) (a : Nat) (vs : List Byte) (h : Memory.wf m) : Memory.wf (m.programBytes a vs) := by
  induction vs generalizing m a with
  | nil => exact h
  | cons v vs ih =>
    refine ih _ _ ?_
    split
    · exact wf_write m a v h
    · exact h

theorem wf_wholeDataStamp (old m : Memory) (b : BlockId) (l : List Byte) (h : Memory.wf m) :
    Memory.wf (old.wholeDataStamp m b l) := by
  unfold Memory.wholeDataStamp
  split
  · exact wf_writeBytes _ _ _ h
  · exact h

theorem wf_wholeFreeStamp (old m : Memory) (b : BlockId) (l : List Byte) (h : Memory.wf m) :
    Memory.wf (old.wholeFreeStamp m b l) := by
  unfold Memory.wholeFreeStamp
  split
  · exact wf_writeBytes _ _ _ h
  · exact h

theorem wf_keptDiscard (old m : Memory) (b : BlockId) (h : Memory.wf m) : Memory.wf (old.keptDiscard m b) := by
  unfold Memory.keptDiscard
  split
  · exact wf_writeBytes _ _ _ h
  · exact h

theorem wf_settle (s : State) (op : FlashOp) (m : Memory) (h : Memory.wf m) : Memory.wf (s.settle op m) := by
  cases op with
  | dataStamp b => exact wf_wholeDataStamp _ _ _ _ h
  | freeStamp b => exact wf_wholeFreeStamp _ _ _ _ h
  | erase b => exact wf_wholeDataStamp _ _ _ _ (wf_wholeFreeStamp _ _ _ _ (wf_keptDiscard _ _ _ h))
  | begunMark b => exact h
  | line b k => exact h
  | void b => exact h
  | retire b => exact h

theorem wf_flashAfter (s : State) (op : FlashOp) (w : Written) (h : Memory.wf s.flash) : Memory.wf (s.flashAfter op w) := by
  refine wf_settle s op _ ?_
  cases op with
  | erase b =>
    cases w with
    | intended => exact wf_eraseRange _ _ _ h
    | left bs => exact wf_writeBytes _ _ _ h
  | _ => cases w <;> exact wf_programBytes _ _ _ h

theorem wf_cutOp (m : Memory) (op : FlashOp) (c : Cut) (h : Memory.wf m) : Memory.wf (m.cutOp op c) := by
  cases op with
  | erase b =>
    simp only [Memory.cutOp]
    split
    · apply wf_overlay
      apply wf_eraseRange
      exact wf_eraseRange _ _ _ h
    · apply wf_overlay
      exact h
  | _ => exact wf_programBytes _ _ _ h

theorem wf_flashCut (s : State) (op : FlashOp) (c : Cut) (h : Memory.wf s.flash) : Memory.wf (s.flashCut op c) :=
  wf_settle s op _ (wf_cutOp _ _ _ h)

theorem wf_cutFlash (s : State) (c : Cut) (h : Memory.wf s.flash) : Memory.wf (s.cutFlash c).flash := by
  unfold State.cutFlash
  split
  · exact wf_flashCut _ _ _ h
  · exact h

/-! ### Page buffers -/

theorem staged_stageBytes (buf : Buffer) (vs : List Byte) :
    (buf.stageBytes a vs).staged b = if h : a ≤ b ∧ b - a < vs.length then some (vs[b - a]'h.2) else buf.staged b := by
  unfold Buffer.staged
  induction vs generalizing buf a with
  | nil => simp [Buffer.stageBytes]
  | cons w ws ih =>
    rw [Buffer.stageBytes, ih, cellGet_cellPut]
    by_cases h1 : b = a
    · subst h1; simp
    · by_cases h2 : a + 1 ≤ b ∧ b - (a + 1) < ws.length
      · have h3 : a ≤ b ∧ b - a < (w :: ws).length := by simp only [List.length_cons]; omega
        have h4 : b - a = b - (a + 1) + 1 := by omega
        rw [dif_pos h2, dif_pos h3]
        simp [h4]
      · have h3 : ¬ (a ≤ b ∧ b - a < (w :: ws).length) := by simp only [List.length_cons]; omega
        rw [dif_neg h2, dif_neg h3, if_neg h1]

end Sys2Proof.Laws
end

