-- ==== Sys2Proof/Laws/Sessions.lean ====
section
/-! SUPPORT. What can happen at the Session Unit: `SesMove` names every change that an event other than OPEN, STAGE, COMMIT
and a reset of the part makes there, and the session laws of the guide are shown kept by each of them once. -/

namespace Sys2Proof.Laws

open Sys2Proof Sys2Proof.Machine

/-- The changes of the Session Unit (R48 to R53, R55, R57, R58, R60 to R62). -/
inductive SesMove : SessionUnit → SessionUnit → Prop where
  /-- Nothing changes. -/
  | refl (u : SessionUnit) : SesMove u u
  /-- One change after another. -/
  | trans {u v w : SessionUnit} : SesMove u v → SesMove v w → SesMove u w
  /-- A session that stands in its slot becomes FINISHED (R57). -/
  | finish (u : SessionUnit) (i : SessionId) (o : SessionOutcome) (old : (u.session i).state ≠ .free) : SesMove u (u.finish i o)
  /-- A slot becomes FREE (R35). -/
  | release (u : SessionUnit) (i : SessionId) : SesMove u (u.release i)
  /-- The hand-offs that wait change (R78, R80). -/
  | hands (u : SessionUnit) (f : Option Failure) (w : Option SessionId) :
      SesMove u { u with failure := f, unwindRequest := w }
  /-- A session that holds its pages and buffers goes on holding as many in another state that does (R36, R44). -/
  | holding (u : SessionUnit) (i : SessionId) (r : Session) (old : (u.session i).state.holds = true)
      (new : r.state.holds = true) (members : r.members = (u.session i).members)
      (buffers : r.buffers.length = (u.session i).buffers.length)
      (owner : r.owner = (u.session i).owner ∨ r.owner = none) : SesMove u (u.setSession i r)

/-! ### The session laws at the Session Unit -/

/-- `State.ClaimLaw`, said of the Session Unit (R38). -/
def ClaimsOk (u : SessionUnit) : Prop :=
  ∀ (page : PageId) (i : SessionId), u.claim page = some i ↔
    (u.session i).state.holds = true ∧ page ∈ (u.session i).members

/-- `State.BufferLaw`, said of the Session Unit (R39). -/
def BuffersOk (u : SessionUnit) : Prop :=
  (∀ i : SessionId, (u.session i).buffers.length =
    if (u.session i).state.holds then (u.session i).members.length else 0) ∧ u.buffersInUse ≤ 8

theorem claims_release_like (u : SessionUnit) (i : SessionId) (r : Session) (h : ClaimsOk u)
    (hr : r.state.holds = false) : ClaimsOk ((u.setSession i r).releaseClaims i) := by
  intro page j
  have hj := h page j
  rw [claim_releaseClaims, releaseClaims_session, session_setSession, setSession_claim]
  by_cases e : j = i
  · subst e
    by_cases g : u.claim page = some j <;> simp [g, hr]
  · by_cases g : u.claim page = some i
    · have : ¬ (u.claim page = some j) := by rw [g]; simpa using fun x => e x.symm
      simp only [g, if_true, e, if_false]
      rw [← hj]
      simp [this]
    · simp only [g, if_false, e]
      exact hj

theorem claims_kept {u v : SessionUnit} (m : SesMove u v) (h : ClaimsOk u) : ClaimsOk v := by
  induction m with
  | refl => exact h
  | trans _ _ ih1 ih2 => exact ih2 (ih1 h)
  | finish u i o _ => exact claims_release_like u i _ h rfl
  | release u i => exact claims_release_like u i _ h rfl
  | hands u f w => exact h
  | holding u i r old new members buffers owner =>
    intro page j
    rw [setSession_claim, session_setSession]
    by_cases e : j = i
    · subst e; simpa [new, members, old] using h page j
    · simpa [e] using h page j

/-- The sum over the slots after one of them changed. -/
theorem buffersInUse_setSession (u : SessionUnit) (i : SessionId) (r : Session) :
    (u.setSession i r).buffersInUse + (u.session i).buffers.length = u.buffersInUse + r.buffers.length := by
  have key : ∀ l : List SessionId, l.Nodup →
      (l.map fun j => ((u.setSession i r).session j).buffers.length).sum
        + (if i ∈ l then (u.session i).buffers.length else 0)
      = (l.map fun j => (u.session j).buffers.length).sum + (if i ∈ l then r.buffers.length else 0) := by
    intro l hl
    induction l with
    | nil => simp
    | cons a l ih =>
      obtain ⟨ha, hl⟩ := List.nodup_cons.1 hl
      have ih := ih hl
      by_cases e : i = a
      · subst e
        simp only [ha, if_false] at ih
        simp only [List.map_cons, List.sum_cons, List.mem_cons, true_or, if_true, session_setSession_self]
        omega
      · have e' : a ≠ i := fun x => e x.symm
        have ea : (u.setSession i r).session a = u.session a := by simp [session_setSession, e']
        simp only [List.map_cons, List.sum_cons, List.mem_cons, e, false_or, ea]
        omega
  have := key (List.finRange 8) (List.nodup_finRange 8)
  simpa [SessionUnit.buffersInUse] using this

@[simp] theorem buffersInUse_releaseClaims (u : SessionUnit) (i : SessionId) :
    (u.releaseClaims i).buffersInUse = u.buffersInUse := rfl

@[simp] theorem buffersInUse_claimPages (u : SessionUnit) (i : SessionId) (ps : List PageId) :
    (u.claimPages i ps).buffersInUse = u.buffersInUse := rfl

theorem buffers_setSession (u : SessionUnit) (i : SessionId) (r : Session) (h : BuffersOk u)
    (hr : r.buffers.length = if r.state.holds then r.members.length else 0)
    (le : r.buffers.length ≤ (u.session i).buffers.length) : BuffersOk (u.setSession i r) := by
  refine ⟨fun j => ?_, ?_⟩
  · rw [session_setSession]
    by_cases e : j = i
    · simpa [e] using hr
    · simpa [e] using h.1 j
  · have := buffersInUse_setSession u i r
    have := h.2
    omega

theorem buffers_kept {u v : SessionUnit} (m : SesMove u v) (h : BuffersOk u) : BuffersOk v := by
  induction m with
  | refl => exact h
  | trans _ _ ih1 ih2 => exact ih2 (ih1 h)
  | finish u i o _ => exact buffers_setSession u i _ h (by simp [SessionState.holds]) (by simp)
  | release u i =>
    exact buffers_setSession u i _ h (by simp [Session.freeSlot, SessionState.holds]) (by simp [Session.freeSlot])
  | hands u f w => exact h
  | holding u i r old new members buffers owner =>
    refine buffers_setSession u i r h ?_ (by rw [buffers])
    have := h.1 i
    simp only [old, if_true] at this
    simp [new, members, buffers, this]

/-- `State.AttachLaw`, said of the Session Unit (R37). -/
def AttachOk (u : SessionUnit) : Prop := ∀ p : PortId, (u.attached p).length ≤ 2

theorem attachedTo_iff (u : SessionUnit) (p : PortId) (i : SessionId) :
    u.attachedTo p i = true ↔ (u.session i).state ≠ .free ∧ (u.session i).owner = some p := by
  simp [SessionUnit.attachedTo]

/-- A session is attached after a change that is no OPEN only where it was before (R37). -/
theorem attachedTo_kept {u v : SessionUnit} (m : SesMove u v) (p : PortId) (i : SessionId) (h : v.attachedTo p i = true) :
    u.attachedTo p i = true := by
  induction m with
  | refl => exact h
  | trans _ _ ih1 ih2 => exact ih1 (ih2 h)
  | hands u f w => exact h
  | finish u j o old =>
    rw [attachedTo_iff] at h ⊢
    by_cases e : i = j
    · subst e; simp [SessionUnit.finish] at h; exact ⟨old, h⟩
    · simpa [SessionUnit.finish, session_setSession, e] using h
  | release u j =>
    rw [attachedTo_iff] at h ⊢
    by_cases e : i = j
    · subst e; simp [SessionUnit.release, Session.freeSlot] at h
    · simpa [SessionUnit.release, session_setSession, e] using h
  | holding u j r old new members buffers owner =>
    rw [attachedTo_iff] at h ⊢
    by_cases e : i = j
    · subst e
      rw [session_setSession, if_pos rfl] at h
      rcases owner with k | k
      · exact ⟨(fun e => by rw [e] at old; cases old), k ▸ h.2⟩
      · rw [k] at h; exact absurd h.2 (by simp)
    · simpa [session_setSession, e] using h

theorem attach_kept {u v : SessionUnit} (m : SesMove u v) (h : AttachOk u) : AttachOk v := by
  intro p
  have sub : (v.attached p).Sublist (u.attached p) := List.monotone_filter_right _ fun i hi => attachedTo_kept m p i hi
  exact Nat.le_trans sub.length_le (h p)

/-- Claims are only released, never made, by a change that is no OPEN (R38). -/
theorem claim_none_kept {u v : SessionUnit} (m : SesMove u v) (page : PageId) (h : u.claim page = none) :
    v.claim page = none := by
  induction m with
  | refl => exact h
  | trans _ _ ih1 ih2 => exact ih2 (ih1 h)
  | finish u i o _ => show ((u.setSession i _).releaseClaims i).claim page = none; simp [claim_releaseClaims, h]
  | release u i => show ((u.setSession i _).releaseClaims i).claim page = none; simp [claim_releaseClaims, h]
  | hands u f w => exact h
  | holding u i r old new members buffers owner => simpa using h

/-- Each session has at most 4 distinct members, and one that stands in its slot has some (R35). -/
def MembersOk (u : SessionUnit) : Prop :=
  ∀ i : SessionId, (u.session i).members.Nodup ∧ (u.session i).members.length ≤ 4
    ∧ ((u.session i).state ≠ .free → (u.session i).members ≠ [])

theorem members_setSession (u : SessionUnit) (i : SessionId) (r : Session) (h : MembersOk u) (nodup : r.members.Nodup)
    (few : r.members.length ≤ 4) (some : r.state ≠ .free → r.members ≠ []) : MembersOk (u.setSession i r) := by
  intro j
  rw [session_setSession]
  split
  · exact ⟨nodup, few, some⟩
  · exact h j

theorem members_kept {u v : SessionUnit} (m : SesMove u v) (h : MembersOk u) : MembersOk v := by
  induction m with
  | refl => exact h
  | trans _ _ ih1 ih2 => exact ih2 (ih1 h)
  | finish u i o old => exact members_setSession u i _ h (h i).1 (h i).2.1 fun _ => (h i).2.2 old
  | release u i =>
    exact members_setSession u i _ h (by simp [Session.freeSlot]) (by simp [Session.freeSlot]) fun k => absurd rfl k
  | hands u f w => exact h
  | holding u i r old new members buffers owner =>
    refine members_setSession u i r h ?_ ?_ fun _ => ?_
    · rw [members]; exact (h i).1
    · rw [members]; exact (h i).2.1
    · rw [members]; refine (h i).2.2 fun e => ?_
      rw [e] at old; cases old

/-! ### The operations of the Session Unit as moves -/

theorem endSession_move (u : SessionUnit) (i : SessionId) (o : SessionOutcome) (h : (u.session i).state ≠ .free) :
    SesMove u (u.endSession i o) := by
  unfold SessionUnit.endSession
  split
  · exact .finish u i o h
  · exact .release u i

theorem takeFailure_move (u : SessionUnit) (i : SessionId) (f : FailReason) : SesMove u (u.takeFailure i f) := by
  unfold SessionUnit.takeFailure
  split
  · next h => exact .holding u i _ (by rw [h]; rfl) rfl rfl rfl (.inl rfl)
  · exact .refl u

theorem takePending_failure (u : SessionUnit) : u.takePending.failure = none := by
  unfold SessionUnit.takePending
  split
  · rfl
  · next h => exact h

theorem takePending_none {u : SessionUnit} (h : u.failure = none) : u.takePending = u := by
  simp [SessionUnit.takePending, h]

theorem takePending_spec (u : SessionUnit) (f : Failure) (h : u.failure = some f) : u.FailureTaken u.takePending f := by
  constructor <;> intro e <;> simp [SessionUnit.takePending, SessionUnit.takeFailure, h, e]

theorem takePending_move (u : SessionUnit) : SesMove u u.takePending := by
  unfold SessionUnit.takePending
  split
  · next f _ => exact .trans (takeFailure_move u f.session f.reason) (.hands _ none _)
  · exact .refl u

theorem takeUnwindEnd_move (u : SessionUnit) (i : SessionId) : SesMove u (u.takeUnwindEnd i) := by
  refine .trans ?_ (.hands _ _ none)
  split
  · next h => exact endSession_move _ _ _ (by rw [h]; simp)
  · exact .refl _

theorem portResetSession_move (p : PortId) (u : SessionUnit) (i : SessionId) :
    SesMove u (SessionUnit.portResetSession p u i) := by
  unfold SessionUnit.portResetSession
  split
  · split
    · exact .release u i
    · exact .release u i
    · exact .release u i
    · next h => exact .holding u i _ (by rw [h]; rfl) (by simp [h, SessionState.holds]) rfl rfl (.inr rfl)
    · next h => exact .holding u i _ (by rw [h]; rfl) (by simp [h, SessionState.holds]) rfl rfl (.inr rfl)
    · exact .refl u
  · exact .refl u

theorem foldl_move (f : SessionUnit → SessionId → SessionUnit) (hf : ∀ u i, SesMove u (f u i)) (l : List SessionId)
    (u : SessionUnit) : SesMove u (l.foldl f u) := by
  induction l generalizing u with
  | nil => exact .refl u
  | cons a l ih => exact .trans (hf u a) (ih _)

theorem portReset_move (u : SessionUnit) (p : PortId) : SesMove u (u.portReset p) :=
  foldl_move _ (portResetSession_move p) _ u

theorem revoke_move (u : SessionUnit) (t : WindowsTable) : SesMove u (u.revoke t) := by
  refine foldl_move _ (fun v i => ?_) _ u
  unfold SessionUnit.revokeSession
  split
  · next h =>
    refine .finish v i _ fun e => ?_
    simp [SessionUnit.denied, e] at h
  · exact .refl v

end Sys2Proof.Laws
end

