-- ==== Sys2Proof/Laws/Engine.lean ====
section
/-! SUPPORT. What the operations of the Array Engine can do: `EngineMove` says once what all of them keep and how they move
the Session Unit, so that no proof over the engine's events unfolds them again. -/

namespace Sys2Proof.Laws

open Sys2Proof Sys2Proof.Machine

/-! ### LOW_SPACE and ALERT_n -/

theorem refresh_space (bm : BlockManager) :
    bm.refresh.lowSpace = decide (bm.refresh.freePool.length + bm.refresh.dirtyList.length < 4) := rfl

theorem ownsFinished_iff (u : SessionUnit) (p : PortId) :
    u.ownsFinished p = true ↔ ∃ i : SessionId, (u.session i).owner = some p ∧ (u.session i).state = .finished := by
  simp [SessionUnit.ownsFinished, List.any_eq_true, Bool.and_eq_true]

/-- After the owners have handed their conditions over, the law of ALERT_n holds (R158). -/
theorem refreshAlerts_law (s : State) : s.refreshAlerts.AlertLaw := by
  intro p
  have hq : (!(s.notice p).queue.isEmpty) = true ↔ (s.notice p).queue ≠ [] := by
    cases (s.notice p).queue <;> simp
  simp only [State.alertAsserted, port_refreshAlerts, State.alertConds, Bool.or_eq_true, ownsFinished_iff,
    State.OwnsFinished, refreshAlerts_ses, refreshAlerts_notice, hq, or_assoc]

/-- The law of ALERT_n depends on the port's own conditions, the sessions and the notices alone. -/
theorem alert_of_same {s t : State} (h : s.AlertLaw) (port : ∀ p, (t.port p).alert = (s.port p).alert)
    (own : ∀ p, t.OwnsFinished p ↔ s.OwnsFinished p) (notice : ∀ p, t.notice p = s.notice p) : t.AlertLaw := by
  intro p
  have := h p
  simp only [State.alertAsserted] at this ⊢
  rw [port, own, notice]
  exact this

/-- A session that is not FINISHED, replaced by one that is not FINISHED, changes nobody's ownership of FINISHED ones. -/
theorem ownsFinished_setSession (s t : State) (i : SessionId) (r : Session) (h : t.ses.table = (s.ses.setSession i r).table)
    (old : (s.ses.session i).state ≠ .finished) (new : r.state ≠ .finished) (p : PortId) :
    t.OwnsFinished p ↔ s.OwnsFinished p := by
  have ht : ∀ j, t.ses.session j = (s.ses.setSession i r).session j := fun j => by
    simp only [SessionUnit.session, h]
  unfold State.OwnsFinished
  constructor
  · rintro ⟨j, ho, hf⟩
    rw [ht, session_setSession] at ho hf
    by_cases e : j = i
    · subst e; simp only [if_true] at hf; exact absurd hf new
    · simp only [e, if_false] at ho hf; exact ⟨j, ho, hf⟩
  · rintro ⟨j, ho, hf⟩
    have e : j ≠ i := fun e => old (e ▸ hf)
    exact ⟨j, by rw [ht, session_setSession]; simpa [e] using ho, by rw [ht, session_setSession]; simpa [e] using hf⟩

/-! ### Moves of the engine -/

/-- What every operation of the engine keeps, and how it moves the rest. -/
structure EngineMove (s t : State) : Prop where
  flash : t.flash = s.flash
  prot : t.prot = s.prot
  notices : t.notices = s.notices
  power : t.power = s.power
  pending : t.pending = s.pending
  port : ∀ p, { t.port p with alert := (s.port p).alert } = s.port p
  pages : t.map.pages = s.map.pages
  mapped : t.map.mapped = s.map.mapped
  flip : t.map.flip = s.map.flip
  serial : s.map.nextSerial ≤ t.map.nextSerial
  serialLaw : s.SerialLaw → t.SerialLaw
  ses : SesMove s.ses t.ses
  space : s.SpaceLaw → t.SpaceLaw
  alert : s.AlertLaw → t.AlertLaw
  markFault : s.eng.markFault = true → t.eng.markFault = true

theorem EngineMove.refl (s : State) : EngineMove s s :=
  { flash := rfl, prot := rfl, notices := rfl, power := rfl, pending := rfl, port := fun _ => rfl, pages := rfl,
    mapped := rfl, flip := rfl, serial := Nat.le_refl _, serialLaw := id, ses := .refl _, space := id, alert := id,
    markFault := id }

theorem EngineMove.trans {s t u : State} (h : EngineMove s t) (k : EngineMove t u) : EngineMove s u :=
  { flash := k.flash.trans h.flash
    prot := k.prot.trans h.prot
    notices := k.notices.trans h.notices
    power := k.power.trans h.power
    pending := k.pending.trans h.pending
    port := fun p => by
      have h1 := h.port p
      have h2 := k.port p
      rw [← h2] at h1
      simpa using h1
    pages := k.pages.trans h.pages
    mapped := k.mapped.trans h.mapped
    flip := k.flip.trans h.flip
    serial := Nat.le_trans h.serial k.serial
    serialLaw := fun x => k.serialLaw (h.serialLaw x)
    ses := .trans h.ses k.ses
    space := fun x => k.space (h.space x)
    alert := fun x => k.alert (h.alert x)
    markFault := fun x => k.markFault (h.markFault x) }

theorem setWork_move (s : State) (w : Work) : EngineMove s (s.setWork w) :=
  { EngineMove.refl s with alert := id, serialLaw := id, space := id }

/-- A new Block Manager whose LOW_SPACE is recomputed. -/
theorem bm_move (s : State) (bm : BlockManager)
    (h : bm.lowSpace = decide (bm.freePool.length + bm.dirtyList.length < 4)) : EngineMove s { s with bm := bm } :=
  { EngineMove.refl s with alert := id, serialLaw := id, space := fun _ => h }

/-- Another engine, with MARK_FAULT not cleared. -/
theorem eng_move (s : State) (e : Engine) (h : s.eng.markFault = true → e.markFault = true) :
    EngineMove s { s with eng := e } :=
  { EngineMove.refl s with alert := id, serialLaw := id, space := id, markFault := h }

/-- A change of the Session Unit after which the owners hand their ALERT_n conditions over. -/
theorem ses_move (s : State) (u : SessionUnit) (h : SesMove s.ses u) : EngineMove s { s with ses := u }.refreshAlerts :=
  { EngineMove.refl s with
    alert := fun _ => refreshAlerts_law _, serialLaw := id, space := id, ses := h
    port := fun p => by rw [port_refreshAlerts]; rfl }

/-- A session that stays short of FINISHED. -/
theorem session_move (s : State) (i : SessionId) (r : Session) (old : (s.ses.session i).state ≠ .finished)
    (new : r.state ≠ .finished) (h : SesMove s.ses (s.ses.setSession i r)) :
    EngineMove s { s with ses := s.ses.setSession i r } :=
  { EngineMove.refl s with
    serialLaw := id, space := id, ses := h
    alert := fun x => alert_of_same x (fun _ => rfl) (ownsFinished_setSession s _ i r rfl old new) fun _ => rfl }

/-- The waiting hand-offs change. -/
theorem hands_move (s : State) (f : Option Failure) (w : Option SessionId) :
    EngineMove s { s with ses := { s.ses with failure := f, unwindRequest := w } } :=
  { EngineMove.refl s with
    serialLaw := id, space := id, ses := .hands _ f w
    alert := fun x => alert_of_same x (fun _ => rfl) (fun _ => Iff.rfl) fun _ => rfl }

/-! ### Unwinding -/

theorem unwindFinish_move (s : State) (i : SessionId) : EngineMove s (s.unwindFinish i) := by
  exact (ses_move s _ ((takePending_move s.ses).trans (takeUnwindEnd_move _ i))).trans
    { EngineMove.refl _ with alert := id, serialLaw := id, space := id
                             port := fun p => by simp [State.unwindFinish, State.alertConds] }

theorem unwindNext_move (s : State) (u : UnwindRec) : EngineMove s (s.unwindNext u) := by
  unfold State.unwindNext
  split
  · exact setWork_move _ _
  · exact unwindFinish_move _ _

theorem startUnwind_move (s : State) (r : CommitRec) : EngineMove s (s.startUnwind r) := unwindNext_move _ _

theorem unwindVoidEnded_move (s : State) (u : UnwindRec) (b : BlockId) (n : Nat) (ok : Bool) :
    EngineMove s (s.unwindVoidEnded u b n ok) := by
  unfold State.unwindVoidEnded
  split
  · exact (bm_move s _ (refresh_space _)).trans (unwindNext_move _ _)
  · split <;> exact setWork_move _ _

/-! ### Commit -/

theorem giveUp_move (s : State) (r : CommitRec) (f : FailReason) : EngineMove s (s.giveUp r f) :=
  (hands_move s _ s.ses.unwindRequest).trans (startUnwind_move _ _)

/-- An allocation recomputes LOW_SPACE (R10, R102). -/
theorem allocate_space {bm bm' : BlockManager} {i : SessionId} {b : BlockId} (h : bm.allocate i = some (b, bm')) :
    bm'.lowSpace = decide (bm'.freePool.length + bm'.dirtyList.length < 4) := by
  unfold BlockManager.allocate at h
  split at h
  · cases h
  · injection h with h
    injection h with h1 h2
    rw [← h2]
    exact refresh_space _

theorem beginMember_move (s : State) (r : CommitRec) : EngineMove s (s.beginMember r) := by
  unfold State.beginMember
  split
  · next h => exact (bm_move s _ (allocate_space h)).trans (setWork_move _ _)
  · exact giveUp_move _ _ _

theorem commitOpEnded_move (s : State) (r : CommitRec) (ok : Bool) (goOn : State → State)
    (h : EngineMove s (goOn s)) : EngineMove s (s.commitOpEnded r ok goOn) := by
  unfold State.commitOpEnded
  split
  · split
    · exact startUnwind_move _ _
    · exact h
  · exact setWork_move _ _

theorem begunMarkEnded_move (s : State) (r : CommitRec) (ok : Bool) : EngineMove s (s.begunMarkEnded r ok) :=
  commitOpEnded_move _ _ _ _ (setWork_move _ _)

theorem lineEnded_move (s : State) (r : CommitRec) (k : Nat) (ok : Bool) : EngineMove s (s.lineEnded r k ok) := by
  refine commitOpEnded_move _ _ _ _ ?_
  split
  · exact setWork_move _ _
  · split <;> exact setWork_move _ _

theorem dataStampEnded_move (s : State) (r : CommitRec) (ok : Bool) : EngineMove s (s.dataStampEnded r ok) := by
  refine commitOpEnded_move _ _ _ _ ?_
  split
  · exact setWork_move _ _
  · exact beginMember_move _ _

theorem handRetired_move (s : State) (b : BlockId) (ok : Bool) : EngineMove s (s.handRetired b ok) :=
  (bm_move s _ (refresh_space _)).trans (eng_move _ _ fun h => by
    show (s.eng.markFault || !ok) = true
    have h' : s.eng.markFault = true := h
    simp [h'])

theorem afterRetire_move (s : State) (r : CommitRec) : EngineMove s (s.afterRetire r) := by
  unfold State.afterRetire
  split
  · exact startUnwind_move _ _
  · split
    · exact beginMember_move _ _
    · exact giveUp_move _ _ _

/-! ### The choice of work and the commit start -/

theorem reclaimStart_move (s : State) (b : BlockId) : EngineMove s (s.reclaimStart b) :=
  (bm_move s _ (refresh_space _)).trans (setWork_move _ _)

theorem finishSession_move (s : State) (i : SessionId) (o : SessionOutcome) (h : (s.ses.session i).state ≠ .free) :
    EngineMove s (s.finishSession i o) :=
  (eng_move s (s.eng.withdraw i) id).trans (ses_move _ _ (.finish _ i o h))

/-- The Map Unit gives a serial while the range is not exhausted (R24). -/
theorem giveSerial_move (s : State) (h : serialEndOf s.map.nextSerial = false) :
    EngineMove s { s with map := s.map.giveSerial } :=
  { EngineMove.refl s with
    alert := id, space := id
    serial := Nat.le_succ _
    serialLaw := fun x => by
      have x' : s.map.serialEnd = serialEndOf s.map.nextSerial := x
      show (s.map.serialEnd || serialEndOf (s.map.nextSerial + 1)) = serialEndOf (s.map.nextSerial + 1)
      rw [x', h]; rfl }

theorem handStart_move (s : State) (p : PortId) (i : SessionId) (k : StartKind) : EngineMove s (s.handStart p i k) :=
  eng_move _ _ id

theorem handFailedStart_move (s : State) (p : PortId) (i : SessionId) (k : StartKind) :
    EngineMove s (s.handFailedStart p i k) :=
  (eng_move s (s.eng.dequeue i) id).trans (handStart_move _ _ _ _)

theorem askSerial_move (s : State) (p : PortId) (i : SessionId) : EngineMove s (s.askSerial p i) := by
  unfold State.askSerial
  split
  · exact handFailedStart_move _ _ _ _
  · next h => exact (giveSerial_move s (by simpa using h)).trans (handStart_move _ _ _ _)

theorem startCheck_move (s : State) (p : PortId) (i : SessionId) : EngineMove s (s.startCheck p i) := by
  unfold State.startCheck
  simp only
  split
  · exact askSerial_move _ _ _
  · split
    · exact handFailedStart_move _ _ _ _
    · exact .refl s

/-- The accepted start of a QUEUED session (R48, R72). -/
theorem commitStart_move (s : State) (h : StartHandoff) (n : Nat) (bases : List (Option BlockId))
    (hq : (s.ses.session h.session).state = .queued) : EngineMove s (s.commitStart h n bases) := by
  have m1 := session_move s h.session { s.ses.session h.session with state := .programming, boundaryPassed := false }
    (by rw [hq]; decide) (by simp) (.holding _ _ _ (by rw [hq]; rfl) (by rfl) (by rfl) (by rfl) (.inl (by rfl)))
  have m2 := eng_move { s with
    ses := s.ses.setSession h.session { s.ses.session h.session with state := .programming, boundaryPassed := false } }
    { s.eng.dequeue h.session with pointer := h.port } id
  exact (m1.trans m2).trans (beginMember_move _ _)

theorem takeStart_move (s : State) (h : StartHandoff) : EngineMove s (s.takeStart h) := by
  have m := eng_move s { s.eng with start := none } id
  unfold State.takeStart
  simp only
  split
  · next hq =>
    have ne : (s.ses.session h.session).state ≠ .free := by rw [hq.2]; decide
    split
    · exact m.trans (commitStart_move _ _ _ _ hq.2)
    · exact m.trans (finishSession_move _ _ _ ne)
    · exact m.trans (finishSession_move _ _ _ ne)
  · exact m

theorem choose_move (s : State) : EngineMove s s.choose := by
  unfold State.choose
  split
  · exact reclaimStart_move _ _
  · split
    · exact startCheck_move _ _ _
    · split
      · exact reclaimStart_move _ _
      · exact .refl s

theorem choiceEvent_move (s : State) : EngineMove s s.choiceEvent := by
  unfold State.choiceEvent
  split
  · split
    · exact takeStart_move _ _
    · exact choose_move _
  · exact .refl s

/-! ### Mount voiding, retiring, reclaim -/

theorem mountVoidNext_move (s : State) (l : List BlockId) : EngineMove s (s.mountVoidNext l) := by
  cases l with
  | nil =>
    have m : EngineMove s (State.setWork { s with mount := s.mount.finish } .idle) :=
      { EngineMove.refl s with alert := id, serialLaw := id, space := id }
    exact m.trans (choiceEvent_move _)
  | cons b rest => exact setWork_move _ _

theorem mountVoidEnded_move (s : State) (b : BlockId) (rest : List BlockId) (n : Nat) (ok : Bool) :
    EngineMove s (s.mountVoidEnded b rest n ok) := by
  unfold State.mountVoidEnded
  split
  · exact mountVoidNext_move _ _
  · split <;> exact setWork_move _ _

theorem retireEnded_move (s : State) (ok : Bool) : EngineMove s (s.retireEnded ok) := by
  unfold State.retireEnded
  split
  · split
    · exact setWork_move _ _
    · split
      · exact (handRetired_move _ _ _).trans (afterRetire_move _ _)
      · exact .refl s
  · split
    · exact setWork_move _ _
    · exact (handRetired_move _ _ _).trans (unwindNext_move _ _)
  · split
    · exact setWork_move _ _
    · exact (handRetired_move _ _ _).trans (setWork_move _ _)
  · split
    · exact setWork_move _ _
    · exact (handRetired_move _ _ _).trans (mountVoidNext_move _ _)
  · exact .refl s

theorem eraseEnded_move (s : State) (b : BlockId) (ok : Bool) : EngineMove s (s.eraseEnded b ok) := by
  unfold State.eraseEnded
  split <;> exact setWork_move _ _

theorem freeStampEnded_move (s : State) (b : BlockId) (ok : Bool) : EngineMove s (s.freeStampEnded b ok) := by
  unfold State.freeStampEnded
  split
  · exact (bm_move s _ (refresh_space _)).trans (setWork_move _ _)
  · exact setWork_move _ _

theorem opFailed_move (s : State) : EngineMove s s.opFailed := by
  unfold State.opFailed
  split
  · exact begunMarkEnded_move _ _ _
  · exact lineEnded_move _ _ _ _
  · exact dataStampEnded_move _ _ _
  · exact unwindVoidEnded_move _ _ _ _ _
  · exact eraseEnded_move _ _ _
  · exact freeStampEnded_move _ _ _
  · exact mountVoidEnded_move _ _ _ _ _
  · exact retireEnded_move _ _

/-! ### The hand-offs with the Session Unit -/

theorem takeUnwind_move (s : State) (i : SessionId) : EngineMove s (s.takeUnwind i) := by
  unfold State.takeUnwind
  split
  · split
    · split <;> first | exact setWork_move _ _ | exact startUnwind_move _ _
    · exact .refl s
  · exact .refl s

end Sys2Proof.Laws
end

