-- ==== Sys2Proof/Laws/Requests.lean ====
section
/-! SUPPORT. How a request is taken and answered: the lemmas that the statements about requests cite in place of unfolding the
frame, the operands and the session checks. -/

namespace Sys2Proof.Laws

open Sys2Proof Sys2Proof.Machine

/-! ### Taking a request -/

theorem setPort_self (s : State) (p : PortId) : s.setPort p (s.port p) = s := by
  simp [State.setPort, State.port]

@[simp] theorem refuse_taken (s : State) (p : PortId) (n : Nat) (st : Status) :
    (s.refuse st).taken p n = s.replied p (n+1) [statusByte st] := rfl

theorem taken_eq (s : State) (p : PortId) (n : Nat) (st : Status) (f : List Byte) :
    ({ state := s, status := st, fields := f } : Answer).taken p n = s.replied p (n+1) (statusByte st :: f) := rfl

theorem halfBytes_length (pages : List Half) : (pages.flatMap halfBytes).length = 2 * pages.length := by
  induction pages with
  | nil => rfl
  | cons a l ih => simp [List.flatMap_cons, ih, halfBytes]; omega

/-- A request command is taken exactly when its frame has begun and no bit of it has come. -/
theorem atFrameStart_iff (s : State) (p : PortId) : (s.port p).atFrameStart = true ↔ s.Receiving p := by
  unfold Port.atFrameStart State.Receiving
  simp [and_assoc]

/-- A request taken while the part is READY. -/
theorem takeRequest_ready (s : State) (p : PortId) (n : Nat) (f : State → Answer) (hr : s.Receiving p) (hd : s.Ready) :
    s.takeRequest p n (fun t => t.whenReady f) = (f s).taken p n := by
  have hr := (atFrameStart_iff s p).2 hr
  unfold State.Ready at hd
  simp [State.takeRequest, hr, State.whenReady, hd]

theorem openOperands_eq (count : Byte) (pages : List Half) (h : pages.length = openPageCount count) :
    openOperands count pages = some pages := by
  simp [openOperands, h, List.take_of_length_le]

theorem stageOperands_eq (length : Half) (data : List Byte) (h : data.length = stageDataCount length) :
    stageOperands length data = some data := by
  simp [stageOperands, h]

/-! ### Operands -/

theorem pageOfHalf_pageHalf (q : PageId) : pageOfHalf (pageHalf q) = some q := by
  have : q.val < 65536 := by omega
  simp [pageOfHalf, pageHalf, Nat.mod_eq_of_lt this]

theorem pagesOfHalves_map (pages : List PageId) : pagesOfHalves (pages.map pageHalf) = some pages := by
  unfold pagesOfHalves
  induction pages with
  | nil => rfl
  | cons a l ih => simp [List.mapM_cons, pageOfHalf_pageHalf, ih]

theorem pagesOfHalves_spec (hs : List Half) :
    (∃ h ∈ hs, 463 < h.toNat) ∧ pagesOfHalves hs = none
      ∨ ∃ pages : List PageId, pagesOfHalves hs = some pages ∧ hs = pages.map pageHalf := by
  unfold pagesOfHalves
  induction hs with
  | nil => exact .inr ⟨[], rfl, rfl⟩
  | cons a l ih =>
    rw [List.mapM_cons]
    by_cases g : a.toNat < 464
    · have ha : pageOfHalf a = some ⟨a.toNat, g⟩ := by simp [pageOfHalf, g]
      rcases ih with ⟨⟨h, hm, hh⟩, e⟩ | ⟨ps, e, hl⟩
      · exact .inl ⟨⟨h, by simp [hm], hh⟩, by simp [ha, e]⟩
      · refine .inr ⟨⟨a.toNat, g⟩ :: ps, by simp [ha, e], ?_⟩
        rw [hl]; simp [pageHalf]
    · have ha : pageOfHalf a = none := by simp [pageOfHalf, g]
      exact .inl ⟨⟨a, by simp, by omega⟩, by simp [ha]⟩

theorem openPageCount_ofNat (n : Nat) (h1 : 1 ≤ n) (h2 : n ≤ 4) : openPageCount (BitVec.ofNat 8 n) = n := by
  have : n < 256 := by omega
  simp [openPageCount, Nat.mod_eq_of_lt this, h1, h2]

theorem pageHalf_inj : Function.Injective pageHalf := by
  intro a b h
  have := congrArg pageOfHalf h
  simpa [pageOfHalf_pageHalf] using this

theorem find_lowest (f : SessionId → Bool) (i : SessionId) (hi : f i = true) (hlt : ∀ j, j < i → f j = false) :
    (List.finRange 8).find? f = some i := by
  rw [List.find?_eq_some_iff_append]
  refine ⟨hi, (List.finRange 8).filter (· < i), (List.finRange 8).filter (fun j => i < j), ?_, ?_⟩
  · clear hi hlt; revert i; decide
  · intro a ha
    simp at ha
    simp [hlt a ha]

theorem sessionOfByte_sid (i : SessionId) : sessionOfByte (sidByte i) = some i := by
  have : i.val < 256 := by omega
  simp [sessionOfByte, sidByte, Nat.mod_eq_of_lt this]

theorem named_own (s : State) (p : PortId) (i : SessionId) (f : SessionId → Answer) (h : s.Own p i) :
    s.namedSession p (sidByte i) f = f i := by
  unfold State.namedSession
  simp only [sessionOfByte_sid]
  rw [if_pos]
  obtain ⟨h1, h2⟩ := h
  simp [SessionUnit.attachedTo, h1, h2]

theorem slot_none (slot : Byte) (h : 3 < slot.toNat) : slotOfByte slot = none := by
  simp [slotOfByte]; omega
theorem slot_some (slot : Byte) (h : slot.toNat ≤ 3) : slotOfByte slot = some ⟨slot.toNat, by omega⟩ := by
  simp [slotOfByte]; omega

/-! ### Permissions -/

theorem canReadRange_iff (t : WindowsTable) (p : PortId) (a b : Nat) :
    t.canReadRange p a b = true ↔ ∀ q, a ≤ q → q ≤ b → t.canRead p q = true := by
  simp only [WindowsTable.canReadRange, List.all_eq_true, List.mem_range]
  constructor
  · intro h q h1 h2
    have := h (q - a) (by omega)
    rwa [Nat.add_sub_cancel' h1] at this
  · intro h x hx; exact h _ (by omega) (by omega)

/-! ### Pins -/

theorem pins_pin (bm : BlockManager) (b : BlockId) : bm.PinsMoved (bm.pin b) none (some b) := by
  refine ⟨rfl, fun c => ?_⟩
  unfold BlockManager.pin
  rw [block_modify]
  by_cases h : c = b
  · subst h; simp
  · simp [h, Ne.symm h]

theorem pins_none (bm : BlockManager) : bm.PinsMoved bm none none := by
  refine ⟨rfl, fun c => ?_⟩
  simp

theorem pins_unpin (bm : BlockManager) (b : BlockId) : bm.PinsMoved (bm.unpin b) (some b) none := by
  refine ⟨rfl, fun c => ?_⟩
  unfold BlockManager.unpin
  rw [block_modify]
  by_cases h : c = b
  · subst h; simp
  · simp [h, Ne.symm h]

theorem pins_unpinPage (bm : BlockManager) (o : Option BlockId) : bm.PinsMoved (bm.unpinPage o) o none := by
  cases o
  · exact pins_none _
  · exact pins_unpin _ _

theorem pins_pinPage (bm : BlockManager) (o : Option BlockId) : bm.PinsMoved (bm.pinPage o) none o := by
  cases o
  · exact pins_none _
  · exact pins_pin _ _

/-! ### Sessions and notices -/

theorem finishSession_early (s : State) (i : SessionId) (o : SessionOutcome) :
    s.FinishedEarly (s.finishSession i o) i o := by
  refine ⟨rfl, ⟨?_, ?_, ?_, rfl, rfl⟩, ⟨rfl, fun q => ?_, rfl⟩, fun q => ?_, refreshAlerts_law _⟩
  · simp [State.finishSession, SessionUnit.finish, Session.finishedAs]
  · intro j hj; simp [State.finishSession, SessionUnit.finish, session_setSession, hj]
  · intro q; exact claim_releaseClaims _ _ _
  · simp [State.finishSession, Engine.queueOf, Engine.dequeue]
  · simp [State.finishSession]; rfl

theorem notice_alerts (s : State) (p : PortId) (n : NoticePort) : s.AlertsFollow (s.setNotice p n).refreshAlerts := by
  refine ⟨fun q => ?_, refreshAlerts_law _⟩
  simp

/-! ### What no request touches -/

/-- What a request of port `p` leaves as it was. -/
structure RequestKept (p : PortId) (s t : State) : Prop where
  flash : t.flash = s.flash
  map : t.map = s.map
  mount : t.mount = s.mount
  power : t.power = s.power
  pending : t.pending = s.pending
  work : t.eng.work = s.eng.work
  pointer : t.eng.pointer = s.eng.pointer
  markFault : t.eng.markFault = s.eng.markFault
  table : t.prot.table = s.prot.table
  tableFault : t.prot.tableFault = s.prot.tableFault
  bm : t.bm = { s.bm with table := t.bm.table }
  classes : ∀ b, (t.bm.block b).map (fun r => (r.cls, r.eraseCount)) = (s.bm.block b).map (fun r => (r.cls, r.eraseCount))
  others : ∀ q : PortId, q ≠ p → { t.port q with alert := (s.port q).alert } = s.port q ∧ t.notice q = s.notice q

theorem RequestKept.refl (p) (s : State) : RequestKept p s s := by constructor <;> simp

theorem taken_kept (p : PortId) (s : State) (a : Answer) (n : Nat) (h : RequestKept p s a.state) :
    RequestKept p s (a.taken p n) := by
  constructor
  case others =>
    intro q hq
    simp only [Answer.taken, port_setPort_ne _ _ _ _ hq, setPort_notice]
    exact h.others q hq
  all_goals first | exact h.flash | exact h.map | exact h.mount | exact h.power | exact h.pending | exact h.work | exact h.pointer | exact h.markFault | exact h.table | exact h.tableFault | exact h.bm | exact h.classes

theorem take_kept (p : PortId) (s : State) (n : Nat) (f : State → Answer) (h : RequestKept p s (f s).state) :
    RequestKept p s (s.takeRequest p n f) := by
  unfold State.takeRequest
  split
  · exact taken_kept p s _ n h
  · exact .refl p s

theorem ready_kept (p : PortId) (s : State) (f : State → Answer) (h : RequestKept p s (f s).state) :
    RequestKept p s (s.whenReady f).state := by
  unfold State.whenReady; split
  · exact .refl p s
  · exact h

theorem named_kept (p : PortId) (s : State) (sid : Byte) (f : SessionId → Answer) (h :
    ∀ i, RequestKept p s (f i).state) : RequestKept p s (s.namedSession p sid f).state := by
  unfold State.namedSession; split
  · exact .refl p s
  · split
    · exact h _
    · exact .refl p s

theorem setPort_kept (p : PortId) (s : State) (r : Port) : RequestKept p s (s.setPort p r) := by
  constructor
  case others => intro q hq; simp [port_setPort_ne _ _ _ _ hq]
  all_goals simp

theorem setNotice_kept (p : PortId) (s : State) (r : NoticePort) : RequestKept p s (s.setNotice p r) := by
  constructor
  case others => intro q hq; simp [notice_setNotice_eq, hq]
  all_goals simp

theorem refresh_kept (p : PortId) (s t : State) (h : RequestKept p s t) : RequestKept p s t.refreshAlerts := by
  constructor
  case others =>
    intro q hq
    have := h.others q hq
    simp only [port_refreshAlerts, refreshAlerts_notice]
    exact this
  all_goals first | exact h.flash | exact h.map | exact h.mount | exact h.power | exact h.pending | exact h.work | exact h.pointer | exact h.markFault | exact h.table | exact h.tableFault | exact h.bm | exact h.classes

theorem ses_kept (p : PortId) (s : State) (u : SessionUnit) (q : Vector (List SessionId) 4) (h : Option StartHandoff)
    (f : Bool) :
    RequestKept p s
      { s with ses := u, eng := { s.eng with queue := q, start := h }, prot := { s.prot with frozen := f } } := by
  constructor
  case others => intro q hq; exact ⟨rfl, rfl⟩
  all_goals simp [BlockManager.block]

theorem read_kept (p : PortId) (page offset length : Half) (s : State) :
    RequestKept p s (s.answerRead p page offset length).state := by
  unfold State.answerRead
  simp only
  split
  · split
    · simp only [State.createStream]
      split
      · constructor
        case others => intro q hq; simp [port_setPort_ne _ _ _ _ hq, State.translate]; exact ⟨rfl, rfl⟩
        case classes =>
          intro b
          simp only [setPort_bm, State.translate]
          cases s.map.currentBlock _ with
          | none => rfl
          | some c =>
            simp only [BlockManager.pinPage, BlockManager.pin, block_modify]
            split
            · next h => subst h; simp [Option.map_map, Function.comp_def]
            · rfl
        case bm =>
          simp only [setPort_bm, State.translate]
          cases s.map.currentBlock _ <;> rfl
        all_goals rfl
      · exact .refl p s
    · exact .refl p s
  · exact .refl p s

end Sys2Proof.Laws
end

