-- ==== Sys2Proof/Laws/Blocks.lean ====
section
/-! SUPPORT. What each operation of the Block Manager does, once: allocation, the moves between classes, the end of an erase
(R10 to R17). -/

namespace Sys2Proof.Laws

open Sys2Proof Sys2Proof.Machine

/-! ### Lists of blocks -/

theorem mem_insertBlock (b : BlockId) (l : List BlockId) (x : BlockId) : x ∈ insertBlock b l ↔ x = b ∨ x ∈ l := by
  induction l with
  | nil => simp [insertBlock]
  | cons c rest ih =>
    unfold insertBlock
    split
    · simp
    · split
      · next e => subst e; simp
      · simp only [List.mem_cons, ih]
        constructor
        · rintro (h | h | h) <;> simp [h]
        · rintro (h | h | h) <;> simp [h]

theorem nodup_insertBlock (b : BlockId) (l : List BlockId) (h : l.Pairwise (· < ·)) :
    (insertBlock b l).Pairwise (· < ·) := by
  induction l with
  | nil => simp [insertBlock]
  | cons c rest ih =>
    obtain ⟨hc, hr⟩ := List.pairwise_cons.1 h
    unfold insertBlock
    split
    · next lt =>
      refine List.pairwise_cons.2 ⟨fun x hx => ?_, h⟩
      rcases List.mem_cons.1 hx with rfl | hx
      · exact lt
      · exact Fin.lt_trans (show b < c from lt) (hc x hx)
    · split
      · exact h
      · next ge ne =>
        have : c < b := by
          have : b.val ≠ c.val := fun e => ne (Fin.ext e)
          show c.val < b.val
          omega
        refine List.pairwise_cons.2 ⟨fun x hx => ?_, ih hr⟩
        rcases (mem_insertBlock b rest x).1 hx with rfl | hx
        · exact this
        · exact hc x hx

theorem mem_removeBlock (b : BlockId) (l : List BlockId) (x : BlockId) : x ∈ removeBlock b l ↔ x ∈ l ∧ x ≠ b := by
  simp [removeBlock]

theorem removeBlock_split (b : BlockId) (before after : List BlockId) (h : b ∉ before) :
    removeBlock b (before ++ b :: after) = before ++ after.filter (· != b) := by
  have : before.filter (· != b) = before :=
    List.filter_eq_self.2 fun x hx => by simp; rintro rfl; exact h hx
  simp [removeBlock, this]

/-! ### The order of the Free Pool -/

theorem poolBefore_iff (bm : BlockManager) (a b : BlockId) : bm.poolBefore a b = true ↔ bm.Before a b := by
  simp [BlockManager.poolBefore, BlockManager.Before]

theorem insertByOrder_spec (bm : BlockManager) (b : BlockId) (l : List BlockId) :
    ∃ before after : List BlockId, l = before ++ after ∧ bm.insertByOrder b l = before ++ b :: after
      ∧ (∀ x ∈ before, ¬ bm.Before b x) ∧ ∀ x, after.head? = some x → bm.Before b x := by
  induction l with
  | nil => exact ⟨[], [], rfl, rfl, by simp, by simp⟩
  | cons c rest ih =>
    by_cases h : bm.poolBefore b c = true
    · refine ⟨[], c :: rest, rfl, by simp [BlockManager.insertByOrder, h], by simp, fun x hx => ?_⟩
      cases hx
      exact (poolBefore_iff _ _ _).1 h
    · obtain ⟨before, after, e1, e2, h1, h2⟩ := ih
      refine ⟨c :: before, after, by simp [e1], by simp [BlockManager.insertByOrder, h, e2], fun x hx => ?_, h2⟩
      rcases List.mem_cons.1 hx with rfl | hx
      · exact fun k => h ((poolBefore_iff _ _ _).2 k)
      · exact h1 x hx

theorem insertByOrder_perm (bm : BlockManager) (b : BlockId) (l : List BlockId) : (bm.insertByOrder b l).Perm (b :: l) := by
  obtain ⟨before, after, e1, e2, -, -⟩ := insertByOrder_spec bm b l
  rw [e2, e1]
  exact List.perm_middle

/-! ### The operations -/

theorem reclassed (bm : BlockManager) (b : BlockId) (c : BlockClass) :
    ∀ x : BlockId, (bm.setClass b c).refresh.block x =
      if x = b then (bm.block b).map (fun r => { r with cls := c }) else bm.block x :=
  fun x => block_setClass bm b x c

/-- An allocation of a block that the pool holds (R10). -/
theorem allocate_some {bm : BlockManager} {b : BlockId} {rest : List BlockId} (h : bm.freePool = b :: rest) (i : SessionId) :
    ∃ bm', bm.allocate i = some (b, bm') ∧ bm.Allocated bm' i b ∧ bm'.freePool = rest := by
  refine ⟨({ bm with freePool := rest }.setClass b (.target i)).refresh, by unfold BlockManager.allocate; rw [h],
    ⟨h, rfl, rfl, ?_, rfl⟩, rfl⟩
  exact reclassed { bm with freePool := rest } b (.target i)

theorem allocate_none {bm : BlockManager} (h : bm.freePool = []) (i : SessionId) : bm.allocate i = none := by
  unfold BlockManager.allocate; rw [h]

theorem toDirty_spec (bm : BlockManager) (b : BlockId) : bm.Voided (bm.toDirty b) b :=
  ⟨rfl, rfl, rfl, reclassed { bm with dirtyList := bm.dirtyList ++ [b] } b .dirty, rfl⟩

theorem retire_spec (bm : BlockManager) (b : BlockId) : bm.Retired (bm.retire b) b :=
  ⟨rfl, rfl, fun x => mem_insertBlock b bm.retiredSet x,
    reclassed { bm with dirtyList := removeBlock b bm.dirtyList, retiredSet := insertBlock b bm.retiredSet } b .retired, rfl⟩

theorem eraseStart_spec (bm : BlockManager) (b : BlockId) :
    (bm.eraseStart b).dirtyList = removeBlock b bm.dirtyList ∧ (bm.eraseStart b).freePool = bm.freePool
    ∧ (bm.eraseStart b).retiredSet = bm.retiredSet ∧ bm.Reclassed (bm.eraseStart b) b .erasing :=
  ⟨rfl, rfl, rfl, reclassed { bm with dirtyList := removeBlock b bm.dirtyList } b .erasing, rfl⟩

theorem eraseDone_spec (bm : BlockManager) (b : BlockId) :
    bm.Returned (bm.eraseDone b (nextEraseCount (bm.eraseCount b))) b := by
  refine ⟨rfl, rfl, fun x => ?_, ?_, rfl⟩
  · exact block_modify bm b x _
  · obtain ⟨before, after, e1, e2, h1, h2⟩ := insertByOrder_spec
      (bm.modify b fun r => { r with cls := .free, eraseCount := nextEraseCount (bm.eraseCount b) }) b bm.freePool
    exact ⟨before, after, e1, e2, h1, h2⟩

/-- The oldest unpinned dirty block stands behind pinned ones only (R94). -/
theorem oldestUnpinned_some {bm : BlockManager} {b : BlockId} (h : bm.oldestUnpinned = some b) :
    b ∈ bm.dirtyList ∧ bm.pins b = 0 := by
  obtain ⟨h1, h2⟩ := List.find?_some h, List.mem_of_find?_eq_some h
  exact ⟨h2, by simpa using h1⟩

theorem oldestUnpinned_split (bm : BlockManager) (b : BlockId) (before after : List BlockId)
    (h : bm.dirtyList = before ++ b :: after) (hb : ∀ x ∈ before, bm.pins x ≠ 0) (h0 : bm.pins b = 0) :
    bm.oldestUnpinned = some b := by
  unfold BlockManager.oldestUnpinned
  rw [h, List.find?_append, List.find?_eq_none.2 fun x hx => by simpa using hb x hx]
  simp [h0]

theorem oldestUnpinned_none (bm : BlockManager) (h : ∀ x ∈ bm.dirtyList, bm.pins x ≠ 0) : bm.oldestUnpinned = none :=
  List.find?_eq_none.2 fun x hx => by simpa using h x hx

end Sys2Proof.Laws
end

