-- ==== Sys2Proof/Laws/Flow.lean ====
section
/-! SUPPORT. What the Array Engine's own operations do, in the words of the claims: the way into and through unwinding, the
start of a member, the end of a program, of a mark and of a mount voiding. -/

namespace Sys2Proof.Laws

open Sys2Proof Sys2Proof.Machine

/-! ### Ends of sessions -/

theorem finish_ends (u : SessionUnit) (i : SessionId) (o : SessionOutcome) :
    u.EndedWith (u.finish i o) i ((u.session i).finishedAs o) :=
  ⟨by simp [SessionUnit.finish, Session.finishedAs],
    fun j hj => by simp [SessionUnit.finish, session_setSession, hj], fun _ => claim_releaseClaims _ _ _, rfl, rfl⟩

theorem release_ends (u : SessionUnit) (i : SessionId) : u.EndedWith (u.release i) i Session.freeSlot :=
  ⟨by simp [SessionUnit.release], fun j hj => by simp [SessionUnit.release, session_setSession, hj],
    fun _ => claim_releaseClaims _ _ _, rfl, rfl⟩

theorem endSession_ends (u : SessionUnit) (i : SessionId) (o : SessionOutcome) :
    u.EndedWith (u.endSession i o) i
      (if (u.session i).owner.isSome then (u.session i).finishedAs o else Session.freeSlot) := by
  unfold SessionUnit.endSession
  split
  · exact finish_ends u i o
  · exact release_ends u i

/-! ### Unwinding -/

theorem firstTarget_some (u : UnwindRec) (b : BlockId) : FirstTarget u.targets b ↔ u.firstTarget = some b := by
  unfold UnwindRec.firstTarget FirstTarget
  generalize u.targets = l
  constructor
  · rintro ⟨before, after, rfl, h⟩
    induction before with
    | nil => rfl
    | cons x xs ih =>
      obtain rfl : x = none := h x (by simp)
      simpa using ih fun y hy => h y (by simp [hy])
  · intro h
    induction l with
    | nil => cases h
    | cons x xs ih =>
      cases x with
      | some c =>
        obtain rfl : c = b := by simpa using h
        exact ⟨[], xs, rfl, by simp⟩
      | none =>
        obtain ⟨before, after, e, k⟩ := ih (by simpa using h)
        exact ⟨none :: before, after, by simp [e], by simpa using k⟩

theorem firstTarget_none (u : UnwindRec) : (∀ x ∈ u.targets, x = none) ↔ u.firstTarget = none := by
  unfold UnwindRec.firstTarget
  rw [List.findSome?_eq_none_iff]
  rfl

theorem unwindFinish_ends (s : State) (i : SessionId) (o : SessionOutcome) (h : (s.ses.takePending.session i).state = .unwinding)
    (ho : (s.ses.takePending.session i).outcome = some o) :
    State.UnwindEnded { s with ses := s.ses.takePending } (s.unwindFinish i) i o := by
  have hn : s.ses.takePending.notedOutcome i = o := by simp [SessionUnit.notedOutcome, ho]
  have e : s.unwindFinish i =
      ({ s with ses := { s.ses.takePending.endSession i o with unwindRequest := none } }.setWork .idle).refreshAlerts := by
    unfold State.unwindFinish SessionUnit.takeUnwindEnd
    rw [if_pos h, hn]
  rw [e]
  obtain ⟨h1, h2, h3, h4, h5⟩ := endSession_ends s.ses.takePending i o
  exact ⟨rfl, rfl, ⟨h1, h2, h3, h4, rfl⟩, fun p => by simp [State.setWork]; rfl, refreshAlerts_law _⟩

theorem unwindNext_spec (s : State) (u : UnwindRec) : s.UnwindGoesOn (s.unwindNext u) u := by
  refine ⟨fun b hb => ?_, fun hn => ⟨s.ses.takePending, takePending_none, takePending_spec s.ses, fun o h ho => ?_⟩⟩
  · unfold State.unwindNext
    rw [(firstTarget_some u b).1 hb]
  · unfold State.unwindNext
    rw [(firstTarget_none u).1 hn]
    exact unwindFinish_ends s _ _ h ho

theorem startUnwind_spec (s : State) (r : CommitRec) : s.UnwindGoesOn (s.startUnwind r) r.toUnwind := unwindNext_spec _ _

/-! ### Commit -/

theorem giveUp_spec (s : State) (r : CommitRec) (f : FailReason) : s.GivesUp (s.giveUp r f) r f := startUnwind_spec _ _

theorem beginMember_spec (s : State) (r : CommitRec) : s.BeginsMember (s.beginMember r) r := by
  refine ⟨fun b rest h => ?_, fun h => ?_⟩
  · obtain ⟨bm', e, ha, -⟩ := allocate_some h r.session
    exact ⟨bm', ha, by unfold State.beginMember; rw [e]; rfl⟩
  · unfold State.beginMember
    rw [allocate_none h]
    exact giveUp_spec _ _ _

theorem commitOpEnded_spec (s : State) (r : CommitRec) (ok : Bool) (goOn : State → State) (next : State → Prop) (P : Prop)
    (hP : ok = true ↔ P) (h : next (goOn s)) :
    s.ProgramEnds (s.commitOpEnded r ok goOn) r P (next (s.commitOpEnded r ok goOn)) := by
  refine ⟨fun hn => ?_, fun hy hu => ?_, fun hy hu => ?_⟩
  · have : ok = false := by rw [← hP] at hn; simpa using hn
    simp [State.commitOpEnded, this]
  · simp [State.commitOpEnded, hP.2 hy, hu]
    exact startUnwind_spec s r
  · simpa [State.commitOpEnded, hP.2 hy, hu] using h

theorem mountVoidNext_spec (s : State) (l : List BlockId) : s.MountVoidGoesOn (s.mountVoidNext l) l := by
  refine ⟨fun b rest h => ?_, fun h => ?_⟩
  · subst h; rfl
  · subst h; rfl

/-- An attempt on discard byte 1 has ended. -/
theorem mark_spec (s : State) (b : BlockId) (n : Nat) (ok : Bool) (P : Prop) (hP : ok = true ↔ P) (again : Work)
    (t : State) (after : State → Prop) (h1 : ok = false → n + 1 < 3 → t = s.setWork again)
    (h2 : ¬ (ok = false ∧ n + 1 < 3) → after (s.handRetired b ok)) : s.MarkEnds t b n P again after := by
  refine ⟨fun hn lt => h1 (by rw [← hP] at hn; simpa using hn) lt, fun h => ?_⟩
  refine ⟨s.bm.retire b, s.eng.markFault || !ok, retire_spec _ _, ?_, h2 ?_⟩
  · rw [← hP]; cases ok <;> simp
  · rw [← hP] at h
    rintro ⟨k, lt⟩
    rcases h with h | h
    · simp [k] at h
    · omega

/-! ### The end of an operation in flight -/

theorem begunMarkEnded_ends (s : State) (r : CommitRec) (ok : Bool) (P : Prop) (hP : ok = true ↔ P)
    (h : s.eng.work = .commit r .begunMark) : s.OpEnds (s.begunMarkEnded r ok) P := by
  unfold State.OpEnds; rw [h]
  exact commitOpEnded_spec s r ok _ (fun t => t = s.setWork (.commit r (.line 0))) P hP rfl

theorem lineEnded_ends (s : State) (r : CommitRec) (k : Nat) (ok : Bool) (P : Prop) (hP : ok = true ↔ P)
    (h : s.eng.work = .commit r (.line k)) : s.OpEnds (s.lineEnded r k ok) P := by
  unfold State.OpEnds; rw [h]
  refine commitOpEnded_spec s r ok _ (fun t => (k < 15 → t = s.setWork (.commit r (.line (k + 1))))
        ∧ (k = 15 → r.pages.length ≤ r.member + 1 ∧ r.boundaryHanded = false → t = s.setWork (.commit r .boundary))
        ∧ (k = 15 → ¬ (r.pages.length ≤ r.member + 1 ∧ r.boundaryHanded = false) →
            t = s.setWork (.commit r .dataStamp))) P hP ⟨fun lt => ?_, fun e hb => ?_, fun e hb => ?_⟩
  · simp [lt]
  · subst e; simp [CommitRec.lastMember, hb.1, hb.2]
  · subst e
    have : (r.lastMember && !r.boundaryHanded) = false := by
      rw [Bool.eq_false_iff]; intro k; apply hb; simpa [CommitRec.lastMember] using k
    simp [this]

theorem dataStampEnded_ends (s : State) (r : CommitRec) (ok : Bool) (P : Prop) (hP : ok = true ↔ P)
    (h : s.eng.work = .commit r .dataStamp) : s.OpEnds (s.dataStampEnded r ok) P := by
  unfold State.OpEnds; rw [h]
  refine commitOpEnded_spec s r ok _ (fun t => (r.pages.length ≤ r.member + 1 → t = s.setWork (.commit r .flipRequested))
        ∧ (r.member + 1 < r.pages.length → s.BeginsMember t { r with member := r.member + 1, tries := 0 })) P hP
    ⟨fun le => ?_, fun lt => ?_⟩
  · simp [CommitRec.lastMember, le]
  · have : r.lastMember = false := by simpa [CommitRec.lastMember] using lt
    simp only [this]
    exact beginMember_spec _ _

theorem retireEnded_ends (s : State) (ok : Bool) (P : Prop) (hP : ok = true ↔ P) (h : s.eng.work.retiring = true) :
    s.OpEnds (s.retireEnded ok) P := by
  unfold State.OpEnds State.retireEnded
  match hw : s.eng.work, h with
  | .commit r (.retire n), _ =>
    intro b hb
    refine mark_spec s b n ok P hP _ _ _ (fun ho lt => by simp [ho, Config.maxAttempts, lt]) fun hn => ?_
    dsimp only
    rw [if_neg (show ¬ (ok = false ∧ n + 1 < Config.maxAttempts) from hn), hb]
    refine ⟨fun hu => ?_, fun hu lt => ?_, fun hu ge => ?_⟩
    · simp only [State.afterRetire, hu, if_true]; exact startUnwind_spec _ _
    · have : r.tries < Config.maxTries := lt
      simp only [State.afterRetire, hu, this, if_true]; exact beginMember_spec _ _
    · have : ¬ r.tries < Config.maxTries := by simp only [Config.maxTries]; omega
      simp only [State.afterRetire, hu, this, if_false]; exact giveUp_spec _ _ _
  | .unwind u (.retire b n), _ =>
    refine mark_spec s b n ok P hP _ _ _ (fun ho lt => by simp [ho, Config.maxAttempts, lt]) fun hn => ?_
    dsimp only
    rw [if_neg (show ¬ (ok = false ∧ n + 1 < Config.maxAttempts) from hn)]
    exact unwindNext_spec _ _
  | .erase b (.retire n), _ =>
    refine mark_spec s b n ok P hP _ _ _ (fun ho lt => by simp [ho, Config.maxAttempts, lt]) fun hn => ?_
    dsimp only
    rw [if_neg (show ¬ (ok = false ∧ n + 1 < Config.maxAttempts) from hn)]
  | .mountVoid b rest (.retire n), _ =>
    refine mark_spec s b n ok P hP _ _ _ (fun ho lt => by simp [ho, Config.maxAttempts, lt]) fun hn => ?_
    dsimp only
    rw [if_neg (show ¬ (ok = false ∧ n + 1 < Config.maxAttempts) from hn)]
    exact mountVoidNext_spec _ _

theorem unwindVoidEnded_ends (s : State) (u : UnwindRec) (b : BlockId) (n : Nat) (ok : Bool) (P : Prop)
    (hP : ok = true ↔ P) (h : s.eng.work = .unwind u (.void b n)) : s.OpEnds (s.unwindVoidEnded u b n ok) P := by
  unfold State.OpEnds State.unwindVoidEnded; rw [h]
  refine ⟨fun hy => ⟨s.bm.toDirty b, toDirty_spec _ _, ?_⟩, fun hn => ?_⟩
  · simp only [hP.2 hy, if_true]; exact unwindNext_spec _ _
  · have : ok = false := by rw [← hP] at hn; simpa using hn
    simp only [this, Config.maxAttempts]
    by_cases lt : n + 1 < 3 <;> simp [lt]

theorem mountVoidEnded_ends (s : State) (b : BlockId) (rest : List BlockId) (n : Nat) (ok : Bool) (P : Prop)
    (hP : ok = true ↔ P) (h : s.eng.work = .mountVoid b rest (.void n)) : s.OpEnds (s.mountVoidEnded b rest n ok) P := by
  unfold State.OpEnds State.mountVoidEnded; rw [h]
  refine ⟨fun hy => ?_, fun hn => ?_⟩
  · simp only [hP.2 hy, if_true]; exact mountVoidNext_spec _ _
  · have : ok = false := by rw [← hP] at hn; simpa using hn
    simp only [this, Config.maxAttempts]
    by_cases lt : n + 1 < 3 <;> simp [lt]

theorem eraseEnded_ends (s : State) (b : BlockId) (ok : Bool) (P : Prop) (hP : ok = true ↔ P)
    (h : s.eng.work = .erase b .erase) : s.OpEnds (s.eraseEnded b ok) P := by
  unfold State.OpEnds State.eraseEnded; rw [h]
  exact ⟨fun hy => by simp [hP.2 hy], fun hn => by rw [← hP] at hn; simp [hn]⟩

theorem freeStampEnded_ends (s : State) (b : BlockId) (ok : Bool) (P : Prop) (hP : ok = true ↔ P)
    (h : s.eng.work = .erase b .freeStamp) : s.OpEnds (s.freeStampEnded b ok) P := by
  unfold State.OpEnds State.freeStampEnded; rw [h]
  exact ⟨fun hy => ⟨_, eraseDone_spec s.bm b, by simp [hP.2 hy]⟩, fun hn => by rw [← hP] at hn; simp [hn]⟩

end Sys2Proof.Laws
end

