-- ==== Sys2Proof/Laws/Formats.lean ====
section
/-! SUPPORT. Byte fields: two-byte fields and their slices, page lists, the tests of a spare area. -/

namespace Sys2Proof.Laws

open Sys2Proof Sys2Proof.Machine

theorem length_crcBytes (l : List Byte) : (crcBytes l).length = 2 := rfl

theorem length_pageListBytes (l : List PageId) : (pageListBytes l).length = 8 := by
  match l with
  | [] => rfl
  | [a] => rfl
  | [a, b] => rfl
  | [a, b, c] => rfl
  | a :: b :: c :: d :: e => rfl

theorem natOfBytes_slice2 (ln : List Byte) (k : Nat) (h : k + 2 ≤ ln.length) :
    natOfBytes (slice ln k 2) = (ln.getD k 0xFF).toNat * 256 + (ln.getD (k+1) 0xFF).toNat := by
  have h1 : slice ln k 2 = [ln.getD k 0xFF, ln.getD (k+1) 0xFF] := by
    apply List.ext_getElem?
    intro i
    simp only [slice, List.getElem?_take, List.getElem?_drop]
    match i with
    | 0 => simp [List.getElem?_eq_getElem (show k < ln.length by omega)]
    | 1 => simp [List.getElem?_eq_getElem (show k + 1 < ln.length by omega)]
    | i + 2 => simp
  rw [h1]; simp [natOfBytes]

theorem slice_succ (l : List Byte) (k n : Nat) (h : k < l.length) :
    slice l k (n+1) = l.getD k 0xFF :: slice l (k+1) n := by
  unfold slice
  rw [List.drop_eq_getElem_cons h, List.take_succ_cons]
  simp [List.getD_eq_getElem?_getD, List.getElem?_eq_getElem h]

theorem slice_zero (l : List Byte) (k : Nat) : slice l k 0 = [] := by simp [slice]

theorem half_iff (a b : Byte) (h : Half) : [a, b] = halfBytes h ↔ a.toNat * 256 + b.toNat = h.toNat := by
  simp only [halfBytes, List.cons.injEq, and_true]
  constructor
  · rintro ⟨rfl, rfl⟩
    simp [BitVec.extractLsb'_toNat, Nat.shiftRight_eq_div_pow]
    omega
  · intro e
    have ha := a.isLt; have hb := b.isLt
    constructor <;> apply BitVec.eq_of_toNat_eq <;> simp [BitVec.extractLsb'_toNat,
        Nat.shiftRight_eq_div_pow] <;> omega

theorem stampPages_iff (spare : List Byte) (n : Nat) (pages : List PageId) :
    stampPages spare n = some pages ↔ pages.length = n ∧ ∀ i q, pages[i]? = some q → stampPage spare i = q.val := by
  unfold stampPages
  induction n generalizing pages with
  | zero =>
    simp only [List.range_zero, List.mapM_nil]
    constructor
    · intro h; cases h; simp
    · rintro ⟨h, -⟩; rw [List.length_eq_zero_iff.1 h]; rfl
  | succ n ih =>
    rw [List.range_succ, List.mapM_append]
    simp only [List.mapM_cons, List.mapM_nil, Option.pure_def, Option.bind_eq_bind]
    constructor
    · intro h
      rw [Option.bind_eq_some_iff] at h
      obtain ⟨l, hl, h⟩ := h
      rw [Option.bind_eq_some_iff] at h
      obtain ⟨l', hl', h⟩ := h
      obtain ⟨e1, e2⟩ := (ih l).1 hl
      rw [Option.bind_eq_some_iff] at hl'
      obtain ⟨x, hx, hl'⟩ := hl'
      simp at hl' h
      subst hl' h
      split at hx
      · next lt =>
        cases hx
        refine ⟨by simp [e1], fun i q hi => ?_⟩
        by_cases c : i < n
        · rw [List.getElem?_append_left (by omega)] at hi
          exact e2 i q hi
        · rw [List.getElem?_append_right (by omega)] at hi
          have : i = n := by
            by_contra ne
            rw [List.getElem?_eq_none (by simp; omega)] at hi; cases hi
          subst this
          rw [e1] at hi; simp at hi; rw [← hi]
      · cases hx
    · rintro ⟨h1, h2⟩
      obtain ⟨l, q, rfl⟩ : ∃ l q, pages = l ++ [q] := by
        rcases List.eq_nil_or_concat pages with h | ⟨l, q, h⟩
        · subst h; simp at h1
        · exact ⟨l, q, by simpa using h⟩
      have hl : l.length = n := by simpa using h1
      have := (ih l).2 ⟨hl, fun i q' hi => h2 i q' (by rw [List.getElem?_append_left
          (by rw [List.getElem?_eq_some_iff] at hi; exact hi.1)]; exact hi)⟩
      rw [this]
      have hq := h2 n q (by rw [← hl]; simp)
      have lt : stampPage spare n < 464 := by rw [hq]; exact q.isLt
      simp [lt, hq]

theorem slice_all (spare : List Byte) (hlen : spare.length = 64) (k n : Nat) (h : k + n ≤ 64) :
    allErased (slice spare k n) = true ↔ ∀ j, k ≤ j → j < k + n → spare.getD j 0xFF = 0xFF := by
  induction n generalizing k with
  | zero => simp [slice_zero, allErased]; intro j h1 h2; omega
  | succ n ih =>
    rw [slice_succ _ _ _ (by omega)]
    simp only [allErased, List.all_cons, Bool.and_eq_true, beq_iff_eq]
    have := ih (k+1) (by omega)
    unfold allErased at this
    rw [this]
    constructor
    · rintro ⟨h1, h2⟩ j h3 h4
      by_cases e : j = k
      · subst e; exact h1
      · exact h2 j (by omega) (by omega)
    · intro h1
      exact ⟨h1 k (by omega) (by omega), fun j h3 h4 => h1 j (by omega) (by omega)⟩

theorem clean_iff (spare : List Byte) (hlen : spare.length = 64) : (slotErased spare && discardErased spare) = true ↔
    ∀ k, 8 ≤ k → k < 36 → spare.getD k 0xFF = 0xFF := by
  rw [Bool.and_eq_true]
  unfold slotErased discardErased
  rw [slice_all _ hlen _ _ (by omega), slice_all _ hlen _ _ (by omega)]
  constructor
  · rintro ⟨h1, h2⟩ k h3 h4
    by_cases c : k < 32
    · exact h1 k h3 (by omega)
    · exact h2 k (by omega) (by omega)
  · intro h; exact ⟨fun j h1 h2 => h j (by omega) (by omega), fun j h1 h2 => h j (by omega) (by omega)⟩

theorem halfOfBytes_split (h : Half) : halfOfBytes (h.extractLsb' 8 8) (h.extractLsb' 0 8) = h := by
  unfold halfOfBytes
  apply BitVec.eq_of_getLsbD_eq
  intro i hi
  rw [BitVec.getLsbD_append]
  by_cases c : i < 8
  · simp [c]
  · have : 8 + (i - 8) = i := by omega
    simp [c, this]; intro; omega

theorem halvesOfBytes_flatMap (l : List Half) (more : List Byte) :
    halvesOfBytes ((l.flatMap halfBytes ++ more).take (2 * l.length)) = l := by
  induction l with
  | nil => simp [halvesOfBytes]
  | cons h l ih =>
    have : (h :: l).flatMap halfBytes ++ more = h.extractLsb' 8 8 :: h.extractLsb' 0 8 ::
        (l.flatMap halfBytes ++ more) := by simp [halfBytes]
    rw [this, show 2 * (h :: l).length = 2 * l.length + 1 + 1 by simp; omega, List.take_succ_cons,
        List.take_succ_cons, halvesOfBytes, ih, halfOfBytes_split]

theorem length_halves (l : List Half) : (l.flatMap halfBytes).length = 2 * l.length := by
  induction l with
  | nil => rfl
  | cons h l ih => simp [halfBytes, ih]; omega

end Sys2Proof.Laws
end

