-- ==== Sys2Proof/Laws/Stamps.lean ====
section
/-! SUPPORT. What an operation leaves in the array, byte by byte: programs turn erased bytes only (R1), and a stamp that reads valid is
whole (R91, R92, R109). -/

namespace Sys2Proof.Laws

open Sys2Proof Sys2Proof.Machine

/-! ### A stamp is judged by its own bytes -/

theorem length_spare (m : Memory) (b : BlockId) : (m.spare b).length = 64 := by simp [Memory.spare, Memory.readBytes]

theorem getD_spare (m : Memory) (b : BlockId) (j : Nat) (h : j < 64) : (m.spare b).getD j 0xFF = m.read (spareAddr b j) := by
  simp [Memory.spare, Memory.readBytes, List.getD_eq_getElem?_getD, h, spareAddr]

theorem slice_congr (l l' : List Byte) (hl : l.length = 64) (hl' : l'.length = 64) (k n : Nat) (h : k + n ≤ 64)
    (e : ∀ j, k ≤ j → j < k + n → l.getD j 0xFF = l'.getD j 0xFF) : slice l k n = slice l' k n := by
  induction n generalizing k with
  | zero => simp [slice_zero]
  | succ n ih =>
    rw [slice_succ _ _ _ (by omega), slice_succ _ _ _ (by omega), e k (by omega) (by omega),
      ih (k + 1) (by omega) fun j h1 h2 => e j (by omega) (by omega)]

/-- The data stamp is a matter of bytes 8 to 25 (R6, R184). -/
theorem dataStamp_congr (l l' : List Byte) (hl : l.length = 64) (hl' : l'.length = 64)
    (e : ∀ j, 8 ≤ j → j < 26 → l.getD j 0xFF = l'.getD j 0xFF) : dataStamp l = dataStamp l' := by
  have sl : ∀ k n, 8 ≤ k → k + n ≤ 26 → slice l k n = slice l' k n := fun k n h1 h2 =>
    slice_congr l l' hl hl' k n (by omega) fun j h3 h4 => e j (by omega) (by omega)
  have bt : ∀ k, 8 ≤ k → k < 26 → byteAt l k = byteAt l' k := fun k h1 h2 => e k h1 h2
  have pg : ∀ i, i < 4 → stampPage l i = stampPage l' i := fun i hi => by
    unfold stampPage; rw [sl _ _ (by omega) (by omega)]
  have lt : (byteAt l' 9).toNat ≤ 4 → stampPages l (byteAt l' 9).toNat = stampPages l' (byteAt l' 9).toNat := by
    intro hn
    have key : ∀ n, n ≤ 4 → stampPages l n = stampPages l' n := by
      intro n hn
      have : ∀ pages, stampPages l n = some pages ↔ stampPages l' n = some pages := by
        intro pages
        rw [stampPages_iff, stampPages_iff]
        constructor
        · rintro ⟨h1, h2⟩
          refine ⟨h1, fun i q hi => ?_⟩
          have : i < n := by rw [← h1]; rw [List.getElem?_eq_some_iff] at hi; exact hi.1
          rw [← pg i (by omega)]; exact h2 i q hi
        · rintro ⟨h1, h2⟩
          refine ⟨h1, fun i q hi => ?_⟩
          have : i < n := by rw [← h1]; rw [List.getElem?_eq_some_iff] at hi; exact hi.1
          rw [pg i (by omega)]; exact h2 i q hi
      exact Option.ext this
    exact key _ hn
  have q4 : (∀ i ∈ List.range 4, (byteAt l' 9).toNat ≤ i → stampPage l i = 0xFFFF) ↔
      ∀ i ∈ List.range 4, (byteAt l' 9).toNat ≤ i → stampPage l' i = 0xFFFF := by
    constructor <;> intro h i hi hn
    · rw [← pg i (by simpa using hi)]; exact h i hi hn
    · rw [pg i (by simpa using hi)]; exact h i hi hn
  unfold dataStamp
  simp only [bt 8 (by omega) (by omega), bt 9 (by omega) (by omega), bt 10 (by omega) (by omega),
    bt 23 (by omega) (by omega), sl 24 2 (by omega) (by omega), sl 8 16 (by omega) (by omega),
    sl 19 4 (by omega) (by omega), q4]
  split
  · next h => rw [lt h.2.2.2.1]
  · rfl

/-- The free stamp is a matter of bytes 0 to 5 (R4, R184). -/
theorem freeStampCount_congr (l l' : List Byte) (hl : l.length = 64) (hl' : l'.length = 64)
    (e : ∀ j, j < 6 → l.getD j 0xFF = l'.getD j 0xFF) : freeStampCount l = freeStampCount l' := by
  have sl : ∀ k n, k + n ≤ 6 → slice l k n = slice l' k n := fun k n h2 =>
    slice_congr l l' hl hl' k n (by omega) fun j h3 h4 => e j (by omega)
  have b0 : byteAt l 0 = byteAt l' 0 := e 0 (by omega)
  unfold freeStampCount
  rw [b0, sl 4 2 (by omega), sl 0 4 (by omega), sl 1 3 (by omega)]

theorem dataStamp_read_congr (m m' : Memory) (b : BlockId)
    (e : ∀ j, 8 ≤ j → j < 26 → m.read (spareAddr b j) = m'.read (spareAddr b j)) :
    dataStamp (m.spare b) = dataStamp (m'.spare b) :=
  dataStamp_congr _ _ (length_spare _ _) (length_spare _ _) fun j h1 h2 => by
    rw [getD_spare _ _ _ (by omega), getD_spare _ _ _ (by omega)]; exact e j h1 h2

theorem freeStamp_read_congr (m m' : Memory) (b : BlockId)
    (e : ∀ j, j < 6 → m.read (spareAddr b j) = m'.read (spareAddr b j)) :
    freeStampCount (m.spare b) = freeStampCount (m'.spare b) :=
  freeStampCount_congr _ _ (length_spare _ _) (length_spare _ _) fun j h => by
    rw [getD_spare _ _ _ (by omega), getD_spare _ _ _ (by omega)]; exact e j h

theorem readBytes_congr (m m' : Memory) (a n : Nat) (e : ∀ k, k < n → m.read (a + k) = m'.read (a + k)) :
    m.readBytes a n = m'.readBytes a n := by
  unfold Memory.readBytes
  exact List.map_congr_left fun k hk => e k (by simpa using hk)

theorem readBytes_eq_iff (m m' : Memory) (a n : Nat) :
    m.readBytes a n = m'.readBytes a n ↔ ∀ k, k < n → m.read (a + k) = m'.read (a + k) := by
  refine ⟨fun h k hk => ?_, readBytes_congr m m' a n⟩
  have := congrArg (fun l => l[k]?) h
  simpa [Memory.readBytes, hk] using this

/-! ### Whole stamps -/

theorem read_writeOld (old m : Memory) (x n a : Nat) :
    (m.writeBytes x (old.readBytes x n)).read a = if x ≤ a ∧ a < x + n then old.read a else m.read a := by
  rw [read_writeBytes]
  by_cases h : x ≤ a ∧ a < x + n
  · have h' : x ≤ a ∧ a - x < (old.readBytes x n).length := by simp [Memory.readBytes]; omega
    rw [dif_pos h', if_pos h]
    simp [Memory.readBytes, Nat.add_sub_cancel' h.1]
  · have h' : ¬ (x ≤ a ∧ a - x < (old.readBytes x n).length) := by simp [Memory.readBytes]; omega
    rw [dif_neg h', if_neg h]

/-- The data stamp that `m` leaves on a block reads valid without being the one programmed. -/
def StrayData (m : Memory) (b : BlockId) (l : List Byte) : Prop :=
  (dataStamp (m.spare b)).isSome = true ∧ m.readBytes (spareAddr b 8) 18 ≠ l

/-- The free stamp that `m` leaves on a block reads valid without being the one programmed. -/
def StrayFree (m : Memory) (b : BlockId) (l : List Byte) : Prop :=
  (freeStampCount (m.spare b)).isSome = true ∧ m.readBytes (spareAddr b 0) 6 ≠ l

open Classical in
theorem read_wholeDataStamp (old m : Memory) (b : BlockId) (l : List Byte) (a : Nat) :
    (old.wholeDataStamp m b l).read a =
      if StrayData m b l ∧ spareAddr b 8 ≤ a ∧ a < spareAddr b 26 then old.read a else m.read a := by
  unfold Memory.wholeDataStamp StrayData
  have e : spareAddr b 26 = spareAddr b 8 + 18 := rfl
  split
  · next h => rw [read_writeOld, e]; simp only [h, true_and, ne_eq, not_false_eq_true]
  · next h => rw [if_neg fun k => h k.1]

open Classical in
theorem read_wholeFreeStamp (old m : Memory) (b : BlockId) (l : List Byte) (a : Nat) :
    (old.wholeFreeStamp m b l).read a =
      if StrayFree m b l ∧ spareAddr b 0 ≤ a ∧ a < spareAddr b 6 then old.read a else m.read a := by
  unfold Memory.wholeFreeStamp StrayFree
  have e : spareAddr b 6 = spareAddr b 0 + 6 := rfl
  split
  · next h => rw [read_writeOld, e]; simp only [h, true_and, ne_eq, not_false_eq_true]
  · next h => rw [if_neg fun k => h k.1]

/-- The data stamp that `m` leaves on a block reads valid, and the block was voided or retired. -/
def StrayDiscarded (old m : Memory) (b : BlockId) : Prop :=
  (dataStamp (m.spare b)).isSome = true ∧ (old.read (spareAddr b 32) ≠ 0xFF ∨ old.read (spareAddr b 33) ≠ 0xFF)

open Classical in
theorem read_keptDiscard (old m : Memory) (b : BlockId) (a : Nat) :
    (old.keptDiscard m b).read a =
      if StrayDiscarded old m b ∧ spareAddr b 32 ≤ a ∧ a < spareAddr b 36 then old.read a else m.read a := by
  have marks : (retireProgrammed (old.spare b) || voidProgrammed (old.spare b)) = true ↔
      (old.read (spareAddr b 32) ≠ 0xFF ∨ old.read (spareAddr b 33) ≠ 0xFF) := by
    have b33 : byteAt (old.spare b) 33 = old.read (spareAddr b 33) := getD_spare old b 33 (by omega)
    have b32 : byteAt (old.spare b) 32 = old.read (spareAddr b 32) := getD_spare old b 32 (by omega)
    unfold retireProgrammed voidProgrammed programmed
    rw [b33, b32, Bool.or_eq_true, bne_iff_ne, bne_iff_ne]
    exact or_comm
  unfold Memory.keptDiscard StrayDiscarded
  have e : spareAddr b 36 = spareAddr b 32 + 4 := rfl
  simp only [marks]
  split
  · next h => rw [read_writeOld, e]; simp only [h, true_and, and_self]
  · next h => rw [if_neg fun k => h k.1]

theorem strayData_congr (m m' : Memory) (b : BlockId) (l : List Byte)
    (e : ∀ j, 8 ≤ j → j < 26 → m.read (spareAddr b j) = m'.read (spareAddr b j)) : StrayData m b l ↔ StrayData m' b l := by
  unfold StrayData
  rw [dataStamp_read_congr m m' b e, readBytes_congr m m' _ 18 fun k hk => by
    have := e (8 + k) (by omega) (by omega)
    simpa [spareAddr, Nat.add_assoc] using this]

theorem strayFree_congr (m m' : Memory) (b : BlockId) (l : List Byte)
    (e : ∀ j, j < 6 → m.read (spareAddr b j) = m'.read (spareAddr b j)) : StrayFree m b l ↔ StrayFree m' b l := by
  unfold StrayFree
  rw [freeStamp_read_congr m m' b e, readBytes_congr m m' _ 6 fun k hk => by
    have := e k hk
    simpa [spareAddr] using this]

open Classical in
/-- What an operation left, byte by byte: the bytes of `m`, but the fields of stray stamps, and a discard word that is kept, as they
were. -/
theorem read_settle (s : State) (op : FlashOp) (m : Memory) (a : Nat) :
    (s.settle op m).read a =
      if (s.StrayDataStamp op m ∧ spareAddr op.block 8 ≤ a ∧ a < spareAddr op.block 26)
          ∨ (s.StrayFreeStamp op m ∧ spareAddr op.block 0 ≤ a ∧ a < spareAddr op.block 6)
          ∨ (s.StrayDiscard op m ∧ spareAddr op.block 32 ≤ a ∧ a < spareAddr op.block 36)
      then s.flash.read a else m.read a := by
  have nd : ∀ (h : op ≠ .dataStamp op.block) (h' : op ≠ .erase op.block), ¬ s.StrayDataStamp op m := fun h h' k =>
    k.1.elim h h'
  have nf : ∀ (h : op ≠ .freeStamp op.block) (h' : op ≠ .erase op.block), ¬ s.StrayFreeStamp op m := fun h h' k =>
    k.1.elim h h'
  have nk : op ≠ .erase op.block → ¬ s.StrayDiscard op m := fun h k => h k.1
  cases op with
  | dataStamp b =>
    show (s.flash.wholeDataStamp m b _).read a = _
    rw [read_wholeDataStamp]
    have e1 : s.StrayDataStamp (.dataStamp b) m ↔ StrayData m b (s.intendedBytes (.dataStamp b)) :=
      ⟨fun k => k.2, fun k => ⟨.inl rfl, k⟩⟩
    have e2 := nf (by simp) (by simp [FlashOp.block])
    have e3 := nk (by simp [FlashOp.block])
    simp only [e1, e2, e3, false_and, or_false]
    rfl
  | freeStamp b =>
    show (s.flash.wholeFreeStamp m b _).read a = _
    rw [read_wholeFreeStamp]
    have e1 : s.StrayFreeStamp (.freeStamp b) m ↔ StrayFree m b (s.intendedBytes (.freeStamp b)) :=
      ⟨fun k => k.2, fun k => ⟨.inl rfl, k⟩⟩
    have e2 := nd (by simp) (by simp [FlashOp.block])
    have e3 := nk (by simp [FlashOp.block])
    simp only [e1, e2, e3, false_and, false_or, or_false]
    rfl
  | erase b =>
    show (s.flash.wholeDataStamp (s.flash.wholeFreeStamp (s.flash.keptDiscard m b) b []) b []).read a = _
    have kept : ∀ j, j < 32 → (s.flash.keptDiscard m b).read (spareAddr b j) = m.read (spareAddr b j) := by
      intro j h
      rw [read_keptDiscard, if_neg]
      simp only [spareAddr]; omega
    have out : ∀ j, 8 ≤ j → j < 26 →
        (s.flash.wholeFreeStamp (s.flash.keptDiscard m b) b []).read (spareAddr b j) = m.read (spareAddr b j) := by
      intro j h1 h2
      rw [read_wholeFreeStamp, if_neg, kept j (by omega)]
      simp only [spareAddr]; omega
    rw [read_wholeDataStamp, strayData_congr _ m b [] out, read_wholeFreeStamp,
      strayFree_congr _ m b [] (fun j h => kept j (by omega)), read_keptDiscard]
    have e1 : s.StrayDataStamp (.erase b) m ↔ StrayData m b [] := ⟨fun k => k.2, fun k => ⟨.inr rfl, k⟩⟩
    have e2 : s.StrayFreeStamp (.erase b) m ↔ StrayFree m b [] := ⟨fun k => k.2, fun k => ⟨.inr rfl, k⟩⟩
    have e3 : s.StrayDiscard (.erase b) m ↔ StrayDiscarded s.flash m b := ⟨fun k => k.2, fun k => ⟨rfl, k⟩⟩
    simp only [FlashOp.block, e1, e2, e3]
    by_cases k1 : StrayData m b [] ∧ spareAddr b 8 ≤ a ∧ a < spareAddr b 26
    · simp [k1]
    · by_cases k2 : StrayFree m b [] ∧ spareAddr b 0 ≤ a ∧ a < spareAddr b 6
      · simp [k2]
      · by_cases k3 : StrayDiscarded s.flash m b ∧ spareAddr b 32 ≤ a ∧ a < spareAddr b 36
        · simp [k3]
        · simp [k1, k2, k3]
  | begunMark b | line b k | void b | retire b =>
    rw [if_neg]
    · rfl
    · have e1 := nd (by simp) (by simp [FlashOp.block])
      have e2 := nf (by simp) (by simp [FlashOp.block])
      have e3 := nk (by simp [FlashOp.block])
      tauto

/-- Where both arrays read as before, the settled array does. -/
theorem read_settle_same (s : State) (op : FlashOp) (m : Memory) (a : Nat) (h : m.read a = s.flash.read a) :
    (s.settle op m).read a = s.flash.read a := by
  classical
  rw [read_settle]; split
  · rfl
  · exact h

theorem settle_outside (s : State) (op : FlashOp) (m : Memory) (h : s.flash.SameOutside m op.start op.size) :
    s.flash.SameOutside (s.settle op m) op.start op.size := fun a ha => read_settle_same s op m a (h a ha)

/-! ### What is left is within the operation, and its stamps are whole -/

theorem read_overlay_outside (m : Memory) (as : List Nat) (vs : List Byte) (a : Nat)
    (h : a ∉ as) : (m.overlay as vs).read a = m.read a := by
  induction as generalizing m vs with
  | nil => rfl
  | cons x xs ih =>
    cases vs with
    | nil => rfl
    | cons v vs =>
      simp only [List.mem_cons, not_or] at h
      rw [Memory.overlay, ih _ _ h.2, read_write, if_neg h.1]

theorem size_flashField (s : State) (op : FlashOp) (bs : List Byte) (a : Nat) (h : a < op.start ∨ op.start + op.size ≤ a) :
    a < op.start ∨ op.start + (bs.take op.size).length ≤ a := by
  rcases h with h | h
  · exact .inl h
  · right; simp; omega

theorem cutOp_outside (s : State) (op : FlashOp) (c : Cut) : s.flash.SameOutside (s.flash.cutOp op c) op.start op.size := by
  intro a ha
  have prog : (s.flash.programBytes op.start (c.left.take op.size)).read a = s.flash.read a :=
    read_programBytes_outside _ _ _ _ (size_flashField s op c.left a ha)
  cases op with
  | erase b =>
    simp only [FlashOp.start, FlashOp.size, dataAddr, Config.blockBytes] at ha
    simp only [Memory.cutOp]
    split
    · rw [read_overlay_outside, read_eraseRange, read_eraseRange, if_neg, if_neg]
      · simp only [dataAddr, Config.blockBytes]; omega
      · simp only [spareAddr, Config.blockBytes, Config.pageBytes]; omega
      · simp only [List.mem_append, List.mem_map, List.mem_range, spareAddr, Config.blockBytes, Config.pageBytes,
          not_or, not_exists]
        refine ⟨⟨fun x => ?_, fun x => ?_⟩, fun x => ?_⟩ <;> omega
    · rw [read_overlay_outside]
      simp only [List.mem_append, List.mem_map, List.mem_range, spareAddr, dataAddr, Config.blockBytes,
          Config.pageBytes, not_or, not_exists]
      refine ⟨⟨fun x => ?_, fun x => ?_⟩, fun x => ?_⟩ <;> omega
  | _ => exact prog

/-- Away from the operation the settled array reads as before; a data stamp that reads valid is the one that stood there or the
one programmed. -/
theorem settle_dataStamp (s : State) (op : FlashOp) (m : Memory) (b : BlockId)
    (out : s.flash.SameOutside m op.start op.size) (line : ∀ k, op = .line op.block k → k < 16)
    (valid : (dataStamp ((s.settle op m).spare b)).isSome = true) :
    (s.settle op m).readBytes (spareAddr b 8) 18 = s.flash.readBytes (spareAddr b 8) 18
      ∨ op = .dataStamp b ∧ (s.settle op m).readBytes (spareAddr b 8) 18 = s.intendedBytes op := by
  classical
  have same : (∀ j, 8 ≤ j → j < 26 → spareAddr b j < op.start ∨ op.start + op.size ≤ spareAddr b j) →
      (s.settle op m).readBytes (spareAddr b 8) 18 = s.flash.readBytes (spareAddr b 8) 18 := fun h =>
    readBytes_congr _ _ _ _ fun k hk => settle_outside s op m out _ (by
      have := h (8 + k) (by omega) (by omega); simp only [spareAddr] at this ⊢; omega)
  by_cases key : op = .dataStamp b ∨ op = .erase b
  · have hb : op.block = b := by rcases key with rfl | rfl <;> rfl
    by_cases st : s.StrayDataStamp op m
    · left
      refine readBytes_congr _ _ _ _ fun k hk => ?_
      have at' : spareAddr op.block 8 ≤ spareAddr b 8 + k ∧ spareAddr b 8 + k < spareAddr op.block 26 := by
        rw [hb]; simp only [spareAddr]; omega
      rw [read_settle, if_pos (.inl ⟨st, at'⟩)]
    · have raw : ∀ j, 8 ≤ j → j < 26 → (s.settle op m).read (spareAddr b j) = m.read (spareAddr b j) := by
        intro j h1 h2
        rw [read_settle, if_neg]
        rintro (h | h | h)
        · exact st h.1
        · rw [hb] at h; simp only [spareAddr] at h; omega
        · rw [hb] at h; simp only [spareAddr] at h; omega
      rw [dataStamp_read_congr _ m b raw] at valid
      have e : (s.settle op m).readBytes (spareAddr b 8) 18 = m.readBytes (spareAddr b 8) 18 :=
        readBytes_congr _ _ _ _ fun k hk => by
          have := raw (8 + k) (by omega) (by omega); simpa [spareAddr, Nat.add_assoc] using this
      have eq : m.readBytes (spareAddr b 8) 18 = s.intendedBytes op := by
        by_contra ne
        exact st ⟨by rw [hb]; exact key, by rw [hb]; exact valid, by rw [hb]; exact ne⟩
      rcases key with k | k
      · exact .inr ⟨k, e.trans eq⟩
      · rw [k] at eq
        have := congrArg List.length eq
        simp [Memory.readBytes, State.intendedBytes] at this
  · left
    refine same fun j h1 h2 => ?_
    have lt := b.isLt
    cases op with
    | dataStamp c =>
      have ne : c ≠ b := fun e => key (.inl (by rw [e]))
      have ne' : c.val ≠ b.val := fun e => ne (Fin.ext e)
      simp only [FlashOp.start, FlashOp.size, spareAddr, Config.blockBytes, Config.pageBytes]; omega
    | erase c =>
      have ne : c ≠ b := fun e => key (.inr (by rw [e]))
      have ne' : c.val ≠ b.val := fun e => ne (Fin.ext e)
      simp only [FlashOp.start, FlashOp.size, spareAddr, dataAddr, Config.blockBytes, Config.pageBytes]; omega
    | line c k =>
      have := line k rfl
      simp only [FlashOp.start, FlashOp.size, spareAddr, dataAddr, Config.blockBytes, Config.pageBytes, Config.lineBytes]
      rcases lt_trichotomy c.val b.val with g | g | g <;> omega
    | _ => simp only [FlashOp.start, FlashOp.size, spareAddr, Config.blockBytes, Config.pageBytes]; omega

/-- The same of a free stamp. -/
theorem settle_freeStamp (s : State) (op : FlashOp) (m : Memory) (b : BlockId)
    (out : s.flash.SameOutside m op.start op.size) (line : ∀ k, op = .line op.block k → k < 16)
    (valid : (freeStampCount ((s.settle op m).spare b)).isSome = true) :
    (s.settle op m).readBytes (spareAddr b 0) 6 = s.flash.readBytes (spareAddr b 0) 6
      ∨ op = .freeStamp b ∧ (s.settle op m).readBytes (spareAddr b 0) 6 = s.intendedBytes op := by
  classical
  have same : (∀ j, j < 6 → spareAddr b j < op.start ∨ op.start + op.size ≤ spareAddr b j) →
      (s.settle op m).readBytes (spareAddr b 0) 6 = s.flash.readBytes (spareAddr b 0) 6 := fun h =>
    readBytes_congr _ _ _ _ fun k hk => settle_outside s op m out _ (by
      have := h k hk; simp only [spareAddr] at this ⊢; omega)
  by_cases key : op = .freeStamp b ∨ op = .erase b
  · have hb : op.block = b := by rcases key with rfl | rfl <;> rfl
    by_cases st : s.StrayFreeStamp op m
    · left
      refine readBytes_congr _ _ _ _ fun k hk => ?_
      have at' : spareAddr op.block 0 ≤ spareAddr b 0 + k ∧ spareAddr b 0 + k < spareAddr op.block 6 := by
        rw [hb]; simp only [spareAddr]; omega
      rw [read_settle, if_pos (.inr (.inl ⟨st, at'⟩))]
    · have raw : ∀ j, j < 6 → (s.settle op m).read (spareAddr b j) = m.read (spareAddr b j) := by
        intro j h2
        rw [read_settle, if_neg]
        rintro (h | h | h)
        · rw [hb] at h; simp only [spareAddr] at h; omega
        · exact st h.1
        · rw [hb] at h; simp only [spareAddr] at h; omega
      rw [freeStamp_read_congr _ m b raw] at valid
      have e : (s.settle op m).readBytes (spareAddr b 0) 6 = m.readBytes (spareAddr b 0) 6 :=
        readBytes_congr _ _ _ _ fun k hk => by
          have := raw k hk; simpa [spareAddr] using this
      have eq : m.readBytes (spareAddr b 0) 6 = s.intendedBytes op := by
        by_contra ne
        exact st ⟨by rw [hb]; exact key, by rw [hb]; exact valid, by rw [hb]; exact ne⟩
      rcases key with k | k
      · exact .inr ⟨k, e.trans eq⟩
      · rw [k] at eq
        have := congrArg List.length eq
        simp [Memory.readBytes, State.intendedBytes] at this
  · left
    refine same fun j h2 => ?_
    have lt := b.isLt
    cases op with
    | freeStamp c =>
      have ne : c ≠ b := fun e => key (.inl (by rw [e]))
      have ne' : c.val ≠ b.val := fun e => ne (Fin.ext e)
      simp only [FlashOp.start, FlashOp.size, spareAddr, Config.blockBytes, Config.pageBytes]; omega
    | erase c =>
      have ne : c ≠ b := fun e => key (.inr (by rw [e]))
      have ne' : c.val ≠ b.val := fun e => ne (Fin.ext e)
      simp only [FlashOp.start, FlashOp.size, spareAddr, dataAddr, Config.blockBytes, Config.pageBytes]; omega
    | line c k =>
      have := line k rfl
      simp only [FlashOp.start, FlashOp.size, spareAddr, dataAddr, Config.blockBytes, Config.pageBytes, Config.lineBytes]
      rcases lt_trichotomy c.val b.val with g | g | g <;> omega
    | _ => simp only [FlashOp.start, FlashOp.size, spareAddr, Config.blockBytes, Config.pageBytes]; omega

/-- A block whose data stamp reads valid after an operation, and whose discard bytes 0 and 1 read erased, had them erased before:
a program turns no programmed byte (R1), and an erase keeps the discard word of such a block (R3, R92). -/
theorem settle_discard (s : State) (op : FlashOp) (m : Memory) (b : BlockId) (out : s.flash.SameOutside m op.start op.size)
    (prog : (∀ c, op ≠ .erase c) → ∀ a, s.flash.read a ≠ 0xFF → m.read a = s.flash.read a)
    (valid : (dataStamp ((s.settle op m).spare b)).isSome = true) (h32 : (s.settle op m).read (spareAddr b 32) = 0xFF)
    (h33 : (s.settle op m).read (spareAddr b 33) = 0xFF) :
    s.flash.read (spareAddr b 32) = 0xFF ∧ s.flash.read (spareAddr b 33) = 0xFF := by
  classical
  by_cases key : op = .erase b
  · subst key
    by_contra marked
    have was : s.flash.read (spareAddr b 32) ≠ 0xFF ∨ s.flash.read (spareAddr b 33) ≠ 0xFF :=
      (not_and_or.1 marked)
    by_cases k : (dataStamp (m.spare b)).isSome = true
    · have kept : ∀ j, j = 32 ∨ j = 33 → (s.settle (.erase b) m).read (spareAddr b j) = s.flash.read (spareAddr b j) := by
        intro j hj
        rw [read_settle, if_pos]
        refine .inr (.inr ⟨⟨rfl, k, was⟩, ?_⟩)
        simp only [FlashOp.block, spareAddr]; omega
      rw [kept 32 (.inl rfl)] at h32
      rw [kept 33 (.inr rfl)] at h33
      exact marked ⟨h32, h33⟩
    · have raw : ∀ j, 8 ≤ j → j < 26 → (s.settle (.erase b) m).read (spareAddr b j) = m.read (spareAddr b j) := by
        intro j h1 h2
        rw [read_settle, if_neg]
        rintro (h | h | h)
        · exact k h.1.2.1
        · simp only [FlashOp.block, spareAddr] at h; omega
        · exact k h.1.2.1
      rw [dataStamp_read_congr _ m b raw] at valid
      exact k valid
  · have same : ∀ j, j < 64 → (s.settle op m).read (spareAddr b j) = 0xFF → s.flash.read (spareAddr b j) = 0xFF := by
      intro j hj e
      by_contra ne
      by_cases er : ∃ c, op = .erase c
      · obtain ⟨c, rfl⟩ := er
        have hc : c ≠ b := fun e => key (by rw [e])
        have hc' : c.val ≠ b.val := fun e => hc (Fin.ext e)
        rw [settle_outside s _ m out] at e
        · exact ne e
        · have := b.isLt
          simp only [FlashOp.start, FlashOp.size, spareAddr, dataAddr, Config.blockBytes, Config.pageBytes]
          rcases lt_trichotomy c.val b.val with g | g | g <;> omega
      · rw [read_settle_same s op m _ (prog (fun c k => er ⟨c, k⟩) _ ne)] at e
        exact ne e
    exact ⟨same 32 (by omega) h32, same 33 (by omega) h33⟩

end Sys2Proof.Laws
end

