-- ==== Sys2Proof/Laws/Choice.lean ====
section
/-! SUPPORT. The choice of work, and the completions and failures of flash operations. -/

namespace Sys2Proof.Laws

open Sys2Proof Sys2Proof.Machine

theorem choose_due {s : State} (h : s.Due .choiceOfWork) (hn : s.eng.start = none) : exec .choiceOfWork s = .next s.choose :=
    by
  obtain ⟨h1, h2, h3⟩ := h
  have h2 : s.mount.condition = .ready := h2
  simp [exec, execChoiceOfWork, State.choiceEvent, h1, h2, h3, hn]

theorem takeStart_due {s : State} {h : StartHandoff} (hd : s.Due .choiceOfWork) (hs : s.eng.start = some h) :
    exec .choiceOfWork s = .next (s.takeStart h) := by
  obtain ⟨h1, h2, h3⟩ := hd
  have h2 : s.mount.condition = .ready := h2
  simp [exec, execChoiceOfWork, State.choiceEvent, h1, h2, h3, hs]

theorem nextQueued_none (e : Engine) (h : ∀ p, e.queueOf p = []) : e.nextQueued = none := by
  simp [Engine.nextQueued, h]

theorem nextQueued_some (e : Engine) (p : PortId) (i : SessionId) (h : e.NextIs p i) : e.nextQueued = some (p, i) :=
    by
  obtain ⟨hh, d, hd, hp, hlt⟩ := h
  obtain ⟨ptr, hptr⟩ : ∃ x, x = e.pointer := ⟨_, rfl⟩
  unfold Engine.nextQueued Engine.lookOrder
  rw [← hptr] at hp hlt ⊢
  have e1 : ∀ k : Nat, k < 4 → ∀ q : PortId, q.val = (ptr.val + 1 + k) % 4 → k < d → e.queueOf q =
      [] := fun k hk q hq lt => hlt k q lt hq
  have key : ∀ q : PortId, (q.val = (ptr.val + 1 + d) % 4) → q = p := fun q hq => Fin.ext (by omega)
  have hpt := ptr.isLt
  have a1 : (ptr + 1).val = (ptr.val + 1 + 0) % 4 := by fin_cases ptr <;> rfl
  have a2 : (ptr + 2).val = (ptr.val + 1 + 1) % 4 := by fin_cases ptr <;> rfl
  have a3 : (ptr + 3).val = (ptr.val + 1 + 2) % 4 := by fin_cases ptr <;> rfl
  have a4 : ptr.val = (ptr.val + 1 + 3) % 4 := by omega
  match d, hd with
  | 0, _ => rw [key _ a1]; simp [hh]
  | 1, _ => rw [key _ a2]; simp [hh, e1 0 (by omega) _ a1]
  | 2, _ => rw [key _ a3]; simp [hh, e1 0 (by omega) _ a1, e1 1 (by omega) _ a2]
  | 3, _ => simp [e1 0 (by omega) _ a1, e1 1 (by omega) _ a2, e1 2 (by omega) _ a3]; rw [key _ a4, hh]; exact ⟨rfl,
      rfl⟩

theorem no_reserve {s : State} (h : ¬ (s.bm.freePool.length < 4 ∧ ∃ b ∈ s.bm.dirtyList, s.bm.pins b = 0)) :
    s.bm.reserveErase = none := by
  unfold BlockManager.reserveErase
  split
  · next lt =>
    apply oldestUnpinned_none
    intro x hx hp
    exact h ⟨lt, x, hx, hp⟩
  · rfl

theorem withdraw_without (e : Engine) (i : SessionId) : e.Without (e.withdraw i) i :=
  ⟨rfl, fun q => by simp [Engine.queueOf, Engine.withdraw, Engine.dequeue], rfl⟩

theorem getD_take (bs : List Byte) (n k : Nat) (h : k < n) (d : Byte) : (bs.take n).getD k d = bs.getD k d := by
  simp [List.getD_eq_getElem?_getD, h]

theorem read_writeBytes_at (m : Memory) (a : Nat) (vs : List Byte) (k : Nat) : (m.writeBytes a vs).read (a + k) =
    vs.getD k (m.read (a + k)) := by
  rw [read_writeBytes]
  by_cases h : k < vs.length
  · rw [dif_pos ⟨by omega, by omega⟩]; simp [List.getD_eq_getElem?_getD, List.getElem?_eq_getElem h]
  · rw [dif_neg (by omega)]; simp [List.getD_eq_getElem?_getD, List.getElem?_eq_none (by omega : vs.length ≤ k)]

theorem read_programBytes_at (m : Memory) (a : Nat) (vs : List Byte) (k : Nat) : (m.programBytes a vs).read (a + k) =
    if m.read (a + k) = 0xFF then vs.getD k (m.read (a + k)) else m.read (a + k) := by
  rw [read_programBytes]
  by_cases h : k < vs.length
  · by_cases e : m.read (a + k) = 0xFF
    · rw [dif_pos ⟨⟨by omega, by omega⟩, e⟩, if_pos e]; simp [List.getD_eq_getElem?_getD, List.getElem?_eq_getElem h]
    · rw [dif_neg fun x => e x.2, if_neg e]
  · rw [dif_neg (by omega)]; simp [List.getD_eq_getElem?_getD, List.getElem?_eq_none (by omega : vs.length ≤ k)]

/-- The array after an operation, before its stamps are judged. -/
def rawAfter (s : State) (op : FlashOp) (w : Written) : Memory :=
  match op, w with
  | .erase _, .intended => s.flash.eraseRange op.start op.size
  | .erase _, .left bs => s.flash.writeBytes op.start (bs.take op.size)
  | _, .intended => s.flash.programBytes op.start (s.intendedBytes op)
  | _, .left bs => s.flash.programBytes op.start (bs.take op.size)

theorem flashAfter_raw (s : State) (op : FlashOp) (w : Written) : s.flashAfter op w = s.settle op (rawAfter s op w) := by
  unfold State.flashAfter rawAfter; rfl

theorem rawAfter_leaves (s : State) (op : FlashOp) (w : Written) (hlen : (∃ b, op = .erase b)
    ∨ (s.intendedBytes op).length = op.size) : s.Leaves op w (rawAfter s op w) := by
  constructor
  · intro a ha
    cases op with
    | erase b =>
      cases w with
      | intended => show (s.flash.eraseRange _ _).read a = _; rw [read_eraseRange, if_neg (by omega)]
      | left bs => exact read_writeBytes_outside _ _ _ _ (size_flashField s (.erase b) bs a ha)
    | _ =>
      have hl := hlen.resolve_left (by rintro ⟨b, e⟩; cases e)
      cases w with
      | intended => exact read_programBytes_outside _ _ _ _ (by rw [hl]; exact ha)
      | left bs => exact read_programBytes_outside _ _ _ _ (size_flashField s _ bs a ha)
  · intro k hk
    cases op with
    | erase b =>
      cases w with
      | intended => show (s.flash.eraseRange _ _).read _ = _; rw [read_eraseRange, if_pos (by omega)]; rfl
      | left bs =>
        show (s.flash.writeBytes _ _).read _ = _
        rw [read_writeBytes_at, getD_take _ _ _ hk]
    | _ =>
      cases w with
      | intended => exact read_programBytes_at _ _ _ _
      | left bs =>
        show (s.flash.programBytes _ _).read _ = _
        rw [read_programBytes_at, getD_take _ _ _ hk]

theorem settle_keeps (s : State) (op : FlashOp) (m : Memory) (a : Nat) :
    let keeps : Prop :=
      s.StrayDataStamp op m ∧ spareAddr op.block 8 ≤ a ∧ a < spareAddr op.block 26
      ∨ s.StrayFreeStamp op m ∧ spareAddr op.block 0 ≤ a ∧ a < spareAddr op.block 6
      ∨ s.StrayDiscard op m ∧ spareAddr op.block 32 ≤ a ∧ a < spareAddr op.block 36
    (keeps → (s.settle op m).read a = s.flash.read a) ∧ (¬ keeps → (s.settle op m).read a = m.read a) := by
  classical
  rw [read_settle]
  exact ⟨fun k => if_pos k, fun k => if_neg k⟩

theorem writes_ok (s : State) (op : FlashOp) (w : Written) (hlen : (∃ b, op = .erase b)
    ∨ (s.intendedBytes op).length = op.size) : s.Writes op w (s.flashAfter op w) :=
  ⟨rawAfter s op w, rawAfter_leaves s op w hlen, fun a => by rw [flashAfter_raw]; exact settle_keeps s op _ a⟩

theorem allErased_iff (m : Memory) (a n : Nat) : allErased (m.readBytes a n) = true ↔ ∀ k,
    k < n → m.read (a + k) = 0xFF := by
  simp only [allErased, Memory.readBytes, List.all_map, List.all_eq_true, List.mem_range, Function.comp_apply]
  simp; rfl

theorem verified_ok (s : State) (op : FlashOp) (m : Memory) : s.readBackOk op m = true ↔ s.Verified op m := by
  cases op with
  | void b => simp [State.readBackOk, State.Verified, programmed, FlashOp.start, Memory.erased]
  | retire b => simp [State.readBackOk, State.Verified, programmed, FlashOp.start, Memory.erased]
  | erase b => exact allErased_iff _ _ _
  | _ => simp [State.readBackOk, State.Verified]

theorem completes_of_ends (s : State) (c : Instr) (op : FlashOp) (w : Written) (next : Bool → State → State)
    (hop : s.eng.work.inFlight = some op)
    (hc : exec c s = .next (s.completeOp w next))
    (hlen : (∃ b, op = .erase b) ∨ (s.intendedBytes op).length = op.size)
    (hn : ∀ (m : Memory) (ok : Bool) (P : Prop), (ok = true ↔ P) →
        State.OpEnds { s with flash := m } (next ok { s with flash := m }) P) :
    s.Completes c op w := by
  refine ⟨s.flashAfter op w, _, writes_ok s op w hlen, hc, ?_⟩
  unfold State.completeOp
  rw [hop]
  exact hn _ _ _ (verified_ok _ _ _)

theorem opFailed_ends (s : State) (op : FlashOp) (h : s.eng.work.inFlight = some op) : s.OpEnds s.opFailed False := by
  have hP : (false = true) ↔ False := by simp
  unfold State.opFailed
  split
  · next r e => exact begunMarkEnded_ends _ _ _ _ hP e
  · next r k e => exact lineEnded_ends _ _ _ _ _ hP e
  · next r e => exact dataStampEnded_ends _ _ _ _ hP e
  · next u b n e => exact unwindVoidEnded_ends _ _ _ _ _ _ hP e
  · next b e => exact eraseEnded_ends _ _ _ _ hP e
  · next b e => exact freeStampEnded_ends _ _ _ _ hP e
  · next b rest n e => exact mountVoidEnded_ends _ _ _ _ _ _ hP e
  · refine retireEnded_ends _ _ _ hP ?_
    unfold Work.inFlight at h
    unfold Work.retiring
    rcases hw : s.eng.work with _ | ⟨r, st⟩ | ⟨u, st⟩ | ⟨b, st⟩ | ⟨b, rest, st⟩ <;> (try cases st) <;> simp_all

end Sys2Proof.Laws
end

