-- ==== Sys2Proof/Laws/Link.lean ====
section
/-! SUPPORT. Bits and edges of SCK (R163): what a byte's edges do on a port, and which bytes the sampled bits make. -/

namespace Sys2Proof.Laws

open Sys2Proof Sys2Proof.Machine

/-! ### Bits and bytes -/

theorem byteOfBits_byteBits (b : Byte) : byteOfBits (byteBits b) = b := by
  revert b; decide +kernel

theorem arrivedBytes_short (bits : List Bool) (h : bits.length < 8) : arrivedBytes bits = [] := by
  match bits, h with
  | [], _ | [_], _ | [_, _], _ | [_, _, _], _ | [_, _, _, _], _ | [_, _, _, _, _], _ | [_, _, _, _, _, _], _
  | [_, _, _, _, _, _, _], _ => rfl

theorem arrivedBytes_wire (bytes : List Byte) (tail : List Bool) :
    arrivedBytes (wireBits bytes ++ tail) = bytes ++ arrivedBytes tail := by
  induction bytes with
  | nil => rfl
  | cons b bytes ih =>
    show byteOfBits (byteBits b) :: arrivedBytes (wireBits bytes ++ tail) = _
    rw [byteOfBits_byteBits, ih]; rfl

theorem length_wireBits (bytes : List Byte) : (wireBits bytes).length = 8 * bytes.length := by
  induction bytes with
  | nil => rfl
  | cons b bytes ih =>
    show (byteBits b ++ wireBits bytes).length = _
    rw [List.length_append, ih]
    simp [byteBits]; omega

theorem take_wireBits (bytes : List Byte) (n : Nat) :
    ∃ tail, (wireBits bytes).take n = wireBits (bytes.take (n / 8)) ++ tail ∧ tail.length < 8 := by
  induction bytes generalizing n with
  | nil => exact ⟨[], by simp [wireBits], by simp⟩
  | cons b bytes ih =>
    have hl : (byteBits b).length = 8 := rfl
    have e : wireBits (b :: bytes) = byteBits b ++ wireBits bytes := rfl
    by_cases h : n < 8
    · refine ⟨(byteBits b).take n, ?_, by simp [hl]; omega⟩
      rw [e, List.take_append_of_le_length (by omega), show n / 8 = 0 by omega]; rfl
    · obtain ⟨tail, h1, h2⟩ := ih (n - 8)
      refine ⟨tail, ?_, h2⟩
      rw [e, List.take_append, hl, h1, List.take_of_length_le (by omega), show n / 8 = (n - 8) / 8 + 1 by omega,
        List.take_succ_cons]
      show _ = byteBits b ++ wireBits _ ++ tail
      rw [List.append_assoc]

/-- A strict prefix of a frame's bits makes a strict prefix of its bytes. -/
theorem arrivedBytes_take (bytes : List Byte) (n : Nat) :
    arrivedBytes ((wireBits bytes).take n) = bytes.take (n / 8) := by
  obtain ⟨tail, h1, h2⟩ := take_wireBits bytes n
  rw [h1, arrivedBytes_wire, arrivedBytes_short tail h2, List.append_nil]

theorem sampledBits_clock (high : Bool) (bits : List Bool) : sampledBits high (clockEdges bits) = bits := by
  induction bits generalizing high with
  | nil => rfl
  | cons b bits ih =>
    show sampledBits false (.rise b :: clockEdges bits) = _
    show b :: sampledBits true (clockEdges bits) = _
    rw [ih]

/-! ### Requests that arrive -/

/-- A frame that decodes spells a request of its own port. -/
theorem decodeFrame_port (p : PortId) (bytes : List Byte) (c : Instr) (h : decodeFrame p bytes = some c) :
    c.requestPort = some p := by
  have out : ∀ o : Option Instr, (∀ i, o = some i → i.requestPort = some p) → o = some c → c.requestPort = some p :=
    fun o k e => k c e
  have req : ∀ i : Instr, i.requestPort = some p → ∀ j, some i = some j → j.requestPort = some p := fun i k j e => by
    cases e; exact k
  have no : ∀ j : Instr, (none : Option Instr) = some j → j.requestPort = some p := fun j e => by cases e
  have both : ∀ (P : Prop) [Decidable P] (a b : Option Instr), (∀ i, a = some i → i.requestPort = some p) →
      (∀ i, b = some i → i.requestPort = some p) → ∀ i, (if P then a else b) = some i → i.requestPort = some p :=
    fun P _ a b ha hb i => by split; exacts [ha i, hb i]
  cases bytes with
  | nil => cases h
  | cons code ps =>
    refine out _ ?_ h
    unfold decodeFrame
    refine both _ _ _ ?_ (both _ _ _ ?_ (both _ _ _ (req _ rfl) (both _ _ _ ?_ (both _ _ _ ?_ (both _ _ _ ?_ (both _ _ _ ?_
      (both _ _ _ ?_ (both _ _ _ ?_ (both _ _ _ ?_ (both _ _ _ (req _ rfl) (both _ _ _ ?_ (both _ _ _ (req _ rfl)
        (req _ rfl)))))))))))))
    all_goals
      split
      · first
        | exact req _ rfl
        | exact both _ _ _ (req _ rfl) no
      · exact no

/-- A request that has arrived is taken as its command is (R166). -/
theorem afterRequest_exec (c : Instr) (p : PortId) (s : State) (h : c.requestPort = some p) :
    exec c s = .next (s.afterRequest c) := by
  cases c <;> simp only [Instr.requestPort, reduceCtorEq] at h
  case openSession q n ps =>
    show execOpenSession q n ps s = .next (nextOr s (execOpenSession q n ps s))
    unfold execOpenSession; split <;> rfl
  case stage q a b c d e =>
    show execStage q a b c d e s = .next (nextOr s (execStage q a b c d e s))
    unfold execStage; split <;> rfl
  case unknownRequestCode q k =>
    show execUnknownRequestCode q k s = .next (nextOr s (execUnknownRequestCode q k s))
    unfold execUnknownRequestCode; split <;> rfl
  all_goals rfl

/-! ### Edges -/

/-- What an edge of SCK comes to: bits, bytes of a request and the level of SCK on its port, with the count in step; the delivery of
a byte of the part's; or a request that is taken. Behind a run of edges STATUS fields may be taken. -/
inductive EdgeMove (p : PortId) : State → State → Prop
  | gather (s : State) (received : Nat) (request : List Byte) (bits : List Bool) (high : Bool)
      (count : (s.port p).received = (s.port p).request.length → received = request.length) :
      EdgeMove p s (s.setPort p { s.port p with received := received, request := request, bits := bits, sckHigh := high })
  | deliver (s : State) : EdgeMove p s (s.deliverByte p)
  | status (s : State) (owners : List StatusOwner) : EdgeMove p s (s.gatherStatus p owners)
  | request (s t : State) (c : Instr) (port : c.requestPort = some p) (taken : exec c s = .next t) : EdgeMove p s t

/-- A chain of such moves. -/
abbrev EdgeMoves (p : PortId) : State → State → Prop := Relation.ReflTransGen (EdgeMove p)

theorem arrive_moves (s : State) (p : PortId) (b : Byte) : EdgeMoves p s (s.arrive p b) := by
  unfold State.arrive
  simp only
  split
  · next c hc =>
    refine .trans (.single (.gather s 0 [] (s.port p).bits (s.port p).sckHigh fun _ => rfl)) (.single ?_)
    exact .request _ _ c (decodeFrame_port p _ c hc) (afterRequest_exec c p _ (decodeFrame_port p _ c hc))
  · exact .single (.gather s _ _ (s.port p).bits (s.port p).sckHigh fun h => by rw [h]; simp)

theorem sckEdge_moves (s : State) (p : PortId) (e : SckEdge) : EdgeMoves p s (State.sckEdge p s e) := by
  have bits : ∀ l high, EdgeMove p s (s.setPort p { s.port p with bits := l, sckHigh := high }) := fun l high =>
    .gather s (s.port p).received (s.port p).request l high id
  cases e with
  | fall => exact .single (bits _ _)
  | rise sdi =>
    show EdgeMoves p s (s.sckRise p sdi)
    unfold State.sckRise
    simp only
    split
    · exact .refl
    · split
      · exact .single (bits _ _)
      · split
        · exact .single (bits _ _)
        · have d : EdgeMoves p s ((s.setPort p (s.port p).sampledByte).deliverByte p) :=
            .trans (.single (bits [] true)) (.single (.deliver _))
          split
          · exact d.trans (arrive_moves _ p _)
          · exact d

/-- What holds through every move of an edge holds through a run of them. -/
theorem edges_moves (s : State) (p : PortId) (edges : List SckEdge) : EdgeMoves p s (edges.foldl (State.sckEdge p) s) := by
  induction edges generalizing s with
  | nil => exact .refl
  | cons e edges ih => exact (sckEdge_moves s p e).trans (ih _)

/-- What holds through every such move holds through a REPLY_BYTE_DELIVERY. -/
theorem run_moves (s : State) (run : SckRun) :
    EdgeMoves run.port s ((run.edges.foldl (State.sckEdge run.port) s).gatherStatus run.port run.gather) :=
  .tail (edges_moves s run.port run.edges) (.status _ _)

/-- A gather changes nothing, or the groups and the reply of a STATUS that is being taken, of which one group at least stays. -/
theorem gatherStatus_cases (s : State) (p : PortId) (owners : List StatusOwner) :
    s.gatherStatus p owners = s
    ∨ ∃ g, (s.port p).statusTaken = some g ∧ (s.port p).decoder = .turnaround ∧ (∃ o, o ∉ g.late ++ owners)
        ∧ s.gatherStatus p owners = s.setPort p { s.port p with
            statusTaken := some (g.retake (s.statusGroups p) owners)
            reply := statusByte .ok :: (g.retake (s.statusGroups p) owners).fields (s.port p).lease } := by
  unfold State.gatherStatus
  simp only
  split
  · next g hg =>
    split
    · next h =>
      simp only [Bool.and_eq_true, Port.takingStatus, decide_eq_true_eq, List.any_eq_true] at h
      obtain ⟨o, -, ho⟩ := h.2
      exact .inr ⟨g, hg, h.1.1.1.1.1, ⟨o, ho⟩, rfl⟩
    · exact .inl rfl
  · exact .inl rfl

theorem gatherStatus_nil (s : State) (p : PortId) : s.gatherStatus p [] = s := by
  unfold State.gatherStatus
  simp only [List.isEmpty_nil, Bool.not_true, Bool.and_false, Bool.false_and, Bool.false_eq_true, if_false]
  split <;> rfl

/-- A run with no STATUS fields to take is its edges. -/
theorem run_edges (s : State) (p : PortId) (edges : List SckEdge) :
    execReplyByteDelivery ⟨p, edges, []⟩ s = .next (edges.foldl (State.sckEdge p) s) := by
  unfold execReplyByteDelivery
  rw [gatherStatus_nil]

/-- The eighth rising edge (R163, R165). -/
theorem sckRise_eighth (s : State) (p : PortId) (sdi : Bool) (h0 : (s.port p).sckHigh = false) (h1 : (s.port p).decoder ≠ .idle)
    (h2 : (s.port p).decoder ≠ .ignored) (h7 : ¬ (s.port p).bits.length < 7) :
    s.sckRise p sdi = if (s.port p).decoder = .request
      then ((s.setPort p (s.port p).sampledByte).deliverByte p).arrive p (byteOfBits ((s.port p).bits ++ [sdi]))
      else (s.setPort p (s.port p).sampledByte).deliverByte p := by
  unfold State.sckRise
  simp only
  rw [if_neg (by simp [h0]), if_neg (by simp [h1, h2]), if_neg h7]

/-- Bits clocked before the eighth are gathered; nothing else changes. -/
theorem clock_bits (s : State) (p : PortId) (b : Bool) (bits : List Bool) (h1 : (s.port p).decoder ≠ .idle)
    (h2 : (s.port p).decoder ≠ .ignored) (hl : (s.port p).bits.length + bits.length < 7) :
    (clockEdges (b :: bits)).foldl (State.sckEdge p) s
      = s.setPort p { s.port p with bits := (s.port p).bits ++ b :: bits, sckHigh := true } := by
  induction bits generalizing s b with
  | nil =>
    show ((s.setPort p { s.port p with sckHigh := false }).sckRise p b) = _
    unfold State.sckRise
    simp only [port_setPort, setPort_setPort, Bool.false_eq_true, if_false]
    rw [if_neg (by simp [h1, h2]), if_pos (by simp at hl; exact hl)]
  | cons c bits ih =>
    have e : clockEdges (b :: c :: bits) = clockEdges [b] ++ clockEdges (c :: bits) := rfl
    rw [e, List.foldl_append]
    have step : (clockEdges [b]).foldl (State.sckEdge p) s
        = s.setPort p { s.port p with bits := (s.port p).bits ++ [b], sckHigh := true } := by
      show ((s.setPort p { s.port p with sckHigh := false }).sckRise p b) = _
      unfold State.sckRise
      simp only [port_setPort, setPort_setPort, Bool.false_eq_true, if_false]
      rw [if_neg (by simp [h1, h2]), if_pos (by simp at hl; omega)]
    rw [step, ih _ _ (by simpa using h1) (by simpa using h2) (by simp at hl ⊢; omega)]
    simp

/-- Eight bits clocked on a port whose last byte is over are a byte in both directions. -/
theorem clock_eight (s : State) (p : PortId) (bits : List Bool) (h1 : (s.port p).decoder ≠ .idle)
    (h2 : (s.port p).decoder ≠ .ignored) (h0 : (s.port p).bits = []) (hl : bits.length = 8) :
    (clockEdges bits).foldl (State.sckEdge p) s = if (s.port p).decoder = .request
      then ((s.setPort p (s.port p).sampledByte).deliverByte p).arrive p (byteOfBits bits)
      else (s.setPort p (s.port p).sampledByte).deliverByte p := by
  match bits, hl with
  | [a, b, c, d, e, f, g, x], _ =>
    have e : clockEdges [a, b, c, d, e, f, g, x] = clockEdges [a, b, c, d, e, f, g] ++ [.fall, .rise x] := rfl
    rw [e, List.foldl_append, clock_bits s p a _ h1 h2 (by rw [h0]; simp)]
    show State.sckRise (State.setPort _ p _) p x = _
    rw [sckRise_eighth _ _ _ (by simp) (by simpa using h1) (by simpa using h2) (by simp [h0])]
    simp only [port_setPort, setPort_setPort, h0]
    rfl

/-- Eight bits clocked behind the request are a byte of the part's delivered. -/
theorem clock_byte (s : State) (p : PortId) (bits : List Bool) (h1 : (s.port p).decoder ≠ .idle)
    (h2 : (s.port p).decoder ≠ .ignored) (h3 : (s.port p).decoder ≠ .request) (h0 : (s.port p).bits = [])
    (hl : bits.length = 8) :
    (clockEdges bits).foldl (State.sckEdge p) s = (s.setPort p (s.port p).sampledByte).deliverByte p := by
  rw [clock_eight s p bits h1 h2 h0 hl, if_neg h3]

/-! ### A request clocked in -/

/-- The port in REQUEST with some bytes of its frame come, SCK high. -/
def Port.holding (r : Port) (request : List Byte) : Port :=
  { r with received := request.length, request := request, bits := [], sckHigh := true, sdo := some 0xFF }

theorem clock_request_byte (s : State) (p : PortId) (b : Byte) (h : (s.port p).decoder = .request) (h0 : (s.port p).bits = [])
    (hc : (s.port p).received = (s.port p).request.length) :
    (clockEdges (byteBits b)).foldl (State.sckEdge p) s =
      match decodeFrame p ((s.port p).request ++ [b]) with
      | some c => (s.setPort p (Port.holding (s.port p) [])).afterRequest c
      | none => s.setPort p (Port.holding (s.port p) ((s.port p).request ++ [b])) := by
  rw [clock_eight s p _ (by rw [h]; simp) (by rw [h]; simp) h0 rfl, if_pos h, byteOfBits_byteBits]
  have d : (s.setPort p (s.port p).sampledByte).deliverByte p
      = s.setPort p { s.port p with bits := [], sckHigh := true, sdo := some 0xFF } := by
    unfold State.deliverByte State.driveOnes
    simp [Port.sampledByte, h]
  rw [d]
  unfold State.arrive
  simp only [port_setPort, setPort_setPort]
  cases decodeFrame p ((s.port p).request ++ [b]) with
  | some c => rfl
  | none => simp [Port.holding, hc]

/-- A frame clocked in byte by byte, while it is not complete. -/
theorem clock_request_part (s : State) (p : PortId) (bytes : List Byte) (h : (s.port p).decoder = .request)
    (h0 : (s.port p).bits = []) (hc : (s.port p).received = (s.port p).request.length) (ne : bytes ≠ [])
    (hn : ∀ n, n < bytes.length → decodeFrame p ((s.port p).request ++ bytes.take (n + 1)) = none) :
    (clockEdges (wireBits bytes)).foldl (State.sckEdge p) s
      = s.setPort p (Port.holding (s.port p) ((s.port p).request ++ bytes)) := by
  induction bytes generalizing s with
  | nil => exact absurd rfl ne
  | cons b bytes ih =>
    have e : clockEdges (wireBits (b :: bytes)) = clockEdges (byteBits b) ++ clockEdges (wireBits bytes) := by
      simp [clockEdges, wireBits]
    have first := hn 0 (by simp)
    simp only [List.take_succ_cons, List.take_zero] at first
    rw [e, List.foldl_append, clock_request_byte s p b h h0 hc, first]
    simp only
    by_cases nb : bytes = []
    · subst nb; rfl
    · rw [ih _ (by simpa [Port.holding] using h) (by simp [Port.holding]) (by simp [Port.holding]) nb fun n hlt => ?_]
      · simp [Port.holding]
      · have := hn (n + 1) (by simp; omega)
        simpa [Port.holding] using this

/-- A frame clocked in from its fall of chip select on: with the last bit its request is taken, as the request command takes it
(R163, R166). -/
theorem clock_request (s : State) (p : PortId) (c : Instr) (bytes : List Byte) (h : s.Receiving p)
    (hc : (s.port p).received = 0) (hb : decodeFrame p bytes = some c)
    (hn : ∀ n, n < bytes.length → decodeFrame p (bytes.take n) = none) :
    (clockEdges (wireBits bytes)).foldl (State.sckEdge p) s
      = (s.setPort p { s.port p with sckHigh := true, sdo := some 0xFF }).afterRequest c := by
  obtain ⟨h1, h2, h3⟩ := h
  obtain ⟨init, b, rfl⟩ : ∃ init b, bytes = init ++ [b] := by
    cases bytes using List.reverseRecOn with
    | nil => cases hb
    | append_singleton l x => exact ⟨l, x, rfl⟩
  have e : clockEdges (wireBits (init ++ [b])) = clockEdges (wireBits init) ++ clockEdges (byteBits b) := by
    simp [clockEdges, wireBits]
  have fresh : Port.holding (s.port p) [] = { s.port p with sckHigh := true, sdo := some 0xFF } := by
    unfold Port.holding; simp only [List.length_nil, ← h2, ← h3]; rw [hc, h2]; rfl
  rw [e, List.foldl_append]
  by_cases ni : init = []
  · subst ni
    show (clockEdges (byteBits b)).foldl (State.sckEdge p) s = _
    rw [clock_request_byte s p b h1 h3 (by rw [hc, h2]; rfl), h2]
    simp only [List.nil_append] at hb ⊢
    rw [hb]
    simp only [fresh]
  · rw [clock_request_part s p init h1 h3 (by rw [hc, h2]; rfl) ni fun n hlt => ?_]
    · rw [clock_request_byte _ p b (by simpa [Port.holding] using h1) (by simp [Port.holding]) (by simp [Port.holding])]
      simp only [port_setPort, h2, List.nil_append, Port.holding, setPort_setPort] at hb ⊢
      rw [hb]
      simp only [List.length_nil, ← hc, ← h3]
    · rw [h2, List.nil_append]
      have := hn (n + 1) (by simp; omega)
      rwa [List.take_append_of_le_length (by omega)] at this

end Sys2Proof.Laws
end

