-- ==== Sys2Proof/Laws/Ends.lean ====
section
/-! SUPPORT. The port reset and the revocation at the Session Unit, each session by session: what a pass over the eight slots
leaves, so that no proof unfolds the pass. -/

namespace Sys2Proof.Laws

open Sys2Proof Sys2Proof.Machine

/-- A pass over the slots that treats each slot alone: slot `i` becomes `g i`, its claims are released where `rel i` holds, and
nothing else changes. -/
structure SlotPass (f : SessionUnit → SessionId → SessionUnit) (g : SessionId → Session → Session)
    (rel : SessionId → Session → Bool) : Prop where
  session : ∀ u i j, (f u i).session j = if j = i then g i (u.session i) else u.session j
  claim : ∀ u i q, (f u i).claim q = if u.claim q = some i ∧ rel i (u.session i) = true then none else u.claim q
  failure : ∀ u i, (f u i).failure = u.failure
  unwindRequest : ∀ u i, (f u i).unwindRequest = u.unwindRequest

variable {f : SessionUnit → SessionId → SessionUnit} {g : SessionId → Session → Session} {rel : SessionId → Session → Bool}

theorem SlotPass.foldl_session (h : SlotPass f g rel) (l : List SessionId) (hl : l.Nodup) (u : SessionUnit) (j : SessionId) :
    (l.foldl f u).session j = if j ∈ l then g j (u.session j) else u.session j := by
  induction l generalizing u with
  | nil => simp
  | cons a l ih =>
    obtain ⟨ha, hl⟩ := List.nodup_cons.1 hl
    rw [List.foldl_cons, ih hl, h.session]
    by_cases e : j = a
    · subst e; simp [ha]
    · simp [e]

theorem SlotPass.foldl_claim (h : SlotPass f g rel) (l : List SessionId) (hl : l.Nodup) (u : SessionUnit) (q : PageId) :
    (l.foldl f u).claim q = (u.claim q).bind fun i => if i ∈ l ∧ rel i (u.session i) = true then none else some i := by
  induction l generalizing u with
  | nil => cases e : u.claim q <;> simp [e]
  | cons a l ih =>
    obtain ⟨ha, hl⟩ := List.nodup_cons.1 hl
    rw [List.foldl_cons, ih hl, h.claim]
    cases hc : u.claim q with
    | none => simp
    | some i =>
      by_cases e : i = a
      · subst e
        by_cases r : rel i (u.session i) = true
        · simp [r]
        · simp [r, h.session, ha]
      · simp [e, h.session]

theorem SlotPass.foldl_failure (h : SlotPass f g rel) (l : List SessionId) (u : SessionUnit) :
    (l.foldl f u).failure = u.failure := by
  induction l generalizing u with
  | nil => rfl
  | cons a l ih => rw [List.foldl_cons, ih, h.failure]

theorem SlotPass.foldl_unwindRequest (h : SlotPass f g rel) (l : List SessionId) (u : SessionUnit) :
    (l.foldl f u).unwindRequest = u.unwindRequest := by
  induction l generalizing u with
  | nil => rfl
  | cons a l ih => rw [List.foldl_cons, ih, h.unwindRequest]

/-! ### The port reset (R60) -/

/-- The session of port `p` goes FREE at the port reset (Table 15). -/
def endsAtReset (p : PortId) (r : Session) : Bool :=
  r.owner == some p && (r.state == .opened || r.state == .queued || r.state == .finished)

/-- What the port reset of `p` makes of a record (Table 15). -/
def resetRecord (p : PortId) (r : Session) : Session :=
  if endsAtReset p r then Session.freeSlot
  else if r.owner = some p ∧ (r.state = .programming ∨ r.state = .unwinding) then { r with owner := none }
  else r

theorem setSession_self (u : SessionUnit) (i : SessionId) : u.setSession i (u.session i) = u := by
  simp [SessionUnit.setSession, SessionUnit.session]

theorem portReset_pass (p : PortId) :
    SlotPass (SessionUnit.portResetSession p) (fun _ => resetRecord p) (fun _ => endsAtReset p) := by
  have frees : ∀ (u : SessionUnit) (i j : SessionId), (u.release i).session j =
      if j = i then Session.freeSlot else u.session j := fun u i j => by
    simp [SessionUnit.release, session_setSession]
  have drops : ∀ (u : SessionUnit) (i : SessionId) (q : PageId), (u.release i).claim q =
      if u.claim q = some i then none else u.claim q := fun u i q => claim_releaseClaims _ _ _
  constructor
  case session =>
    intro u i j
    unfold SessionUnit.portResetSession
    by_cases h : (u.session i).owner = some p
    · rw [if_pos h]
      cases e : (u.session i).state <;>
        simp [h, e, frees, session_setSession, resetRecord, endsAtReset] <;> (rintro rfl; rfl)
    · rw [if_neg h]
      simp [h, resetRecord, endsAtReset]; rintro rfl; rfl
  case claim =>
    intro u i q
    unfold SessionUnit.portResetSession
    by_cases h : (u.session i).owner = some p
    · rw [if_pos h]
      cases e : (u.session i).state <;> simp [h, e, drops, endsAtReset]
    · rw [if_neg h]
      simp [h, endsAtReset]
  case failure =>
    intro u i
    unfold SessionUnit.portResetSession
    split <;> [split <;> rfl; rfl]
  case unwindRequest =>
    intro u i
    unfold SessionUnit.portResetSession
    split <;> [split <;> rfl; rfl]

theorem session_portReset (u : SessionUnit) (p : PortId) (i : SessionId) :
    (u.portReset p).session i = resetRecord p (u.session i) := by
  have := (portReset_pass p).foldl_session _ (List.nodup_finRange 8) u i
  simpa [SessionUnit.portReset] using this

theorem claim_portReset (u : SessionUnit) (p : PortId) (q : PageId) :
    (u.portReset p).claim q = (u.claim q).bind fun i => if endsAtReset p (u.session i) then none else some i := by
  have := (portReset_pass p).foldl_claim _ (List.nodup_finRange 8) u q
  simpa [SessionUnit.portReset] using this

theorem failure_portReset (u : SessionUnit) (p : PortId) : (u.portReset p).failure = u.failure :=
  (portReset_pass p).foldl_failure _ u

theorem unwindRequest_portReset (u : SessionUnit) (p : PortId) : (u.portReset p).unwindRequest = u.unwindRequest :=
  (portReset_pass p).foldl_unwindRequest _ u

/-- After the port reset the port owns no FINISHED session (R60, R159). -/
theorem ownsFinished_portReset (u : SessionUnit) (p : PortId) : (u.portReset p).ownsFinished p = false := by
  have hs : ∀ i, (u.portReset p).session i = resetRecord p (u.session i) := fun i => session_portReset u p i
  generalize u.portReset p = v at hs
  rw [Bool.eq_false_iff, Ne, ownsFinished_iff]
  rintro ⟨i, h1, h2⟩
  rw [hs] at h1 h2
  unfold resetRecord at h1 h2
  by_cases e : endsAtReset p (u.session i) = true
  · simp [e, Session.freeSlot] at h2
  · rw [if_neg e] at h1 h2
    split at h1
    · simp at h1
    · next n =>
      rw [if_neg n] at h2
      exact e (by simp [endsAtReset, h1, h2])

theorem portReset_flash (s : State) (p : PortId) : (s.portReset p).flash = s.flash := rfl
theorem portReset_bm (s : State) (p : PortId) :
    (s.portReset p).bm = s.bm.unpinPage (streamPin (s.port p).stream) := rfl
theorem portReset_map (s : State) (p : PortId) : (s.portReset p).map = s.map := rfl
theorem portReset_ses (s : State) (p : PortId) : (s.portReset p).ses = s.ses.portReset p := by
  unfold State.portReset
  simp only [refreshAlerts_ses, setPort_ses, setNotice_ses]
theorem portReset_eng (s : State) (p : PortId) :
    (s.portReset p).eng = s.eng.withdrawPort p := rfl
theorem portReset_prot (s : State) (p : PortId) : (s.portReset p).prot = s.prot := rfl
theorem portReset_mount (s : State) (p : PortId) : (s.portReset p).mount = s.mount := rfl
theorem portReset_power (s : State) (p : PortId) : (s.portReset p).power = s.power := rfl
theorem portReset_pending (s : State) (p : PortId) : (s.portReset p).pending = s.pending := rfl

theorem portReset_notice (s : State) (p q : PortId) :
    (s.portReset p).notice q = if q = p then NoticePort.reset else s.notice q := by
  unfold State.portReset
  rw [refreshAlerts_notice, setPort_notice, notice_setNotice_eq]
  split <;> rfl

theorem refreshAlerts_alertConds (s : State) (p : PortId) : s.refreshAlerts.alertConds p = s.alertConds p := rfl

theorem portReset_port (s : State) (p q : PortId) : (s.portReset p).port q =
    if q = p then { (s.port p).held with prstLow := true }
    else { s.port q with alert := (s.portReset p).alertConds q } := by
  have h : (s.portReset p).port q = { (if q = p then { (s.port p).held with prstLow := true } else s.port q) with
      alert := (s.portReset p).alertConds q } := by
    unfold State.portReset
    rw [port_refreshAlerts, refreshAlerts_alertConds, port_setPort_eq]
    congr 1
  rw [h]
  by_cases e : q = p
  · subst e
    simp only [if_true]
    have hc : (s.portReset q).alertConds q = { finishedSession := false, noticeQueued := false, overrun := false } := by
      unfold State.alertConds
      rw [portReset_ses, ownsFinished_portReset, portReset_notice, if_pos rfl]
      rfl
    rw [hc]; rfl
  · simp only [e, if_false]

/-! ### Revocation (R62) -/

/-- The table denies the session of this record. -/
def deniedRecord (t : WindowsTable) (r : Session) : Bool :=
  (r.state == .opened || r.state == .queued) &&
    match r.owner with
    | some q => !t.canWriteAll q r.members
    | none => false

theorem revoke_pass (t : WindowsTable) :
    SlotPass (SessionUnit.revokeSession t) (fun _ r => if deniedRecord t r then r.finishedAs .revoked else r)
      (fun _ => deniedRecord t) := by
  have hd : ∀ u i, SessionUnit.denied u t i = deniedRecord t (u.session i) := fun u i => rfl
  constructor
  case session =>
    intro u i j
    unfold SessionUnit.revokeSession
    rw [hd]
    by_cases h : deniedRecord t (u.session i) = true
    · simp only [h, if_true]
      simp [SessionUnit.finish, session_setSession, Session.finishedAs]
    · simp only [h]
      simp; rintro rfl; rfl
  case claim =>
    intro u i q
    unfold SessionUnit.revokeSession
    rw [hd]
    by_cases h : deniedRecord t (u.session i) = true
    · simp only [h, if_true, and_true]
      exact claim_releaseClaims _ _ _
    · simp [h]
  case failure => intro u i; unfold SessionUnit.revokeSession; split <;> rfl
  case unwindRequest => intro u i; unfold SessionUnit.revokeSession; split <;> rfl

theorem session_revoke (u : SessionUnit) (t : WindowsTable) (i : SessionId) :
    (u.revoke t).session i = if deniedRecord t (u.session i) then (u.session i).finishedAs .revoked else u.session i := by
  have := (revoke_pass t).foldl_session _ (List.nodup_finRange 8) u i
  simpa [SessionUnit.revoke] using this

theorem claim_revoke (u : SessionUnit) (t : WindowsTable) (q : PageId) :
    (u.revoke t).claim q = (u.claim q).bind fun i => if deniedRecord t (u.session i) then none else some i := by
  have := (revoke_pass t).foldl_claim _ (List.nodup_finRange 8) u q
  simpa [SessionUnit.revoke] using this

theorem failure_revoke (u : SessionUnit) (t : WindowsTable) : (u.revoke t).failure = u.failure :=
  (revoke_pass t).foldl_failure _ u

theorem unwindRequest_revoke (u : SessionUnit) (t : WindowsTable) : (u.revoke t).unwindRequest = u.unwindRequest :=
  (revoke_pass t).foldl_unwindRequest _ u

end Sys2Proof.Laws
end

