-- ==== Sys2Proof/Laws/Flip.lean ====
section
/-! SUPPORT. The flip: its members one by one, its hand-offs, and the offers of notices port by port. -/

namespace Sys2Proof.Laws

open Sys2Proof Sys2Proof.Machine

/-! ### The current block of a page -/

theorem currentBlock_iff (m : MapUnit) (q : PageId) (b : BlockId) :
    m.currentBlock q = some b ↔ ∃ serial writer, m.entry q = some { block := b, serial := serial, writer := writer } := by
  unfold MapUnit.currentBlock
  cases h : m.entry q with
  | none => simp
  | some e =>
    obtain ⟨b', sr, w⟩ := e
    simp only [Option.map_some, Option.some.injEq]
    constructor
    · rintro rfl; exact ⟨sr, w, rfl⟩
    · rintro ⟨_, _, e⟩; cases e; rfl

theorem entry_point (m : MapUnit) (page q : PageId) (e : MapEntry) :
    (m.point page e).entry q = if q = page then some e else m.entry q := by
  by_cases h : q = page
  · subst h; simp [MapUnit.point, MapUnit.entry]
  · have h' : page.val ≠ q.val := fun k => h (Fin.ext k.symm)
    simp [MapUnit.point, MapUnit.entry, h, h']

/-! ### The members of a flip -/

/-- What makes a flip's members independent of each other: distinct pages, a target of its own for each, no target that is a
current block, and no block current for two pages. -/
structure FlipReady (s : State) (r : CommitRec) : Prop where
  nodup : r.pages.Nodup
  target : ∀ (m : Nat) (q : PageId), r.pages[m]? = some q → ∃ b, r.targets[m]? = some (some b)
  inj : ∀ (m m' : Nat) (b : BlockId), r.targets[m]? = some (some b) → r.targets[m']? = some (some b) → m = m'
  apart : ∀ (m : Nat) (q : PageId) (b : BlockId), r.targets[m]? = some (some b) → s.map.currentBlock q ≠ some b
  single : ∀ (q q' : PageId) (b : BlockId), s.map.currentBlock q = some b → s.map.currentBlock q' = some b → q = q'

/-- The DATA fields that the flip of member `m` gives its target (R11). -/
def flipInfo (r : CommitRec) (m : Nat) (q : PageId) : DataInfo :=
  { page := q, serial := r.serial, index := m, count := r.pages.length, writer := r.writer }

/-- The state after the first `k` members of a flip. -/
structure Flipped (s t : State) (r : CommitRec) (k : Nat) : Prop where
  frame : t = { s with map := t.map, bm := t.bm }
  map : t.map = { s.map with pages := t.map.pages, mapped := t.map.mapped }
  entry : ∀ (m : Nat) (q : PageId) (b : BlockId), m < k → r.pages[m]? = some q → r.targets[m]? = some (some b) →
    t.map.entry q = some { block := b, serial := r.serial, writer := r.writer }
  others : ∀ q, (∀ m, m < k → r.pages[m]? ≠ some q) → t.map.entry q = s.map.entry q
  mapped : t.map.mapped = s.map.mapped + ((r.pages.take k).filter fun q => (s.map.entry q).isNone).length
  data : ∀ (m : Nat) (q : PageId) (b : BlockId), m < k → r.pages[m]? = some q → r.targets[m]? = some (some b) →
    t.bm.block b = (s.bm.block b).map fun x => { x with cls := .data (flipInfo r m q) }
  dirty : ∀ (m : Nat) (q : PageId) (b : BlockId), m < k → r.pages[m]? = some q → s.map.currentBlock q = some b →
    t.bm.block b = (s.bm.block b).map fun x => { x with cls := .dirty }
  same : ∀ b, (∀ m, m < k → r.targets[m]? ≠ some (some b)) →
    (∀ m q, m < k → r.pages[m]? = some q → s.map.currentBlock q ≠ some b) → t.bm.block b = s.bm.block b
  dirtyList : t.bm.dirtyList = s.bm.dirtyList ++ (r.pages.take k).filterMap s.map.currentBlock
  freePool : t.bm.freePool = s.bm.freePool
  retiredSet : t.bm.retiredSet = s.bm.retiredSet

theorem block_flipMember (bm : BlockManager) (target x : BlockId) (info : DataInfo) (previous : Option BlockId)
    (h : previous ≠ some target) : (bm.flipMember target info previous).block x =
      if x = target then (bm.block x).map fun r => { r with cls := .data info }
      else if previous = some x then (bm.block x).map fun r => { r with cls := .dirty } else bm.block x := by
  unfold BlockManager.flipMember
  cases previous with
  | none =>
    simp only [block_setClass]
    by_cases e : x = target
    · subst e; simp
    · simp [e]
  | some b =>
    have hb : b ≠ target := fun e => h (by rw [e])
    have := (toDirty_spec (bm.setClass target (.data info)) b).2.2.2.1 x
    simp only [this, block_setClass]
    by_cases e : x = target
    · subst e
      simp [Ne.symm hb]
    · by_cases e' : x = b
      · subst e'; simp [e]
      · simp [e, e', Ne.symm e']

theorem lists_flipMember (bm : BlockManager) (target : BlockId) (info : DataInfo) (previous : Option BlockId) :
    (bm.flipMember target info previous).dirtyList = bm.dirtyList ++ previous.toList
    ∧ (bm.flipMember target info previous).freePool = bm.freePool
    ∧ (bm.flipMember target info previous).retiredSet = bm.retiredSet := by
  cases previous <;> simp [BlockManager.flipMember, BlockManager.toDirty]

theorem flipped_step {s t : State} {r : CommitRec} {k : Nat} (h : FlipReady s r) (f : Flipped s t r k)
    (hk : k < r.pages.length) : Flipped s (State.flipMember r t k) r (k + 1) := by
  obtain ⟨q, hq⟩ : ∃ q, r.pages[k]? = some q := ⟨_, List.getElem?_eq_getElem hk⟩
  obtain ⟨b, hb⟩ := h.target k q hq
  have lt_of : ∀ m, m < k + 1 → m = k ∨ m < k := fun m hm => by omega
  have hnew : ∀ m, m < k → r.pages[m]? ≠ some q := fun m hm e => by
    have h1 := (List.getElem?_eq_some_iff.1 e)
    have h2 := (List.getElem?_eq_some_iff.1 hq)
    have := (h.nodup.getElem_inj_iff (hi := h1.1) (hj := h2.1)).1 (h1.2.trans h2.2.symm)
    omega
  have hent : t.map.entry q = s.map.entry q := f.others q hnew
  have hcur : t.map.currentBlock q = s.map.currentBlock q := by unfold MapUnit.currentBlock; rw [hent]
  have hne : s.map.currentBlock q ≠ some b := h.apart k q b hb
  have e : State.flipMember r t k = { t with
      map := t.map.point q { block := b, serial := r.serial, writer := r.writer }
      bm := t.bm.flipMember b (flipInfo r k q) (s.map.currentBlock q) } := by
    unfold State.flipMember
    rw [hq, show r.targets.getD k none = some b by simp [List.getD_eq_getElem?_getD, hb]]
    simp only [hcur]
    rfl
  have htake : r.pages.take (k + 1) = r.pages.take k ++ [q] := by
    rw [List.take_add_one, hq]; rfl
  obtain ⟨l1, l2, l3⟩ := lists_flipMember t.bm b (flipInfo r k q) (s.map.currentBlock q)
  rw [e]
  refine ⟨?_, ?_, fun m q' b' hm h1 h2 => ?_, fun q' h1 => ?_, ?_, fun m q' b' hm h1 h2 => ?_, fun m q' b' hm h1 h2 => ?_,
    fun x h1 h2 => ?_, ?_, ?_, ?_⟩
  · rw [f.frame]
  · rw [f.map]; rfl
  · show (t.map.point q _).entry q' = _
    rw [entry_point]
    rcases lt_of m hm with rfl | hm
    · obtain rfl : q = q' := Option.some.inj (hq.symm.trans h1)
      obtain rfl : b = b' := Option.some.inj (Option.some.inj (hb.symm.trans h2))
      rw [if_pos rfl]
    · rw [if_neg (by rintro rfl; exact hnew m hm h1)]
      exact f.entry m q' b' hm h1 h2
  · show (t.map.point q _).entry q' = _
    rw [entry_point, if_neg (by rintro rfl; exact h1 k (by omega) hq)]
    exact f.others q' fun m hm => h1 m (by omega)
  · show t.map.mapped + (if (t.map.entry q).isSome then 0 else 1) = _
    rw [hent, f.mapped, htake, List.filter_append, List.length_append]
    cases hc : s.map.entry q <;> simp [hc]; omega
  · show (t.bm.flipMember b (flipInfo r k q) (s.map.currentBlock q)).block b' = _
    rw [block_flipMember _ _ _ _ _ hne]
    rcases lt_of m hm with rfl | hm
    · obtain rfl : q = q' := Option.some.inj (hq.symm.trans h1)
      obtain rfl : b = b' := Option.some.inj (Option.some.inj (hb.symm.trans h2))
      rw [if_pos rfl, f.same b (fun m' hm' e => by have := h.inj _ _ _ e hb; omega) fun m' q' _ _ => h.apart m q' b hb]
    · have : b' ≠ b := by rintro rfl; have := h.inj _ _ _ h2 hb; omega
      rw [if_neg this, if_neg (h.apart m q b' h2)]
      exact f.data m q' b' hm h1 h2
  · show (t.bm.flipMember b (flipInfo r k q) (s.map.currentBlock q)).block b' = _
    have hb' : b' ≠ b := by rintro rfl; exact h.apart k q' _ hb h2
    rw [block_flipMember _ _ _ _ _ hne, if_neg hb']
    rcases lt_of m hm with rfl | hm
    · obtain rfl : q = q' := Option.some.inj (hq.symm.trans h1)
      rw [if_pos h2, f.same b' (fun m' hm' e => h.apart _ _ _ e h2) fun m' q' hm' e1 e2 => ?_]
      have := h.single _ _ _ e2 h2
      subst this
      exact hnew m' hm' e1
    · rw [if_neg fun e => hnew m hm (by rw [h1, h.single _ _ _ h2 e])]
      exact f.dirty m q' b' hm h1 h2
  · show (t.bm.flipMember b (flipInfo r k q) (s.map.currentBlock q)).block x = _
    have hx : x ≠ b := by rintro rfl; exact h1 k (by omega) hb
    rw [block_flipMember _ _ _ _ _ hne, if_neg hx, if_neg (h2 k q (by omega) hq)]
    exact f.same x (fun m hm => h1 m (by omega)) fun m q' hm => h2 m q' (by omega)
  · show (t.bm.flipMember b (flipInfo r k q) (s.map.currentBlock q)).dirtyList = _
    rw [l1, f.dirtyList, htake, List.filterMap_append]
    cases hc : s.map.currentBlock q <;> simp [hc]
  · exact l2.trans f.freePool
  · exact l3.trans f.retiredSet

theorem flipMembers_spec {s : State} {r : CommitRec} (h : FlipReady s r) : Flipped s (s.flipMembers r) r r.pages.length := by
  have key : ∀ k, k ≤ r.pages.length → Flipped s ((List.range k).foldl (State.flipMember r) s) r k := by
    intro k
    induction k with
    | zero =>
      intro _
      exact ⟨rfl, rfl, fun _ _ _ h => absurd h (by omega), fun _ _ => rfl, by simp, fun _ _ _ h => absurd h (by omega),
        fun _ _ _ h => absurd h (by omega), fun _ _ _ => rfl, by simp, rfl, rfl⟩
    | succ k ih =>
      intro hk
      rw [List.range_succ, List.foldl_append]
      exact flipped_step h (ih (by omega)) (by omega)
  exact key _ (Nat.le_refl _)

theorem index_inj {l : List (Option BlockId)} (h : (l.filterMap id).Nodup) (m m' : Nat) (b : BlockId)
    (h1 : l[m]? = some (some b)) (h2 : l[m']? = some (some b)) : m = m' := by
  induction l generalizing m m' with
  | nil => simp at h1
  | cons x xs ih =>
    have mem : ∀ n, xs[n]? = some (some b) → b ∈ xs.filterMap id := fun n hn =>
      List.mem_filterMap.2 ⟨some b, List.mem_of_getElem? hn, rfl⟩
    cases x with
    | none =>
      have h' : (xs.filterMap id).Nodup := by simpa using h
      cases m <;> cases m' <;> simp_all
      exact ih _ _ h1 h2
    | some c =>
      obtain ⟨hc, h'⟩ : c ∉ xs.filterMap id ∧ (xs.filterMap id).Nodup := by
        rw [List.filterMap_cons_some (by rfl)] at h; exact List.nodup_cons.1 h
      cases m with
      | zero =>
        cases m' with
        | zero => rfl
        | succ m' =>
          obtain rfl : c = b := by simpa using h1
          exact absurd (mem m' (by simpa using h2)) hc
      | succ m =>
        cases m' with
        | zero =>
          obtain rfl : c = b := by simpa using h2
          exact absurd (mem m (by simpa using h1)) hc
        | succ m' =>
          have := ih h' m m' (by simpa using h1) (by simpa using h2)
          omega

/-- The block law makes the members of a requested flip independent (R9, R22). -/
theorem flipReady {s : State} {r : CommitRec} (h : s.BlockLaw) (hw : s.eng.work = .commit r .flipRequested) : FlipReady s r := by
  obtain ⟨-, -, -, hmap, -, hold, -⟩ := h
  rw [hw] at hold
  obtain ⟨h1, h2, h3, h4, h5, h6⟩ := hold
  obtain ⟨h5, h5'⟩ := h5 (by simp)
  have h6 := h6 rfl
  refine ⟨h1, fun m q hq => ?_, index_inj h5, fun m q b hb hc => ?_, fun q q' b hb hb' => ?_⟩
  · have := (List.getElem?_eq_some_iff.1 hq).1
    exact h4 m (by omega)
  · obtain ⟨info, hi, -⟩ := (hmap q b).1 ((currentBlock_iff _ _ _).1 hc)
    rw [h5' b (List.mem_of_getElem? hb)] at hi
    cases hi
  · obtain ⟨info, hi, e1⟩ := (hmap q b).1 ((currentBlock_iff _ _ _).1 hb)
    obtain ⟨info', hi', e2⟩ := (hmap q' b).1 ((currentBlock_iff _ _ _).1 hb')
    rw [hi] at hi'
    cases hi'
    exact e1.symm.trans e2

end Sys2Proof.Laws
end

