-- ==== Sys2Proof/Laws/Mount.lean ====
section
/-! SUPPORT. The group tally, the judgement of its entries,
    the current versions and the tables that a mount builds. -/

namespace Sys2Proof.Laws

open Sys2Proof Sys2Proof.Machine

theorem tallyAdd_entered (st : DataStamp) (b : BlockId) (tally : List TallyEntry) :
    TallyEntered tally (tallyAdd st b tally) st (st.candidate b) := by
  constructor
  · intro h
    induction tally with
    | nil => rfl
    | cons e l ih =>
      unfold tallyAdd
      rw [if_neg (h e (by simp)), ih fun x hx => h x (by simp [hx])]
      rfl
  · rintro before after e rfl he hb
    induction before with
    | nil =>
      show tallyAdd st b (e :: after) = _
      unfold tallyAdd
      rw [if_pos he]
      simp only [List.nil_append, List.cons.injEq, and_true, TallyEntry.mk.injEq, true_and]
      rw [Bool.eq_iff_iff]; simp [and_assoc]
    | cons x xs ih =>
      show tallyAdd st b (x :: (xs ++ e :: after)) = _
      unfold tallyAdd
      rw [if_neg (hb x (by simp)), ih fun y hy => hb y (by simp [hy])]
      rfl

theorem placeDirty_placed (bm : BlockManager) (b : BlockId) (n : Nat) : bm.PlacedDirty (bm.placeDirty b n) b n :=
  ⟨fun x => block_place bm b x _, rfl, rfl, rfl, rfl⟩

theorem judge_iff (tally : List TallyEntry) (e : TallyEntry) : e.judge tally = true ↔ e.Complete tally := by
  unfold TallyEntry.judge TallyEntry.Complete
  rw [Bool.and_eq_true, List.all_eq_true]
  apply and_congr Iff.rfl
  simp only [List.mem_range]
  apply forall_congr'; intro i
  apply imp_congr Iff.rfl
  unfold TallyEntry.memberOk
  rw [Bool.or_eq_true]
  apply or_congr
  · simp [List.any_eq_true]
  · cases e.pages[i]? with
    | none => simp
    | some page =>
      simp only [coveredBy, List.any_eq_true, Bool.and_eq_true, decide_eq_true_eq, beq_iff_eq]
      constructor
      · rintro ⟨f, hf, hs, c, hc, hp⟩; exact ⟨page, rfl, f, hf, hs, c, hc, hp⟩
      · rintro ⟨q, hq, f, hf, hs, c, hc, hp⟩; cases hq; exact ⟨f, hf, hs, c, hc, hp⟩

/-- An entry with its judgement (R117). -/
def judgedEntry (tally : List TallyEntry) (e : TallyEntry) : TallyEntry := { e with complete := some (e.judge tally) }

theorem mem_cands (tally : List TallyEntry) (x : TallyEntry × Candidate) : x ∈ completeCandidates (judgeTally tally) ↔
    ∃ e ∈ tally, e.Complete tally ∧ x.2 ∈ e.members ∧ x.1 = judgedEntry tally e := by
  obtain ⟨f, c⟩ := x
  unfold completeCandidates judgeTally
  simp only [List.mem_flatMap, List.mem_filter, List.mem_map, Prod.mk.injEq, beq_iff_eq]
  constructor
  · rintro ⟨_, ⟨⟨e, he, rfl⟩, hc⟩, d, hd, rfl, rfl⟩
    exact ⟨e, he, (judge_iff _ _).1 (by simpa using hc), hd, rfl⟩
  · rintro ⟨e, he, hc, hd, rfl⟩
    exact ⟨judgedEntry tally e, ⟨⟨e, he, rfl⟩, by simpa [judgedEntry] using (judge_iff _ _).2 hc⟩, c, hd, rfl, rfl⟩

/-- `y` is no later version than `x` (R120). -/
def NotAfter (y x : TallyEntry × Candidate) : Prop := y.1.serial < x.1.serial
    ∨ (y.1.serial = x.1.serial ∧ x.2.block.val ≤ y.2.block.val)

theorem best_spec (l : List (TallyEntry × Candidate)) : (l = [] ∧ bestVersion l = none) ∨ ∃ x ∈ l,
    bestVersion l = some x ∧ ∀ y ∈ l, NotAfter y x := by
  induction l with
  | nil => exact .inl ⟨rfl, rfl⟩
  | cons a l ih =>
    right
    rcases ih with ⟨rfl, h⟩ | ⟨x, hx, h, hm⟩
    · exact ⟨a, by simp, by simp [bestVersion], by simp [NotAfter]⟩
    · unfold bestVersion; rw [h]
      simp only
      unfold betterVersion
      by_cases c : x.1.serial < a.1.serial ∨ (x.1.serial = a.1.serial ∧ a.2.block.val ≤ x.2.block.val)
      · rw [if_pos c]
        refine ⟨a, by simp, rfl, fun y hy => ?_⟩
        rcases List.mem_cons.1 hy with rfl | hy
        · right; exact ⟨rfl, Nat.le_refl _⟩
        · have := hm y hy
          unfold NotAfter at *; omega
      · rw [if_neg c]
        refine ⟨x, by simp [hx], rfl, fun y hy => ?_⟩
        rcases List.mem_cons.1 hy with rfl | hy
        · unfold NotAfter; omega
        · exact hm y hy

theorem candidate_unique {tally : List TallyEntry}
    (h : ((tally.flatMap TallyEntry.members).map Candidate.block).Nodup) {e f : TallyEntry} (he : e ∈ tally)
    (hf : f ∈ tally)
    {c d : Candidate} (hc : c ∈ e.members) (hd : d ∈ f.members) (hb : c.block = d.block) : e = f ∧ c = d := by
  induction tally with
  | nil => cases he
  | cons g l ih =>
    rw [List.flatMap_cons, List.map_append, List.nodup_append] at h
    obtain ⟨h1, h2, h3⟩ := h
    have hmem : ∀ x ∈ l, ∀ y ∈ x.members, y.block ∈ (l.flatMap TallyEntry.members).map Candidate.block :=
        fun x hx y hy =>
      List.mem_map.2 ⟨y, List.mem_flatMap.2 ⟨x, hx, hy⟩, rfl⟩
    rcases List.mem_cons.1 he with rfl | he' <;> rcases List.mem_cons.1 hf with rfl | hf'
    · exact ⟨rfl, List.inj_on_of_nodup_map h1 hc hd hb⟩
    · exact absurd hb (h3 _ (List.mem_map.2 ⟨c, hc, rfl⟩) _ (hmem f hf' d hd))
    · exact absurd hb.symm (h3 _ (List.mem_map.2 ⟨d, hd, rfl⟩) _ (hmem e he' c hc))
    · exact ih h2 he' hf'

theorem current_iff {tally : List TallyEntry} (h : ((tally.flatMap TallyEntry.members).map Candidate.block).Nodup)
    (e : TallyEntry) (c : Candidate) :
    CurrentVersion tally e c ↔ e ∈ tally ∧ c ∈ e.members ∧ currentVersion
        (completeCandidates (judgeTally tally)) c.page = some (judgedEntry tally e, c) := by
  unfold currentVersion
  have hmem : ∀ x page, x ∈ (completeCandidates (judgeTally tally)).filter (fun x => x.2.page == page) ↔
      (∃ e ∈ tally, e.Complete tally ∧ x.2 ∈ e.members ∧ x.1 = judgedEntry tally e) ∧ x.2.page = page := by
    intro x page; rw [List.mem_filter, mem_cands]; simp
  constructor
  · rintro ⟨he, hcpl, hc, hmax⟩
    refine ⟨he, hc, ?_⟩
    have hin : (judgedEntry tally e, c) ∈ (completeCandidates (judgeTally tally)).filter
        (fun x => x.2.page == c.page) := (hmem _ _).2 ⟨⟨e, he, hcpl, hc, rfl⟩, rfl⟩
    rcases best_spec ((completeCandidates (judgeTally tally)).filter (fun x => x.2.page == c.page)) with ⟨k, -⟩ | ⟨x,
        hx, hb, hm⟩
    · rw [k] at hin; cases hin
    · rw [hb]
      obtain ⟨⟨f, hf, hfc, hd, e1⟩, e2⟩ := (hmem _ _).1 hx
      have m1 := hm _ hin
      have m2 := hmax f hf hfc x.2 hd e2
      have es : x.1.serial = f.serial := by rw [e1]; rfl
      unfold NotAfter at m1
      rw [es] at m1
      have e3 : (judgedEntry tally e).serial = e.serial := rfl
      rw [e3] at m1
      have hblk : x.2.block = c.block := Fin.ext (by simp only at m1; omega)
      obtain ⟨k1, k2⟩ := candidate_unique h hf he hd hc hblk
      obtain ⟨x1, x2⟩ := x
      simp only at *
      subst k1 k2 e1
      rfl
  · rintro ⟨he, hc, hv⟩
    rcases best_spec ((completeCandidates (judgeTally tally)).filter (fun x => x.2.page == c.page)) with ⟨-, k⟩ | ⟨x,
        hx, hb, hm⟩
    · rw [k] at hv; cases hv
    · rw [hb] at hv; cases hv
      obtain ⟨⟨f, hf, hfc, hd, e1⟩, -⟩ := (hmem _ _).1 hx
      obtain ⟨k1, -⟩ := candidate_unique h hf he hd hc rfl
      subst k1
      refine ⟨hf, hfc, hc, fun g hg hgc d hdg hp => ?_⟩
      exact hm (judgedEntry tally g, d) ((hmem _ _).2 ⟨⟨g, hg, hgc, hdg, rfl⟩, hp⟩)

theorem poolOrder_trans (bm : BlockManager) {a b c : BlockId} (h : bm.Before a b) (k : bm.Before b c) :
    bm.Before a c := by
  unfold BlockManager.Before at *; omega

theorem insert_sorted (bm : BlockManager) (b : BlockId) (l : List BlockId) (h : l.Pairwise bm.Before)
    (hb : b ∉ l) : (bm.insertByOrder b l).Pairwise bm.Before := by
  obtain ⟨x, y, rfl, e2, h1, h2⟩ := insertByOrder_spec bm b l
  rw [e2]
  obtain ⟨p1, p2, p3⟩ := List.pairwise_append.1 h
  refine List.pairwise_append.2 ⟨p1, List.pairwise_cons.2 ⟨fun z hz => ?_, p2⟩, fun z hz w hw => ?_⟩
  · cases y with
    | nil => cases hz
    | cons y0 ys =>
      have := h2 y0 rfl
      rcases List.mem_cons.1 hz with rfl | hz
      · exact this
      · exact poolOrder_trans bm this ((List.pairwise_cons.1 p2).1 z hz)
  · rcases List.mem_cons.1 hw with rfl | hw
    · have h3 := h1 z hz
      have ne : z.val ≠ w.val := fun e => hb (List.mem_append.2 (.inl (by rwa [← Fin.ext e])))
      unfold BlockManager.Before at *; omega
    · exact p3 z hz w hw

theorem pool_spec (bm : BlockManager) (l : List BlockId) (hl : l.Nodup) (pool : List BlockId)
    (hp : pool.Pairwise bm.Before) (hd : ∀ x ∈ l, x ∉ pool) :
    (l.foldl (fun pool b => bm.insertByOrder b pool) pool).Pairwise bm.Before ∧ ∀ x,
        x ∈ l.foldl (fun pool b => bm.insertByOrder b pool) pool ↔ x ∈ l ∨ x ∈ pool := by
  induction l generalizing pool with
  | nil => exact ⟨hp, fun x => by simp⟩
  | cons a l ih =>
    obtain ⟨ha, hl⟩ := List.nodup_cons.1 hl
    rw [List.foldl_cons]
    have hm : ∀ x, x ∈ bm.insertByOrder a pool ↔ x = a ∨ x ∈ pool :=
        fun x => by rw [(insertByOrder_perm bm a pool).mem_iff]; simp
    obtain ⟨i1, i2⟩ := ih hl (bm.insertByOrder a pool) (insert_sorted bm a pool hp (hd a (by simp)))
        (fun x hx hk => by
      rcases (hm x).1 hk with rfl | hk
      · exact ha hx
      · exact hd x (by simp [hx]) hk)
    refine ⟨i1, fun x => ?_⟩
    rw [i2, hm, List.mem_cons]
    tauto

theorem blocksOf_sorted (bm : BlockManager) (c : BlockClass) : (bm.blocksOf c).Pairwise (· < ·) :=
  (List.pairwise_lt_finRange 512).filter _

theorem mem_blocksOf (bm : BlockManager) (c : BlockClass) (b : BlockId) :
    b ∈ bm.blocksOf c ↔ bm.classOf b = some c := by
  simp [BlockManager.blocksOf, allBlocks, BlockManager.classOf]

theorem collect_lists (bm : BlockManager) : bm.collect.freePool =
    (bm.blocksOf .free).foldl (fun pool b => bm.insertByOrder b pool) [] ∧ bm.collect.dirtyList = bm.blocksOf .dirty
    ∧ bm.collect.retiredSet = bm.blocksOf .retired := by
  unfold BlockManager.collect
  simp only [refresh_freePool, refresh_dirtyList, refresh_retiredSet, and_self]

theorem block_of_table {bm bm' : BlockManager} (h : bm.table = bm'.table) (b : BlockId) : bm.block b = bm'.block b :=
    by unfold BlockManager.block; rw [h]

theorem collect_table (bm : BlockManager) : bm.collect.table = bm.table :=
    by unfold BlockManager.collect; rw [refresh_table]

theorem collect_class (bm : BlockManager) (b : BlockId) : bm.collect.classOf b = bm.classOf b := by
  unfold BlockManager.classOf; rw [block_of_table (collect_table bm)]

theorem collect_before (bm : BlockManager) : bm.collect.Before = bm.Before := by
  have : bm.collect.eraseCount = bm.eraseCount := by
    funext b; unfold BlockManager.eraseCount; rw [block_of_table (collect_table bm)]
  unfold BlockManager.Before
  rw [this]

theorem collect_spec (bm : BlockManager) : (bm.collect.freePool.Pairwise bm.collect.Before ∧ ∀ b,
    b ∈ bm.collect.freePool ↔ bm.collect.classOf b = some .free)
    ∧ (bm.collect.dirtyList.Pairwise (· < ·) ∧ ∀ b, b ∈ bm.collect.dirtyList ↔ bm.collect.classOf b = some .dirty)
    ∧ (bm.collect.retiredSet.Pairwise (· < ·) ∧ ∀ b, b ∈ bm.collect.retiredSet ↔ bm.collect.classOf b =
        some .retired) := by
  obtain ⟨h1, h2⟩ := pool_spec bm (bm.blocksOf .free) ((blocksOf_sorted bm .free).imp
      fun h => Fin.ne_of_lt h) [] List.Pairwise.nil (by simp)
  obtain ⟨e1, e2, e3⟩ := collect_lists bm
  rw [e1, e2, e3, collect_before]
  simp only [collect_class]
  refine ⟨⟨h1, fun b => ?_⟩, ⟨blocksOf_sorted _ _, fun b => mem_blocksOf _ _ _⟩,
      ⟨blocksOf_sorted _ _, fun b => mem_blocksOf _ _ _⟩⟩
  rw [h2, mem_blocksOf]; simp

theorem built_block (s : State) (b : BlockId) : s.buildTables.bm.block b =
    some (s.builtRecord (completeCandidates (judgeTally s.mount.tally))
    (builtPages (completeCandidates (judgeTally s.mount.tally))) b) := by
  have : s.buildTables.bm.table = Vector.ofFn fun b => some (s.builtRecord
      (completeCandidates (judgeTally s.mount.tally)) (builtPages
      (completeCandidates (judgeTally s.mount.tally))) b) := by
    unfold State.buildTables BlockManager.collect; rfl
  unfold BlockManager.block
  rw [this, Vector.getElem_ofFn]

theorem voidingList_sorted (j : List TallyEntry) : (voidingList j).Pairwise (· < ·) := by
  unfold voidingList
  exact List.Pairwise.filter _ (List.pairwise_lt_finRange 512)

theorem built_mount (s : State) : s.buildTables.mount =
    { s.mount with stage := .built, tally := judgeTally s.mount.tally,
                   voidList := voidingList (judgeTally s.mount.tally) } := by
  unfold State.buildTables
  dsimp only

theorem built_lists (s : State) : ∃ bm : BlockManager, s.buildTables.bm = bm.collect := ⟨_, rfl⟩

theorem built_entry (s : State) (q : PageId) : s.buildTables.map.entry q =
    (currentVersion (completeCandidates (judgeTally s.mount.tally)) q).map fun x =>
    { block := x.2.block, serial := x.1.serial, writer := x.1.writer } := by
  show (Vector.ofFn _)[q.val] = _
  rw [Vector.getElem_ofFn]

theorem builtPages_get (cands : List (TallyEntry × Candidate)) (q : PageId) : (builtPages cands)[q.val] =
    (currentVersion cands q).map fun x =>
    { block := x.2.block, serial := x.1.serial, writer := x.1.writer } := by
  unfold builtPages
  rw [Vector.getElem_ofFn]

theorem currentVersion_mem (cands : List (TallyEntry × Candidate)) (q : PageId) (x)
    (h : currentVersion cands q = some x) : x ∈ cands ∧ x.2.page = q := by
  unfold currentVersion at h
  rcases best_spec (cands.filter fun x => x.2.page == q) with ⟨-, k⟩ | ⟨y, hy, k, -⟩
  · rw [k] at h; cases h
  · rw [k] at h; cases h
    simpa using hy

/-- The DATA fields of a block are those of the current version on it (R120). -/
theorem builtData_some {tally : List TallyEntry}
    (h : ((tally.flatMap TallyEntry.members).map Candidate.block).Nodup) {e : TallyEntry} {c : Candidate}
    (hv : CurrentVersion tally e c) :
    builtData (completeCandidates (judgeTally tally)) (builtPages (completeCandidates (judgeTally tally))) c.block =
        some { page := c.page, serial := e.serial, index := c.index, count := e.count, writer := e.writer } := by
  have hcur := (current_iff h e c).1 hv
  unfold builtData
  cases hf : (completeCandidates (judgeTally tally)).find? fun x => x.2.block == c.block &&
      ((builtPages (completeCandidates (judgeTally tally)))[x.2.page.val].map (·.block)) == some c.block with
  | none =>
    exfalso
    have := List.find?_eq_none.1 hf (judgedEntry tally e, c) ((mem_cands _ _).2 ⟨e, hv.1, hv.2.1, hv.2.2.1, rfl⟩)
    apply this
    simp only [builtPages_get, hcur.2.2]
    simp
  | some x =>
    have h1 := List.mem_of_find?_eq_some hf
    have h2 := List.find?_some hf
    obtain ⟨f, hf', hfc, hd, e1⟩ := (mem_cands _ _).1 h1
    have hb : x.2.block = c.block := by simp at h2; exact h2.1
    obtain ⟨k1, k2⟩ := candidate_unique h hf' hv.1 hd hv.2.2.1 hb
    rw [Option.map_some, k2, e1, k1]
    rfl

theorem builtData_none {tally : List TallyEntry} (h : ((tally.flatMap TallyEntry.members).map Candidate.block).Nodup)
    (b : BlockId) (hn : ∀ e c, CurrentVersion tally e c → c.block ≠ b) :
    builtData (completeCandidates (judgeTally tally)) (builtPages (completeCandidates (judgeTally tally))) b =
        none := by
  unfold builtData
  rw [Option.map_eq_none_iff, List.find?_eq_none]
  intro x hx hk
  rw [Bool.and_eq_true, beq_iff_eq, beq_iff_eq, builtPages_get] at hk
  obtain ⟨h1, h2⟩ := hk
  rw [Option.map_map, Option.map_eq_some_iff] at h2
  obtain ⟨y, hy, h2⟩ := h2
  obtain ⟨hym, hyp⟩ := currentVersion_mem _ _ _ hy
  obtain ⟨e, he, hec, hem, e1⟩ := (mem_cands _ _).1 hym
  refine hn e y.2 ((current_iff h e y.2).2 ⟨he, hem, ?_⟩) h2
  rw [hyp, hy, ← e1]

theorem tally_cands (st : DataStamp) (b : BlockId) (l : List TallyEntry) :
    ((tallyAdd st b l).flatMap TallyEntry.members).Perm (st.candidate b :: l.flatMap TallyEntry.members) := by
  induction l with
  | nil => simp [tallyAdd]
  | cons e rest ih =>
    unfold tallyAdd
    split
    · simp only [List.flatMap_cons, List.append_assoc, List.singleton_append]
      exact List.perm_middle
    · simp only [List.flatMap_cons]
      exact (ih.append_left _).trans List.perm_middle

theorem tally_serials (st : DataStamp) (b : BlockId) (l : List TallyEntry) (h : (l.map TallyEntry.serial).Nodup) :
    ((tallyAdd st b l).map TallyEntry.serial).Nodup ∧ ∀ x, x ∈ (tallyAdd st b l).map TallyEntry.serial → x =
        st.serial ∨ x ∈ l.map TallyEntry.serial := by
  induction l with
  | nil => simp [tallyAdd]
  | cons e rest ih =>
    rw [List.map_cons] at h
    obtain ⟨h1, h2⟩ := List.nodup_cons.1 h
    obtain ⟨i1, i2⟩ := ih h2
    unfold tallyAdd
    split
    · exact ⟨by simpa using h, fun x hx => .inr (by simpa using hx)⟩
    · next ne =>
      rw [List.map_cons]
      refine ⟨List.nodup_cons.2 ⟨fun k => ?_, i1⟩, fun x hx => ?_⟩
      · rcases i2 _ k with k | k
        · exact ne k
        · exact h1 k
      · rcases List.mem_cons.1 hx with rfl | hx
        · simp
        · rcases i2 x hx with k | k
          · exact .inl k
          · right; simp only [List.map_cons, List.mem_cons]; exact .inr k

end Sys2Proof.Laws
end

