-- ==== Sys2Proof/Laws/Offers.lean ====
section
/-! SUPPORT. The offers of notices, port by port, and the hand-offs of a flip as they are taken. -/

namespace Sys2Proof.Laws

open Sys2Proof Sys2Proof.Machine

theorem currentLine_eq (s : State) (bytes : List Byte) (h : bytes.length = 256 ∧ ∀ o, o < 256 →
      bytes[o]? = some (mergedByte s.flash [] (s.map.currentBlock Config.windowsPage) o)) :
    s.currentLine Config.windowsPage 0 = bytes := by
  apply List.ext_getElem?
  intro o
  by_cases ho : o < 256
  · rw [h.2 o ho]
    unfold State.currentLine mergedByte
    have : Buffer.staged [] o = none := rfl
    rw [this]
    cases s.map.currentBlock Config.windowsPage with
    | none => simp only [Config.lineBytes]; rw [List.getElem?_replicate, if_pos ho]; rfl
    | some b => simp [Memory.line, Memory.readBytes, Config.lineBytes, dataAddr, ho]
  · rw [List.getElem?_eq_none (l := bytes) (by omega)]
    apply List.getElem?_eq_none
    unfold State.currentLine
    cases s.map.currentBlock Config.windowsPage with
    | none => simp only [Config.lineBytes]; rw [List.length_replicate]; omega
    | some b => simp only [Memory.line, Memory.readBytes, Config.lineBytes, List.length_map, List.length_range]; omega

theorem noteHandoff_taken (s : State) (w : FlipWork) : s.HandoffTaken (s.noteHandoff w) w := by
  obtain ⟨a, b, c, d, e1, e2, e3, e4⟩ := w
  refine ⟨fun h1 h2 => ?_, fun h => ?_, fun r h1 h2 => ?_, fun h => ?_⟩
  · simp_all [State.noteHandoff, FlipWork.rest, FlipWork.reported]
  · cases e1 <;> cases e2 <;> cases e3 <;> cases e4 <;> simp_all [State.noteHandoff, FlipWork.rest, FlipWork.reported]
  · simp_all [State.noteHandoff, FlipWork.reported, Engine.takeReport]
  · cases e1 <;> cases e2 <;> cases e3 <;> (try simp [State.noteHandoff, FlipWork.reported]) 
    have h : ∀ r, s.eng.work ≠ .commit r .flipTaken := by simpa using h
    unfold Engine.takeReport
    split
    · next r e => exact absurd e (h r)
    · rfl

theorem offer_took (n : NoticePort) (o : Notice) : n.Took (n.offer o) o := by
  have hany : (n.queue.any fun e => e.kind == o.kind) = true ↔ ∃ e ∈ n.queue, e.kind = o.kind :=
      by simp [List.any_eq_true]
  unfold NoticePort.offer
  refine ⟨?_, fun h => ?_, fun h h2 => ?_, fun h h2 => ?_⟩
  · split; rfl; split <;> rfl
  · rw [if_pos (hany.2 h)]
    refine ⟨?_, rfl⟩
    show coalesce o n.queue = _
    unfold coalesce
    apply List.map_congr_left
    intro e _
    split
    · next k => obtain ⟨⟩ := o; obtain ⟨⟩ := e; simp_all
    · rfl
  · have : ¬ (n.queue.any fun e => e.kind == o.kind) = true := fun k => by
      obtain ⟨e, h3, h4⟩ := hany.1 k
      exact h e h3 h4
    rw [if_neg this, if_pos (show n.queue.length < Config.noticeSlots from h2)]; exact ⟨rfl, rfl⟩
  · have : ¬ (n.queue.any fun e => e.kind == o.kind) = true := fun k => by
      obtain ⟨e, h3, h4⟩ := hany.1 k
      exact h e h3 h4
    rw [if_neg this, if_neg
        (show ¬ n.queue.length < Config.noticeSlots by simp only [Config.noticeSlots]; omega)]; exact ⟨rfl, rfl⟩

/-- Nothing but the notices of the ports changed. -/
structure NoticeOnly (s t : State) : Prop where
  frame : t = { s with notices := t.notices }

theorem NoticeOnly.trans {s t u : State} (h : NoticeOnly s t) (k : NoticeOnly t u) : NoticeOnly s u :=
  ⟨by have h1 := h.frame; have h2 := k.frame; rw [h1] at h2; exact h2⟩

theorem offerTo_only (s : State) (p : PortId) (o : Notice) : NoticeOnly s (s.offerTo p o) := by
  unfold State.offerTo; split <;> exact ⟨rfl⟩

theorem offerTo_notice (s : State) (p q : PortId) (o : Notice) :
    (s.offerTo p o).notice q = if q = p ∧ (s.port p).prstLow = false then (s.notice q).offer o else s.notice q := by
  unfold State.offerTo
  by_cases h : (s.port p).prstLow = true
  · simp [h]
  · rw [if_neg h, notice_setNotice_eq]
    by_cases e : q = p
    · subst e; simp [h]
    · simp [e]

/-- A pass over the ports that offers each at most one notice. -/
theorem pass_spec (cond : State → PortId → Bool) (o : Notice)
    (hc : ∀ s t p, t = { s with notices := t.notices } → t.notice p = s.notice p → cond t p = cond s p)
        (l : List PortId) (hl : l.Nodup) (s : State) :
    NoticeOnly s (l.foldl (fun t p => if cond t p then t.offerTo p o else t) s) ∧
    ∀ q, (l.foldl (fun t p => if cond t p then t.offerTo p o else t) s).notice q =
      if q ∈ l ∧ cond s q = true ∧ (s.port q).prstLow = false then (s.notice q).offer o else s.notice q := by
  induction l generalizing s with
  | nil => exact ⟨⟨rfl⟩, fun q => by simp⟩
  | cons a l ih =>
    obtain ⟨ha, hl⟩ := List.nodup_cons.1 hl
    rw [List.foldl_cons]
    generalize ht : (if cond s a then s.offerTo a o else s) = t
    have f : NoticeOnly s t := by rw [← ht]; split; exact offerTo_only _ _ _; exact ⟨rfl⟩
    have hn : ∀ q, t.notice q = if q = a ∧ cond s a = true ∧ (s.port a).prstLow =
        false then (s.notice q).offer o else s.notice q := by
      intro q; rw [← ht]
      by_cases k : cond s a = true
      · simp [k, offerTo_notice]
      · simp [k]
    obtain ⟨i1, i2⟩ := ih hl t
    refine ⟨f.trans i1, fun q => ?_⟩
    rw [i2 q]
    have hp : t.port q = s.port q := by rw [f.frame]; rfl
    by_cases e : q = a
    · subst e; simp [ha, hn]
    · have : t.notice q = s.notice q := by rw [hn]; simp [e]
      rw [hc s t q f.frame this, this, hp]
      simp [e]

theorem alerts_follow (s : State) (n : Vector NoticePort 4) : s.AlertsFollow { s with notices := n }.refreshAlerts :=
  ⟨fun p => by rw [port_refreshAlerts]; rfl, refreshAlerts_law _⟩

theorem handoffTaken_of_same (s t : State) (w : FlipWork) (e1 : t.map = s.map) (e2 : t.eng = s.eng) :
    s.HandoffTaken (t.noteHandoff w) w := by
  obtain ⟨a, b, c, d⟩ := noteHandoff_taken t w
  rw [e1] at a b; rw [e2] at c d
  exact ⟨a, b, c, d⟩

theorem alertsFollow_handoff (s t : State) (w : FlipWork)
    (h : ∀ p, { t.port p with alert := (s.port p).alert } = s.port p) : s.AlertsFollow (t.refreshAlerts.noteHandoff w) :=
    by
  constructor
  · intro p
    have e : (t.refreshAlerts.noteHandoff w).port p = t.refreshAlerts.port p := rfl
    rw [e, port_refreshAlerts]
    exact h p
  · exact refreshAlerts_law t

theorem refresh_frame (s : State) : s.refreshAlerts = { s with ports := s.refreshAlerts.ports } := rfl

theorem offerTable_spec (s : State) (n : Nat) (w : PortId) :
    NoticeOnly s (s.offerTable n w) ∧ ∀ q, (s.offerTable n w).notice q = if q ≠ w
    ∧ (s.port q).prstLow = false then (s.notice q).offer ⟨.tableChanged, n, w⟩ else s.notice q := by
  have e : s.offerTable n w = (List.finRange 4).foldl (fun t p => if (p != w) then t.offerTo p ⟨.tableChanged, n,
      w⟩ else t) s := by
    unfold State.offerTable
    congr 1; funext t p
    by_cases h : p = w <;> simp [h]
  rw [e]
  obtain ⟨h1, h2⟩ := pass_spec (fun _ p => p != w) ⟨.tableChanged, n,
      w⟩ (fun _ _ _ _ _ => rfl) (List.finRange 4) (List.nodup_finRange 4) s
  exact ⟨h1, fun q => by rw [h2]; simp⟩

theorem offerFlip_spec (s : State) (n : Nat) (w : PortId) (pages : List PageId) :
    NoticeOnly s (s.offerFlip n w pages) ∧ ∀ q, (q = w ∨ (s.port q).prstLow = true → (s.offerFlip n w pages).notice q =
        s.notice q) ∧
     (q ≠ w → (s.port q).prstLow = false → (s.notice q).TookAll ((s.offerFlip n w pages).notice q)
         ((pages.filter fun x => (s.notice q).watchesPage x && s.prot.table.canRead q x.val).map fun x =>
              { kind := .pageChanged x, serial := n, writer := w })) := by
  unfold State.offerFlip
  induction pages generalizing s with
  | nil => exact ⟨⟨rfl⟩, fun q => ⟨fun _ => rfl, fun _ _ => rfl⟩⟩
  | cons a l ih =>
    rw [List.foldl_cons]
    generalize ht : s.offerPage n w a = t
    have hp : NoticeOnly s t ∧ ∀ q, t.notice q = if q ≠ w ∧ (s.notice q).watchesPage a = true
        ∧ s.prot.table.canRead q a.val = true ∧ (s.port q).prstLow =
        false then (s.notice q).offer ⟨.pageChanged a, n, w⟩ else s.notice q := by
      rw [← ht]
      obtain ⟨h1, h2⟩ := pass_spec (fun u p => u.pageOfferDue w a p) ⟨.pageChanged a, n, w⟩ (fun u t p hu hn => by
        unfold State.pageOfferDue; rw [hn]; rw [hu]) (List.finRange 4) (List.nodup_finRange 4) s
      exact ⟨h1, fun q => by
        have e : ∀ u p, State.pageOfferDue u w a p = true ↔ p ≠ w ∧ (u.notice p).watchesPage a = true
            ∧ u.prot.table.canRead p a.val = true := by
          intro u p; simp only [State.pageOfferDue, Bool.and_eq_true, bne_iff_ne, and_assoc]
        refine (h2 q).trans ?_
        simp only [List.mem_finRange, true_and, e, and_assoc]⟩
    obtain ⟨f, hn⟩ := hp
    obtain ⟨g, hq⟩ := ih t
    refine ⟨f.trans g, fun q => ⟨fun h => ?_, fun h1 h2 => ?_⟩⟩
    · rw [(hq q).1 (by rcases h with h | h; exact .inl h; right; rw [f.frame]; exact h), hn, if_neg]
      rintro ⟨k1, -, -, k2⟩
      rcases h with h | h
      · exact k1 h
      · simp [h] at k2
    · have := (hq q).2 h1 (by rw [f.frame]; exact h2)
      have hw : ∀ x, (t.notice q).watchesPage x = (s.notice q).watchesPage x := by
        intro x; rw [hn]; split
        · unfold NoticePort.watchesPage; rw [(offer_took (s.notice q) _).1]
        · rfl
      have hc : t.prot = s.prot := by rw [f.frame]
      simp only [hw, hc] at this
      by_cases k : ((s.notice q).watchesPage a && s.prot.table.canRead q a.val) = true
      · rw [show (a :: l).filter (fun x => (s.notice q).watchesPage x && s.prot.table.canRead q x.val) =
          a :: l.filter (fun x =>
          (s.notice q).watchesPage x && s.prot.table.canRead q x.val) from List.filter_cons_of_pos k, List.map_cons]
        refine ⟨t.notice q, ?_, this⟩
        rw [hn, if_pos ⟨h1, by simpa using (Bool.and_eq_true_iff.1 k).1, (Bool.and_eq_true_iff.1 k).2, h2⟩]
        exact offer_took _ _
      · rw [show (a :: l).filter (fun x => (s.notice q).watchesPage x && s.prot.table.canRead q x.val) =
          l.filter (fun x => (s.notice q).watchesPage x && s.prot.table.canRead q x.val) from List.filter_cons_of_neg k]
        have e : t.notice q = s.notice q := by
          rw [hn, if_neg]
          rintro ⟨-, k1, k2, -⟩
          exact k (by simp [k1, k2])
        rw [e] at this
        exact this

end Sys2Proof.Laws
end

