-- ==== Sys2Proof/Laws/Resets.lean ====
section
/-! SUPPORT. Frames under reset, cuts of the operation in flight, and the cleared state. -/

namespace Sys2Proof.Laws

open Sys2Proof Sys2Proof.Machine

theorem portHeld_iff (s : State) (p : PortId) : s.portHeld p = true ↔
    ((s.port p).prstLow = true ∨ s.power.resetLow = true ∨ s.power.supplied = false) := by
  unfold State.portHeld State.running
  cases s.power.supplied <;> cases s.power.resetLow <;> cases (s.port p).prstLow <;> simp

theorem endStream_eq (s : State) (p : PortId) (r : Port) :
    (s.endStream p).setPort p r = State.setPort { s with bm := s.bm.unpinPage (streamPin (s.port p).stream) } p r :=
        by
  simp [State.endStream]

theorem portHeld_endStream (s : State) (p : PortId) : (s.endStream p).port p = { s.port p with stream := none } := by
  simp [State.endStream]

theorem running_iff (s : State) : s.running = true ↔ s.power.supplied = true ∧ s.power.resetLow = false := by
  simp [State.running]

theorem cutFlash_frame (s : State) (c : Cut) : s.cutFlash c = { s with flash := (s.cutFlash c).flash } := by
  unfold State.cutFlash; split <;> rfl

theorem cutOp_programmed (m : Memory) (op : FlashOp) (c : Cut) (ne : ∀ b, op ≠ .erase b) (a : Nat) (h : m.read a ≠ 0xFF) :
    (m.cutOp op c).read a = m.read a := by
  cases op with
  | erase b => exact absurd rfl (ne b)
  | _ => exact read_programBytes_kept _ _ _ _ h

/-- In its second phase a cut erase has erased the data area and the data slot (R3). -/
theorem cutOp_second (m : Memory) (b : BlockId) (c : Cut) (h : c.secondPhase = true) :
    (∀ o, o < 4096 → (m.cutOp (.erase b) c).read (dataAddr b o) = 0xFF)
    ∧ ∀ j, 8 ≤ j → j < 32 → (m.cutOp (.erase b) c).read (spareAddr b j) = 0xFF := by
  constructor
  · intro o hoo
    simp only [Memory.cutOp, h, if_true]
    rw [read_overlay_outside, read_eraseRange, read_eraseRange]
    · rw [if_neg (by simp only [spareAddr, dataAddr, Config.blockBytes, Config.pageBytes]; omega),
        if_pos (by simp only [dataAddr, Config.blockBytes]; omega)]; rfl
    · simp only [List.mem_append, List.mem_map, List.mem_range, spareAddr, dataAddr, Config.blockBytes,
        Config.pageBytes, not_or, not_exists]
      refine ⟨⟨fun x => ?_, fun x => ?_⟩, fun x => ?_⟩ <;> omega
  · intro j h2 h3
    simp only [Memory.cutOp, h, if_true]
    rw [read_overlay_outside, read_eraseRange]
    · rw [if_pos (by simp only [spareAddr, dataAddr, Config.blockBytes, Config.pageBytes]; omega)]; rfl
    · simp only [List.mem_append, List.mem_map, List.mem_range, spareAddr, dataAddr, Config.blockBytes,
        Config.pageBytes, not_or, not_exists]
      refine ⟨⟨fun x => ?_, fun x => ?_⟩, fun x => ?_⟩ <;> omega

/-- In its first phase a cut erase leaves the free stamp and the discard word (R3). -/
theorem cutOp_first (m : Memory) (b : BlockId) (c : Cut) (h : c.secondPhase = false) (j : Nat) (hj : j < 8 ∨ 32 ≤ j ∧ j < 36) :
    (m.cutOp (.erase b) c).read (spareAddr b j) = m.read (spareAddr b j) := by
  simp only [Memory.cutOp, h]
  rw [if_neg (by simp), read_overlay_outside]
  simp only [List.mem_append, List.mem_map, List.mem_range, spareAddr, dataAddr, Config.blockBytes,
      Config.pageBytes, not_or, not_exists]
  refine ⟨⟨fun x => ?_, fun x => ?_⟩, fun x => ?_⟩ <;> omega

theorem dataStamp_none (m : Memory) (b : BlockId) (h : m.read (spareAddr b 8) = 0xFF) : dataStamp (m.spare b) = none := by
  have e : byteAt (m.spare b) 8 = 0xFF := (getD_spare m b 8 (by omega)).trans h
  unfold dataStamp
  rw [if_neg]
  intro k
  rw [e] at k
  exact absurd k.1 (by decide)

theorem cutFlash_some (s : State) (c : Cut) (op : FlashOp) (h : s.eng.work.inFlight = some op) :
    (s.cutFlash c).flash = s.flashCut op c := by
  unfold State.cutFlash; rw [h]

theorem cutFlash_cut (s t : State) (c : Cut) (h : t.flash = (s.cutFlash c).flash) : s.CutArray t c := by
  refine ⟨fun hn => ?_, fun op ho => ?_, fun b ho h1 => ?_, fun b ho h1 => ?_, fun op ho => ⟨fun ne a ha => ?_, fun hl =>
    ⟨fun v => ?_, fun v => ?_⟩⟩⟩
  · rw [h]; unfold State.cutFlash; rw [hn]
  · rw [h, cutFlash_some s c op ho]
    exact settle_outside s op _ (cutOp_outside s op c)
  · intro j hj
    rw [h, cutFlash_some s c _ ho]
    exact read_settle_same s _ _ _ (cutOp_first s.flash b c h1 j hj)
  · obtain ⟨k1, k2⟩ := cutOp_second s.flash b c h1
    have raw : ∀ a, (spareAddr b 6 ≤ a ∨ a < spareAddr b 0) →
        (s.flashCut (.erase b) c).read a = (s.flash.cutOp (.erase b) c).read a := by
      intro a ha
      classical
      show (s.settle _ _).read a = _
      rw [read_settle, if_neg]
      have e := dataStamp_none _ _ (k2 8 (by omega) (by omega))
      unfold Memory.spare at e
      rintro (k | k | k)
      · have := k.1.2.1
        unfold FlashOp.block at this
        rw [e] at this; cases this
      · simp only [FlashOp.block] at k; omega
      · have := k.1.2.1
        unfold FlashOp.block at this
        rw [e] at this; cases this
    rw [h, cutFlash_some s c _ ho]
    refine ⟨fun o hoo => ?_, fun j h2 h3 => ?_⟩
    · rw [raw _ (.inr (by simp only [spareAddr, dataAddr, Config.blockBytes, Config.pageBytes]; omega))]; exact k1 o hoo
    · rw [raw _ (.inl (by simp only [spareAddr, Config.blockBytes, Config.pageBytes]; omega))]; exact k2 j h2 h3
  · rw [h, cutFlash_some s c op ho]
    exact read_settle_same s op _ a (cutOp_programmed s.flash op c ne a ha)
  · rw [h, cutFlash_some s c op ho] at v ⊢
    exact settle_dataStamp s op _ op.block (cutOp_outside s op c) hl v
  · rw [h, cutFlash_some s c op ho] at v ⊢
    exact settle_freeStamp s op _ op.block (cutOp_outside s op c) hl v

/-- A state whose SRAM was cleared has every table in its reset state (R93, R112, R161). -/
theorem clear_reset (s t : State) (h1 : t.bm = BlockManager.reset) (h2 : t.map = MapUnit.reset)
    (h3 : t.ses = SessionUnit.reset)
    (h4 : ∃ m, t.eng = Engine.reset m) (h5 : t.prot.table = .empty)
        (h6 : t.notices = Vector.replicate 4 NoticePort.reset)
    (h7 : ∃ c, t.mount = Mount.start c) : t.TablesReset := by
  obtain ⟨m, h4⟩ := h4
  obtain ⟨c, h7⟩ := h7
  refine ⟨?_, ?_, ?_, ?_, ?_, ?_, ?_, ?_, ?_, ?_, ?_, ?_, ?_, ?_, ?_, ?_, ?_, ?_, h5, ?_, ?_, ?_,
      ?_⟩ <;> (try intro x) <;>
    simp [h1, h2, h3, h4, h6, h7, BlockManager.reset, MapUnit.reset, SessionUnit.reset, Engine.reset, Mount.start,
        BlockManager.block, MapUnit.entry, SessionUnit.session, SessionUnit.claim, Engine.queueOf, State.notice,
        NoticePort.reset]
  decide

theorem held_cleared (s t : State) (h : t.ports = s.ports.map Port.held) (p : PortId) :
    Port.Cleared (s.port p) (t.port p) (s.port p).prstLow := by
  simp [Port.Cleared, State.port, h, Port.held, Port.reset, Config.defaultLease]

theorem held_port (s t : State) (h : t.ports = s.ports.map Port.held) (p : PortId) : t.port p = (s.port p).held := by
  simp [State.port, h]

theorem freed_cleared (s t : State) (h : t.ports = (s.ports.map Port.held).map Port.freed) (p : PortId) :
    Port.Cleared (s.port p) { t.port p with decoder := .ignored } (s.port p).prstLow
      ∧ ((t.port p).decoder = .idle ↔ (s.port p).csLow = false ∧ (s.port p).prstLow = false)
      ∧ ((t.port p).decoder = .ignored ↔ (s.port p).csLow = true ∨ (s.port p).prstLow = true) := by
  have : t.port p = (Port.held (s.port p)).freed := by simp [State.port, h]
  rw [this]
  refine ⟨by simp [Port.Cleared, Port.freed, Port.held, Port.reset, Config.defaultLease], ?_, ?_⟩ <;>
    simp only [Port.freed, Port.held] <;> by_cases h1 : (s.port p).csLow = true <;> by_cases h2 : (s.port p).prstLow =
        true <;> simp [h1, h2]

theorem held_held (s : State) : (s.ports.map Port.held).map Port.held = s.ports.map Port.held := by
  simp [Port.held, Port.reset, Function.comp_def]

end Sys2Proof.Laws
end

