-- ==== Sys2Proof/Laws/Kept.lean ====
section
/-! SUPPORT. The laws of the part but those of the blocks and of the mount, operation by operation. -/

namespace Sys2Proof.Laws

open Sys2Proof Sys2Proof.Machine

/-- Every law of the part that holds in `s` holds in `t`; the laws of the blocks and of the mount are not spoken of. -/
structure Kept (s t : State) : Prop where
  flash : s.FlashLaw → t.FlashLaw
  alert : s.AlertLaw → t.AlertLaw
  notice : s.NoticeLaw → t.NoticeLaw
  claim : s.ClaimLaw → t.ClaimLaw
  buffer : s.ClaimLaw → s.BufferLaw → t.BufferLaw
  freeze : s.FreezeLaw → t.FreezeLaw
  space : s.SpaceLaw → t.SpaceLaw
  serial : s.SerialLaw → t.SerialLaw
  lease : s.LeaseLaw → t.LeaseLaw
  frame : s.FrameLaw → t.FrameLaw
  attach : s.AttachLaw → t.AttachLaw
  mapped : s.MappedLaw → t.MappedLaw

theorem Kept.refl (s : State) : Kept s s := ⟨id, id, id, id, fun _ => id, id, id, id, id, id, id, id⟩

theorem Kept.trans {s t u : State} (h : Kept s t) (k : Kept t u) : Kept s u :=
  ⟨fun x => k.flash (h.flash x), fun x => k.alert (h.alert x), fun x => k.notice (h.notice x),
      fun x => k.claim (h.claim x), fun x y => k.buffer (h.claim x) (h.buffer x y), fun x => k.freeze (h.freeze x),
      fun x => k.space (h.space x), fun x => k.serial (h.serial x), fun x => k.lease (h.lease x),
      fun x => k.frame (h.frame x), fun x => k.attach (h.attach x), fun x => k.mapped (h.mapped x)⟩

theorem Kept.ofMove {s t : State} (m : EngineMove s t) : Kept s t := by
  have hp : ∀ p, (t.port p).lease = (s.port p).lease ∧ (t.port p).csLow = (s.port p).csLow
      ∧ (t.port p).stream = (s.port p).stream ∧ (t.port p).sdo = (s.port p).sdo
      ∧ (t.port p).decoder = (s.port p).decoder ∧ (t.port p).received = (s.port p).received
      ∧ (t.port p).request = (s.port p).request ∧ (t.port p).statusTaken = (s.port p).statusTaken := fun p => by
    have := m.port p
    rw [← this]; exact ⟨rfl, rfl, rfl, rfl, rfl, rfl, rfl, rfl⟩
  refine ⟨fun h => ?_, m.alert, fun h => ?_, fun h => claims_kept m.ses h, fun _ h => buffers_kept m.ses h,
      fun h => ?_, m.space, m.serialLaw, fun h p => ?_, fun h p => ?_, fun h => attach_kept m.ses h, fun h => ?_⟩
  · unfold State.FlashLaw; rw [m.flash]; exact h
  · intro p
    have : t.notice p = s.notice p := by unfold State.notice; rw [m.notices]
    rw [this]; exact h p
  · intro hf
    rw [m.prot] at hf
    exact claim_none_kept m.ses _ (h hf)
  · rw [(hp p).1]; exact h p
  · obtain ⟨h1, h2, h3, h4, h5, h6, h7, h8⟩ := hp p
    rw [h2, h3, h4, h5, h6, h7, h8]; exact h p
  · unfold State.MappedLaw MapUnit.entry; rw [m.mapped, m.pages]; exact h

theorem Kept.ofFlash (s : State) (m : Memory) (h : s.FlashLaw → Memory.wf m) : Kept s { s with flash := m } :=
  ⟨h, id, id, id, fun _ => id, id, id, id, id, id, id, id⟩

/-- The law of the groups held of a STATUS: they are not all late, and no session entry is of a FREE slot (R176, R177). -/
def TakenOk (o : Option StatusGroups) : Prop :=
  ∀ g, o = some g → (∃ x : StatusOwner, x ∉ g.late) ∧ ∀ e ∈ g.sessions, e.2 ≠ SessionState.free

theorem takenOk_none : TakenOk none := fun g k => by cases k

theorem sessionsGroup_held (s : State) (p : PortId) : ∀ e ∈ s.sessionsGroup p, e.2 ≠ SessionState.free := by
  intro e he
  obtain ⟨i, hi, rfl⟩ := List.mem_map.1 he
  have := (List.mem_filter.1 hi).2
  simp only [SessionUnit.attachedTo, Bool.and_eq_true, bne_iff_ne] at this
  exact this.1

theorem takenOk_now (s : State) (p : PortId) : TakenOk (some (s.statusGroups p)) := fun g k => by
  cases k
  exact ⟨⟨.scanner, by simp [State.statusGroups]⟩, sessionsGroup_held s p⟩

theorem takenOk_retake (s : State) (p : PortId) (owners : List StatusOwner) (g : StatusGroups) (h : TakenOk (some g))
    (k : ∃ o, o ∉ g.late ++ owners) : TakenOk (some (g.retake (s.statusGroups p) owners)) := fun g' e => by
  cases e
  refine ⟨k, fun e he => ?_⟩
  simp only [StatusGroups.retake] at he
  split at he
  · exact sessionsGroup_held s p e he
  · exact (h g rfl).2 e he

/-- The frame law for one port (R162, R163, R177). -/
def FrameOk (r : Port) : Prop :=
  (r.csLow = false → r.stream = none ∧ r.statusTaken = none ∧ r.sdo = none ∧ (r.decoder = .idle ∨ r.decoder = .ignored))
  ∧ (r.decoder = .request → r.received = r.request.length) ∧ TakenOk r.statusTaken

/-- A port whose decoder is in use keeps the frame law whatever else of its frame changes, when in REQUEST the count is kept. -/
theorem FrameOk.active {r r' : Port} (h : FrameOk r) (h1 : r.decoder ≠ .idle) (h2 : r.decoder ≠ .ignored)
    (hc : r'.csLow = r.csLow) (hn : r'.decoder = .request → r'.received = r'.request.length) (he : TakenOk r'.statusTaken) :
    FrameOk r' := by
  refine ⟨fun k => ?_, hn, he⟩
  rw [hc] at k
  rcases (h.1 k).2.2.2 with x | x
  · exact absurd x h1
  · exact absurd x h2

/-- The lease law for one port (R162). -/
def LeaseOk (r : Port) : Prop := 1 ≤ r.lease.toNat ∧ r.lease.toNat ≤ 250

theorem Kept.ofPort (s : State) (p : PortId) (r : Port) (ha : r.alert = (s.port p).alert)
    (hl : LeaseOk (s.port p) → LeaseOk r) (hf : FrameOk (s.port p) → FrameOk r) : Kept s (s.setPort p r) := by
  have hp : ∀ q, ((s.setPort p r).port q).alert = (s.port q).alert := fun q => by
    rw [port_setPort_eq]; split
    · next e => subst e; exact ha
    · rfl
  refine ⟨id, fun h => alert_of_same h hp (fun _ => Iff.rfl) fun _ => rfl, id, id, fun _ => id, id, id, id,
      fun h q => ?_, fun h q => ?_, id, id⟩
  · rw [port_setPort_eq]; split
    · exact hl (h p)
    · exact h q
  · rw [port_setPort_eq]; split
    · exact hf (h p)
    · exact h q

theorem Kept.ofBm (s : State) (bm : BlockManager) (h : s.SpaceLaw → bm.lowSpace =
    decide (bm.freePool.length + bm.dirtyList.length < 4)) : Kept s { s with bm := bm } :=
  ⟨id, id, id, id, fun _ => id, id, h, id, id, id, id, id⟩

theorem Kept.ofPins (s : State) (bm : BlockManager) {d u : Option BlockId} (h : s.bm.PinsMoved bm d u) :
    Kept s { s with bm := bm } :=
  .ofBm s bm fun k => by rw [h.1]; exact k

theorem Kept.ofAlerts (s : State) : Kept s s.refreshAlerts := by
  refine ⟨id, fun _ => refreshAlerts_law s, id, id, fun _ => id, id, id, id, fun h p => ?_, fun h p => ?_, id, id⟩
  · rw [port_refreshAlerts]; exact h p
  · rw [port_refreshAlerts]; exact h p

/-- A change after which the owners hand over their conditions keeps ALERT_n's law whatever it changed (R158). -/
theorem Kept.ofRefreshed {s t : State} (h : Kept s { t with ports := s.refreshAlerts.ports })
    (hp : t.ports = s.ports) : Kept s t.refreshAlerts := by
  refine ⟨h.flash, fun _ => refreshAlerts_law t, h.notice, h.claim, h.buffer, h.freeze, h.space, h.serial,
      fun k p => ?_, fun k p => ?_, h.attach, h.mapped⟩
  · rw [port_refreshAlerts]; have : t.port p = s.port p := by unfold State.port; rw [hp]
    rw [this]; exact k p
  · rw [port_refreshAlerts]; have : t.port p = s.port p := by unfold State.port; rw [hp]
    rw [this]; exact k p

theorem Kept.ofNotices (s : State) (n : Vector NoticePort 4)
    (h : s.NoticeLaw → ({ s with notices := n } : State).NoticeLaw) :
    Kept s ({ s with notices := n } : State).refreshAlerts :=
  ⟨id, fun _ => refreshAlerts_law _, h, id, fun _ => id, id, id, id,
      fun k p => by rw [port_refreshAlerts]; exact k p, fun k p => by rw [port_refreshAlerts]; exact k p, id, id⟩

/-- The notice law for one port (R153). -/
def NoticeOk (n : NoticePort) : Prop := n.queue.length ≤ 16 ∧ (n.queue.map Notice.kind).Nodup

theorem notice_law_set (s : State) (p : PortId) (n : NoticePort) (h : NoticeOk (s.notice p) → NoticeOk n) :
    s.NoticeLaw → (s.setNotice p n).NoticeLaw := by
  intro k q
  rw [notice_setNotice_eq]
  split
  · exact h (k p)
  · exact k q

theorem coalesce_kinds (o : Notice) (q : List Notice) : (coalesce o q).map Notice.kind = q.map Notice.kind := by
  unfold coalesce
  rw [List.map_map]
  apply List.map_congr_left
  intro e _
  simp only [Function.comp]
  split
  · next h => exact h.symm
  · rfl

theorem offer_ok (n : NoticePort) (o : Notice) (h : NoticeOk n) : NoticeOk (n.offer o) := by
  unfold NoticePort.offer
  split
  · exact ⟨by show (coalesce o n.queue).length ≤ 16; unfold coalesce; rw [List.length_map]; exact h.1,
      by show ((coalesce o n.queue).map _).Nodup; rw [coalesce_kinds]; exact h.2⟩
  · next hn =>
    split
    · next hl =>
      refine ⟨by show (n.queue ++ [o]).length ≤ 16; simp only [List.length_append, List.length_cons, List.length_nil,
          Config.noticeSlots] at *; omega, ?_⟩
      show ((n.queue ++ [o]).map _).Nodup
      rw [List.map_append]
      refine List.nodup_append.2 ⟨h.2, by simp, ?_⟩
      rintro x hx y hy rfl
      simp at hy; subst hy
      obtain ⟨e, he, hk⟩ := List.mem_map.1 hx
      exact hn (List.any_eq_true.2 ⟨e, he, by simpa using hk⟩)
    · exact h

theorem tookAll_ok {n n' : NoticePort} {l : List Notice} (h : n.TookAll n' l) (k : NoticeOk n) : NoticeOk n' := by
  induction l generalizing n with
  | nil => rw [show n' = n from h]; exact k
  | cons o l ih =>
    obtain ⟨m, hm, h⟩ := h
    refine ih h ?_
    by_cases hk : ∃ e ∈ n.queue, e.kind = o.kind
    · obtain ⟨e1, -⟩ := hm.2.1 hk
      refine ⟨by rw [e1, List.length_map]; exact k.1, ?_⟩
      rw [e1, List.map_map]
      have : (Notice.kind ∘ fun e => if e.kind =
          o.kind then { e with serial := o.serial, writer := o.writer } else e) = Notice.kind := by
        funext e; simp only [Function.comp]; split <;> rfl
      rw [this]; exact k.2
    · have hk' : ∀ e ∈ n.queue, e.kind ≠ o.kind := fun e he hh => hk ⟨e, he, hh⟩
      by_cases hl : n.queue.length < 16
      · obtain ⟨e1, -⟩ := hm.2.2.1 hk' hl
        refine ⟨by rw [e1]; simp; omega, ?_⟩
        rw [e1, List.map_append]
        refine List.nodup_append.2 ⟨k.2, by simp, ?_⟩
        rintro x hx y hy rfl
        simp at hy; subst hy
        obtain ⟨e, he, h2⟩ := List.mem_map.1 hx
        exact hk' e he h2
      · obtain ⟨e1, -⟩ := hm.2.2.2 hk' (by omega)
        exact ⟨by rw [e1]; exact k.1, by rw [e1]; exact k.2⟩

/-- An answer keeps the laws and leaves the frame of its port to be answered. -/
structure AnsOk (s a : State) (p : PortId) : Prop where
  kept : Kept s a
  dec : (a.port p).decoder = (s.port p).decoder

theorem AnsOk.refl (s : State) (p) : AnsOk s s p := ⟨.refl s, rfl⟩

theorem takeRequest_kept (s : State) (p : PortId) (n : Nat)
    (f : State → Answer) (h : (s.port p).decoder = .request → AnsOk s (f s).state p) : Kept s (s.takeRequest p n f) := by
  unfold State.takeRequest
  split
  · next hd =>
    have hd := ((atFrameStart_iff s p).1 hd).1
    have h := h hd
    refine h.kept.trans ?_
    unfold Answer.taken
    refine .ofPort _ p _ rfl id fun hf => ?_
    exact hf.active (by rw [h.dec, hd]; simp) (by rw [h.dec, hd]; simp) rfl (fun k => by cases k) hf.2.2
  · exact .refl s

theorem whenReady_kept (s : State) (p) (f : State → Answer) (h : AnsOk s (f s).state p) :
    AnsOk s (s.whenReady f).state p := by
  unfold State.whenReady; split
  · exact .refl s p
  · exact h

theorem namedSession_kept (s : State) (p q : PortId) (sid : Byte) (f : SessionId → Answer)
    (h : ∀ i, (s.ses.session i).owner = some q → AnsOk s (f i).state p) : AnsOk s (s.namedSession q sid f).state p := by
  unfold State.namedSession; split
  · exact .refl s p
  · split
    · next i _ hh => refine h _ ?_; simp [SessionUnit.attachedTo] at hh; exact hh.2
    · exact .refl s p

theorem sessionUnit_kept {s : State} (u : SessionUnit) (m : SesMove s.ses u) :
    Kept s ({ s with ses := u } : State).refreshAlerts := .ofMove (ses_move s u m)

theorem sessionRecord_kept {s : State} (i : SessionId) (r : Session) (old : (s.ses.session i).state ≠ .finished)
    (new : r.state ≠ .finished) (h : SesMove s.ses (s.ses.setSession i r)) :
        Kept s { s with ses := s.ses.setSession i r } := .ofMove (session_move s i r old new h)

theorem engine_kept {s : State} (e : Engine) : Kept s { s with eng := e } :=
    ⟨id, id, id, id, fun _ => id, id, id, id, id, id, id, id⟩

theorem answerRead_kept (q : PortId) (a b c : Half) (s : State) (hd : (s.port q).decoder = .request) :
    AnsOk s (s.answerRead q a b c).state q := by
  unfold State.answerRead
  simp only
  split
  · split
    · simp only [State.createStream]
      split
      · next h =>
        refine ⟨?_, ?_⟩
        · refine Kept.trans (.ofPins s _ (pins_pinPage s.bm (s.map.currentBlock ⟨_, h⟩))) ?_
          refine .ofPort _ q _ rfl id fun hf => ?_
          have e : (State.port { s with bm := s.bm.pinPage (s.map.currentBlock ⟨_, h⟩) } q).decoder = .request := hd
          exact hf.active (by rw [e]; simp) (by rw [e]; simp) rfl hf.2.1 hf.2.2
        · simp
      · exact .refl s q
    · exact .refl s q
  · exact .refl s q

theorem answerStatus_kept (p : PortId) (s : State) (hd : (s.port p).decoder = .request) : AnsOk s (s.answerStatus p).state p :=
  ⟨.ofPort s p _ rfl id fun hf => hf.active (by rw [hd]; simp) (by rw [hd]; simp) rfl hf.2.1 (takenOk_now s p),
    by simp [State.answerStatus]⟩

theorem answerStage_kept (p q : PortId) (sid m : Byte) (o l : Half) (d : List Byte) (s : State) :
    AnsOk s (s.answerStage q sid m o l d).state p := by
  refine namedSession_kept s p q _ _ fun i hi => ?_
  simp only
  split
  · exact .refl s p
  · next h =>
    have h : (s.ses.session i).state = .opened := by simpa using h
    split
    · refine ⟨sessionRecord_kept i _ (by rw [h]; simp) (by simp [stagedSession, h])
        (.holding _ i _ (by rw [h]; rfl) (by simp [stagedSession, h, SessionState.holds]) (by rfl)
        (by simp [stagedSession]) (.inl (by rfl))), rfl⟩
    · exact .refl s p

theorem answerCommit_kept (p q : PortId) (sid : Byte) (s : State) : AnsOk s (s.answerCommit q sid).state p := by
  refine namedSession_kept s p q _ _ fun i hi => ?_
  simp only
  split
  · exact .refl s p
  · next h =>
    have h : (s.ses.session i).state = .opened := by simpa using h
    split
    · exact ⟨sessionRecord_kept i _ (by rw [h]; simp) (by simp [h])
        (.holding _ i _ (by rw [h]; rfl) (by simp [h, SessionState.holds]) (by rfl) (by rfl) (.inl (by rfl))), rfl⟩
    · refine ⟨?_, rfl⟩
      exact (sessionRecord_kept i { s.ses.session i with state := .queued, lease := none } (by rw [h]; simp)
          (by simp) (.holding _ i _ (by rw [h]; rfl) (by rfl) (by rfl) (by rfl) (.inl (by rfl)))).trans (engine_kept _)

theorem answerAbort_kept (p q : PortId) (sid : Byte) (s : State) : AnsOk s (s.answerAbort q sid).state p := by
  refine namedSession_kept s p q _ _ fun i hi => ?_
  simp only
  split
  · next h => exact ⟨.ofMove (finishSession_move s i _ (by rw [h]; simp)), by simp [State.finishSession]; rfl⟩
  · next h => exact ⟨.ofMove (finishSession_move s i _ (by rw [h]; simp)), by simp [State.finishSession]; rfl⟩
  · next h =>
    split
    · exact .refl s p
    · refine ⟨?_, rfl⟩
      exact (sessionRecord_kept i { s.ses.session i with state := .unwinding, outcome := some .abandoned }
          (by rw [h]; simp) (by simp) (.holding _ i _ (by rw [h]; rfl) (by rfl) (by rfl) (by rfl) (.inl (by rfl)))).trans
        (.ofMove (hands_move _ s.ses.failure (some i)))
  · exact .refl s p
  · exact .refl s p
  · exact .refl s p

theorem answerCollect_kept (p q : PortId) (sid : Byte) (s : State) : AnsOk s (s.answerCollect q sid).state p := by
  refine namedSession_kept s p q _ _ fun i hi => ?_
  simp only
  split
  · exact ⟨sessionUnit_kept _ (.release _ i), by simp; rfl⟩
  · exact .refl s p

theorem answerLeaseSet_kept (p q : PortId) (u : Byte) (s : State) : AnsOk s (s.answerLeaseSet q u).state p := by
  unfold State.answerLeaseSet
  split
  · next h =>
    refine ⟨.ofPort s q _ rfl (fun _ => h) id, ?_⟩
    simp only [port_setPort_eq]; split
    · next e => subst e; rfl
    · rfl
  · exact .refl s p

theorem refreshedNotice_kept (p q : PortId) (s : State) (n : NoticePort) (h : NoticeOk (s.notice q) → NoticeOk n) :
    AnsOk s (s.setNotice q n).refreshAlerts p :=
  ⟨.ofNotices s _ (notice_law_set s q n h), by simp⟩

theorem answerNoticeFetch_kept (p q : PortId) (s : State) : AnsOk s (s.answerNoticeFetch q).state p := by
  unfold State.answerNoticeFetch
  simp only
  split
  · next e rest h =>
    refine refreshedNotice_kept p q s _ fun k => ?_
    unfold NoticeOk at k
    rw [h] at k
    simp only [List.length_cons, List.map_cons, List.nodup_cons] at k
    exact ⟨by simp only; omega, k.2.2⟩
  · split
    · exact refreshedNotice_kept p q s _ fun k => k
    · exact .refl s p

theorem setWatch_kept (p q : PortId) (s : State) (k) (w) : AnsOk s (s.setNotice q ((s.notice q).setWatch k w)) p := by
  refine ⟨⟨id, fun h => ?_, notice_law_set s q _ id, id, fun _ => id, id, id, id, id, id, id, id⟩, rfl⟩
  intro r
  have := h r
  rw [notice_setNotice_eq]
  split
  · next e => subst e; exact this
  · exact this

theorem answerFreeze_kept (p q : PortId) (s : State) : AnsOk s (s.answerFreeze q).state p := by
  unfold State.answerFreeze
  split
  · exact .refl s p
  · next h =>
    split
    · exact ⟨⟨id, id, id, id, fun _ => id, fun _ _ => by simpa using h, id, id, id, id, id, id⟩, rfl⟩
    · exact .refl s p

theorem filter_one {α : Type} [DecidableEq α] (l : List α) (h : l.Nodup) (a : α) (f : α → Bool) (v : Bool) :
    (l.filter fun x => if x = a then v else f x).length ≤ (l.filter f).length + 1 := by
  induction l with
  | nil => simp
  | cons x l ih =>
    obtain ⟨hx, hl⟩ := List.nodup_cons.1 h
    have ih := ih hl
    by_cases e : x = a
    · subst e
      have same : (l.filter fun y => if y = x then v else f y) = l.filter f :=
        List.filter_congr fun y hy => by rw [if_neg (by rintro rfl; exact hx hy)]
      simp only [List.filter_cons, if_true, same]
      split <;> split <;> (try simp only [List.length_cons]) <;> omega
    · simp only [List.filter_cons, if_neg e]
      split <;> simp <;> omega

theorem answerOpen_kept (p q : PortId) (ps : List Half) (s : State) : AnsOk s (s.answerOpen q ps).state p := by
  unfold State.answerOpen
  split
  · exact .refl s p
  · next qs _ =>
    split
    · exact .refl s p
    · next hq =>
      simp only [not_or, not_lt, not_not] at hq
      unfold State.openChecked
      split <;> [exact .refl s p; skip]
      split <;> [exact .refl s p; skip]
      next hfz =>
      split <;> [exact .refl s p; skip]
      next hcl =>
      split <;> [exact .refl s p; skip]
      split <;> [exact .refl s p; skip]
      next i hlow =>
      split <;> [exact .refl s p; skip]
      next hbuf =>
      have hfree : (s.ses.session i).state = .free := by
        have := List.find?_some hlow; simpa using this
      have hnone : ∀ x ∈ qs, s.ses.claim x = none := by
        intro x hx; by_contra k
        exact hcl (List.any_eq_true.2 ⟨x, hx, by simpa [Option.isSome_iff_ne_none] using k⟩)
      refine ⟨⟨id, fun h => ?_, id, fun h => ?_, fun hc h => ⟨fun j => ?_, ?_⟩, fun h hf => ?_, id, id, id, id, fun h r => ?_, id⟩, rfl⟩
      · refine alert_of_same h (fun _ => rfl) (ownsFinished_setSession s _ i
          (openedSession q qs (s.port q).lease.toNat) rfl (by rw [hfree]; simp) (by simp [openedSession]))
          fun _ => rfl
      · intro page j
        show ((s.ses.setSession i _).claimPages i qs).claim page = some j ↔
            (((s.ses.setSession i _).claimPages i qs).session j).state.holds = true
            ∧ page ∈ (((s.ses.setSession i _).claimPages i qs).session j).members
        rw [claim_claimPages, claimPages_session, session_setSession, setSession_claim]
        have hj := h page j
        by_cases e : j = i
        · subst e
          simp only [if_true, openedSession, SessionState.holds, true_and]
          by_cases m : page ∈ qs
          · simp [m]
          · simp only [m, if_false, iff_false]
            intro k
            have := (hj.1 k).1
            rw [hfree] at this; cases this
        · simp only [e, if_false]
          by_cases m : page ∈ qs
          · simp only [m, if_true]
            rw [← hj, hnone page m]
            simp; exact fun k => e k.symm
          · simp only [m, if_false]; exact hj
      · show (((s.ses.setSession i _).claimPages i qs).session j).buffers.length = _
        have := h.1 j
        simp only [State.acceptOpen, claimPages_session, session_setSession]
        split
        · simp [openedSession, SessionState.holds]
        · exact this
      · show ((s.ses.setSession i _).claimPages i qs).buffersInUse ≤ 8
        rw [buffersInUse_claimPages]
        have := buffersInUse_setSession s.ses i (openedSession q qs (s.port q).lease.toNat)
        have h0 : (s.ses.session i).buffers.length = 0 := by rw [h.1 i, hfree]; rfl
        have h1 : (openedSession q qs (s.port q).lease.toNat).buffers.length = qs.length := by simp [openedSession]
        unfold SessionUnit.freeBuffers at hbuf
        simp only [Config.bufferCount] at hbuf
        have := h.2
        omega
      · show ((s.ses.setSession i _).claimPages i qs).claim _ = none
        have hf' : s.prot.frozen = true := hf
        rw [claim_claimPages, setSession_claim, if_neg]
        · exact h hf'
        · intro m
          apply hfz
          simp [hf', m]
      · have hatt : (s.ses.attached q).length < 2 := by
          have : ¬ Config.portSessions ≤ (s.ses.attached q).length := by assumption
          simp only [Config.portSessions] at this; omega
        show (((s.ses.setSession i _).claimPages i qs).attached r).length ≤ 2
        have e : ((s.ses.setSession i (openedSession q qs (s.port q).lease.toNat)).claimPages i qs).attached r
            = (List.finRange 8).filter fun j => if j = i then decide (r = q) else s.ses.attachedTo r j := by
          unfold SessionUnit.attached
          refine List.filter_congr fun j _ => ?_
          unfold SessionUnit.attachedTo
          rw [claimPages_session, session_setSession]
          by_cases hj : j = i
          · by_cases hr : q = r
            · subst hr; simp [hj, openedSession]
            · rw [if_pos hj, if_pos hj]
              have : (q == r) = decide (r = q) := by
                rw [beq_eq_decide]; exact decide_eq_decide.2 ⟨fun x => x.symm, fun x => x.symm⟩
              exact this
          · simp [hj]
        rw [e]
        have hi : s.ses.attachedTo r i = false := by simp [SessionUnit.attachedTo, hfree]
        have hle := filter_one (List.finRange 8) (List.nodup_finRange 8) i (s.ses.attachedTo r) (decide (r = q))
        by_cases hr : r = q
        · subst hr
          unfold SessionUnit.attached at hatt
          exact Nat.le_trans hle (by omega)
        · have : ((List.finRange 8).filter fun j => if j = i then decide (r = q) else s.ses.attachedTo r j)
              = (List.finRange 8).filter (s.ses.attachedTo r) := by
            refine List.filter_congr fun j _ => ?_
            split
            · next e => rw [e, hi]; simp [hr]
            · rfl
          rw [this]; exact h r

theorem port_eq_translate (s : State) (page : PageId) : s.translate page =
    { s with bm := s.bm.pinPage (s.map.currentBlock page) } := rfl

theorem Kept.ofStream (s : State) (p : PortId) : Kept s (s.endStream p) := by
  refine (Kept.ofPins s _ (pins_unpinPage s.bm (streamPin (s.port p).stream))).trans ?_
  exact .ofPort _ p _ rfl id fun hf => ⟨fun hc => ⟨rfl, (hf.1 hc).2⟩, hf.2⟩

theorem risen_kept (p : PortId) (s : State) : Kept s ((s.endStream p).setPort p
    (((s.endStream p).port p).risen (s.portHeld p))) := by
  refine (Kept.ofStream s p).trans (.ofPort _ p _ rfl id fun _ => ⟨fun _ => ⟨rfl, rfl, rfl, ?_⟩, fun _ => rfl, takenOk_none⟩)
  simp only [Port.risen]; split <;> simp

theorem streamPort_kept (s : State) (p : PortId) (hd : (s.port p).decoder = .stream) (r : Port)
    (bm : BlockManager) (o u) (hb : s.bm.PinsMoved bm o u) (ha : r.alert = (s.port p).alert)
    (hl : r.lease = (s.port p).lease) (hc : r.csLow = (s.port p).csLow) (hn : r.decoder ≠ .request)
    (he : r.statusTaken = (s.port p).statusTaken) :
    Kept s (State.setPort { s with bm := bm } p r) := by
  refine (Kept.ofPins s bm hb).trans (.ofPort _ p r ha (fun h => by unfold LeaseOk; rw [hl]; exact h) fun hf => ?_)
  have e : (State.port { s with bm := bm } p).decoder = .stream := hd
  exact hf.active (by rw [e]; simp) (by rw [e]; simp) hc (fun k => absurd k hn) (he ▸ hf.2.2)

theorem deliverLast_kept (s : State) (p : PortId) (st : Stream) (hd : (s.port p).decoder = .stream) :
    Kept s (s.deliverLast p st) := by
  unfold State.deliverLast State.endStream
  simp only [setPort_setPort, port_setPort]
  exact streamPort_kept s p hd _ _ _ _ (pins_unpinPage _ _) rfl rfl rfl (by simp) rfl

theorem sameLists_kept (s : State) (bm : BlockManager) (h : bm = { s.bm with table := bm.table }) :
    Kept s { s with bm := bm } :=
  .ofBm s bm fun k => by rw [h]; exact k

theorem deliverPageEnd_kept (s : State) (p : PortId) (st : Stream) (hd : (s.port p).decoder = .stream) :
    Kept s (s.deliverPageEnd p st) := by
  unfold State.deliverPageEnd
  split
  · next h =>
    simp only [port_eq_translate]
    have h1 : s.bm.PinsMoved (s.bm.unpinPage st.pinned) st.pinned none := pins_unpinPage _ _
    have h2 := pins_pinPage (s.bm.unpinPage st.pinned) (s.map.currentBlock ⟨_, h⟩)
    refine (sameLists_kept s ((s.bm.unpinPage st.pinned).pinPage (s.map.currentBlock ⟨_, h⟩)) ?_).trans ?_
    · rw [h2.1]; simp only; rw [h1.1]
    · refine .ofPort _ p _ rfl id fun hf => ?_
      have e : (State.port { s with bm := (s.bm.unpinPage st.pinned).pinPage (s.map.currentBlock ⟨_, h⟩) } p).decoder =
          .stream := hd
      exact hf.active (by rw [e]; simp) (by rw [e]; simp) rfl hf.2.1 hf.2.2
  · exact .refl s

theorem deliverOrdinary_kept (s : State) (p : PortId) (st : Stream) (hd : (s.port p).decoder = .stream) :
    Kept s (s.deliverOrdinary p st) := by
  unfold State.deliverOrdinary
  exact .ofPort _ p _ rfl id fun hf => hf.active (by rw [hd]; simp) (by rw [hd]; simp) rfl hf.2.1 hf.2.2

theorem deliverData_kept (s : State) (p : PortId) (st : Stream) (hd : (s.port p).decoder = .stream) :
    Kept s (s.deliverData p st) := by
  unfold State.deliverData
  split
  · exact deliverLast_kept s p st hd
  · split
    · exact deliverPageEnd_kept s p st hd
    · exact deliverOrdinary_kept s p st hd

/-- A change of a port's frame while its decoder is in use. -/
theorem activePort_kept (s : State) (p : PortId) (r : Port) (h1 : (s.port p).decoder ≠ .idle)
    (h2 : (s.port p).decoder ≠ .ignored) (ha : r.alert = (s.port p).alert) (hl : r.lease = (s.port p).lease)
    (hc : r.csLow = (s.port p).csLow)
    (hn : FrameOk (s.port p) → r.decoder = .request → r.received = r.request.length) (he : r.statusTaken = (s.port p).statusTaken := by rfl) :
    Kept s (s.setPort p r) :=
  .ofPort _ p r ha (fun h => by unfold LeaseOk; rw [hl]; exact h) fun hf => hf.active h1 h2 hc (hn hf) (he ▸ hf.2.2)

theorem deliverByte_kept (s : State) (p : PortId) : Kept s (s.deliverByte p) := by
  unfold State.deliverByte State.driveOnes
  simp only
  split
  · exact .refl s
  · exact .refl s
  · next e => exact activePort_kept s p _ (by rw [e]; simp) (by rw [e]; simp) rfl rfl rfl fun h => h.2.1
  · next e => exact activePort_kept s p _ (by rw [e]; simp) (by rw [e]; simp) rfl rfl rfl fun h => h.2.1
  · next e =>
    refine activePort_kept s p _ (by rw [e]; simp) (by rw [e]; simp) rfl rfl rfl fun _ k => ?_
    simp only at k; split at k <;> cases k
  · next e =>
    split
    · exact .refl s
    · refine activePort_kept s p _ (by rw [e]; simp) (by rw [e]; simp) rfl rfl rfl fun _ k => ?_
      simp only at k
      split at k
      · cases k
      · split at k <;> cases k
  · next e =>
    split
    · exact deliverData_kept s p _ e
    · exact .refl s

/-- The bits of the byte in progress and the level of SCK concern no law. -/
theorem bits_kept (s : State) (p : PortId) (bits : List Bool) (high : Bool) :
    Kept s (s.setPort p { s.port p with bits := bits, sckHigh := high }) := .ofPort s p _ rfl id id

/-- Every request keeps the laws. -/
theorem request_kept (c : Instr) (p : PortId) (s t : State) (hp : c.requestPort = some p) (h : exec c s = .next t) : Kept s t := by
  cases c <;> simp only [Instr.requestPort, reduceCtorEq] at hp <;> simp only [exec] at h
  case read p a b c => unfold execRead at h; cases h; exact takeRequest_kept s p _ _ fun hd => whenReady_kept s p _ (answerRead_kept p a b c s hd)
  case mapQuery p a =>
    unfold execMapQuery at h; cases h
    refine takeRequest_kept s p _ _ fun hd => whenReady_kept s p _ ?_
    unfold State.answerMapQuery; split <;> exact .refl s p
  case status p => unfold execStatus at h; cases h; exact takeRequest_kept s p _ _ fun hd => answerStatus_kept p s hd
  case openSession p n ps =>
    unfold execOpenSession at h; split at h
    · cases h; exact .refl s
    · cases h; exact takeRequest_kept s p _ _ fun hd => whenReady_kept s p _ (answerOpen_kept p p _ s)
  case stage p a b c d e =>
    unfold execStage at h; split at h
    · cases h; exact .refl s
    · cases h; exact takeRequest_kept s p _ _ fun hd => whenReady_kept s p _ (answerStage_kept p p _ _ _ _ _ s)
  case commit p a => unfold execCommit at h; cases h; exact takeRequest_kept s p _ _ fun hd => whenReady_kept s p _ (answerCommit_kept p p _ s)
  case abort p a => unfold execAbort at h; cases h; exact takeRequest_kept s p _ _ fun hd => whenReady_kept s p _ (answerAbort_kept p p _ s)
  case collect p a => unfold execCollect at h; cases h; exact takeRequest_kept s p _ _ fun hd => whenReady_kept s p _ (answerCollect_kept p p _ s)
  case watchSet p a b c =>
    unfold execWatchSet at h; cases h
    refine takeRequest_kept s p _ _ fun hd => whenReady_kept s p _ ?_
    unfold State.answerWatchSet
    split
    · exact .refl s p
    · split
      · exact .refl s p
      · split
        · exact setWatch_kept p p s _ _
        · exact .refl s p
  case watchClear p a =>
    unfold execWatchClear at h; cases h
    refine takeRequest_kept s p _ _ fun hd => whenReady_kept s p _ ?_
    unfold State.answerWatchClear
    split
    · exact .refl s p
    · exact setWatch_kept p p s _ _
  case noticeFetch p => unfold execNoticeFetch at h; cases h; exact takeRequest_kept s p _ _ fun hd => whenReady_kept s p _ (answerNoticeFetch_kept p p s)
  case leaseSet p a => unfold execLeaseSet at h; cases h; exact takeRequest_kept s p _ _ fun hd => whenReady_kept s p _ (answerLeaseSet_kept p p a s)
  case freeze p => unfold execFreeze at h; cases h; exact takeRequest_kept s p _ _ fun hd => whenReady_kept s p _ (answerFreeze_kept p p s)
  case unknownRequestCode p a =>
    unfold execUnknownRequestCode at h; split at h
    · cases h; exact .refl s
    · cases h; exact takeRequest_kept s p _ _ fun _ => .refl s p

theorem edgeMove_kept {p : PortId} {s t : State} (h : EdgeMove p s t) : Kept s t := by
  cases h with
  | gather n l bits high count => exact .ofPort s p _ rfl id fun hf => ⟨hf.1, fun k => count (hf.2.1 k), hf.2.2⟩
  | deliver => exact deliverByte_kept s p
  | status owners =>
    rcases gatherStatus_cases s p owners with e | ⟨g, hg, hd, ho, e⟩ <;> rw [e]
    · exact .refl s
    · exact .ofPort s p _ rfl id fun hf =>
        hf.active (by rw [hd]; simp) (by rw [hd]; simp) rfl hf.2.1 (takenOk_retake s p owners g (hg ▸ hf.2.2) ho)
  | request _ c port taken => exact request_kept c p s t port taken

theorem replyByte_kept (run : SckRun) (s t : State) (h : execReplyByteDelivery run s = .next t) : Kept s t := by
  cases h
  have m := run_moves s run
  generalize (run.edges.foldl (State.sckEdge run.port) s).gatherStatus run.port run.gather = u at m ⊢
  induction m with
  | refl => exact .refl s
  | tail _ m ih => exact ih.trans (edgeMove_kept m)

theorem portReset_kept (p : PortId) (s : State) : Kept s (s.portReset p) := by
  have hses := portReset_ses s p
  have m : SesMove s.ses (s.portReset p).ses := by rw [hses]; exact portReset_move _ _
  have hal : (s.portReset p).AlertLaw := refreshAlerts_law _
  have e1 := portReset_flash s p
  have e2 := portReset_bm s p
  have e3 := portReset_map s p
  have e5 := portReset_prot s p
  have e9 := fun q => portReset_notice s p q
  have e10 := fun q => portReset_port s p q
  clear hses
  generalize s.portReset p = t at *
  refine ⟨fun h => ?_, fun _ => hal, fun h q => ?_, fun h => claims_kept m h, fun _ h => buffers_kept m h,
      fun h hf => ?_, fun h => ?_, fun h => ?_, fun h q => ?_, fun h q => ?_, fun h => attach_kept m h, fun h => ?_⟩
  · unfold State.FlashLaw; rw [e1]; exact h
  · rw [e9]; split
    · simp [NoticePort.reset]
    · exact h q
  · rw [e5] at hf; exact claim_none_kept m _ (h hf)
  · unfold State.SpaceLaw; rw [e2, (pins_unpinPage s.bm _).1]; exact h
  · unfold State.SerialLaw; rw [e3]; exact h
  · rw [e10]; split
    · simp only [Port.held, Port.reset]; decide
    · exact h q
  · rw [e10]; split
    · exact ⟨fun _ => ⟨rfl, rfl, rfl, .inr rfl⟩, fun _ => rfl, takenOk_none⟩
    · exact h q
  · unfold State.MappedLaw; rw [e3]; exact h

theorem cleared_kept (s t : State) (hf : s.FlashLaw → t.FlashLaw) (h1 : t.bm = BlockManager.reset)
    (h2 : t.map = MapUnit.reset) (h3 : t.ses = SessionUnit.reset)
    (h6 : t.notices = Vector.replicate 4 NoticePort.reset)
        (hp : ∀ p, (t.port p).alert = Port.reset.alert ∧ (t.port p).lease = 100 ∧ FrameOk (t.port p)) : Kept s t := by
  have hs : ∀ i, t.ses.session i = Session.freeSlot := by intro i; simp [h3, SessionUnit.reset, SessionUnit.session]
  have hc : ∀ q, t.ses.claim q = none := by intro i; simp [h3, SessionUnit.reset, SessionUnit.claim]
  have hn : ∀ p, t.notice p = NoticePort.reset := by intro i; simp [h6, State.notice]
  refine ⟨hf, fun _ p => ?_, fun _ p => ?_, fun _ q i => ?_, fun _ _ => ⟨fun i => ?_, ?_⟩, fun _ _ => hc _,
      fun _ => ?_, fun _ => ?_, fun _ p => ?_, fun _ p => (hp p).2.2, fun _ p => ?_, fun _ => ?_⟩
  · simp only [State.alertAsserted, State.OwnsFinished, hs, hn, (hp p).1]
    simp [Port.reset, Session.freeSlot, NoticePort.reset]
  · rw [hn]; simp [NoticePort.reset]
  · rw [hc, hs]; simp [Session.freeSlot]
  · rw [hs]; simp [Session.freeSlot, SessionState.holds]
  · unfold SessionUnit.buffersInUse; simp only [hs]; decide
  · unfold State.SpaceLaw; rw [h1]; rfl
  · unfold State.SerialLaw; rw [h2]; rfl
  · rw [(hp p).2.1]; decide
  · unfold SessionUnit.attached SessionUnit.attachedTo; simp only [hs]; simp [Session.freeSlot]
  · unfold State.MappedLaw; rw [h2]; simp [MapUnit.reset, MapUnit.entry]

theorem held_frame (s t : State) (h : t.ports = s.ports.map Port.held) (p : PortId) : (t.port p).alert =
    Port.reset.alert ∧ (t.port p).lease = 100 ∧ FrameOk (t.port p) := by
  rw [held_port s t h p]
  exact ⟨rfl, rfl, fun _ => ⟨rfl, rfl, rfl, .inr rfl⟩, fun _ => rfl, takenOk_none⟩

theorem freed_frame (s t : State) (h : t.ports = (s.ports.map Port.held).map Port.freed)
    (p : PortId) : (t.port p).alert = Port.reset.alert ∧ (t.port p).lease = 100 ∧ FrameOk (t.port p) := by
  have : t.port p = (Port.held (s.port p)).freed := by simp [State.port, h]
  rw [this]
  refine ⟨rfl, rfl, fun _ => ⟨rfl, rfl, rfl, ?_⟩, fun _ => rfl, takenOk_none⟩
  simp only [Port.freed]; split <;> simp

theorem freed_frame_twice (s t : State) (h : t.ports = ((s.ports.map Port.held).map Port.held).map Port.freed)
    (p : PortId) : (t.port p).alert = Port.reset.alert ∧ (t.port p).lease = 100 ∧ FrameOk (t.port p) := by
  rw [held_held] at h; exact freed_frame s t h p

theorem resetAssert_kept (c : Cut) (s t : State) (h : execResetAssert c s = .next t) : Kept s t := by
  unfold execResetAssert at h
  split at h
  · cases h; exact .refl s
  · split at h
    · cases h
      refine cleared_kept s _ (fun k => wf_cutFlash s c k) rfl rfl rfl rfl (held_frame s _ ?_)
      show (s.cutFlash c).ports.map _ = _
      rw [cutFlash_frame]
    · cases h; exact ⟨id, id, id, id, fun _ => id, id, id, id, id, id, id, id⟩

theorem resetRelease_kept (s t : State) (h : execResetRelease s = .next t) : Kept s t := by
  unfold execResetRelease at h
  split at h
  · simp only at h
    split at h
    · cases h; exact cleared_kept s _ (fun k => k) rfl rfl rfl rfl (freed_frame s _ rfl)
    · cases h; exact ⟨id, id, id, id, fun _ => id, id, id, id, id, id, id, id⟩
  · cases h; exact .refl s

theorem supplyLost_kept (c : Cut) (s : State) : Kept s (s.supplyLost c) := by
  refine cleared_kept s _ (fun k => wf_cutFlash s c k) rfl rfl rfl rfl (held_frame s _ ?_)
  show (s.cutFlash c).ports.map _ = _
  rw [cutFlash_frame]

theorem powerLoss_kept (c : Cut) (s t : State) (h : execPowerLoss c s = .next t) : Kept s t := by
  unfold execPowerLoss at h
  split at h
  · cases h; exact supplyLost_kept c s
  · cases h; exact .refl s

theorem powerOn_kept (c : Cut) (s t : State) (h : execPowerOn c s = .next t) : Kept s t := by
  unfold execPowerOn at h
  simp only at h
  have key : ∀ u : State, Kept s u →
      (if s.power.resetLow then
        Host.Outcome.next { u.clearSram false false false with
          mount := Mount.start .powerOn, power := { s.power with supplied := true } }
      else
        .next (State.mountStart { u.clearSram false false false with
          mount := Mount.start .powerOn, power := { s.power with supplied := true } } .powerOn) :
        Host.Outcome State Fault Refusal) = .next t → Kept s t := by
    intro u hu h
    refine hu.trans ?_
    split at h
    · cases h; exact cleared_kept u _ (fun k => k) rfl rfl rfl rfl (held_frame u _ rfl)
    · cases h; exact cleared_kept u _ (fun k => k) rfl rfl rfl rfl (freed_frame_twice u _ rfl)
  refine key (if s.power.supplied then s.supplyLost c else s) ?_ h
  split
  · exact supplyLost_kept c s
  · exact .refl s

theorem Kept.ofMoveFlash {s t : State} (m : Memory) (hm : s.FlashLaw → Memory.wf m)
    (h : EngineMove { s with flash := m } t) : Kept s t :=
  (Kept.ofFlash s m hm).trans (.ofMove h)

theorem completeOp_kept (s : State) (w : Written) (next : Bool → State → State)
    (h : ∀ ok t, EngineMove t (next ok t)) : Kept s (s.completeOp w next) := by
  unfold State.completeOp
  split
  · next op _ => exact Kept.ofMoveFlash _ (fun k => wf_flashAfter s op w k) (h _ _)
  · exact .refl s

theorem flipRest_kept (s : State) (f : Option FlipWork) (e : Engine) :
    Kept s { s with map := { s.map with flip := f }, eng := e } :=
  ⟨id, id, id, id, fun _ => id, id, id, id, id, id, id, id⟩

theorem noteHandoff_kept (s : State) (w : FlipWork) : Kept s (s.noteHandoff w) := flipRest_kept _ _ _

theorem notices_kept {s t : State} (f : NoticeOnly s t) (h : ∀ q, NoticeOk (s.notice q) → NoticeOk (t.notice q)) :
    Kept s t.refreshAlerts := by
  have := Kept.ofNotices s t.notices (fun k q => by
    have := h q (k q)
    exact this)
  rwa [← f.frame] at this

/-- The mapped count follows the pointing of one page (R23). -/
theorem mapped_point (m : MapUnit) (page : PageId) (e : MapEntry)
    (h : m.mapped = ((List.finRange 464).filter fun q => (m.entry q).isSome).length) :
    (m.point page e).mapped = ((List.finRange 464).filter fun q => ((m.point page e).entry q).isSome).length := by
  have ent : ∀ q, (m.point page e).entry q = if q = page then some e else m.entry q := by
    intro q
    unfold MapUnit.point MapUnit.entry
    simp only [Vector.getElem_set]
    by_cases k : q = page
    · simp [k]
    · have : page.val ≠ q.val := fun x => k (Fin.ext x.symm)
      simp [k, this]
  have key : ∀ l : List PageId, l.Nodup →
      (l.filter fun q => ((m.point page e).entry q).isSome).length
        = (l.filter fun q => (m.entry q).isSome).length
          + (if page ∈ l ∧ (m.entry page).isSome = false then 1 else 0) := by
    intro l hl
    induction l with
    | nil => simp
    | cons a l ih =>
      obtain ⟨ha, hl⟩ := List.nodup_cons.1 hl
      have ih := ih hl
      by_cases k : a = page
      · subst k
        simp only [ha, false_and, if_false, Nat.add_zero] at ih
        simp only [List.filter_cons, ent a, if_true, Option.isSome_some, List.length_cons, ih, List.mem_cons, true_or,
          true_and]
        cases (m.entry a).isSome <;> simp
      · have k' : page ≠ a := fun x => k x.symm
        simp only [List.filter_cons, ent a, if_neg k, List.mem_cons, k', false_or]
        split <;> simp [ih]; omega
  rw [key _ (List.nodup_finRange 464), ← h]
  unfold MapUnit.point
  simp only [List.mem_finRange, true_and]
  cases (m.entry page).isSome <;> rfl

theorem flipMember_kept (r : CommitRec) (s : State) (m : Nat) : Kept s (State.flipMember r s m) := by
  unfold State.flipMember
  split
  · next page target _ _ =>
    refine (Kept.ofBm s (s.bm.flipMember target _ (s.map.currentBlock page)) fun k => ?_).trans ⟨id, id, id, id,
        fun _ => id, id, id, id, id, id, id, fun k => mapped_point s.map page _ k⟩
    unfold BlockManager.flipMember
    cases s.map.currentBlock page with
    | none => exact k
    | some b => rfl
  · exact .refl s

theorem flipMembers_kept (s : State) (r : CommitRec) : Kept s (s.flipMembers r) := by
  unfold State.flipMembers
  generalize List.range r.pages.length = l
  induction l generalizing s with
  | nil => exact .refl s
  | cons a l ih => rw [List.foldl_cons]; exact (flipMember_kept r s a).trans (ih _)

theorem toList_map {α : Type} {n : Nat} (v : Vector α n) : v.toList = (List.finRange n).map fun i => v[i.val] := by
  apply List.ext_getElem <;> simp

theorem buildTables_kept (s : State) : Kept s s.buildTables := by
  obtain ⟨bm0, hbm0⟩ := built_lists s
  have hlow : s.buildTables.SpaceLaw := by
    unfold State.SpaceLaw; rw [hbm0]; exact refresh_space _
  have hmap : s.buildTables.MappedLaw := by
    have e : s.buildTables.map.mapped
        = ((builtPages (completeCandidates (judgeTally s.mount.tally))).toList.filter fun e => e.isSome).length := by
      unfold State.buildTables MapUnit.built; dsimp only
    unfold State.MappedLaw
    rw [e, toList_map, List.filter_map, List.length_map]
    have ent : ∀ q : PageId, s.buildTables.map.entry q = (builtPages (completeCandidates (judgeTally s.mount.tally)))[q.val] := by
      intro q; unfold State.buildTables MapUnit.built MapUnit.entry; dsimp only
    simp only [Function.comp_def, ent]
  have hser : s.buildTables.SerialLaw := by unfold State.SerialLaw State.buildTables MapUnit.built; rfl
  have e : ∃ bm m mt, s.buildTables = { s with bm := bm, map := m, mount := mt } := ⟨_, _, _, rfl⟩
  obtain ⟨bm, m, mt, e⟩ := e
  rw [e] at hlow hser hmap ⊢
  exact ⟨id, id, id, id, fun _ => id, id, fun _ => hlow, fun _ => hser, id, id, id, fun _ => hmap⟩

theorem step_cases {s t : State} (h : step s = .next t) : (s.pending = [] ∧ t = s) ∨ ∃ c rest, s.pending = c :: rest
    ∧ exec c { s with pending := rest } = .next t := by
  unfold step at h
  split at h
  · next e => cases h; exact .inl ⟨e, rfl⟩
  · next c rest e => exact .inr ⟨c, rest, e, h⟩

end Sys2Proof.Laws
end

