-- ==== Sys2Proof/Laws/SessionLaw.lean ====
section
/-! SUPPORT. The engine queue (R66) and the sessions in the engine (R36, R64), operation by operation. -/

namespace Sys2Proof.Laws

open Sys2Proof Sys2Proof.Machine

/-! ### The engine queue -/

/-- `State.QueueLaw`, said of the Session Unit and the engine (R48, R66). -/
def QueueOk (u : SessionUnit) (e : Engine) : Prop :=
  (∀ p, (e.queueOf p).Nodup)
  ∧ (∀ p i, i ∈ e.queueOf p ↔ (u.session i).state = .queued ∧ (u.session i).owner = some p ∧ ¬ e.Failing i)
  ∧ (∀ i : SessionId, (u.session i).state = .queued → (u.session i).owner ≠ none)
  ∧ ∀ h, e.start = some h → h.live = true →
      (u.session h.session).state = .queued ∧ (u.session h.session).owner = some h.port

/-- The QUEUED sessions and their owners are the same. -/
def SameQueued (u v : SessionUnit) : Prop :=
  ∀ i : SessionId, ((v.session i).state = .queued ↔ (u.session i).state = .queued)
    ∧ ((v.session i).state = .queued → (v.session i).owner = (u.session i).owner)

theorem SameQueued.refl (u : SessionUnit) : SameQueued u u := fun _ => ⟨Iff.rfl, fun _ => rfl⟩

theorem SameQueued.trans {u v w : SessionUnit} (h : SameQueued u v) (k : SameQueued v w) : SameQueued u w := fun i =>
  ⟨(k i).1.trans (h i).1, fun x => ((k i).2 x).trans ((h i).2 ((k i).1.1 x))⟩

/-- A session that is not QUEUED, replaced by one that is not. -/
theorem sameQueued_set (u : SessionUnit) (i : SessionId) (r : Session) (old : (u.session i).state ≠ .queued)
    (new : r.state ≠ .queued) : SameQueued u (u.setSession i r) := by
  intro j
  rw [session_setSession]
  by_cases e : j = i
  · subst e; simp [old, new]
  · simp [e]

theorem sameQueued_release (u : SessionUnit) (i : SessionId) (old : (u.session i).state ≠ .queued) :
    SameQueued u (u.release i) := by
  intro j
  have := sameQueued_set u i Session.freeSlot old (by simp [Session.freeSlot]) j
  simpa [SessionUnit.release] using this

theorem sameQueued_end (u : SessionUnit) (i : SessionId) (o : SessionOutcome) (old : (u.session i).state ≠ .queued) :
    SameQueued u (u.endSession i o) := by
  unfold SessionUnit.endSession
  split
  · intro j
    have := sameQueued_set u i ((u.session i).finishedAs o) old (by simp [Session.finishedAs]) j
    simpa [SessionUnit.finish, Session.finishedAs] using this
  · exact sameQueued_release u i old

theorem queue_congr {u v : SessionUnit} {e e' : Engine} (hs : SameQueued u v) (hq : e'.queue = e.queue)
    (hst : e'.start = e.start) (h : QueueOk u e) : QueueOk v e' := by
  obtain ⟨a, b, c, d⟩ := h
  have hqo : ∀ p, e'.queueOf p = e.queueOf p := fun p => by unfold Engine.queueOf; rw [hq]
  have hf : ∀ i, e'.Failing i ↔ e.Failing i := fun i => by unfold Engine.Failing; rw [hst]
  refine ⟨fun p => by rw [hqo]; exact a p, fun p i => ?_, fun i k => ?_, fun h k l => ?_⟩
  · rw [hqo, hf, b]
    constructor
    · rintro ⟨k1, k2, k3⟩
      exact ⟨(hs i).1.2 k1, by rw [(hs i).2 ((hs i).1.2 k1)]; exact k2, k3⟩
    · rintro ⟨k1, k2, k3⟩
      exact ⟨(hs i).1.1 k1, by rw [← (hs i).2 k1]; exact k2, k3⟩
  · rw [(hs i).2 k]; exact c i ((hs i).1.1 k)
  · rw [hst] at k
    obtain ⟨k1, k2⟩ := d h k l
    have := (hs h.session).1.2 k1
    exact ⟨this, by rw [(hs _).2 this]; exact k2⟩

/-- Sessions leave QUEUED and the engine's lists together, and a hand-off that names one of them is no longer live (R48, R66). -/
theorem queue_withdraw {u v : SessionUnit} {e e' : Engine} (W : SessionId → Prop) (h : QueueOk u e)
    (hq : ∀ p i, i ∈ e'.queueOf p ↔ i ∈ e.queueOf p ∧ ¬ W i) (hn : ∀ p, (e'.queueOf p).Nodup)
    (hst : ∃ f : StartHandoff → StartHandoff, e'.start = e.start.map f
      ∧ ∀ h, e.start = some h → (f h).session = h.session ∧ (f h).port = h.port ∧ (f h).kind = h.kind
        ∧ (h.live = true → ((f h).live = true ↔ ¬ W h.session)) ∧ (h.live = false → (f h).live = false))
    (hv : ∀ i, W i → (v.session i).state ≠ .queued)
    (hk : ∀ i, ¬ W i → ((v.session i).state = .queued ↔ (u.session i).state = .queued)
      ∧ ((v.session i).state = .queued → (v.session i).owner = (u.session i).owner)) : QueueOk v e' := by
  obtain ⟨a, b, c, d⟩ := h
  obtain ⟨f, hf, hfs⟩ := hst
  have fail : ∀ i, ¬ W i → (e'.Failing i ↔ e.Failing i) := by
    intro i hi
    unfold Engine.Failing
    rw [hf]
    cases hs : e.start with
    | none => simp
    | some k =>
      obtain ⟨s1, s2, s3, s4, s5⟩ := hfs k hs
      constructor
      · rintro ⟨x, hx, l, e, m⟩
        cases hx
        cases hl : k.live with
        | false => rw [s5 hl] at l; cases l
        | true => exact ⟨k, rfl, hl, by rw [← e, s1], by rw [← s3]; exact m⟩
      · rintro ⟨x, hx, l, e, m⟩
        cases hx
        exact ⟨f k, rfl, (s4 l).2 (by rw [e]; exact hi), by rw [s1]; exact e, by rw [s3]; exact m⟩
  refine ⟨hn, fun p i => ?_, fun i k => ?_, fun h' k l => ?_⟩
  · by_cases hi : W i
    · rw [hq]
      exact ⟨fun x => absurd hi x.2, fun x => absurd x.1 (hv i hi)⟩
    · rw [hq, b, fail i hi]
      constructor
      · rintro ⟨⟨k1, k2, k3⟩, -⟩
        exact ⟨(hk i hi).1.2 k1, by rw [(hk i hi).2 ((hk i hi).1.2 k1)]; exact k2, k3⟩
      · rintro ⟨k1, k2, k3⟩
        exact ⟨⟨(hk i hi).1.1 k1, by rw [← (hk i hi).2 k1]; exact k2, k3⟩, hi⟩
  · have hi : ¬ W i := fun x => hv i x k
    rw [(hk i hi).2 k]; exact c i ((hk i hi).1.1 k)
  · rw [hf] at k
    cases hs : e.start with
    | none => rw [hs] at k; cases k
    | some h =>
      rw [hs] at k; cases k
      obtain ⟨s1, s2, s3, s4, s5⟩ := hfs h hs
      cases hl : h.live with
      | false => rw [s5 hl] at l; cases l
      | true =>
        have hi := (s4 hl).1 l
        obtain ⟨k1, k2⟩ := d h hs hl
        have := (hk _ hi).1.2 k1
        rw [s1, s2]
        exact ⟨this, by rw [(hk _ hi).2 this]; exact k2⟩

theorem queueOf_dequeue (e : Engine) (i : SessionId) (p : PortId) :
    (e.dequeue i).queueOf p = (e.queueOf p).filter (· != i) := by simp [Engine.queueOf, Engine.dequeue]

theorem queue_finish (s : State) (i : SessionId) (o : SessionOutcome) (h : s.QueueLaw) : (s.finishSession i o).QueueLaw := by
  refine queue_withdraw (u := s.ses) (e := s.eng) (· = i) h (fun p j => ?_) (fun p => ?_) ⟨fun h => h.without (h.session == i), rfl,
    fun h _ => ⟨rfl, rfl, rfl, fun l => ?_, fun l => ?_⟩⟩ (fun j hj => ?_) fun j hj => ?_
  · show j ∈ (s.eng.dequeue i).queueOf p ↔ _
    rw [queueOf_dequeue]; simp
  · show ((s.eng.dequeue i).queueOf p).Nodup
    rw [queueOf_dequeue]; exact (h.1 p).filter _
  · simp [l]
  · simp [l]
  · subst hj
    show ((s.ses.finish j o).session j).state ≠ _
    simp [SessionUnit.finish]
  · have e : (s.finishSession i o).ses.session j = s.ses.session j := by
      show (s.ses.finish i o).session j = _
      simp [SessionUnit.finish, session_setSession, hj]
    rw [e]; exact ⟨Iff.rfl, fun _ => rfl⟩

theorem queue_portReset (s : State) (p : PortId) (h : s.QueueLaw) : (s.portReset p).QueueLaw := by
  have hses := portReset_ses s p
  have heng := portReset_eng s p
  unfold State.QueueLaw at h ⊢
  have hrec : ∀ i, (s.portReset p).ses.session i = resetRecord p (s.ses.session i) := fun i => by
    rw [hses]; exact session_portReset _ _ _
  clear hses
  generalize s.portReset p = t at *
  have qs : ∀ q, t.eng.queueOf q = if q = p then [] else s.eng.queueOf q := by
    intro q
    rw [heng]
    unfold Engine.queueOf Engine.withdrawPort
    simp only [Vector.getElem_set]
    by_cases e : q = p
    · subst e; simp
    · have : p.val ≠ q.val := fun k => e (Fin.ext k.symm)
      simp [e, this]
  have state_of : ∀ i, (t.ses.session i).state = .queued →
      (s.ses.session i).state = .queued ∧ (s.ses.session i).owner ≠ some p := by
    intro i k
    rw [hrec] at k
    unfold resetRecord endsAtReset at k
    split at k
    · simp [Session.freeSlot] at k
    · next ne =>
      split at k
      · next c => have k : (s.ses.session i).state = .queued := k; rcases c.2 with c | c <;> rw [k] at c <;> cases c
      · refine ⟨k, fun o => ne ?_⟩; simp [k, o]
  have keeps : ∀ i, (s.ses.session i).owner ≠ some p → t.ses.session i = s.ses.session i := by
    intro i k
    rw [hrec]; unfold resetRecord endsAtReset; simp [k]
  refine queue_withdraw (u := s.ses) (e := s.eng) (fun i => (s.ses.session i).owner = some p) h (fun q i => ?_) (fun q => ?_)
    ⟨fun h => h.without (h.port == p), by rw [heng]; rfl, fun k hk => ⟨rfl, rfl, rfl, fun l => ?_, fun l => ?_⟩⟩
    (fun i hi k => (state_of i k).2 hi) fun i hi => ⟨by rw [keeps i hi], fun _ => by rw [keeps i hi]⟩
  · rw [qs]
    split
    · next e =>
      subst e
      simp only [List.not_mem_nil, false_iff, not_and, not_not]
      exact fun k => ((h.2.1 q i).1 k).2.1
    · next ne =>
      refine ⟨fun k => ⟨k, fun o => ?_⟩, fun k => k.1⟩
      have := ((h.2.1 q i).1 k).2.1
      rw [o] at this; cases this; exact ne rfl
  · rw [qs]; split
    · exact List.nodup_nil
    · exact h.1 q
  · have := (h.2.2.2 k hk l).2
    simp only [without_live, l, Bool.true_and, Bool.not_eq_true', beq_eq_false_iff_ne, this, ne_eq, Option.some.injEq]
  · simp [l]

theorem queue_revoke (s : State) (t : WindowsTable) (h : s.QueueLaw) :
    QueueOk (s.ses.revoke t) (s.eng.withdrawDenied s.ses t) := by
  refine queue_withdraw (u := s.ses) (e := s.eng) (fun i => s.ses.denied t i = true) h (fun p j => ?_) (fun p => ?_)
    ⟨fun h => h.without (s.ses.denied t h.session), rfl, fun h _ => ⟨rfl, rfl, rfl, fun l => ?_, fun l => ?_⟩⟩ (fun j hj => ?_)
    fun j hj => ?_
  · simp [Engine.queueOf, Engine.withdrawDenied]
  · simpa [Engine.queueOf, Engine.withdrawDenied] using (h.1 p).filter (fun i => !s.ses.denied t i)
  · simp [l]
  · simp [l]
  · have hj : deniedRecord t (s.ses.session j) = true := hj
    rw [session_revoke, if_pos hj]; simp [Session.finishedAs]
  · have hj : ¬ deniedRecord t (s.ses.session j) = true := hj
    rw [session_revoke, if_neg hj]; exact ⟨Iff.rfl, fun _ => rfl⟩

theorem queue_enqueue (s : State) (p : PortId) (i : SessionId) (r : Session) (h : s.QueueLaw)
    (old : (s.ses.session i).state = .opened) (own : (s.ses.session i).owner = some p) (new : r.state = .queued)
    (owner : r.owner = (s.ses.session i).owner) : QueueOk (s.ses.setSession i r) (s.eng.enqueue p i) := by
  have h' : QueueOk s.ses s.eng := h
  obtain ⟨a, b, c, d⟩ := h
  have notLive : ∀ k, s.eng.start = some k → k.live = true → k.session ≠ i := by
    intro k hk l e
    have := (d k hk l).1
    rw [e, old] at this; cases this
  have nf : ∀ j, (s.eng.enqueue p i).Failing j ↔ s.eng.Failing j := fun j => Iff.rfl
  have ni : ¬ s.eng.Failing i := by rintro ⟨k, hk, l, e, -⟩; exact notLive k hk l e
  have hq : ∀ q, (s.eng.enqueue p i).queueOf q = if q = p then s.eng.queueOf p ++ [i] else s.eng.queueOf q := by
    intro q
    unfold Engine.enqueue Engine.queueOf
    simp only [Vector.getElem_set]
    by_cases e : q = p
    · subst e; simp
    · have : p.val ≠ q.val := fun k => e (Fin.ext k.symm)
      simp [e, this]
  have out : ∀ q, i ∉ s.eng.queueOf q := fun q k => by have := ((b q i).1 k).1; rw [old] at this; cases this
  refine ⟨fun q => ?_, fun q j => ?_, fun j k => ?_, fun k hk l => ?_⟩
  · rw [hq]; split
    · refine List.nodup_append.2 ⟨a p, by simp, ?_⟩
      rintro x hx y hy rfl
      simp at hy; subst hy; exact out p hx
    · exact a q
  · rw [hq, nf, session_setSession]
    by_cases e : j = i
    · subst e
      rw [if_pos rfl]
      have : (s.ses.session j).owner = some q ↔ q = p := by rw [own]; simp; exact ⟨fun x => x.symm, fun x => x.symm⟩
      rw [owner, this]
      by_cases k : q = p
      · simp [k, new, ni]
      · simp [k, out]
    · rw [if_neg e, ← b]
      by_cases k : q = p
      · subst k; simp [e]
      · simp [k]
  · rw [session_setSession] at k ⊢
    split at k
    · next e => rw [if_pos e, owner, own]; simp
    · next e => rw [if_neg e]; exact c j k
  · have ne := notLive k hk l
    rw [session_setSession, if_neg ne]
    exact d k hk l

theorem queue_engine (s : State) (e : Engine) (hq : e.queue = s.eng.queue) (hs : e.start = s.eng.start) (h : s.QueueLaw) :
    State.QueueLaw { s with eng := e } := queue_congr (.refl _) hq hs h

theorem queue_ses (s : State) (u : SessionUnit) (h : SameQueued s.ses u) (k : s.QueueLaw) :
    State.QueueLaw { s with ses := u } := queue_congr h rfl rfl k

/-! ### The engine's own operations -/

/-- The QUEUED sessions, the lists and the start hand-off are the same. -/
structure Aside (s t : State) : Prop where
  ses : SameQueued s.ses t.ses
  queue : t.eng.queue = s.eng.queue
  start : t.eng.start = s.eng.start

theorem Aside.refl (s : State) : Aside s s := ⟨.refl _, rfl, rfl⟩

theorem Aside.trans {s t u : State} (h : Aside s t) (k : Aside t u) : Aside s u :=
  ⟨h.ses.trans k.ses, k.queue.trans h.queue, k.start.trans h.start⟩

theorem Aside.law {s t : State} (h : Aside s t) (k : s.QueueLaw) : t.QueueLaw := queue_congr h.ses h.queue h.start k

theorem setWork_aside (s : State) (w : Work) : Aside s (s.setWork w) := ⟨.refl _, rfl, rfl⟩

theorem takeFailure_aside (u : SessionUnit) (i : SessionId) (f : FailReason) : SameQueued u (u.takeFailure i f) := by
  unfold SessionUnit.takeFailure
  split
  · next h => exact sameQueued_set u i _ (by rw [h]; simp) (by simp)
  · exact .refl u

theorem takePending_aside (u : SessionUnit) : SameQueued u u.takePending := by
  unfold SessionUnit.takePending
  split
  · next f _ => exact takeFailure_aside u f.session f.reason
  · exact .refl u

theorem takeUnwindEnd_aside (u : SessionUnit) (i : SessionId) : SameQueued u (u.takeUnwindEnd i) := by
  unfold SessionUnit.takeUnwindEnd
  simp only
  split
  · next h => exact sameQueued_end u i _ (by rw [h]; simp)
  · exact .refl _

theorem unwindFinish_aside (s : State) (i : SessionId) : Aside s (s.unwindFinish i) :=
  ⟨(takePending_aside s.ses).trans (takeUnwindEnd_aside _ i), rfl, rfl⟩

theorem unwindNext_aside (s : State) (u : UnwindRec) : Aside s (s.unwindNext u) := by
  unfold State.unwindNext
  split
  · exact setWork_aside _ _
  · exact unwindFinish_aside _ _

theorem startUnwind_aside (s : State) (r : CommitRec) : Aside s (s.startUnwind r) := unwindNext_aside _ _

theorem giveUp_aside (s : State) (r : CommitRec) (f : FailReason) : Aside s (s.giveUp r f) :=
  (⟨.refl _, rfl, rfl⟩ : Aside s { s with ses := { s.ses with failure := some { session := r.session, reason := f } } }).trans
    (startUnwind_aside _ _)

theorem beginMember_aside (s : State) (r : CommitRec) : Aside s (s.beginMember r) := by
  unfold State.beginMember
  split
  · exact ⟨.refl _, rfl, rfl⟩
  · exact giveUp_aside _ _ _

theorem commitOpEnded_aside (s : State) (r : CommitRec) (ok : Bool) (goOn : State → State) (h : Aside s (goOn s)) :
    Aside s (s.commitOpEnded r ok goOn) := by
  unfold State.commitOpEnded
  split
  · split
    · exact startUnwind_aside _ _
    · exact h
  · exact setWork_aside _ _

theorem begunMarkEnded_aside (s : State) (r : CommitRec) (ok : Bool) : Aside s (s.begunMarkEnded r ok) :=
  commitOpEnded_aside _ _ _ _ (setWork_aside _ _)

theorem lineEnded_aside (s : State) (r : CommitRec) (k : Nat) (ok : Bool) : Aside s (s.lineEnded r k ok) := by
  refine commitOpEnded_aside _ _ _ _ ?_
  split
  · exact setWork_aside _ _
  · split <;> exact setWork_aside _ _

theorem dataStampEnded_aside (s : State) (r : CommitRec) (ok : Bool) : Aside s (s.dataStampEnded r ok) := by
  refine commitOpEnded_aside _ _ _ _ ?_
  split
  · exact setWork_aside _ _
  · exact beginMember_aside _ _

theorem afterRetire_aside (s : State) (r : CommitRec) : Aside s (s.afterRetire r) := by
  unfold State.afterRetire
  split
  · exact startUnwind_aside _ _
  · split
    · exact beginMember_aside _ _
    · exact giveUp_aside _ _ _

theorem handRetired_aside (s : State) (b : BlockId) (ok : Bool) : Aside s (s.handRetired b ok) := ⟨.refl _, rfl, rfl⟩

theorem unwindVoidEnded_aside (s : State) (u : UnwindRec) (b : BlockId) (n : Nat) (ok : Bool) :
    Aside s (s.unwindVoidEnded u b n ok) := by
  unfold State.unwindVoidEnded
  split
  · exact (⟨.refl _, rfl, rfl⟩ : Aside s { s with bm := s.bm.toDirty b }).trans (unwindNext_aside _ _)
  · split <;> exact setWork_aside _ _

theorem eraseEnded_aside (s : State) (b : BlockId) (ok : Bool) : Aside s (s.eraseEnded b ok) := by
  unfold State.eraseEnded; split <;> exact setWork_aside _ _

theorem freeStampEnded_aside (s : State) (b : BlockId) (ok : Bool) : Aside s (s.freeStampEnded b ok) := by
  unfold State.freeStampEnded; split <;> exact ⟨.refl _, rfl, rfl⟩

theorem takeUnwind_aside (s : State) (i : SessionId) : Aside s (s.takeUnwind i) := by
  unfold State.takeUnwind
  split
  · split
    · split <;> first | exact setWork_aside _ _ | exact startUnwind_aside _ _ | exact .refl s
    · exact .refl s
  · exact .refl s

/-! ### The choice of work -/

theorem nextQueued_mem {e : Engine} {p : PortId} {i : SessionId} (h : e.nextQueued = some (p, i)) : i ∈ e.queueOf p := by
  unfold Engine.nextQueued at h
  obtain ⟨q, -, hq⟩ := List.exists_of_findSome?_eq_some h
  cases hh : (e.queueOf q).head? with
  | none => rw [hh] at hq; cases hq
  | some j => rw [hh] at hq; cases hq; exact List.mem_of_head? hh

/-- A start is handed for a session of the queue while none stands (R48). -/
theorem queue_handStart (s : State) (p : PortId) (i : SessionId) (serial : Nat) (bases : List (Option BlockId)) (h : s.QueueLaw)
    (hn : s.eng.start = none) (hi : i ∈ s.eng.queueOf p) : (s.handStart p i (.start serial bases)).QueueLaw := by
  obtain ⟨a, b, c, d⟩ := h
  have nf : ∀ j, ¬ s.eng.Failing j := fun j ⟨k, hk, _⟩ => by rw [hn] at hk; cases hk
  refine ⟨a, fun q j => ?_, c, fun k hk _ => ?_⟩
  · have : ¬ (s.handStart p i (.start serial bases)).eng.Failing j := by
      rintro ⟨k, hk, -, -, m⟩; cases hk; exact m _ _ rfl
    show j ∈ s.eng.queueOf q ↔ (s.ses.session j).state = _ ∧ (s.ses.session j).owner = _ ∧ _
    rw [b]; simp [nf, this]
  · cases hk
    obtain ⟨k1, k2, -⟩ := (b p i).1 hi
    exact ⟨k1, k2⟩

/-- A failed start takes the session out of its list at once (R66). -/
theorem queue_handFailed (s : State) (p : PortId) (i : SessionId) (kind : StartKind) (hk : ∀ serial bases, kind ≠ .start serial bases)
    (h : s.QueueLaw) (hn : s.eng.start = none) (hi : i ∈ s.eng.queueOf p) : (s.handFailedStart p i kind).QueueLaw := by
  obtain ⟨a, b, c, d⟩ := h
  have nf : ∀ j, ¬ s.eng.Failing j := fun j ⟨k, hk, _⟩ => by rw [hn] at hk; cases hk
  obtain ⟨k1, k2, -⟩ := (b p i).1 hi
  have hq : ∀ q, (s.handFailedStart p i kind).eng.queueOf q = (s.eng.queueOf q).filter (· != i) := fun q => queueOf_dequeue _ _ _
  have hf : ∀ j, (s.handFailedStart p i kind).eng.Failing j ↔ j = i := by
    intro j
    constructor
    · rintro ⟨k, hk, -, e, -⟩; cases hk; exact e.symm
    · rintro rfl
      exact ⟨_, rfl, by show decide ((s.ses.session j).state = .queued) = true; simp [k1], rfl, hk⟩
  refine ⟨fun q => ?_, fun q j => ?_, c, fun k hk _ => ?_⟩
  · rw [hq]; exact (a q).filter _
  · rw [hq, hf]
    show _ ↔ (s.ses.session j).state = _ ∧ (s.ses.session j).owner = _ ∧ _
    rw [List.mem_filter, b]; simp [nf, and_assoc]
  · cases hk; exact ⟨k1, k2⟩

/-- A start hand-off is taken: nothing is pending any more. The session it fails has left its list. -/
theorem queue_clear (s : State) (k : StartHandoff) (u : SessionUnit) (e : Engine) (h : s.QueueLaw) (hs : s.eng.start = some k)
    (hn : e.start = none) (hq : ∀ p, e.queueOf p = (s.eng.queueOf p).filter (· != k.session))
    (hi : (u.session k.session).state ≠ .queued) (hj : ∀ j, j ≠ k.session → u.session j = s.ses.session j) :
    QueueOk u e := by
  obtain ⟨a, b, c, d⟩ := h
  have nf : ∀ j, ¬ e.Failing j := fun j ⟨x, hx, _⟩ => by rw [hn] at hx; cases hx
  have of : ∀ j, j ≠ k.session → ¬ s.eng.Failing j := by
    rintro j ne ⟨x, hx, -, e, -⟩; rw [hs] at hx; cases hx; exact ne e.symm
  refine ⟨fun p => by rw [hq]; exact (a p).filter _, fun p j => ?_, fun j l => ?_, fun x hx => by rw [hn] at hx; cases hx⟩
  · rw [hq, List.mem_filter, b]
    by_cases ej : j = k.session
    · subst ej; simp [hi]
    · rw [hj j ej]; simp [ej, nf, of j ej]
  · by_cases ej : j = k.session
    · subst ej; exact absurd l hi
    · rw [hj j ej] at l ⊢; exact c j l

theorem queue_takeStart (s : State) (k : StartHandoff) (h : s.QueueLaw) (hs : s.eng.start = some k) :
    (s.takeStart k).QueueLaw := by
  have h' := h
  obtain ⟨a, b, c, d⟩ := h
  unfold State.takeStart
  simp only
  split
  · next hl =>
    have fin : ∀ o, (State.finishSession { s with eng := { s.eng with start := none } } k.session o).QueueLaw := fun o =>
      queue_clear s k _ _ h' hs rfl (fun p => queueOf_dequeue s.eng k.session p)
        (by show ((s.ses.finish k.session o).session k.session).state ≠ _; simp [SessionUnit.finish])
        fun j hj => by
          show (s.ses.finish k.session o).session j = _
          simp [SessionUnit.finish, session_setSession, hj]
    split
    · next serial bases _ =>
      refine (beginMember_aside _ _).law ?_
      exact queue_clear s k _ _ h' hs rfl (fun p => queueOf_dequeue s.eng k.session p)
        (by
          show ((s.ses.setSession k.session _).session k.session).state ≠ _
          simp)
        fun j hj => by
          show (s.ses.setSession k.session _).session j = _
          simp [session_setSession, hj]
    · exact fin _
    · exact fin _
  · next hl =>
    have nl : k.live ≠ true := fun l => hl ⟨l, (d k hs l).1⟩
    have nf : ∀ j, ¬ s.eng.Failing j := by rintro j ⟨x, hx, l, -⟩; rw [hs] at hx; cases hx; exact nl l
    refine ⟨a, fun p j => ?_, c, fun x hx => by cases hx⟩
    have : ¬ ({ s.eng with start := none } : Engine).Failing j := by rintro ⟨x, hx, -⟩; cases hx
    show j ∈ s.eng.queueOf p ↔ (s.ses.session j).state = _ ∧ (s.ses.session j).owner = _ ∧ _
    rw [b]; simp [nf, this]

theorem queue_choose (s : State) (h : s.QueueLaw) (hn : s.eng.start = none) : s.choose.QueueLaw := by
  have keep : ∀ (bm : BlockManager) (w : Work), (State.setWork { s with bm := bm } w).QueueLaw := fun bm w => h
  unfold State.choose
  split
  · exact keep _ _
  · split
    · next p i hq =>
      have hi := nextQueued_mem hq
      unfold State.startCheck State.askSerial
      simp only
      split
      · split
        · exact queue_handFailed s p i _ (by simp) h hn hi
        · exact queue_handStart { s with map := s.map.giveSerial } p i _ _ h hn hi
      · split
        · exact queue_handFailed s p i _ (by simp) h hn hi
        · exact h
    · split
      · exact keep _ _
      · exact h

theorem queue_choiceEvent (s : State) (h : s.QueueLaw) : s.choiceEvent.QueueLaw := by
  unfold State.choiceEvent
  split
  · split
    · next k hk => exact queue_takeStart s k h hk
    · next hk => exact queue_choose s h hk
  · exact h

theorem queue_mountVoidNext (s : State) (l : List BlockId) (h : s.QueueLaw) : (s.mountVoidNext l).QueueLaw := by
  cases l with
  | nil => exact queue_choiceEvent (State.setWork { s with mount := s.mount.finish } .idle) h
  | cons b rest => exact h

theorem queue_mountVoidEnded (s : State) (b : BlockId) (rest : List BlockId) (n : Nat) (ok : Bool) (h : s.QueueLaw) :
    (s.mountVoidEnded b rest n ok).QueueLaw := by
  unfold State.mountVoidEnded
  split
  · exact queue_mountVoidNext _ _ h
  · split <;> exact h

theorem queue_retireEnded (s : State) (ok : Bool) (h : s.QueueLaw) : (s.retireEnded ok).QueueLaw := by
  unfold State.retireEnded
  split
  · split
    · exact h
    · split
      · exact ((handRetired_aside s _ ok).trans (afterRetire_aside _ _)).law h
      · exact h
  · split
    · exact h
    · exact ((handRetired_aside s _ ok).trans (unwindNext_aside _ _)).law h
  · split
    · exact h
    · exact h
  · split
    · exact h
    · exact queue_mountVoidNext _ _ ((handRetired_aside s _ ok).law h)
  · exact h

theorem queue_opFailed (s : State) (h : s.QueueLaw) : s.opFailed.QueueLaw := by
  unfold State.opFailed
  split
  · exact (begunMarkEnded_aside _ _ _).law h
  · exact (lineEnded_aside _ _ _ _).law h
  · exact (dataStampEnded_aside _ _ _).law h
  · exact (unwindVoidEnded_aside _ _ _ _ _).law h
  · exact (eraseEnded_aside _ _ _).law h
  · exact (freeStampEnded_aside _ _ _).law h
  · exact queue_mountVoidEnded _ _ _ _ _ h
  · exact queue_retireEnded _ _ h

theorem queue_completeOp (s : State) (w : Written) (next : Bool → State → State)
    (h : ∀ ok (t : State), t.QueueLaw → (next ok t).QueueLaw) (k : s.QueueLaw) : (s.completeOp w next).QueueLaw := by
  unfold State.completeOp
  split
  · exact h _ _ k
  · exact k

theorem queue_reset (t : State) (h3 : t.ses = SessionUnit.reset) (m : Bool) (h4 : t.eng = Engine.reset m) : t.QueueLaw := by
  have hs : ∀ i, t.ses.session i = Session.freeSlot := fun i => by rw [h3]; simp [SessionUnit.reset, SessionUnit.session]
  have hq : ∀ p, t.eng.queueOf p = [] := fun p => by rw [h4]; simp [Engine.reset, Engine.queueOf]
  have hn : t.eng.start = none := by rw [h4]; rfl
  refine ⟨fun p => by rw [hq]; exact List.nodup_nil, fun p i => ?_, fun i => ?_, fun h k => by rw [hn] at k; cases k⟩
  · rw [hq, hs]; simp [Session.freeSlot]
  · rw [hs]; simp [Session.freeSlot]

end Sys2Proof.Laws
end

