-- ==== Sys2Proof/Laws/EngineLaw.lean ====
section
/-! SUPPORT. The session in the engine: that PROGRAMMING and UNWINDING follow the engine's record, operation by operation (R36, R50,
R64, R77 to R80, R86). -/

namespace Sys2Proof.Laws

open Sys2Proof Sys2Proof.Machine

/-- The session is in PROGRAMMING or UNWINDING. -/
def InEng (u : SessionUnit) (i : SessionId) : Prop := (u.session i).state = .programming ∨ (u.session i).state = .unwinding

/-- What a commit's record says of its session (R52, R77, R80). -/
structure CommitSession (u : SessionUnit) (r : CommitRec) : Prop where
  inEng : InEng u r.session
  handed : r.boundaryHanded = true → (u.session r.session).state = .programming ∧ (u.session r.session).boundaryPassed = true
  asked : r.unwindRequested = true → (u.session r.session).state = .unwinding

/-- The last data stamp and the flip come after the boundary (R77). -/
def StepHanded (r : CommitRec) (step : CommitStep) : Prop :=
  step = .flipRequested ∨ step = .dataStamp ∧ r.pages.length ≤ r.member + 1 → r.boundaryHanded = true

/-- `State.EngineLaw`, said of the Session Unit, the engine's work and the flip. -/
structure EngineOk (u : SessionUnit) (w : Work) (flip : Option FlipWork) : Prop where
  only : ∀ i, InEng u i → w.session = some i
  commit : ∀ r step, w = .commit r step → step ≠ .flipTaken → CommitSession u r ∧ StepHanded r step
  unwind : ∀ x step, w = .unwind x step → (u.session x.session).state = .unwinding
      ∨ (u.session x.session).state = .programming ∧ u.failure ≠ none
  failure : ∀ f, u.failure = some f → ∃ x step, w = .unwind x step ∧ f.session = x.session
  request : ∀ i, u.unwindRequest = some i → (u.session i).state = .unwinding
  taken : ∀ r, w = .commit r .flipTaken → ∃ f, flip = some f ∧ f.session = r.session
      ∧ (f.reloadDue = true ∨ f.revocationDue = true ∨ f.sessionEndDue = true)
      ∧ (f.sessionEndDue = true →
          (u.session r.session).state = .programming ∧ (u.session r.session).boundaryPassed = true)
      ∧ (f.sessionEndDue = false → ¬ InEng u r.session)
  reported : ∀ f, flip = some f → (∀ r, w ≠ .commit r .flipTaken) →
      f.reloadDue = false ∧ f.revocationDue = false ∧ f.sessionEndDue = false

theorem engineLaw_iff (s : State) : s.EngineLaw ↔ EngineOk s.ses s.eng.work s.map.flip := by
  constructor
  · rintro ⟨a, b, c, d, e, f, g⟩
    exact ⟨a, fun r st h k => ⟨⟨(b r st h k).1, (b r st h k).2.1, (b r st h k).2.2.1⟩, (b r st h k).2.2.2⟩, c, d, e, f, g⟩
  · rintro ⟨a, b, c, d, e, f, g⟩
    exact ⟨a, fun r st h k => ⟨(b r st h k).1.inEng, (b r st h k).1.handed, (b r st h k).1.asked, (b r st h k).2⟩,
      c, d, e, f, g⟩

/-- The law needs no more of the sessions than the states and boundaries of those in the engine. -/
theorem engine_congr {u v : SessionUnit} {w : Work} {f : Option FlipWork} (hs : ∀ i, (v.session i).state = (u.session i).state
      ∧ (v.session i).boundaryPassed = (u.session i).boundaryPassed ∨ ¬ InEng u i ∧ ¬ InEng v i)
    (hf : v.failure = u.failure) (hr : v.unwindRequest = u.unwindRequest) (h : EngineOk u w f) : EngineOk v w f := by
  have inn : ∀ i, InEng v i ↔ InEng u i := by
    intro i
    rcases hs i with k | ⟨k1, k2⟩
    · unfold InEng; rw [k.1]
    · exact ⟨fun x => absurd x k2, fun x => absurd x k1⟩
  have same : ∀ i, InEng u i → (v.session i).state = (u.session i).state
      ∧ (v.session i).boundaryPassed = (u.session i).boundaryPassed := by
    intro i hi
    rcases hs i with k | ⟨k1, -⟩
    · exact k
    · exact absurd hi k1
  obtain ⟨a, b, c, d, e, g, r⟩ := h
  refine ⟨fun i hi => a i ((inn i).1 hi), fun x st hw k => ?_, fun x st hw => ?_, fun x hx => d x (by rw [← hf]; exact hx),
    fun i hi => ?_, fun x hw => ?_, r⟩
  · obtain ⟨k1, k2⟩ := b x st hw k
    have := same _ k1.inEng
    exact ⟨⟨(inn _).2 k1.inEng, fun y => by rw [this.1, this.2]; exact k1.handed y,
      fun y => by rw [this.1]; exact k1.asked y⟩, k2⟩
  · rcases c x st hw with k | ⟨k, k'⟩
    · exact .inl (by rw [(same _ (.inr k)).1]; exact k)
    · exact .inr ⟨by rw [(same _ (.inl k)).1]; exact k, by rw [hf]; exact k'⟩
  · have := e i (by rw [← hr]; exact hi)
    rw [(same _ (.inr this)).1]; exact this
  · obtain ⟨y, y1, y2, y3, y4, y5⟩ := g x hw
    refine ⟨y, y1, y2, y3, fun k => ?_, fun k => by rw [inn]; exact y5 k⟩
    have := same _ (.inl (y4 k).1)
    rw [this.1, this.2]; exact y4 k

/-- A session outside the engine is replaced by one outside it. -/
theorem engine_set {u : SessionUnit} {w : Work} {f : Option FlipWork} (i : SessionId) (r : Session) (old : ¬ InEng u i)
    (new : r.state ≠ .programming ∧ r.state ≠ .unwinding) (h : EngineOk u w f) : EngineOk (u.setSession i r) w f := by
  refine engine_congr (u := u) (v := u.setSession i r) (fun j => ?_) rfl rfl h
  by_cases e : j = i
  · subst e
    refine .inr ⟨old, ?_⟩
    unfold InEng; rw [session_setSession_self]
    exact fun k => k.elim new.1 new.2
  · left; rw [session_setSession, if_neg e]; exact ⟨rfl, rfl⟩

theorem engine_claims {u v : SessionUnit} {w : Work} {f : Option FlipWork} (ht : v.table = u.table)
    (hf : v.failure = u.failure) (hr : v.unwindRequest = u.unwindRequest) (h : EngineOk u w f) : EngineOk v w f :=
  engine_congr (fun i => .inl (by unfold SessionUnit.session; rw [ht]; exact ⟨rfl, rfl⟩)) hf hr h

theorem engine_finish {u : SessionUnit} {w : Work} {f : Option FlipWork} (i : SessionId) (o : SessionOutcome) (old : ¬ InEng u i)
    (h : EngineOk u w f) : EngineOk (u.finish i o) w f :=
  engine_claims (u := u.setSession i ((u.session i).finishedAs o)) rfl rfl rfl (engine_set i ((u.session i).finishedAs o) old (by simp [Session.finishedAs]) h)

theorem engine_release {u : SessionUnit} {w : Work} {f : Option FlipWork} (i : SessionId) (old : ¬ InEng u i)
    (h : EngineOk u w f) : EngineOk (u.release i) w f :=
  engine_claims (u := u.setSession i Session.freeSlot) rfl rfl rfl (engine_set i Session.freeSlot old (by simp [Session.freeSlot]) h)

theorem engine_portReset {u : SessionUnit} {w : Work} {f : Option FlipWork} (p : PortId) (h : EngineOk u w f) :
    EngineOk (u.portReset p) w f := by
  refine engine_congr (fun i => ?_) (failure_portReset u p) (unwindRequest_portReset u p) h
  unfold InEng
  rw [session_portReset]
  unfold resetRecord endsAtReset
  split
  · next e =>
    right
    simp only [Bool.and_eq_true, Bool.or_eq_true, beq_iff_eq] at e
    refine ⟨?_, by simp [Session.freeSlot]⟩
    rcases e.2 with (e | e) | e <;> rw [e] <;> simp
  · split
    · exact .inl ⟨rfl, rfl⟩
    · exact .inl ⟨rfl, rfl⟩

theorem engine_revoke {u : SessionUnit} {w : Work} {f : Option FlipWork} (t : WindowsTable) (h : EngineOk u w f) :
    EngineOk (u.revoke t) w f := by
  refine engine_congr (fun i => ?_) (failure_revoke u t) (unwindRequest_revoke u t) h
  unfold InEng
  rw [session_revoke]
  split
  · next e =>
    right
    simp only [deniedRecord, Bool.and_eq_true, Bool.or_eq_true, beq_iff_eq] at e
    refine ⟨?_, by simp [Session.finishedAs]⟩
    rcases e.1 with e | e <;> rw [e] <;> simp
  · exact .inl ⟨rfl, rfl⟩

/-! ### The engine's own operations -/

/-- What every state of the engine has but for its own record: session `i` alone may be in the engine, no failure stands, and an
unwind request names an UNWINDING session. -/
structure EngineBase (u : SessionUnit) (i : SessionId) (flip : Option FlipWork) : Prop where
  only : ∀ j, InEng u j → j = i
  failure : u.failure = none
  request : ∀ j, u.unwindRequest = some j → (u.session j).state = .unwinding
  reported : ∀ f, flip = some f → f.reloadDue = false ∧ f.revocationDue = false ∧ f.sessionEndDue = false

theorem EngineOk.base {u : SessionUnit} {r : CommitRec} {step : CommitStep} {flip : Option FlipWork}
    (h : EngineOk u (.commit r step) flip) (hs : step ≠ .flipTaken) : EngineBase u r.session flip := by
  refine ⟨fun j hj => ?_, ?_, h.request, fun f hf => h.reported f hf fun x e => ?_⟩
  · have := h.only j hj; exact (Option.some.inj this).symm
  · cases e : u.failure with
    | none => rfl
    | some f => obtain ⟨x, st, k, -⟩ := h.failure f e; cases k
  · cases e; exact hs rfl

/-- The engine is at work on nobody's session. -/
theorem engine_idle {u : SessionUnit} {i : SessionId} {flip : Option FlipWork} (h : EngineBase u i flip) (hn : ¬ InEng u i) (w : Work)
    (hw : w.session = none) : EngineOk u w flip := by
  have out : ∀ j, ¬ InEng u j := fun j hj => hn (h.only j hj ▸ hj)
  refine ⟨fun j hj => absurd hj (out j), fun r st e => ?_, fun x st e => ?_, fun f hf => ?_, fun j hj => ?_, fun r e => ?_,
    fun f hf _ => h.reported f hf⟩
  · subst e; cases hw
  · subst e; cases hw
  · rw [h.failure] at hf; cases hf
  · exact absurd (.inr (h.request j hj)) (out j)
  · subst e; cases hw

theorem EngineOk.idle {u : SessionUnit} {w : Work} {flip : Option FlipWork} (h : EngineOk u w flip) (hw : w.session = none) :
    (∀ i, ¬ InEng u i) ∧ ∀ i, EngineBase u i flip := by
  have out : ∀ j, ¬ InEng u j := fun j hj => by have := h.only j hj; rw [hw] at this; cases this
  refine ⟨out, fun i => ⟨fun j hj => absurd hj (out j), ?_, h.request, fun f hf => h.reported f hf fun r e => ?_⟩⟩
  · cases e : u.failure with
    | none => rfl
    | some f => obtain ⟨x, st, k, -⟩ := h.failure f e; rw [k] at hw; cases hw
  · rw [e] at hw; cases hw

theorem engine_other {u : SessionUnit} {w : Work} {flip : Option FlipWork} (h : EngineOk u w flip) (hw : w.session = none) (w' : Work)
    (hw' : w'.session = none) : EngineOk u w' flip :=
  engine_idle ((h.idle hw).2 0) ((h.idle hw).1 0) w' hw'

theorem engine_commit {u : SessionUnit} {r : CommitRec} {step : CommitStep} {flip : Option FlipWork}
    (h : EngineBase u r.session flip) (c : CommitSession u r) (hs : step ≠ .flipTaken) (hh : StepHanded r step) :
    EngineOk u (.commit r step) flip := by
  refine ⟨fun j hj => by rw [h.only j hj]; rfl, fun r' st e _ => ?_, fun x st e => (by cases e), fun f hf => ?_, h.request,
    fun r' e => ?_, fun f hf _ => h.reported f hf⟩
  · cases e; exact ⟨c, hh⟩
  · rw [h.failure] at hf; cases hf
  · cases e; exact absurd rfl hs

theorem engine_unwind {u : SessionUnit} {x : UnwindRec} {step : UnwindStep} {flip : Option FlipWork}
    (only : ∀ j, InEng u j → j = x.session)
    (st : (u.session x.session).state = .unwinding ∨ (u.session x.session).state = .programming ∧ u.failure ≠ none)
    (fail : ∀ f, u.failure = some f → f.session = x.session) (req : ∀ j, u.unwindRequest = some j → (u.session j).state = .unwinding)
    (rep : ∀ f, flip = some f → f.reloadDue = false ∧ f.revocationDue = false ∧ f.sessionEndDue = false) :
    EngineOk u (.unwind x step) flip := by
  refine ⟨fun j hj => by rw [only j hj]; rfl, fun r' st e _ => (by cases e), fun y s e => ?_, fun f hf => ⟨x, step, rfl, fail f hf⟩, req,
    fun r' e => (by cases e), fun f hf _ => rep f hf⟩
  cases e; exact st

/-- What the engine has while it unwinds `x`. -/
structure UnwindBase (u : SessionUnit) (x : UnwindRec) (flip : Option FlipWork) : Prop where
  only : ∀ j, InEng u j → j = x.session
  state : (u.session x.session).state = .unwinding ∨ (u.session x.session).state = .programming ∧ u.failure ≠ none
  failure : ∀ f, u.failure = some f → f.session = x.session
  request : ∀ j, u.unwindRequest = some j → (u.session j).state = .unwinding
  reported : ∀ f, flip = some f → f.reloadDue = false ∧ f.revocationDue = false ∧ f.sessionEndDue = false

theorem UnwindBase.ok {u : SessionUnit} {x : UnwindRec} {flip : Option FlipWork} (h : UnwindBase u x flip) (step : UnwindStep) :
    EngineOk u (.unwind x step) flip := engine_unwind h.only h.state h.failure h.request h.reported

theorem EngineOk.unwindBase {u : SessionUnit} {x : UnwindRec} {step : UnwindStep} {flip : Option FlipWork}
    (h : EngineOk u (.unwind x step) flip) : UnwindBase u x flip := by
  refine ⟨fun j hj => ?_, h.unwind x step rfl, fun f hf => ?_, h.request, fun f hf => h.reported f hf fun r e => (by cases e)⟩
  · exact (Option.some.inj (h.only j hj)).symm
  · obtain ⟨y, st, e, k⟩ := h.failure f hf; cases e; exact k

/-- Once the failure that stands is taken, the session that the engine unwinds is UNWINDING (R49). -/
theorem UnwindBase.pending {u : SessionUnit} {x : UnwindRec} {flip : Option FlipWork} (h : UnwindBase u x flip) :
    UnwindBase u.takePending x flip ∧ (u.takePending.session x.session).state = .unwinding := by
  cases hf : u.failure with
  | none => rw [takePending_none hf]; exact ⟨h, h.state.resolve_right fun k => k.2 hf⟩
  | some f =>
    have hx := h.failure f hf
    obtain ⟨a, b⟩ := takePending_spec u f hf
    rw [hx] at a b
    by_cases hp : (u.session x.session).state = .programming
    · have e := a hp
      have st : (u.takePending.session x.session).state = .unwinding := by
        rw [e]; show ((u.setSession x.session _).session x.session).state = _; rw [session_setSession_self]
      have oth : ∀ j, j ≠ x.session → u.takePending.session j = u.session j := fun j ne => by
        rw [e]; show (u.setSession x.session _).session j = _; rw [session_setSession, if_neg ne]
      refine ⟨⟨fun j hj => ?_, .inl st, fun g k => (by rw [takePending_failure] at k; cases k), fun j hj => ?_, h.reported⟩, st⟩
      · by_contra ne
        unfold InEng at hj
        rw [oth j ne] at hj
        exact ne (h.only j hj)
      · have := h.request j (by rw [e] at hj; exact hj)
        by_cases ej : j = x.session
        · subst ej; exact st
        · rw [oth j ej]; exact this
    · have st := h.state.resolve_right fun k => hp k.1
      rw [b hp]
      exact ⟨⟨h.only, .inl st, fun g k => (by cases k), h.request, h.reported⟩, st⟩

theorem unwindFinish_engine (s : State) (x : UnwindRec) (h : UnwindBase s.ses x s.map.flip) :
    (s.unwindFinish x.session).EngineLaw := by
  rw [engineLaw_iff]
  obtain ⟨h, hs⟩ := h.pending
  have hf := takePending_failure s.ses
  have eses : (s.unwindFinish x.session).ses = s.ses.takePending.takeUnwindEnd x.session := rfl
  rw [eses]
  generalize s.ses.takePending = u at *
  have only := h.only
  generalize x.session = i at *
  have out : ∀ j, ¬ InEng (u.endSession i (u.notedOutcome i)) j := by
    intro j
    have h := endSession_ends u i (u.notedOutcome i)
    by_cases e : j = i
    · subst e
      unfold InEng
      rw [h.1]
      split <;> simp [Session.finishedAs, Session.freeSlot]
    · intro k
      unfold InEng at k
      rw [h.2.1 j e] at k
      exact e (only j k)
  have hfl : (u.endSession i (u.notedOutcome i)).failure = none := by
    rw [(endSession_ends u i _).2.2.2.1]; exact hf
  have e : u.takeUnwindEnd i = { u.endSession i (u.notedOutcome i) with unwindRequest := none } := by
    unfold SessionUnit.takeUnwindEnd; rw [if_pos hs]
  rw [e]
  exact engine_idle (u := { u.endSession i (u.notedOutcome i) with unwindRequest := none }) (i := i)
    ⟨fun j hj => absurd hj (out j), hfl, fun j hj => (by cases hj), h.reported⟩ (out i) .idle rfl

theorem unwindNext_engine (s : State) (x : UnwindRec) (h : UnwindBase s.ses x s.map.flip) : (s.unwindNext x).EngineLaw := by
  unfold State.unwindNext
  split
  · rw [engineLaw_iff]; exact h.ok _
  · exact unwindFinish_engine s x h

theorem startUnwind_engine (s : State) (r : CommitRec) (h : EngineBase s.ses r.session s.map.flip)
    (hs : (s.ses.session r.session).state = .unwinding) : (s.startUnwind r).EngineLaw :=
  unwindNext_engine s r.toUnwind ⟨h.only, .inl hs, fun f hf => (by rw [h.failure] at hf; cases hf), h.request, h.reported⟩

theorem giveUp_engine (s : State) (r : CommitRec) (f : FailReason) (h : EngineBase s.ses r.session s.map.flip)
    (hs : InEng s.ses r.session) : (s.giveUp r f).EngineLaw := by
  refine unwindNext_engine _ r.toUnwind ⟨h.only, ?_, fun g hg => (by cases hg; rfl), h.request, h.reported⟩
  rcases hs with k | k
  · exact .inr ⟨k, by simp⟩
  · exact .inl k

theorem beginMember_engine (s : State) (r : CommitRec) (h : EngineBase s.ses r.session s.map.flip) (c : CommitSession s.ses r) :
    (s.beginMember r).EngineLaw := by
  unfold State.beginMember
  split
  · rw [engineLaw_iff]
    exact engine_commit (r := { r with targets := r.targets.set r.member _, tries := r.tries + 1 }) h
      ⟨c.inEng, c.handed, c.asked⟩ (by simp) (by simp [StepHanded])
  · exact giveUp_engine s r _ h c.inEng

theorem commitOpEnded_engine (s : State) (r : CommitRec) (ok : Bool) (goOn : State → State)
    (h : EngineBase s.ses r.session s.map.flip) (c : CommitSession s.ses r) (hg : r.unwindRequested = false → (goOn s).EngineLaw) :
    (s.commitOpEnded r ok goOn).EngineLaw := by
  unfold State.commitOpEnded
  split
  · split
    · next hu => exact startUnwind_engine s r h (c.asked hu)
    · next hu => exact hg (by simpa using hu)
  · rw [engineLaw_iff]; exact engine_commit h c (by simp) (by simp [StepHanded])

theorem begunMarkEnded_engine (s : State) (r : CommitRec) (ok : Bool) (h : EngineBase s.ses r.session s.map.flip)
    (c : CommitSession s.ses r) : (s.begunMarkEnded r ok).EngineLaw :=
  commitOpEnded_engine s r ok _ h c fun _ => by
    rw [engineLaw_iff]; exact engine_commit h c (by simp) (by simp [StepHanded])

theorem lineEnded_engine (s : State) (r : CommitRec) (k : Nat) (ok : Bool) (h : EngineBase s.ses r.session s.map.flip)
    (c : CommitSession s.ses r) : (s.lineEnded r k ok).EngineLaw := by
  refine commitOpEnded_engine s r ok _ h c fun _ => ?_
  split
  · rw [engineLaw_iff]; exact engine_commit h c (by simp) (by simp [StepHanded])
  · split
    · rw [engineLaw_iff]; exact engine_commit h c (by simp) (by simp [StepHanded])
    · next hb =>
      rw [engineLaw_iff]
      refine engine_commit h c (by simp) fun k => ?_
      rcases k with k | k
      · cases k
      · simp only [CommitRec.lastMember, Bool.and_eq_true, decide_eq_true_eq, Bool.not_eq_true', not_and,
          Bool.not_eq_false] at hb
        exact hb k.2

theorem dataStampEnded_engine (s : State) (r : CommitRec) (ok : Bool) (h : EngineBase s.ses r.session s.map.flip)
    (c : CommitSession s.ses r) (hh : StepHanded r .dataStamp) : (s.dataStampEnded r ok).EngineLaw := by
  refine commitOpEnded_engine s r ok _ h c fun _ => ?_
  split
  · next hl =>
    rw [engineLaw_iff]
    refine engine_commit h c (by simp) fun _ => hh (.inr ⟨rfl, ?_⟩)
    simpa [CommitRec.lastMember] using hl
  · exact beginMember_engine s _ h ⟨c.inEng, c.handed, c.asked⟩

theorem afterRetire_engine (s : State) (r : CommitRec) (h : EngineBase s.ses r.session s.map.flip) (c : CommitSession s.ses r) :
    (s.afterRetire r).EngineLaw := by
  unfold State.afterRetire
  split
  · next hu => exact startUnwind_engine s r h (c.asked hu)
  · split
    · exact beginMember_engine s r h c
    · exact giveUp_engine s r _ h c.inEng

/-! ### The choice of work -/

theorem engine_finishSession (s : State) (i : SessionId) (o : SessionOutcome) (old : ¬ InEng s.ses i) (h : s.EngineLaw) :
    (s.finishSession i o).EngineLaw := by
  rw [engineLaw_iff] at h ⊢
  exact engine_finish i o old h

theorem takeStart_engine (s : State) (k : StartHandoff) (h : s.EngineLaw) (hw : s.eng.work.session = none) :
    (s.takeStart k).EngineLaw := by
  have h' := h
  rw [engineLaw_iff] at h'
  obtain ⟨out, base⟩ := h'.idle hw
  unfold State.takeStart
  simp only
  split
  · next hl =>
    split
    · have other : ∀ (r : Session) (j : SessionId), InEng (s.ses.setSession k.session r) j → j = k.session := by
        intro r j hj
        by_contra ne
        unfold InEng at hj
        rw [session_setSession, if_neg ne] at hj
        exact out j hj
      refine beginMember_engine _ _ ⟨other _, (base k.session).failure, fun j hj => ?_, (base k.session).reported⟩ ⟨?_, ?_, ?_⟩
      · exact absurd (.inr ((base k.session).request j hj)) (out j)
      · show InEng (s.ses.setSession k.session _) k.session
        left; simp
      · intro e; cases e
      · intro e; cases e
    · exact engine_finishSession _ _ _ (out _) h
    · exact engine_finishSession _ _ _ (out _) h
  · exact h

theorem choose_engine (s : State) (h : s.EngineLaw) (hw : s.eng.work.session = none) : s.choose.EngineLaw := by
  have h' := h
  rw [engineLaw_iff] at h'
  have hrec : ∀ b, (s.reclaimStart b).EngineLaw := fun b => by
    rw [engineLaw_iff]; exact engine_other h' hw _ rfl
  unfold State.choose
  split
  · exact hrec _
  · split
    · unfold State.startCheck State.askSerial
      simp only
      split
      · split <;> exact h
      · split <;> exact h
    · split
      · exact hrec _
      · exact h

theorem choiceEvent_engine (s : State) (h : s.EngineLaw) : s.choiceEvent.EngineLaw := by
  unfold State.choiceEvent
  split
  · next hc =>
    have hw : s.eng.work.session = none := by rw [hc.2.2]; rfl
    split
    · exact takeStart_engine s _ h hw
    · exact choose_engine s h hw
  · exact h

theorem mountVoidNext_engine (s : State) (l : List BlockId) (h : s.EngineLaw) (hw : s.eng.work.session = none) :
    (s.mountVoidNext l).EngineLaw := by
  have h' := h
  rw [engineLaw_iff] at h'
  cases l with
  | nil =>
    refine choiceEvent_engine _ ?_
    rw [engineLaw_iff]; exact engine_other h' hw .idle rfl
  | cons b rest => rw [engineLaw_iff]; exact engine_other h' hw _ rfl

theorem mountVoidEnded_engine (s : State) (b : BlockId) (rest : List BlockId) (n : Nat) (ok : Bool) (h : s.EngineLaw)
    (hw : s.eng.work.session = none) : (s.mountVoidEnded b rest n ok).EngineLaw := by
  have h' := h
  rw [engineLaw_iff] at h'
  unfold State.mountVoidEnded
  split
  · exact mountVoidNext_engine s _ h hw
  · split <;> (rw [engineLaw_iff]; exact engine_other h' hw _ rfl)

theorem eraseEnded_engine (s : State) (b : BlockId) (ok : Bool) (h : s.EngineLaw) (hw : s.eng.work.session = none) :
    (s.eraseEnded b ok).EngineLaw := by
  rw [engineLaw_iff] at h
  unfold State.eraseEnded
  split <;> (rw [engineLaw_iff]; exact engine_other h hw _ rfl)

theorem freeStampEnded_engine (s : State) (b : BlockId) (ok : Bool) (h : s.EngineLaw) (hw : s.eng.work.session = none) :
    (s.freeStampEnded b ok).EngineLaw := by
  rw [engineLaw_iff] at h
  unfold State.freeStampEnded
  split <;> (rw [engineLaw_iff]; exact engine_other h hw _ rfl)

theorem unwindVoidEnded_engine (s : State) (x : UnwindRec) (b : BlockId) (n : Nat) (ok : Bool) (h : UnwindBase s.ses x s.map.flip) :
    (s.unwindVoidEnded x b n ok).EngineLaw := by
  unfold State.unwindVoidEnded
  split
  · exact unwindNext_engine _ _ ⟨h.only, h.state, h.failure, h.request, h.reported⟩
  · split <;> (rw [engineLaw_iff]; exact h.ok _)

theorem retireEnded_engine (s : State) (ok : Bool) (h : s.EngineLaw) : (s.retireEnded ok).EngineLaw := by
  have h' := h
  rw [engineLaw_iff] at h'
  unfold State.retireEnded
  split
  · next r n e =>
    rw [e] at h'
    have hb := h'.base (by simp)
    obtain ⟨c, -⟩ := h'.commit r _ rfl (by simp)
    split
    · rw [engineLaw_iff]; exact engine_commit hb c (by simp) (by simp [StepHanded])
    · split
      · exact afterRetire_engine _ _ hb ⟨c.inEng, c.handed, c.asked⟩
      · exact h
  · next x b n e =>
    rw [e] at h'
    split
    · rw [engineLaw_iff]; exact h'.unwindBase.ok _
    · have hx := h'.unwindBase
      exact unwindNext_engine _ _ ⟨hx.only, hx.state, hx.failure, hx.request, hx.reported⟩
  · next b n e =>
    have hw : s.eng.work.session = none := by rw [e]; rfl
    split <;> (rw [engineLaw_iff]; exact engine_other ((engineLaw_iff s).1 h) hw _ rfl)
  · next b rest n e =>
    have hw : s.eng.work.session = none := by rw [e]; rfl
    split
    · rw [engineLaw_iff]; exact engine_other ((engineLaw_iff s).1 h) hw _ rfl
    · exact mountVoidNext_engine _ _ h hw
  · exact h

theorem opFailed_engine (s : State) (h : s.EngineLaw) : s.opFailed.EngineLaw := by
  have h' := h
  rw [engineLaw_iff] at h'
  unfold State.opFailed
  split
  · next r e =>
    rw [e] at h'
    exact begunMarkEnded_engine s r _ (h'.base (by simp)) (h'.commit r _ rfl (by simp)).1
  · next r k e =>
    rw [e] at h'
    exact lineEnded_engine s r k _ (h'.base (by simp)) (h'.commit r _ rfl (by simp)).1
  · next r e =>
    rw [e] at h'
    exact dataStampEnded_engine s r _ (h'.base (by simp)) (h'.commit r _ rfl (by simp)).1 (h'.commit r _ rfl (by simp)).2
  · next x b n e => rw [e] at h'; exact unwindVoidEnded_engine s x b n _ h'.unwindBase
  · next b e => exact eraseEnded_engine s b _ h (by rw [e]; rfl)
  · next b e => exact freeStampEnded_engine s b _ h (by rw [e]; rfl)
  · next b rest n e => exact mountVoidEnded_engine s b rest n _ h (by rw [e]; rfl)
  · exact retireEnded_engine s _ h

theorem completeOp_engine (s : State) (w : Written) (next : Bool → State → State)
    (hn : ∀ ok (t : State), t.EngineLaw → t.eng.work = s.eng.work → (next ok t).EngineLaw) (h : s.EngineLaw) :
    (s.completeOp w next).EngineLaw := by
  unfold State.completeOp
  split
  · exact hn _ _ h rfl
  · exact h

/-! ### The hand-offs -/

theorem failureHandoff_engine (s t : State) (h : s.EngineLaw) (e : execFailureHandoff s = .next t) : t.EngineLaw := by
  cases e
  rw [engineLaw_iff] at h ⊢
  show EngineOk s.ses.takePending s.eng.work s.map.flip
  cases hf : s.ses.failure with
  | none => rw [takePending_none hf]; exact h
  | some f =>
    obtain ⟨x, step, hw, -⟩ := h.failure f hf
    rw [hw] at h ⊢
    exact h.unwindBase.pending.1.ok step

theorem boundaryHandoff_engine (s t : State) (h : s.EngineLaw) (e : execBoundaryHandoff s = .next t) : t.EngineLaw := by
  have h' := h
  rw [engineLaw_iff] at h'
  unfold execBoundaryHandoff at e
  split at e
  · next r hw =>
    rw [hw] at h'
    have hb := h'.base (by simp)
    obtain ⟨c, -⟩ := h'.commit r _ rfl (by simp)
    simp only at e
    split at e
    · next hp =>
      cases e
      rw [engineLaw_iff]
      have same : ∀ j, j ≠ r.session → (s.ses.setSession r.session { s.ses.session r.session with boundaryPassed := true }).session j
          = s.ses.session j := fun j ne => by rw [session_setSession, if_neg ne]
      have self : (s.ses.setSession r.session { s.ses.session r.session with boundaryPassed := true }).session r.session
          = { s.ses.session r.session with boundaryPassed := true } := session_setSession_self _ _ _
      refine engine_commit (r := { r with boundaryHanded := true }) ⟨fun j hj => ?_, hb.failure, fun j hj => ?_, hb.reported⟩
        ⟨.inl ?_, fun _ => ⟨?_, ?_⟩, fun k => ?_⟩ (by simp) fun _ => rfl
      · by_contra ne
        have hj : InEng (s.ses.setSession r.session _) j := hj
        unfold InEng at hj
        rw [same j ne] at hj
        exact ne (hb.only j hj)
      · have := hb.request j hj
        show ((s.ses.setSession r.session _).session j).state = _
        by_cases ej : j = r.session
        · subst ej; rw [hp] at this; cases this
        · rw [same j ej]; exact this
      · show ((s.ses.setSession r.session _).session r.session).state = _
        rw [self]; exact hp
      · show ((s.ses.setSession r.session _).session r.session).state = _
        rw [self]; exact hp
      · show ((s.ses.setSession r.session _).session r.session).boundaryPassed = _
        rw [self]
      · have := c.asked k
        rw [hp] at this; cases this
    · next hp => cases e; exact startUnwind_engine s r hb (c.inEng.resolve_left hp)
  · cases e; exact h

theorem unwindRequest_engine (s t : State) (h : s.EngineLaw) (e : execUnwindRequest s = .next t) : t.EngineLaw := by
  have h' := h
  rw [engineLaw_iff] at h'
  unfold execUnwindRequest at e
  split at e
  · cases e; exact h
  · next i hi =>
    cases e
    have un := h'.request i hi
    have hclear : EngineOk { s.ses with unwindRequest := none } s.eng.work s.map.flip :=
      ⟨h'.only, fun r st a b => ⟨⟨(h'.commit r st a b).1.inEng, (h'.commit r st a b).1.handed, (h'.commit r st a b).1.asked⟩,
        (h'.commit r st a b).2⟩, h'.unwind, h'.failure, fun j hj => (by cases hj), h'.taken, h'.reported⟩
    unfold State.takeUnwind
    split
    · next r step hw =>
      have hw : s.eng.work = .commit r step := hw
      have ok := hclear
      rw [hw] at ok
      split
      · next hr =>
        have mark : step ≠ .flipTaken → step ≠ .flipRequested →
            (State.setWork { s with ses := { s.ses with unwindRequest := none } }
              (.commit { r with unwindRequested := true } step)).EngineLaw := by
          intro n1 n2
          rw [engineLaw_iff]
          obtain ⟨c, k⟩ := ok.commit r step rfl n1
          exact engine_commit (r := { r with unwindRequested := true }) (ok.base n1)
            ⟨c.inEng, c.handed, fun _ => by rw [hr]; exact un⟩ n1 k
        split
        · exact mark (by simp) (by simp)
        · exact mark (by simp) (by simp)
        · exact mark (by simp) (by simp)
        · exact mark (by simp) (by simp)
        · exact startUnwind_engine _ r (ok.base (by simp)) (by rw [hr]; exact un)
        · rw [engineLaw_iff]; exact hclear
        · rw [engineLaw_iff]; exact hclear
      · rw [engineLaw_iff]; exact hclear
    · rw [engineLaw_iff]; exact hclear

/-- ABORT of a PROGRAMMING session before its boundary (R52). -/
theorem abort_engine (s : State) (i : SessionId) (o : SessionOutcome) (h : s.EngineLaw) (hp : (s.ses.session i).state = .programming)
    (hb : (s.ses.session i).boundaryPassed = false) :
    State.EngineLaw { s with ses := { s.ses.setSession i { s.ses.session i with state := .unwinding, outcome := some o } with
      unwindRequest := some i } } := by
  rw [engineLaw_iff] at h ⊢
  have self : (s.ses.setSession i { s.ses.session i with state := .unwinding, outcome := some o }).session i
      = { s.ses.session i with state := .unwinding, outcome := some o } := session_setSession_self _ _ _
  have same : ∀ j, j ≠ i → (s.ses.setSession i { s.ses.session i with state := .unwinding, outcome := some o }).session j
      = s.ses.session j := fun j ne => by rw [session_setSession, if_neg ne]
  have hi := h.only i (.inl hp)
  have st : ∀ j, InEng s.ses j → j = i := fun j hj => by have := h.only j hj; rw [hi] at this; exact (Option.some.inj this).symm
  have sti : ((s.ses.setSession i { s.ses.session i with state := .unwinding, outcome := some o }).session i).state = .unwinding := by
    rw [self]
  refine ⟨fun j hj => ?_, fun r step hw k => ?_, fun x step hw => ?_, h.failure, fun j hj => (by cases hj; exact sti), fun r hw => ?_,
    h.reported⟩
  · by_cases e : j = i
    · rw [e]; exact hi
    · have hj : InEng (s.ses.setSession i _) j := hj
      unfold InEng at hj
      rw [same j e] at hj
      exact h.only j hj
  · obtain ⟨c, k'⟩ := h.commit r step hw k
    have e : r.session = i := st _ c.inEng
    refine ⟨⟨.inr ?_, fun y => ?_, fun _ => ?_⟩, k'⟩
    · rw [e]; exact sti
    · have := (c.handed y).2; rw [e, hb] at this; cases this
    · rw [e]; exact sti
  · left
    have e : x.session = i := by have := hi; rw [hw] at this; exact Option.some.inj this
    rw [e]; exact sti
  · obtain ⟨f, k1, k2, k3, k4, k5⟩ := h.taken r hw
    have e : r.session = i := by have := hi; rw [hw] at this; exact Option.some.inj this
    cases hd : f.sessionEndDue with
    | true => have := (k4 hd).2; rw [e, hb] at this; cases this
    | false => exact absurd (.inl (by rw [e]; exact hp)) (k5 hd)

/-! ### The flip -/

theorem flip_engine (s : State) (r : CommitRec) (m : MapUnit) (bm : BlockManager) (w : FlipWork) (h : s.EngineLaw)
    (hw : s.eng.work = .commit r .flipRequested) (hm : m.flip = some w) (h1 : w.session = r.session) (h2 : w.sessionEndDue = true) :
    (State.setWork { s with map := m, bm := bm } (.commit r .flipTaken)).EngineLaw := by
  rw [engineLaw_iff] at h ⊢
  rw [hw] at h
  have hb := h.base (by simp)
  obtain ⟨c, k⟩ := h.commit r _ rfl (by simp)
  have hh := c.handed (k (.inl rfl))
  refine ⟨fun j hj => by rw [hb.only j hj]; rfl, fun r' st e n => ?_, fun x st e => (by cases e), fun f hf => ?_, hb.request, fun r' e => ?_,
    fun f hf n => absurd rfl (n r)⟩
  · cases e; exact absurd rfl n
  · have : s.ses.failure = some f := hf
    rw [hb.failure] at this; cases this
  · cases e
    exact ⟨w, hm, h1, .inr (.inr h2), fun _ => hh, fun k => by rw [h2] at k; cases k⟩

/-- A hand-off of a flip is noted (R29, R86). -/
theorem noteHandoff_engine (s : State) (w w' : FlipWork) (u : SessionUnit) (e : Engine) (h : s.EngineLaw) (hf : s.map.flip = some w)
    (hs : w'.session = w.session) (he : e.work = s.eng.work)
    (hother : (∀ r, s.eng.work ≠ .commit r .flipTaken) →
      w'.reloadDue = false ∧ w'.revocationDue = false ∧ w'.sessionEndDue = false ∧ EngineOk u s.eng.work s.map.flip)
    (htaken : ∀ r, s.eng.work = .commit r .flipTaken → (∀ j, InEng u j → j = r.session) ∧ u.failure = none
      ∧ (∀ j, u.unwindRequest = some j → (u.session j).state = .unwinding)
      ∧ (w'.sessionEndDue = true → (u.session r.session).state = .programming ∧ (u.session r.session).boundaryPassed = true)
      ∧ (w'.sessionEndDue = false → ¬ InEng u r.session)) (t : State)
    (ht : t.ses = u ∧ t.map = { s.map with flip := w'.rest } ∧ t.eng.work = (if w'.reported then e.takeReport.work else e.work)) :
    t.EngineLaw := by
  rw [engineLaw_iff] at h ⊢
  obtain ⟨t1, t2, t3⟩ := ht
  rw [t1, t2, t3]
  have rep : ∀ f, w'.rest = some f → f = w' := by
    intro f k; unfold FlipWork.rest at k; split at k <;> cases k; rfl
  have repIff : w'.reported = true ↔ w'.reloadDue = false ∧ w'.revocationDue = false ∧ w'.sessionEndDue = false := by
    unfold FlipWork.reported; simp [and_assoc]
  by_cases hw : ∃ r, s.eng.work = .commit r .flipTaken
  · obtain ⟨r, hw⟩ := hw
    obtain ⟨a, b, c, d, g⟩ := htaken r hw
    rw [hw] at h
    obtain ⟨x, hx, hx2, -⟩ := h.taken r rfl
    rw [hf] at hx; cases hx
    by_cases hr : w'.reported = true
    · have idle : e.takeReport.work = .idle := by unfold Engine.takeReport; rw [he, hw]
      rw [if_pos hr, idle]
      obtain ⟨r1, r2, r3⟩ := repIff.1 hr
      refine engine_idle (i := r.session) ⟨a, b, c, fun f k => ?_⟩ (g r3) .idle rfl
      rw [rep f k]; exact ⟨r1, r2, r3⟩
    · rw [if_neg hr, he, hw]
      have hrest : w'.rest = some w' := by unfold FlipWork.rest; simp [hr]
      refine ⟨fun j hj => by rw [a j hj]; rfl, fun r' st k n => ?_, fun x st k => (by cases k), fun f k => ?_, c, fun r' k => ?_,
        fun f k n => absurd rfl (n r)⟩
      · cases k; exact absurd rfl n
      · rw [b] at k; cases k
      · cases k
        refine ⟨w', hrest, hs.trans hx2, ?_, d, g⟩
        by_contra no
        push Not at no
        exact hr (repIff.2 ⟨by simpa using no.1, by simpa using no.2.1, by simpa using no.2.2⟩)
  · push Not at hw
    obtain ⟨o1, o2, o3, o4⟩ := hother hw
    have hr := repIff.2 ⟨o1, o2, o3⟩
    have same : e.takeReport.work = s.eng.work := by
      unfold Engine.takeReport
      split
      · next r k => rw [he] at k; exact absurd k (hw r)
      · exact he
    rw [if_pos hr, same]
    refine ⟨o4.only, o4.commit, o4.unwind, o4.failure, o4.request, fun r k => absurd k (hw r), fun f k _ => ?_⟩
    rw [rep f k]; exact ⟨o1, o2, o3⟩

theorem engine_reset (t : State) (h2 : t.map = MapUnit.reset) (h3 : t.ses = SessionUnit.reset) (m : Bool)
    (h4 : t.eng = Engine.reset m) : t.EngineLaw := by
  have hs : ∀ i, t.ses.session i = Session.freeSlot := fun i => by rw [h3]; simp [SessionUnit.reset, SessionUnit.session]
  have hw : t.eng.work = .idle := by rw [h4]; rfl
  refine (engineLaw_iff t).2 ⟨fun i hi => ?_, fun r st e => ?_, fun x st e => ?_, fun f hf => ?_, fun i hi => ?_,
    fun r e => ?_, fun f hf => ?_⟩
  · unfold InEng at hi; rw [hs] at hi; rcases hi with hi | hi <;> cases hi
  · rw [hw] at e; cases e
  · rw [hw] at e; cases e
  · rw [h3] at hf; cases hf
  · rw [h3] at hi; cases hi
  · rw [hw] at e; cases e
  · rw [h2] at hf; cases hf

end Sys2Proof.Laws
end

