-- ==== Sys2Proof/Laws/Moves.lean ====
section
/-! SUPPORT. The moves that the Array Engine makes with a block: `BmMove` names each of them with the class that the block comes
from, and pins, pinned classes and the order of the Free Pool are shown kept by each of them once. -/

namespace Sys2Proof.Laws

open Sys2Proof Sys2Proof.Machine

/-- The moves of the Block Manager that the engine makes; `voiding` says that the engine voids for a mount, where it retires
DIRTY blocks (R10 to R14, R89). -/
inductive BmMove (voiding : Prop) : BlockManager → BlockManager → Prop where
  | refl (bm : BlockManager) : BmMove voiding bm bm
  | trans {a b c : BlockManager} : BmMove voiding a b → BmMove voiding b c → BmMove voiding a c
  | alloc {bm bm' : BlockManager} {i : SessionId} {b : BlockId} (h : bm.Allocated bm' i b) (old : bm.classOf b = some .free) :
      BmMove voiding bm bm'
  | voided {bm bm' : BlockManager} {i : SessionId} {b : BlockId} (h : bm.Voided bm' b)
      (old : bm.classOf b = some (.target i)) : BmMove voiding bm bm'
  | retired {bm bm' : BlockManager} {b : BlockId} {k : BlockClass} (h : bm.Retired bm' b) (old : bm.classOf b = some k)
      (notFree : k ≠ .free) (notData : ∀ info, k ≠ .data info) (dirty : k = .dirty → voiding) : BmMove voiding bm bm'
  | eraseStart {bm : BlockManager} {b : BlockId} (h : bm.oldestUnpinned = some b) (old : bm.classOf b = some .dirty) :
      BmMove voiding bm (bm.eraseStart b)
  | returned {bm bm' : BlockManager} {b : BlockId} (h : bm.Returned bm' b) (old : bm.classOf b = some .erasing) :
      BmMove voiding bm bm'

theorem BmMove.mono {P Q : Prop} (h : P → Q) {a b : BlockManager} (m : BmMove P a b) : BmMove Q a b := by
  induction m with
  | refl => exact .refl _
  | trans _ _ i j => exact .trans i j
  | alloc h o => exact .alloc h o
  | voided h o => exact .voided h o
  | retired k o n d v => exact .retired k o n d fun e => h (v e)
  | eraseStart h o => exact .eraseStart h o
  | returned h o => exact .returned h o

theorem reclassed_pins {bm bm' : BlockManager} {b : BlockId} {c : BlockClass} (h : bm.Reclassed bm' b c) (x : BlockId) :
    bm'.pins x = bm.pins x := by
  unfold BlockManager.pins
  rw [h.1]
  split
  · next e => subst e; cases bm.block x <;> rfl
  · rfl

theorem reclassed_count {bm bm' : BlockManager} {b : BlockId} {c : BlockClass} (h : bm.Reclassed bm' b c) (x : BlockId) :
    bm'.eraseCount x = bm.eraseCount x := by
  unfold BlockManager.eraseCount
  rw [h.1]
  split
  · next e => subst e; cases bm.block x <;> rfl
  · rfl

theorem reclassed_cls {bm bm' : BlockManager} {b : BlockId} {c k : BlockClass} (h : bm.Reclassed bm' b c)
    (hk : bm.classOf b = some k) (x : BlockId) : bm'.classOf x = if x = b then some c else bm.classOf x := by
  unfold BlockManager.classOf at *
  rw [h.1]
  split
  · cases hb : bm.block b with
    | none => rw [hb] at hk; cases hk
    | some r => rfl
  · rfl

theorem returned_cls {bm bm' : BlockManager} {b : BlockId} {k : BlockClass} (h : bm.Returned bm' b)
    (hk : bm.classOf b = some k) (x : BlockId) : bm'.classOf x = if x = b then some .free else bm.classOf x := by
  unfold BlockManager.classOf at *
  rw [h.2.2.1]
  split
  · cases hb : bm.block b with
    | none => rw [hb] at hk; cases hk
    | some r => rfl
  · rfl

theorem returned_pins {bm bm' : BlockManager} {b : BlockId} (h : bm.Returned bm' b) (x : BlockId) :
    bm'.pins x = bm.pins x := by
  unfold BlockManager.pins
  rw [h.2.2.1]
  split
  · next e => subst e; cases bm.block x <;> rfl
  · rfl

theorem returned_count {bm bm' : BlockManager} {b : BlockId} (h : bm.Returned bm' b) (x : BlockId) (hx : x ≠ b) :
    bm'.eraseCount x = bm.eraseCount x := by
  unfold BlockManager.eraseCount
  rw [h.2.2.1, if_neg hx]

theorem BmMove.pins {v : Prop} {bm bm' : BlockManager} (m : BmMove v bm bm') (x : BlockId) : bm'.pins x = bm.pins x := by
  induction m with
  | refl => rfl
  | trans _ _ i j => rw [j, i]
  | alloc h _ => exact (reclassed_pins h.2.2.2 x)
  | voided h _ => exact (reclassed_pins h.2.2.2 x)
  | retired h => exact (reclassed_pins h.2.2.2 x)
  | eraseStart h _ => exact (reclassed_pins (eraseStart_spec _ _).2.2.2 x)
  | returned h _ => exact returned_pins h x

/-- The engine voids for a mount (R89). -/
def WorkVoids : Work → Prop
  | .mountVoid _ _ _ => True
  | .idle | .commit _ _ | .unwind _ _ | .erase _ _ => False

/-- A pinned block is DATA or DIRTY (R18). -/
def Pinned (bm : BlockManager) : Prop :=
  ∀ b : BlockId, 0 < bm.pins b → (∃ info, bm.classOf b = some (.data info)) ∨ bm.classOf b = some .dirty

theorem pinned_reclass {bm bm' : BlockManager} {b : BlockId} {c : BlockClass} (hp : ∀ x, bm'.pins x = bm.pins x)
    (hc : ∀ x, bm'.classOf x = if x = b then some c else bm.classOf x) (hz : c = .dirty ∨ bm.pins b = 0)
    (h : Pinned bm) : Pinned bm' := by
  intro x hx
  rw [hp] at hx
  rw [hc]
  split
  · next e =>
    rcases hz with k | k
    · exact .inr (by rw [k])
    · rw [e] at hx; omega
  · exact h x hx

theorem BmMove.pinned {v : Prop} {bm bm' : BlockManager} (m : BmMove v bm bm') (h : Pinned bm)
    (hz : v → ∀ x, bm.pins x = 0) : Pinned bm' := by
  have zero : ∀ {bm : BlockManager} {b : BlockId} {k : BlockClass}, Pinned bm → bm.classOf b = some k →
      (∀ info, k ≠ .data info) → k ≠ .dirty → bm.pins b = 0 := by
    intro bm b k hp hk h1 h2
    by_contra ne
    rcases hp b (by omega) with ⟨i, e⟩ | e <;> rw [hk] at e <;> cases e
    · exact h1 i rfl
    · exact h2 rfl
  induction m with
  | refl => exact h
  | trans m1 _ i j => exact j (i h hz) fun k x => by rw [m1.pins]; exact hz k x
  | alloc k o =>
    exact pinned_reclass (reclassed_pins k.2.2.2) ((reclassed_cls k.2.2.2 o)) (.inr (zero h o (by simp) (by simp))) h
  | voided k o => exact pinned_reclass (reclassed_pins k.2.2.2) ((reclassed_cls k.2.2.2 o)) (.inl rfl) h
  | @retired _ _ b k hr o n d e =>
    refine pinned_reclass (reclassed_pins hr.2.2.2) ((reclassed_cls hr.2.2.2 o)) (.inr ?_) h
    by_cases kd : k = .dirty
    · exact hz (e kd) b
    · exact zero h o d kd
  | eraseStart k o =>
    exact pinned_reclass (reclassed_pins (eraseStart_spec _ _).2.2.2) ((reclassed_cls (eraseStart_spec _ _).2.2.2 o))
      (.inr (oldestUnpinned_some k).2) h
  | returned k o => exact pinned_reclass (returned_pins k) (returned_cls k o) (.inr (zero h o (by simp) (by simp))) h

/-- The Free Pool holds FREE blocks in its order (R15). -/
def PoolOk (bm : BlockManager) : Prop := (∀ b ∈ bm.freePool, bm.classOf b = some .free) ∧ bm.freePool.Pairwise bm.Before

theorem before_congr {bm bm' : BlockManager} {a b : BlockId} (ha : bm'.eraseCount a = bm.eraseCount a)
    (hb : bm'.eraseCount b = bm.eraseCount b) (h : bm.Before a b) : bm'.Before a b := by
  unfold BlockManager.Before at *; rw [ha, hb]; exact h

theorem pairwise_congr {bm bm' : BlockManager} {l : List BlockId} (hc : ∀ x ∈ l, bm'.eraseCount x = bm.eraseCount x)
    (h : l.Pairwise bm.Before) : l.Pairwise bm'.Before :=
  h.imp_of_mem fun ha hb k => before_congr (hc _ ha) (hc _ hb) k

theorem pool_sub {bm bm' : BlockManager} {b : BlockId} {c k : BlockClass} (h : bm.Reclassed bm' b c)
    (hk : bm.classOf b = some k) (hs : bm'.freePool.Sublist bm.freePool) (hb : b ∉ bm'.freePool) (p : PoolOk bm) :
    PoolOk bm' := by
  refine ⟨fun x hx => ?_, pairwise_congr (fun x _ => reclassed_count h x) (p.2.sublist hs)⟩
  rw [reclassed_cls h hk, if_neg (by rintro rfl; exact hb hx)]
  exact p.1 x (hs.subset hx)

theorem before_trans (bm : BlockManager) {a b c : BlockId} (h : bm.Before a b) (k : bm.Before b c) : bm.Before a c := by
  unfold BlockManager.Before at *; omega

theorem before_total (bm : BlockManager) {a b : BlockId} (ne : a ≠ b) (h : ¬ bm.Before a b) : bm.Before b a := by
  have : a.val ≠ b.val := fun e => ne (Fin.ext e)
  unfold BlockManager.Before at *; omega

theorem BmMove.pool {v : Prop} {bm bm' : BlockManager} (m : BmMove v bm bm') (h : PoolOk bm) : PoolOk bm' := by
  have notIn : ∀ {bm : BlockManager} {b : BlockId} {k : BlockClass}, PoolOk bm → bm.classOf b = some k → k ≠ .free →
      b ∉ bm.freePool := by
    intro bm b k p hk ne hx
    have := p.1 b hx
    rw [hk] at this; cases this; exact ne rfl
  induction m with
  | refl => exact h
  | trans _ _ i j => exact j (i h)
  | @alloc bm bm' i b k o =>
    have hn : b ∉ bm'.freePool := by
      intro hx
      have := h.2
      rw [k.1] at this
      have := (List.pairwise_cons.1 this).1 b hx
      unfold BlockManager.Before at this; omega
    exact pool_sub k.2.2.2 o (by rw [k.1]; exact List.sublist_cons_self _ _) hn h
  | voided k o => exact pool_sub k.2.2.2 o (by rw [k.1]) (by rw [k.1]; exact notIn h o (by simp)) h
  | retired k o n => exact pool_sub k.2.2.2 o (by rw [k.1]) (by rw [k.1]; exact notIn h o n) h
  | @eraseStart bm b k o =>
    have hb : b ∉ bm.freePool := notIn h o (by simp)
    exact pool_sub (eraseStart_spec bm b).2.2.2 o (List.Sublist.refl bm.freePool) hb h
  | @returned bm bm' b k o =>
    have hb := notIn h o (by simp)
    obtain ⟨before, after, e1, e2, h1, h2⟩ := k.2.2.2.1
    have ne : ∀ x ∈ bm.freePool, x ≠ b := fun x hx e => hb (e ▸ hx)
    refine ⟨fun x hx => ?_, ?_⟩
    · rw [e2] at hx
      rw [returned_cls k o]
      split
      · rfl
      · next hxb =>
        refine h.1 x ?_
        rw [e1]
        simp only [List.mem_append, List.mem_cons] at hx ⊢
        tauto
    · have ord : bm.freePool.Pairwise bm'.Before := pairwise_congr (fun x hx => returned_count k x (ne x hx)) h.2
      rw [e1] at ord
      rw [e2]
      obtain ⟨o1, o2, o3⟩ := List.pairwise_append.1 ord
      have hAfter : ∀ y ∈ after, bm'.Before b y := by
        intro y hy
        cases ha : after with
        | nil => rw [ha] at hy; cases hy
        | cons c rest =>
          have hc := h2 c (by rw [ha]; rfl)
          rw [ha] at hy o2
          rcases List.mem_cons.1 hy with rfl | hy
          · exact hc
          · exact before_trans _ hc ((List.pairwise_cons.1 o2).1 y hy)
      refine List.pairwise_append.2 ⟨o1, List.pairwise_cons.2 ⟨hAfter, o2⟩, fun x hx y hy => ?_⟩
      rcases List.mem_cons.1 hy with rfl | hy
      · exact before_total _ (ne x (by rw [e1]; simp [hx])).symm (h1 x hx)
      · exact o3 x hx y hy

end Sys2Proof.Laws
end

