-- ==== Sys2Proof/Laws/BlockLaw.lean ====
section
/-! SUPPORT. The laws of the blocks and of the mount, operation by operation. -/

namespace Sys2Proof.Laws

open Sys2Proof Sys2Proof.Machine

/-- The collections hold the blocks of their class, each once; the Free Pool all of them where `full` holds. -/
structure ListsOk (full : Prop) (bm : BlockManager) : Prop where
  freeNodup : bm.freePool.Nodup
  free : ∀ b ∈ bm.freePool, bm.classOf b = some .free
  pool : full → ∀ b, bm.classOf b = some .free → b ∈ bm.freePool
  dirtyNodup : bm.dirtyList.Nodup
  dirty : ∀ b, b ∈ bm.dirtyList ↔ bm.classOf b = some .dirty
  retNodup : bm.retiredSet.Nodup
  ret : ∀ b, b ∈ bm.retiredSet ↔ bm.classOf b = some .retired

/-- The mapped entries and the DATA blocks agree (R22). -/
structure MapsOk (entry : PageId → Option MapEntry) (bm : BlockManager) : Prop where
  data : ∀ q b, (∃ serial writer, entry q = some { block := b, serial := serial, writer := writer }) ↔
      ∃ info, bm.classOf b = some (.data info) ∧ info.page = q
  info : ∀ q e info, entry q = some e → bm.classOf e.block = some (.data info) → info.serial = e.serial
      ∧ info.writer = e.writer

theorem blockLaw_iff (s : State) : s.BlockLaw ↔ ListsOk (s.mount.stage ≠ .scan) s.bm ∧ MapsOk s.map.entry s.bm
    ∧ s.eng.work.HoldsBlocks s.bm ∧ MembersOk s.ses := by
  constructor
  · rintro ⟨⟨a, b, c⟩, ⟨d, e⟩, ⟨f, g⟩, h, i, j, k⟩
    exact ⟨⟨a, b, c, d, e, f, g⟩, ⟨h, i⟩, j, k⟩
  · rintro ⟨⟨a, b, c, d, e, f, g⟩, ⟨h, i⟩, j, k⟩
    exact ⟨⟨a, b, c⟩, ⟨d, e⟩, ⟨f, g⟩, h, i, j, k⟩

/-- Block `b` goes from class `k` to class `c`, and no other block changes its class. -/
def Goes (bm bm' : BlockManager) (b : BlockId) (k c : BlockClass) : Prop :=
  bm.classOf b = some k ∧ ∀ x, bm'.classOf x = if x = b then some c else bm.classOf x

theorem goes_of {bm bm' : BlockManager} {b : BlockId} {k c : BlockClass} (h : bm.Reclassed bm' b c)
    (hk : bm.classOf b = some k) : Goes bm bm' b k c := by
  refine ⟨hk, fun x => ?_⟩
  unfold BlockManager.classOf at *
  rw [h.1]
  split
  · next e =>
    cases hb : bm.block b with
    | none => rw [hb] at hk; cases hk
    | some r => rfl
  · rfl

/-- A class other than DATA. -/
def BlockClass.notData : BlockClass → Prop
  | .data _ => False
  | _ => True

theorem maps_goes {entry} {bm bm' : BlockManager} {b k c} (h : Goes bm bm' b k c) (hk : BlockClass.notData k)
    (hc : BlockClass.notData c) (m : MapsOk entry bm) : MapsOk entry bm' := by
  have key : ∀ x info, bm'.classOf x = some (.data info) ↔ bm.classOf x = some (.data info) := by
    intro x info
    rw [h.2]
    split
    · next e =>
      subst e
      rw [h.1]
      constructor <;> intro e <;> cases e
      · exact hc.elim
      · exact hk.elim
    · rfl
  refine ⟨fun q x => ?_, fun q e info he hi => m.info q e info he ((key _ _).1 hi)⟩
  rw [m.data]
  simp only [key]

theorem alloc_ok {full} {bm bm' : BlockManager} {i b} (h : bm.Allocated bm' i b) (l : ListsOk full bm) :
    Goes bm bm' b .free (.target i) ∧ ListsOk full bm' := by
  obtain ⟨h1, h2, h3, h4⟩ := h
  have hb : bm.classOf b = some .free := l.free b (by rw [h1]; simp)
  have g := goes_of h4 hb
  have hn := l.freeNodup
  rw [h1] at hn
  obtain ⟨hn1, hn2⟩ := List.nodup_cons.1 hn
  refine ⟨g, ⟨hn2, fun x hx => ?_, fun hf x hx => ?_, by rw [h2]; exact l.dirtyNodup, fun x => ?_,
      by rw [h3]; exact l.retNodup, fun x => ?_⟩⟩
  · rw [g.2, if_neg (by rintro rfl; exact hn1 hx)]
    exact l.free x (by rw [h1]; simp [hx])
  · rw [g.2] at hx
    split at hx
    · cases hx
    · next ne =>
      have := l.pool hf x hx
      rw [h1] at this
      exact (List.mem_cons.1 this).resolve_left ne
  · rw [h2, g.2, l.dirty]; split
    · next e => subst e; rw [hb]; simp
    · rfl
  · rw [h3, g.2, l.ret]; split
    · next e => subst e; rw [hb]; simp
    · rfl

theorem voided_ok {full} {bm bm' : BlockManager} {b k} (h : bm.Voided bm' b) (hk : bm.classOf b = some k)
    (k1 : k ≠ .free) (k2 : k ≠ .dirty) (k3 : k ≠ .retired) (l : ListsOk full bm) :
    Goes bm bm' b k .dirty ∧ ListsOk full bm' := by
  obtain ⟨h1, h2, h3, h4⟩ := h
  have g := goes_of h4 hk
  refine ⟨g, ⟨by rw [h1]; exact l.freeNodup, fun x hx => ?_, fun hf x hx => ?_, ?_, fun x => ?_,
      by rw [h3]; exact l.retNodup, fun x => ?_⟩⟩
  · rw [h1] at hx
    rw [g.2, if_neg]
    · exact l.free x hx
    · rintro rfl; have := l.free x hx; rw [hk] at this; cases this; exact k1 rfl
  · rw [g.2] at hx
    split at hx
    · cases hx
    · rw [h1]; exact l.pool hf x hx
  · rw [h2]
    refine List.nodup_append.2 ⟨l.dirtyNodup, by simp, ?_⟩
    rintro x hx y hy rfl
    simp at hy; subst hy
    have := (l.dirty x).1 hx
    rw [hk] at this; cases this; exact k2 rfl
  · rw [h2, g.2, List.mem_append, l.dirty]
    split
    · next e => subst e; simp
    · next e => simp [e]
  · rw [h3, g.2, l.ret]; split
    · next e => subst e; rw [hk]; simp [k3]
    · rfl

theorem retired_nodup (b : BlockId) (l : List BlockId) (h : l.Nodup) (hb : b ∉ l) : (insertBlock b l).Nodup := by
  induction l with
  | nil => simp [insertBlock]
  | cons c rest ih =>
    unfold insertBlock
    split
    · exact List.nodup_cons.2 ⟨hb, h⟩
    · split
      · exact h
      · obtain ⟨h1, h2⟩ := List.nodup_cons.1 h
        refine List.nodup_cons.2 ⟨?_, ih h2 fun k => hb (by simp [k])⟩
        rw [mem_insertBlock]
        rintro (rfl | k)
        · exact hb (by simp)
        · exact h1 k

theorem retire_ok {full} (bm : BlockManager) {b k} (hk : bm.classOf b = some k) (k1 : k ≠ .free)
    (k3 : k ≠ .retired) (l : ListsOk full bm) :
    Goes bm (bm.retire b) b k .retired ∧ ListsOk full (bm.retire b) := by
  have g := goes_of (retire_spec bm b).2.2.2 hk
  refine ⟨g, ⟨l.freeNodup, fun x hx => ?_, fun hf x hx => ?_, l.dirtyNodup.filter _, fun x => ?_, ?_, fun x => ?_⟩⟩
  · rw [g.2, if_neg]
    · exact l.free x hx
    · rintro rfl; have := l.free x hx; rw [hk] at this; cases this; exact k1 rfl
  · rw [g.2] at hx
    split at hx
    · cases hx
    · exact l.pool hf x hx
  · show x ∈ removeBlock b bm.dirtyList ↔ _
    rw [mem_removeBlock, g.2, l.dirty]
    split
    · next e => simp [e]
    · next e => simp [e]
  · refine retired_nodup b _ l.retNodup fun hx => ?_
    have := (l.ret b).1 hx
    rw [hk] at this; cases this; exact k3 rfl
  · show x ∈ insertBlock b bm.retiredSet ↔ _
    rw [mem_insertBlock, g.2, l.ret]
    split
    · next e => simp [e]
    · next e => simp [e]

theorem eraseStart_ok {full} (bm : BlockManager) {b} (hk : bm.classOf b = some .dirty) (l : ListsOk full bm) :
    Goes bm (bm.eraseStart b) b .dirty .erasing ∧ ListsOk full (bm.eraseStart b) := by
  have g := goes_of (eraseStart_spec bm b).2.2.2 hk
  refine ⟨g, ⟨l.freeNodup, fun x hx => ?_, fun hf x hx => ?_, l.dirtyNodup.filter _, fun x => ?_, l.retNodup,
      fun x => ?_⟩⟩
  · rw [g.2, if_neg]
    · exact l.free x hx
    · rintro rfl; have := l.free x hx; rw [hk] at this; cases this
  · rw [g.2] at hx
    split at hx
    · cases hx
    · exact l.pool hf x hx
  · show x ∈ removeBlock b bm.dirtyList ↔ _
    rw [mem_removeBlock, g.2, l.dirty]
    split
    · next e => simp [e]
    · next e => simp [e]
  · show x ∈ bm.retiredSet ↔ _
    rw [g.2, l.ret]; split
    · next e => subst e; rw [hk]; simp
    · rfl

theorem returned_ok {full} {bm bm' : BlockManager} {b} (h : bm.Returned bm' b)
    (hk : bm.classOf b = some .erasing) (l : ListsOk full bm) :
    Goes bm bm' b .erasing .free ∧ ListsOk full bm' := by
  obtain ⟨h1, h2, h3, ⟨x1, x2, e1, e2, -, -⟩, -⟩ := h
  have g : Goes bm bm' b .erasing .free := by
    refine ⟨hk, fun x => ?_⟩
    unfold BlockManager.classOf at *
    rw [h3]
    split
    · cases hb : bm.block b with
      | none => rw [hb] at hk; cases hk
      | some r => rfl
    · rfl
  have hperm : bm'.freePool.Perm (b :: bm.freePool) := by rw [e2, e1]; exact List.perm_middle
  have hnb : b ∉ bm.freePool := fun hx => by have := l.free b hx; rw [hk] at this; cases this
  refine ⟨g, ⟨hperm.nodup_iff.2 (List.nodup_cons.2 ⟨hnb, l.freeNodup⟩), fun x hx => ?_, fun hf x hx => ?_,
      by rw [h1]; exact l.dirtyNodup, fun x => ?_, by rw [h2]; exact l.retNodup, fun x => ?_⟩⟩
  · rw [hperm.mem_iff] at hx
    rw [g.2]
    rcases List.mem_cons.1 hx with rfl | hx'
    · simp
    · rw [if_neg (by rintro rfl; exact hnb hx')]; exact l.free x hx'
  · rw [hperm.mem_iff]
    rw [g.2] at hx
    split at hx
    · next e => simp [e]
    · simp [l.pool hf x hx]
  · rw [h1, g.2, l.dirty]; split
    · next e => subst e; rw [hk]; simp
    · rfl
  · rw [h2, g.2, l.ret]; split
    · next e => subst e; rw [hk]; simp
    · rfl

/-- The law of the blocks, in four parts. -/
structure Sound (s : State) : Prop where
  lists : ListsOk (s.mount.stage ≠ .scan) s.bm
  maps : MapsOk s.map.entry s.bm
  work : s.eng.work.HoldsBlocks s.bm
  members : MembersOk s.ses

/-- What an operation of the engine needs of the state it works on, but for its own record. -/
structure Base (s : State) : Prop where
  lists : ListsOk (s.mount.stage ≠ .scan) s.bm
  maps : MapsOk s.map.entry s.bm
  members : MembersOk s.ses
  noScan : s.mount.stage ≠ .scan

/-- An operation of the engine leaves the law of the blocks, with the mount unchanged or ended. -/
def EndsOk (s t : State) : Prop :=
  Sound t ∧ (t.mount = s.mount ∨ t.mount = s.mount.finish) ∧ BmMove (WorkVoids s.eng.work) s.bm t.bm
  ∧ (WorkVoids t.eng.work → WorkVoids s.eng.work ∧ t.mount = s.mount)

theorem filterMap_some (x : BlockId) (l : List (Option BlockId)) :
    List.filterMap id (some x :: l) = x :: List.filterMap id l := rfl

theorem filterMap_none (l : List (Option BlockId)) : List.filterMap id (none :: l) = List.filterMap id l := rfl

theorem targets_set_none {bm bm' : BlockManager} {i b c k} {targets : List (Option BlockId)} {m : Nat}
    (h : HoldsTargets bm i targets) (g : Goes bm bm' b k c) (hm : targets[m]? = some (some b)) :
    HoldsTargets bm' i (targets.set m none) := by
  have hsub : ∀ x, some x ∈ targets.set m none → some x ∈ targets ∧ x ≠ b := by
    intro x hx
    obtain ⟨j, hj⟩ := List.mem_iff_getElem?.1 hx
    rw [List.getElem?_set] at hj
    split at hj
    · split at hj <;> cases hj
    · next ne =>
      refine ⟨List.mem_of_getElem? hj, ?_⟩
      rintro rfl
      exact ne (index_inj h.1 _ _ _ hm hj)
  refine ⟨?_, fun x hx => ?_⟩
  · have : (List.filterMap id (targets.set m none)).Sublist (List.filterMap id targets) := by
      clear hm hsub h
      induction targets generalizing m with
      | nil => simp
      | cons a l ih =>
        cases m with
        | zero =>
          rw [List.set_cons_zero, filterMap_none]
          cases a with
          | none => rw [filterMap_none]
          | some x => rw [filterMap_some]; exact List.sublist_cons_self _ _
        | succ m =>
          rw [List.set_cons_succ]
          cases a with
          | none => rw [filterMap_none, filterMap_none]; exact ih
          | some x => rw [filterMap_some, filterMap_some]; exact ih.cons_cons _
    exact this.nodup h.1
  · obtain ⟨h1, h2⟩ := hsub x hx
    rw [g.2, if_neg h2]
    exact h.2 x h1

theorem targets_drop {bm bm' : BlockManager} {i b c k} {targets : List (Option BlockId)}
    (h : HoldsTargets bm i targets) (g : Goes bm bm' b k c) :
    HoldsTargets bm' i (dropTarget b targets) := by
  have hsub : ∀ x, some x ∈ dropTarget b targets → some x ∈ targets ∧ x ≠ b := by
    intro x hx
    obtain ⟨y, hy, e⟩ := List.mem_map.1 hx
    split at e
    · cases e
    · next ne => subst e; exact ⟨hy, fun e => ne (by rw [e])⟩
  refine ⟨?_, fun x hx => ?_⟩
  · have : (List.filterMap id (dropTarget b targets)).Sublist (List.filterMap id targets) := by
      clear hsub h
      unfold dropTarget
      induction targets with
      | nil => simp
      | cons a l ih =>
        rw [List.map_cons]
        split
        · rw [filterMap_none]
          cases a with
          | none => rw [filterMap_none]; exact ih
          | some x => rw [filterMap_some]; exact ih.cons _
        · cases a with
          | none => rw [filterMap_none, filterMap_none]; exact ih
          | some x => rw [filterMap_some, filterMap_some]; exact ih.cons_cons _
    exact this.nodup h.1
  · obtain ⟨h1, h2⟩ := hsub x hx
    rw [g.2, if_neg h2]
    exact h.2 x h1

theorem targets_set_some {bm bm' : BlockManager} {i b k} {targets : List (Option BlockId)} (m : Nat)
    (h : HoldsTargets bm i targets) (g : Goes bm bm' b k (.target i)) (hk : k ≠ .target i) :
    HoldsTargets bm' i (targets.set m (some b)) := by
  have hb : some b ∉ targets := fun hx => by have := h.2 b hx; rw [g.1] at this; cases this; exact hk rfl
  refine ⟨?_, fun x hx => ?_⟩
  · have hb' : b ∉ targets.filterMap id := by
      rw [List.mem_filterMap]
      rintro ⟨y, hy, e⟩
      simp at e
      subst e
      exact hb hy
    have h1 := h.1
    clear h hb
    induction targets generalizing m with
    | nil => simp
    | cons a l ih =>
      cases m with
      | zero =>
        rw [List.set_cons_zero, filterMap_some]
        cases a with
        | none => rw [filterMap_none] at h1 hb'; exact List.nodup_cons.2 ⟨hb', h1⟩
        | some x =>
          rw [filterMap_some] at h1 hb'
          exact List.nodup_cons.2 ⟨fun k => hb' (List.mem_cons_of_mem _ k), (List.nodup_cons.1 h1).2⟩
      | succ m =>
        rw [List.set_cons_succ]
        cases a with
        | none => rw [filterMap_none] at h1 hb' ⊢; exact ih m hb' h1
        | some x =>
          rw [filterMap_some] at h1 hb' ⊢
          obtain ⟨n1, n2⟩ := List.nodup_cons.1 h1
          refine List.nodup_cons.2 ⟨?_, ih m (fun k => hb' (List.mem_cons_of_mem _ k)) n2⟩
          rw [List.mem_filterMap]
          rintro ⟨y, hy, e⟩
          simp at e; subst e
          rcases List.mem_or_eq_of_mem_set hy with hy | hy
          · exact n1 (List.mem_filterMap.2 ⟨_, hy, rfl⟩)
          · cases hy; exact hb' (by simp)
  · rcases List.mem_or_eq_of_mem_set hx with hx' | hx
    · rw [g.2, if_neg (by rintro rfl; exact hb hx')]; exact h.2 x hx'
    · cases hx; rw [g.2, if_pos rfl]

theorem work_ok (s : State) (h : Base s) (w : Work) (hw : w.HoldsBlocks s.bm)
    (hv : WorkVoids w → WorkVoids s.eng.work := by exact False.elim) : EndsOk s (s.setWork w) :=
  ⟨⟨h.lists, h.maps, hw, h.members⟩, .inl rfl, .refl _, fun k => ⟨hv k, rfl⟩⟩

theorem endsOk_trans {s u t : State} (hm : u.mount = s.mount) (hb : BmMove (WorkVoids s.eng.work) s.bm u.bm)
    (hv : WorkVoids u.eng.work → WorkVoids s.eng.work) (h : EndsOk u t) : EndsOk s t := by
  obtain ⟨a, b, c, d⟩ := h
  rw [hm] at b d
  exact ⟨a, b, hb.trans (c.mono hv), fun k => ⟨hv (d k).1, (d k).2⟩⟩

theorem unwindFinish_ok (s : State) (h : Base s) (i : SessionId) : EndsOk s (s.unwindFinish i) := by
  refine ⟨⟨h.lists, h.maps, trivial, ?_⟩, .inl rfl, .refl _, fun k => k.elim⟩
  exact members_kept (unwindFinish_move s i).ses h.members

theorem unwindNext_ok (s : State) (h : Base s) (u : UnwindRec) (hu : HoldsTargets s.bm u.session u.targets) :
    EndsOk s (s.unwindNext u) := by
  unfold State.unwindNext
  split
  · next b hb =>
    refine work_ok s h _ ⟨hu, ?_⟩
    obtain ⟨x, y, e, -⟩ := (firstTarget_some u b).2 hb
    show some b ∈ u.targets
    rw [e]; simp
  · exact unwindFinish_ok s h _

theorem giveUp_ok (s : State) (h : Base s) (r : CommitRec) (f) (hu : HoldsTargets s.bm r.session r.targets) :
    EndsOk s (s.giveUp r f) := by
  have := unwindNext_ok { s with ses :=
      { s.ses with failure := some { session := r.session, reason := f } } } ⟨h.lists, h.maps, h.members,
      h.noScan⟩ r.toUnwind hu
  exact this

/-- A commit record at the beginning of a member: targets for the members before it. -/
structure RecOk (bm : BlockManager) (r : CommitRec) : Prop where
  nodup : r.pages.Nodup
  len : r.targets.length = r.pages.length
  lt : r.member < r.pages.length
  past : ∀ m, m < r.member → ∃ b, r.targets[m]? = some (some b)
  hold : HoldsTargets bm r.session r.targets

theorem beginMember_ok (s : State) (h : Base s) (r : CommitRec) (hr : RecOk s.bm r) : EndsOk s (s.beginMember r) := by
  unfold State.beginMember
  split
  · next b bm e =>
    cases hf : s.bm.freePool with
    | nil => rw [allocate_none hf] at e; cases e
    | cons b' rest =>
      obtain ⟨bm', e', ha, -⟩ := allocate_some hf r.session
      rw [e] at e'; cases e'
      obtain ⟨g, l⟩ := alloc_ok ha h.lists
      refine ⟨⟨l, maps_goes g trivial trivial h.maps, ?_, h.members⟩, .inl rfl, .alloc ha g.1, fun k => k.elim⟩
      refine ⟨hr.nodup, by simp [hr.len], hr.lt, fun m hm => ?_,
          fun _ => targets_set_some r.member hr.hold g (by simp), fun k => by cases k⟩
      rw [List.getElem?_set]
      split
      · next e => subst e; exact ⟨b, by simp [hr.len, hr.lt]⟩
      · next ne => exact hr.past m (by have : m ≤ r.member := hm; omega)
  · exact giveUp_ok s h r _ hr.hold

/-- A commit record while its current member is programmed: targets up to that member. -/
structure ProgOk (bm : BlockManager) (r : CommitRec) : Prop where
  nodup : r.pages.Nodup
  len : r.targets.length = r.pages.length
  lt : r.member < r.pages.length
  upTo : ∀ m, m ≤ r.member → ∃ b, r.targets[m]? = some (some b)
  hold : HoldsTargets bm r.session r.targets

theorem ProgOk.work {bm r} (h : ProgOk bm r) (st : CommitStep)
    (hs : st = .flipRequested → r.pages.length = r.member + 1) : (Work.commit r st).HoldsBlocks bm :=
  ⟨h.nodup, h.len, h.lt, h.upTo, fun _ => h.hold, hs⟩

theorem progOk_of {bm r st} (h : (Work.commit r st).HoldsBlocks bm) (hs : st ≠ .flipTaken) : ProgOk bm r := by
  obtain ⟨a, b, c, d, e, -⟩ := h
  exact ⟨a, b, c, d, e hs⟩

theorem commitOpEnded_ok (s : State) (h : Base s) (r : CommitRec) (hr : ProgOk s.bm r) (ok : Bool)
    (goOn : State → State) (hg : EndsOk s (goOn s)) : EndsOk s (s.commitOpEnded r ok goOn) := by
  unfold State.commitOpEnded
  split
  · split
    · exact unwindNext_ok s h _ hr.hold
    · exact hg
  · exact work_ok s h _ (hr.work _ (by simp))

theorem begunMarkEnded_ok (s : State) (h : Base s) (r) (hr : ProgOk s.bm r) (ok) : EndsOk s (s.begunMarkEnded r ok) :=
  commitOpEnded_ok s h r hr ok _ (work_ok s h _ (hr.work _ (by simp)))

theorem lineEnded_ok (s : State) (h : Base s) (r) (hr : ProgOk s.bm r) (k) (ok) : EndsOk s (s.lineEnded r k ok) := by
  refine commitOpEnded_ok s h r hr ok _ ?_
  split
  · exact work_ok s h _ (hr.work _ (by simp))
  · split <;> exact work_ok s h _ (hr.work _ (by simp))

theorem dataStampEnded_ok (s : State) (h : Base s) (r) (hr : ProgOk s.bm r) (ok) :
    EndsOk s (s.dataStampEnded r ok) := by
  refine commitOpEnded_ok s h r hr ok _ ?_
  split
  · next hl =>
    refine work_ok s h _ (hr.work _ fun _ => ?_)
    have := hr.lt
    simp [CommitRec.lastMember] at hl
    omega
  · next hl =>
    simp [CommitRec.lastMember] at hl
    exact beginMember_ok s h _ ⟨hr.nodup, hr.len, by simp only; omega,
        fun m hm => hr.upTo m (by simp only at hm; omega), hr.hold⟩

theorem handRetired_base (s : State) (h : Base s) (b k) (ok) (hk : s.bm.classOf b = some k) (k1 : k ≠ .free)
    (k2 : k ≠ .retired) (k3 : BlockClass.notData k) : Base (s.handRetired b ok)
    ∧ Goes s.bm (s.handRetired b ok).bm b k .retired := by
  obtain ⟨g, l⟩ := retire_ok s.bm hk k1 k2 h.lists
  exact ⟨⟨l, maps_goes g k3 trivial h.maps, h.members, h.noScan⟩, g⟩

theorem unchanged_ok (s : State) (h : Base s) (hw : s.eng.work.HoldsBlocks s.bm) : EndsOk s s :=
    ⟨⟨h.lists, h.maps, hw, h.members⟩, .inl rfl, .refl _, fun k => ⟨k, rfl⟩⟩

theorem reclaimStart_ok (s : State) (h : Base s) (b) (hb : s.bm.oldestUnpinned = some b) :
    EndsOk s (s.reclaimStart b) := by
  have hk := (h.lists.dirty b).1 (oldestUnpinned_some hb).1
  obtain ⟨g, l⟩ := eraseStart_ok s.bm hk h.lists
  have mm := maps_goes g trivial trivial h.maps
  refine endsOk_trans (u := { s with bm := s.bm.eraseStart b }) rfl (.eraseStart hb hk) id
      (work_ok _ (show Base { s with bm := s.bm.eraseStart b } from ⟨l, mm, h.members, h.noScan⟩) _ ?_)
  show (s.bm.eraseStart b).classOf b = _
  rw [g.2, if_pos rfl]

theorem eng_ok (s : State) (h : Base s) (hw : s.eng.work.HoldsBlocks s.bm) (e : Engine) (he : e.work = s.eng.work) :
    EndsOk s { s with eng := e } := ⟨⟨h.lists, h.maps, by rw [he]; exact hw, h.members⟩, .inl rfl, .refl _,
      fun k => ⟨by rw [← he]; exact k, rfl⟩⟩

theorem finishSession_ok (s : State) (h : Base s) (hw : s.eng.work.HoldsBlocks s.bm) (i o)
    (hs : (s.ses.session i).state ≠ .free) : EndsOk s (s.finishSession i o) :=
  ⟨⟨h.lists, h.maps, hw, members_kept (finishSession_move s i o hs).ses h.members⟩, .inl rfl, .refl _,
    fun k => ⟨k, rfl⟩⟩

theorem startCheck_ok (s : State) (h : Base s) (hw : s.eng.work.HoldsBlocks s.bm) (p i) : EndsOk s (s.startCheck p i) := by
  unfold State.startCheck State.askSerial
  simp only
  split
  · split
    · exact eng_ok s h hw _ rfl
    · exact ⟨⟨h.lists, h.maps, hw, h.members⟩, .inl rfl, .refl _, fun k => ⟨k, rfl⟩⟩
  · split
    · exact eng_ok s h hw _ rfl
    · exact unchanged_ok s h hw

theorem commitStart_ok (s : State) (h : Base s) (k : StartHandoff) (n) (bases)
    (hq : (s.ses.session k.session).state = .queued) : EndsOk s (s.commitStart k n bases) := by
  have hm := h.members k.session
  let u : State := { s with
    ses := s.ses.setSession k.session { s.ses.session k.session with state := .programming, boundaryPassed := false }
    eng := { s.eng.dequeue k.session with pointer := k.port } }
  have hb2 : Base u :=
    ⟨h.lists, h.maps, members_setSession _ _ _ h.members hm.1 hm.2.1 fun _ => hm.2.2 (by rw [hq]; simp), h.noScan⟩
  refine endsOk_trans (u := u) rfl (.refl _) id (beginMember_ok _ hb2 _ ?_)
  have hne : (s.ses.session k.session).members ≠ [] := hm.2.2 (by rw [hq]; simp)
  refine ⟨hm.1, by simp [State.startRecord], List.length_pos_iff.2 hne, (fun m hm => by cases hm), ?_⟩
  have : ∀ l : List PageId, (l.map fun _ => (none : Option BlockId)).filterMap id = [] := by
    intro l; induction l with
    | nil => rfl
    | cons a l ih => rw [List.map_cons, filterMap_none]; exact ih
  refine ⟨?_, fun b hb => ?_⟩
  · show (List.filterMap id (List.map _ _)).Nodup
    rw [this]; exact List.nodup_nil
  · exfalso
    obtain ⟨_, _, e⟩ := List.mem_map.1 hb
    cases e

theorem takeStart_ok (s : State) (h : Base s) (hw : s.eng.work.HoldsBlocks s.bm) (k : StartHandoff) :
    EndsOk s (s.takeStart k) := by
  let u : State := { s with eng := { s.eng with start := none } }
  have hb : Base u := ⟨h.lists, h.maps, h.members, h.noScan⟩
  have hu : u.eng.work.HoldsBlocks u.bm := hw
  unfold State.takeStart
  simp only
  split
  · next hq =>
    have ne : (u.ses.session k.session).state ≠ .free := by show (s.ses.session k.session).state ≠ _; rw [hq.2]; decide
    split
    · exact endsOk_trans (u := u) rfl (.refl _) id (commitStart_ok u hb k _ _ hq.2)
    · exact endsOk_trans (u := u) rfl (.refl _) id (finishSession_ok u hb hu _ _ ne)
    · exact endsOk_trans (u := u) rfl (.refl _) id (finishSession_ok u hb hu _ _ ne)
  · exact endsOk_trans (u := u) rfl (.refl _) id (unchanged_ok u hb hu)

theorem choose_ok (s : State) (h : Base s) (hw : s.eng.work.HoldsBlocks s.bm) : EndsOk s s.choose := by
  unfold State.choose
  split
  · next b hb =>
    refine reclaimStart_ok s h b ?_
    unfold BlockManager.reserveErase at hb
    split at hb
    · exact hb
    · cases hb
  · split
    · exact startCheck_ok s h hw _ _
    · split
      · next b hb => exact reclaimStart_ok s h b hb
      · exact unchanged_ok s h hw

theorem choiceEvent_ok (s : State) (h : Base s) (hw : s.eng.work.HoldsBlocks s.bm) : EndsOk s s.choiceEvent := by
  unfold State.choiceEvent
  split
  · split
    · exact takeStart_ok s h hw _
    · exact choose_ok s h hw
  · exact unchanged_ok s h hw

theorem mountVoidNext_ok (s : State) (h : Base s) (l : List BlockId) (hl : l.Nodup)
    (hd : ∀ x ∈ l, s.bm.classOf x = some .dirty) (hv : WorkVoids s.eng.work) : EndsOk s (s.mountVoidNext l) := by
  cases l with
  | nil =>
    let u : State := State.setWork { s with mount := s.mount.finish } .idle
    have hb : Base u := ⟨⟨h.lists.freeNodup, h.lists.free, fun _ => h.lists.pool h.noScan, h.lists.dirtyNodup,
      h.lists.dirty, h.lists.retNodup, h.lists.ret⟩, h.maps, h.members, by intro k; cases k⟩
    obtain ⟨a, b, c, d⟩ := choiceEvent_ok u hb trivial
    exact ⟨a, .inr (by rcases b with b | b <;> exact b), c.mono False.elim, fun k => (d k).1.elim⟩
  | cons b rest => exact work_ok s h _ ⟨hl, hd⟩ fun _ => hv

theorem retireEnded_ok (s : State) (h : Base s) (hw : s.eng.work.HoldsBlocks s.bm) (ok : Bool) :
    EndsOk s (s.retireEnded ok) := by
  unfold State.retireEnded
  split
  · next r n e =>
    rw [e] at hw
    have hr := progOk_of hw (by simp)
    split
    · exact work_ok s h _ (hr.work _ (by simp))
    · split
      · next b hb =>
        have hbm : r.targets[r.member]? = some (some b) := by
          obtain ⟨c, hc⟩ := hr.upTo r.member (Nat.le_refl _)
          unfold CommitRec.currentTarget at hb
          rw [List.getD_eq_getElem?_getD, hc] at hb
          rw [hc, ← hb]; rfl
        obtain ⟨hb', g⟩ := handRetired_base s h b _ ok (hr.hold.2 b (List.mem_of_getElem? hbm)) (by simp)
            (by simp) trivial
        have hr' : RecOk (s.handRetired b ok).bm { r with targets := r.targets.set r.member none } := by
          refine ⟨hr.nodup, by simp [hr.len], hr.lt, fun m hm => ?_, targets_set_none hr.hold g hbm⟩
          rw [List.getElem?_set, if_neg (by simp only at hm; omega)]
          exact hr.upTo m (by simp only at hm; omega)
        refine endsOk_trans (u := s.handRetired b ok) rfl
          (.retired (retire_spec _ _) g.1 (by simp) (by simp) (fun k => by cases k)) id ?_
        unfold State.afterRetire
        split
        · exact unwindNext_ok _ hb' _ hr'.hold
        · split
          · exact beginMember_ok _ hb' _ hr'
          · exact giveUp_ok _ hb' _ _ hr'.hold
      · exact ⟨⟨h.lists, h.maps, by rw [e]; exact hw, h.members⟩, .inl rfl, .refl _, fun k => ⟨k, rfl⟩⟩
  · next u b n e =>
    rw [e] at hw
    obtain ⟨hu, hb⟩ := hw
    split
    · exact work_ok s h _ ⟨hu, hb⟩
    · obtain ⟨hb', g⟩ := handRetired_base s h b _ ok (hu.2 b hb) (by simp) (by simp) trivial
      exact endsOk_trans (u := s.handRetired b ok) rfl
        (.retired (retire_spec _ _) g.1 (by simp) (by simp) (fun k => by cases k)) id (unwindNext_ok _ hb' _ (targets_drop hu g))
  · next b n e =>
    rw [e] at hw
    split
    · exact work_ok s h _ hw
    · obtain ⟨hb', g⟩ := handRetired_base s h b _ ok hw (by simp) (by simp) trivial
      exact endsOk_trans (u := s.handRetired b ok) rfl
        (.retired (retire_spec _ _) g.1 (by simp) (by simp) (fun k => by cases k)) id (work_ok _ hb' _ trivial)
  · next b rest n e =>
    rw [e] at hw
    obtain ⟨hn, hd⟩ := hw
    have hv : WorkVoids s.eng.work := by rw [e]; trivial
    split
    · exact work_ok s h _ ⟨hn, hd⟩ fun _ => hv
    · obtain ⟨hb', g⟩ := handRetired_base s h b _ ok (hd b (by simp)) (by simp) (by simp) trivial
      refine endsOk_trans (u := s.handRetired b ok) rfl
        (.retired (retire_spec _ _) g.1 (by simp) (by simp) fun _ => by rw [e]; trivial) id (mountVoidNext_ok _ hb' _
          (List.nodup_cons.1 hn).2 (fun x hx => ?_) hv)
      rw [g.2, if_neg (by rintro rfl; exact (List.nodup_cons.1 hn).1 hx)]
      exact hd x (by simp [hx])
  · exact ⟨⟨h.lists, h.maps, hw, h.members⟩, .inl rfl, .refl _, fun k => ⟨k, rfl⟩⟩

theorem unwindVoidEnded_ok (s : State) (h : Base s) (u b n) (hw : (Work.unwind u (.void b n)).HoldsBlocks s.bm)
    (ok) : EndsOk s (s.unwindVoidEnded u b n ok) := by
  obtain ⟨hu, hb⟩ := hw
  unfold State.unwindVoidEnded
  split
  · obtain ⟨g, l⟩ := voided_ok (toDirty_spec s.bm b) (hu.2 b hb) (by simp) (by simp) (by simp) h.lists
    have mm := maps_goes g trivial trivial h.maps
    exact endsOk_trans (u := { s with bm := s.bm.toDirty b }) rfl (.voided (toDirty_spec _ _) g.1) id
        (unwindNext_ok _ (show Base { s with bm := s.bm.toDirty b } from ⟨l, mm, h.members, h.noScan⟩) _
        (targets_drop hu g))
  · split
    · exact work_ok s h _ ⟨hu, hb⟩
    · exact work_ok s h _ ⟨hu, hb⟩

theorem mountVoidEnded_ok (s : State) (h : Base s) (b rest n)
    (hw : (Work.mountVoid b rest (.void n)).HoldsBlocks s.bm) (hv : WorkVoids s.eng.work) (ok) :
    EndsOk s (s.mountVoidEnded b rest n ok) := by
  obtain ⟨hn, hd⟩ := hw
  unfold State.mountVoidEnded
  split
  · exact mountVoidNext_ok s h _ (List.nodup_cons.1 hn).2 (fun x hx => hd x (by simp [hx])) hv
  · split
    · exact work_ok s h _ ⟨hn, hd⟩ fun _ => hv
    · exact work_ok s h _ ⟨hn, hd⟩ fun _ => hv

theorem eraseEnded_ok (s : State) (h : Base s) (b) (hw : s.bm.classOf b = some .erasing) (ok) :
    EndsOk s (s.eraseEnded b ok) := by
  unfold State.eraseEnded
  split <;> exact work_ok s h _ hw

theorem freeStampEnded_ok (s : State) (h : Base s) (b) (hw : s.bm.classOf b = some .erasing) (ok) :
    EndsOk s (s.freeStampEnded b ok) := by
  unfold State.freeStampEnded
  split
  · obtain ⟨g, l⟩ := returned_ok (eraseDone_spec s.bm b) hw h.lists
    have mm := maps_goes g trivial trivial h.maps
    exact endsOk_trans (u := { s with bm := s.bm.eraseDone b (nextEraseCount (s.bm.eraseCount b)) }) rfl
        (.returned (eraseDone_spec _ _) g.1) id
        (work_ok _ (show Base { s with bm := s.bm.eraseDone b (nextEraseCount (s.bm.eraseCount b)) } from ⟨l, mm,
        h.members, h.noScan⟩) _ trivial)
  · exact work_ok s h _ hw

theorem opFailed_ok (s : State) (h : Base s) (hw : s.eng.work.HoldsBlocks s.bm) : EndsOk s s.opFailed := by
  unfold State.opFailed
  split
  · next r e => exact begunMarkEnded_ok s h _ (by rw [e] at hw; exact progOk_of hw (by simp)) _
  · next r k e => exact lineEnded_ok s h _ (by rw [e] at hw; exact progOk_of hw (by simp)) _ _
  · next r e => exact dataStampEnded_ok s h _ (by rw [e] at hw; exact progOk_of hw (by simp)) _
  · next u b n e => exact unwindVoidEnded_ok s h _ _ _ (by rw [e] at hw; exact hw) _
  · next b e => exact eraseEnded_ok s h _ (by rw [e] at hw; exact hw) _
  · next b e => exact freeStampEnded_ok s h _ (by rw [e] at hw; exact hw) _
  · next b rest n e => exact mountVoidEnded_ok s h _ _ _ (by rw [e] at hw; exact hw) (by rw [e]; trivial) _
  · exact retireEnded_ok s h hw _

/-- The laws of the blocks and of the mount. -/
def Law (s : State) : Prop := s.BlockLaw ∧ s.MountLaw

theorem sound_law (s t : State) (hm : s.MountLaw) (h1 : s.mount.stage ≠ .scan) (h2 : s.mount.stage ≠ .built)
    (h : Sound t ∧ (t.mount = s.mount ∨ t.mount = s.mount.finish)) : Law t := by
  obtain ⟨⟨a, b, c, d⟩, e⟩ := h
  refine ⟨(blockLaw_iff t).2 ⟨a, b, c, d⟩, ?_⟩
  obtain ⟨m1, m2, m3, m4, m5, m6⟩ := hm
  rcases e with e | e
  · unfold State.MountLaw State.Ready
    rw [e]
    exact ⟨m1, fun k => (k.elim h1 h2).elim, fun k => absurd k h1, m4, m5, fun k => absurd k h2⟩
  · unfold State.MountLaw State.Ready
    rw [e]
    refine ⟨⟨fun _ => rfl, fun _ => rfl⟩, fun k => ?_, (fun k => by cases k), List.nodup_nil, List.nodup_nil,
        (fun k => by cases k)⟩
    rcases k with k | k <;> cases k

theorem endsOk_law (s t : State) (hm : s.MountLaw) (h1 : s.mount.stage ≠ .scan) (h2 : s.mount.stage ≠ .built)
    (h : EndsOk s t) : Law t := sound_law s t hm h1 h2 ⟨h.1, h.2.1⟩

/-- Nothing that these laws speak of changed, but that the engine may have become idle. -/
structure Quiet (s t : State) : Prop where
  cls : ∀ b, t.bm.classOf b = s.bm.classOf b
  free : t.bm.freePool = s.bm.freePool
  dirty : t.bm.dirtyList = s.bm.dirtyList
  ret : t.bm.retiredSet = s.bm.retiredSet
  entry : ∀ q, t.map.entry q = s.map.entry q
  mount : t.mount = s.mount
  work : t.eng.work = s.eng.work ∨ t.eng.work = .idle
  members : MembersOk s.ses → MembersOk t.ses

theorem holdsBlocks_congr {bm bm' : BlockManager} (h : ∀ b, bm'.classOf b = bm.classOf b) (w : Work)
    (k : w.HoldsBlocks bm) : w.HoldsBlocks bm' := by
  have ht : ∀ i l, HoldsTargets bm i l → HoldsTargets bm' i l := fun i l k => ⟨k.1,
      fun b hb => by rw [h]; exact k.2 b hb⟩
  cases w with
  | idle => trivial
  | commit r st =>
    obtain ⟨a, b, c, d, e, f⟩ := k
    exact ⟨a, b, c, d, fun x => ht _ _ (e x), f⟩
  | unwind u st => exact ⟨ht _ _ k.1, k.2⟩
  | erase b st => show bm'.classOf b = _; rw [h]; exact k
  | mountVoid b l st => exact ⟨k.1, fun x hx => by rw [h]; exact k.2 x hx⟩

theorem block_none_of_class {bm bm' : BlockManager} {b : BlockId} (h : bm'.classOf b = bm.classOf b)
    (k : bm.block b = none) : bm'.block b = none := by
  unfold BlockManager.classOf at h
  rw [k] at h
  cases e : bm'.block b with
  | none => rfl
  | some r => rw [e] at h; cases h

theorem quiet_law {s t : State} (q : Quiet s t) (h : Law s) : Law t := by
  obtain ⟨hb, m1, m2, m3, m4, m5, m6⟩ := h
  obtain ⟨l, m, w, u⟩ := (blockLaw_iff s).1 hb
  constructor
  · refine (blockLaw_iff t).2 ⟨?_, ?_, ?_, q.members u⟩
    · rw [q.mount]
      exact ⟨by rw [q.free]; exact l.freeNodup, fun b => by rw [q.free, q.cls]; exact l.free b,
          fun k b => by rw [q.free, q.cls]; exact l.pool k b, by rw [q.dirty]; exact l.dirtyNodup,
          fun b => by rw [q.dirty, q.cls]; exact l.dirty b, by rw [q.ret]; exact l.retNodup,
          fun b => by rw [q.ret, q.cls]; exact l.ret b⟩
    · exact ⟨fun p b => by simp only [q.entry, q.cls]; exact m.data p b,
        fun p e info => by rw [q.entry, q.cls]; exact m.info p e info⟩
    · rcases q.work with k | k
      · rw [k]; exact holdsBlocks_congr q.cls _ w
      · rw [k]; trivial
  · unfold State.MountLaw State.Ready
    rw [q.mount]
    refine ⟨m1, fun k => ?_, fun k => ?_, m4, m5, fun k => ⟨(m6 k).1, fun b hb => by rw [q.cls]; exact (m6 k).2 b hb⟩⟩
    · rcases q.work with e | e
      · rw [e]; exact m2 k
      · exact e
    · obtain ⟨a, b, c⟩ := m3 k
      exact ⟨fun p => by rw [q.entry]; exact a p, fun x hx => block_none_of_class (q.cls x) (b x hx),
          fun x hx => ⟨(c x hx).1, block_none_of_class (q.cls _) (c x hx).2⟩⟩

theorem Quiet.refl (s : State) : Quiet s s := ⟨fun _ => rfl, rfl, rfl, rfl, fun _ => rfl, rfl, .inl rfl, id⟩

theorem Quiet.of (s t : State) (h1 : t.bm = s.bm) (h2 : t.map.pages = s.map.pages) (h3 : t.mount = s.mount)
    (h4 : t.eng.work = s.eng.work ∨ t.eng.work = .idle) (h5 : MembersOk s.ses → MembersOk t.ses) : Quiet s t :=
  ⟨fun _ => by rw [h1], by rw [h1], by rw [h1], by rw [h1], fun q => by unfold MapUnit.entry; rw [h2], h3, h4, h5⟩

theorem Quiet.pins (s : State) (bm : BlockManager) {o u} (h : s.bm.PinsMoved bm o u) : Quiet s { s with bm := bm } :=
  ⟨fun b => by unfold BlockManager.classOf; show (bm.block b).map _ = _; rw [h.2]; cases s.bm.block b <;> rfl,
      by rw [h.1], by rw [h.1], by rw [h.1], fun _ => rfl, rfl, .inl rfl, id⟩

theorem Quiet.trans {s t u : State} (h : Quiet s t) (k : Quiet t u) : Quiet s u :=
  ⟨fun b => by rw [k.cls, h.cls], by rw [k.free, h.free], by rw [k.dirty, h.dirty], by rw [k.ret, h.ret],
      fun q => by rw [k.entry, h.entry], by rw [k.mount, h.mount], (by
    rcases k.work with e | e
    · rw [e]; exact h.work
    · exact .inr e), fun x => k.members (h.members x)⟩

theorem members_same (s : State) (i : SessionId) (r : Session)
    (h1 : r.members = (s.ses.session i).members) (h2 : (s.ses.session i).state ≠ .free) (h : MembersOk s.ses) :
    MembersOk (s.ses.setSession i r) :=
  members_setSession _ _ _ h (by rw [h1]; exact (h i).1) (by rw [h1]; exact (h i).2.1)
    fun _ => (by rw [h1]; exact (h i).2.2 h2)

theorem base_of (s : State) (h : Law s) (hn : s.mount.stage ≠ .scan) : Base s := by
  obtain ⟨l, m, w, u⟩ := (blockLaw_iff s).1 h.1
  exact ⟨l, m, u, hn⟩

theorem work_of (s : State) (h : Law s) : s.eng.work.HoldsBlocks s.bm := ((blockLaw_iff s).1 h.1).2.2.1

theorem stage_of_working (s : State) (h : Law s) (hw : s.eng.work ≠ .idle) :
    s.mount.stage ≠ .scan ∧ s.mount.stage ≠ .built :=
  ⟨fun e => hw (h.2.2.1 (.inl e)), fun e => hw (h.2.2.1 (.inr e))⟩

theorem law_flash (s : State) (m : Memory) (h : Law s) : Law { s with flash := m } := h

theorem completeOp_law (s : State) (w : Written) (next : Bool → State → State) (h : Law s) (hw : s.eng.work ≠ .idle)
    (hn : ∀ ok t, Base t → t.eng.work = s.eng.work → t.bm = s.bm → EndsOk t (next ok t)) :
        Law (s.completeOp w next) := by
  unfold State.completeOp
  split
  · next op _ =>
    have hl := law_flash s (s.flashAfter op w) h
    obtain ⟨h1, h2⟩ := stage_of_working _ hl hw
    exact endsOk_law _ _ hl.2 h1 h2 (hn _ _ (base_of _ hl h1) rfl rfl)
  · exact h

theorem reset_law (t : State) (c : ResetCause) (h1 : t.bm = BlockManager.reset) (h2 : t.map = MapUnit.reset)
    (h3 : t.ses = SessionUnit.reset) (h4 : t.eng.work = .idle) (h5 : t.mount = Mount.start c) : Law t := by
  have hc : ∀ b, t.bm.block b = none := fun b => by rw [h1]; simp [BlockManager.reset, BlockManager.block]
  have hcl : ∀ b, t.bm.classOf b = none := fun b => by unfold BlockManager.classOf; rw [hc]; rfl
  have he : ∀ q, t.map.entry q = none := fun q => by rw [h2]; simp [MapUnit.reset, MapUnit.entry]
  have hs : ∀ i, t.ses.session i = Session.freeSlot := fun i => by rw [h3]; simp [SessionUnit.reset,
      SessionUnit.session]
  have l1 : t.bm.freePool = [] := by rw [h1]; rfl
  have l2 : t.bm.dirtyList = [] := by rw [h1]; rfl
  have l3 : t.bm.retiredSet = [] := by rw [h1]; rfl
  constructor
  · refine (blockLaw_iff t).2 ⟨⟨by rw [l1]; exact List.nodup_nil, by rw [l1]; simp, fun _ b hb => ?_,
      by rw [l2]; exact List.nodup_nil, fun b => ?_, by rw [l3]; exact List.nodup_nil, fun b => ?_⟩,
      ⟨fun q b => ?_, fun q e info h => ?_⟩, by rw [h4]; trivial, fun i => ?_⟩
    · rw [hcl] at hb; cases hb
    · rw [l2, hcl]; simp
    · rw [l3, hcl]; simp
    · rw [he, hcl]; simp
    · rw [he] at h; cases h
    · rw [hs]; exact ⟨List.nodup_nil, by simp [Session.freeSlot], fun k => absurd rfl k⟩
  · unfold State.MountLaw State.Ready
    rw [h5]
    refine ⟨⟨(fun k => by cases k), (fun k => by cases k)⟩, fun _ => h4, fun _ => ⟨he, fun b _ => hc b, ?_⟩,
        List.nodup_nil, List.nodup_nil, (fun k => by cases k)⟩
    intro c hc; cases hc

/-- Block `b`, without a record before, has one of class `c`; no other record changed. -/
structure GoesIn (bm bm' : BlockManager) (b : BlockId) (c : BlockClass) : Prop where
  old : bm.block b = none
  new : ∀ x, bm'.block x = if x = b then bm'.block b else bm.block x
  cls : bm'.classOf b = some c

theorem GoesIn.all {bm bm' b c} (g : GoesIn bm bm' b c) (x) :
    bm'.classOf x = if x = b then some c else bm.classOf x := by
  split
  · next e => rw [e]; exact g.cls
  · next e => unfold BlockManager.classOf; rw [g.new, if_neg e]

theorem GoesIn.oldc {bm bm' b c} (g : GoesIn bm bm' b c) : bm.classOf b = none :=
    by unfold BlockManager.classOf; rw [g.old]; rfl

theorem place_goes (bm bm' : BlockManager) (b : BlockId) (r : BlockRec) (h : bm.block b = none)
    (ht : bm'.table = (bm.place b r).table) : GoesIn bm bm' b r.cls := by
  have e : ∀ x, bm'.block x = if x = b then some r else bm.block x := fun x => by rw [block_of_table ht, block_place]
  exact ⟨h, fun x => by rw [e x, e b, if_pos rfl], by unfold BlockManager.classOf; rw [e, if_pos rfl]; rfl⟩

theorem scan_maps {m : PageId → Option MapEntry} {bm bm' b c} (g : GoesIn bm bm' b c)
    (hc : BlockClass.notData c) (hm : ∀ q, m q = none) (h : MapsOk m bm) : MapsOk m bm' := by
  refine ⟨fun q x => ?_, fun q e info h => by rw [hm] at h; cases h⟩
  rw [h.data, g.all]
  split
  · next e =>
    subst e
    constructor
    · rintro ⟨i, hi, -⟩; rw [g.oldc] at hi; cases hi
    · rintro ⟨i, hi, -⟩; cases hi; exact hc.elim
  · rfl

theorem scan_lists {bm bm' : BlockManager} {b c} (g : GoesIn bm bm' b c) (l : ListsOk False bm)
    (h1 : bm'.freePool = bm.freePool)
    (h2 : bm'.dirtyList = if c = .dirty then bm.dirtyList ++ [b] else bm.dirtyList)
    (h3 : bm'.retiredSet = if c = .retired then insertBlock b bm.retiredSet else bm.retiredSet) :
        ListsOk False bm' := by
  have hx : ∀ x k, bm.classOf x = some k → x ≠ b := fun x k e1 e2 => by rw [e2, g.oldc] at e1; cases e1
  refine ⟨by rw [h1]; exact l.freeNodup, fun x hxm => ?_, fun k => k.elim, ?_, fun x => ?_, ?_, fun x => ?_⟩
  · rw [h1] at hxm; rw [g.all, if_neg (hx _ _ (l.free x hxm))]; exact l.free x hxm
  · rw [h2]; split
    · refine List.nodup_append.2 ⟨l.dirtyNodup, by simp, ?_⟩
      rintro x hxm y hy rfl
      simp at hy; subst hy
      exact hx _ _ ((l.dirty x).1 hxm) rfl
    · exact l.dirtyNodup
  · rw [h2, g.all]
    by_cases e : x = b
    · subst e
      have : x ∉ bm.dirtyList := fun k => hx _ _ ((l.dirty x).1 k) rfl
      by_cases hc : c = .dirty <;> simp [hc, this]
    · rw [if_neg e, ← l.dirty]; split <;> simp [e]
  · rw [h3]; split
    · exact retired_nodup b _ l.retNodup fun k => hx _ _ ((l.ret b).1 k) rfl
    · exact l.retNodup
  · rw [h3, g.all]
    by_cases e : x = b
    · subst e
      have : x ∉ bm.retiredSet := fun k => hx _ _ ((l.ret x).1 k) rfl
      by_cases hc : c = .retired <;> simp [hc, this, mem_insertBlock]
    · rw [if_neg e, ← l.ret]; split <;> simp [e, mem_insertBlock]

theorem lists_weak {P Q : Prop} {bm} (h : Q → P) (l : ListsOk P bm) : ListsOk Q bm :=
    ⟨l.freeNodup, l.free, fun k => l.pool (h k), l.dirtyNodup, l.dirty, l.retNodup, l.ret⟩

theorem placed_law (s t : State) (b : BlockId) (n : Nat) (bm' : BlockManager) (c : BlockClass) (h : Law s)
    (hs : s.mount.stage = .scan) (hb : s.mount.position = b.val)
    (ht : t = { s with bm := bm', mount := { s.mount with position := s.mount.position + 1, largestSerial := n } })
    (g : GoesIn s.bm bm' b c) (hc : BlockClass.notData c)
    (h1 : bm'.freePool = s.bm.freePool)
    (h2 : bm'.dirtyList = if c = .dirty then s.bm.dirtyList ++ [b] else s.bm.dirtyList)
    (h3 : bm'.retiredSet = if c = .retired then insertBlock b s.bm.retiredSet else s.bm.retiredSet) : Law t := by
  subst ht
  obtain ⟨hbl, m1, m2, m3, m4, m5, m6⟩ := h
  obtain ⟨l, m, w, u⟩ := (blockLaw_iff s).1 hbl
  obtain ⟨a1, a2, a3⟩ := m3 hs
  have hidle := m2 (.inl hs)
  refine ⟨(blockLaw_iff _).2 ⟨lists_weak (fun k => k hs) (scan_lists g (lists_weak (fun k => k.elim) l) h1 h2 h3),
      scan_maps g hc a1 m, ?_, u⟩, ⟨m1, m2, fun _ => ⟨a1, fun x hx => ?_, fun x hx => ?_⟩, m4, m5, fun k => ?_⟩⟩
  · show s.eng.work.HoldsBlocks bm'
    rw [hidle]; trivial
  · show bm'.block x = none
    have hx : s.mount.position + 1 ≤ x.val := hx
    rw [g.new, if_neg (by rintro rfl; omega)]
    exact a2 x (by omega)
  · obtain ⟨k1, k2⟩ := a3 x hx
    refine ⟨?_, ?_⟩
    · show x.block.val < s.mount.position + 1; omega
    · show bm'.block x.block = none
      rw [g.new, if_neg (fun e => by have := congrArg Fin.val e; omega)]; exact k2
  · have k : s.mount.stage = .built := k
    rw [hs] at k; cases k

theorem scan_law (s : State) (b : BlockId) (h : Law s) (hs : s.mount.stage = .scan) (hb : s.mount.position = b.val) :
    Law (s.scanBlock b) := by
  have hnone : s.bm.block b = none := (h.2.2.2.1 hs).2.1 b (by omega)
  unfold State.scanBlock
  simp only
  generalize classify (s.flash.spare b) = row
  cases row with
  | retired c =>
    exact placed_law s _ b _ (s.bm.placeRetired b c) .retired h hs hb rfl
        (place_goes _ _ b { cls := .retired, eraseCount := c, pins := 0 } hnone rfl) trivial rfl
        (by simp [BlockManager.placeRetired]) (by simp [BlockManager.placeRetired])
  | voided c =>
    exact placed_law s _ b _ (s.bm.placeDirty b c) .dirty h hs hb rfl
        (place_goes _ _ b { cls := .dirty, eraseCount := c, pins := 0 } hnone rfl) trivial rfl
        (by simp [BlockManager.placeDirty]) (by simp [BlockManager.placeDirty])
  | torn c =>
    exact placed_law s _ b _ (s.bm.placeDirty b c) .dirty h hs hb rfl
        (place_goes _ _ b { cls := .dirty, eraseCount := c, pins := 0 } hnone rfl) trivial rfl
        (by simp [BlockManager.placeDirty]) (by simp [BlockManager.placeDirty])
  | unknownErase =>
    exact placed_law s _ b _ (s.bm.placeDirty b 0) .dirty h hs hb rfl
        (place_goes _ _ b { cls := .dirty, eraseCount := 0, pins := 0 } hnone rfl) trivial rfl
        (by simp [BlockManager.placeDirty]) (by simp [BlockManager.placeDirty])
  | free c =>
    exact placed_law s _ b _ (s.bm.place b { cls := .free, eraseCount := c, pins := 0 }) .free h hs hb rfl
        (place_goes _ _ b { cls := .free, eraseCount := c, pins := 0 } hnone rfl) trivial rfl (by simp) (by simp)
  | candidate st =>
    obtain ⟨hbl, m1, m2, m3, m4, m5, m6⟩ := h
    obtain ⟨a1, a2, a3⟩ := m3 hs
    refine ⟨?_, m1, m2, fun _ => ⟨a1, fun x hx => a2 x ?_, fun c hc => ?_⟩, ?_, (tally_serials st b _ m5).1,
        fun k => ?_⟩
    · exact hbl
    · have hx : s.mount.position + 1 ≤ x.val := hx
      omega
    · have hc : c ∈ (tallyAdd st b s.mount.tally).flatMap TallyEntry.members := hc
      rw [(tally_cands st b _).mem_iff] at hc
      rcases List.mem_cons.1 hc with rfl | hc
      · refine ⟨?_, hnone⟩
        show b.val < s.mount.position + 1; omega
      · obtain ⟨k1, k2⟩ := a3 c hc
        refine ⟨?_, k2⟩
        show c.block.val < s.mount.position + 1; omega
    · show (((tallyAdd st b s.mount.tally).flatMap TallyEntry.members).map Candidate.block).Nodup
      rw [((tally_cands st b _).map _).nodup_iff, List.map_cons]
      refine List.nodup_cons.2 ⟨fun k => ?_, m4⟩
      obtain ⟨c, hc, e⟩ := List.mem_map.1 k
      have := (a3 c hc).1
      have e : c.block = b := e
      rw [e] at this; omega
    · have k : s.mount.stage = .built := k
      rw [hs] at k; cases k

theorem poolOrder_irrefl (bm : BlockManager) (b) : ¬ bm.Before b b := by unfold BlockManager.Before; omega

theorem built_class (s : State) (h : Law s) (hs : s.mount.stage = .scan) (b : BlockId) :
    (∀ e c, CurrentVersion s.mount.tally e c → c.block = b → s.buildTables.bm.classOf b =
        some (.data { page := c.page, serial := e.serial, index := c.index, count := e.count, writer := e.writer }))
    ∧ ((∀ e c, CurrentVersion s.mount.tally e c → c.block ≠ b) → ∀ info,
        s.buildTables.bm.classOf b ≠ some (.data info))
    ∧ ((∃ c ∈ s.mount.candidates, c.block = b) → (∀ e c, CurrentVersion s.mount.tally e c → c.block ≠ b) →
        s.buildTables.bm.classOf b = some .dirty) := by
  obtain ⟨hbl, m1, m2, m3, m4, m5, m6⟩ := h
  obtain ⟨a1, a2, a3⟩ := m3 hs
  obtain ⟨-, m, -, -⟩ := (blockLaw_iff s).1 hbl
  have hnod : ((s.mount.tally.flatMap TallyEntry.members).map Candidate.block).Nodup := m4
  have hnd : ∀ r, s.bm.block b = some r → ∀ info, r.cls ≠ .data info := fun r hr info hi => by
    obtain ⟨x, y, e⟩ := (m.data info.page b).2 ⟨info, by unfold BlockManager.classOf; rw [hr, Option.map_some, hi],
        rfl⟩
    rw [a1] at e; cases e
  refine ⟨fun e c hv hc => ?_, fun hn info hi => ?_, fun hc hn => ?_⟩
  · subst hc
    unfold BlockManager.classOf
    rw [built_block]
    unfold State.builtRecord
    rw [(a3 c (List.mem_flatMap.2 ⟨e, hv.1, hv.2.2.1⟩)).2]
    simp only
    rw [builtData_some hnod hv]
    rfl
  · unfold BlockManager.classOf at hi
    rw [built_block] at hi
    unfold State.builtRecord at hi
    cases hb : s.bm.block b with
    | some r =>
      rw [hb] at hi
      simp only [Option.map_some, Option.some.injEq] at hi
      exact hnd r hb info hi
    | none =>
      rw [hb] at hi
      simp only at hi
      rw [builtData_none hnod b hn] at hi
      simp at hi
  · obtain ⟨c, hc, rfl⟩ := hc
    unfold BlockManager.classOf
    rw [built_block]
    unfold State.builtRecord
    rw [(a3 c hc).2]
    simp only
    rw [builtData_none hnod _ hn]
    rfl

theorem build_law (s : State) (h : Law s) (hs : s.mount.stage = .scan) : Law s.buildTables := by
  have hcls := built_class s h hs
  obtain ⟨hbl, m1, m2, m3, m4, m5, m6⟩ := h
  obtain ⟨a1, a2, a3⟩ := m3 hs
  obtain ⟨l, m, w, u⟩ := (blockLaw_iff s).1 hbl
  have hnod : ((s.mount.tally.flatMap TallyEntry.members).map Candidate.block).Nodup := m4
  have hent := built_entry s
  obtain ⟨bm0, hbm0⟩ := built_lists s
  obtain ⟨hpool, hdirty, hret⟩ := collect_spec bm0
  rw [← hbm0] at hpool hdirty hret
  have hses : s.buildTables.ses = s.ses := by unfold State.buildTables; dsimp only
  have heng : s.buildTables.eng = s.eng := by unfold State.buildTables; dsimp only
  have hmt := built_mount s
  have hidle := m2 (.inl hs)
  -- a built entry is a current version
  have hcv : ∀ q x, currentVersion (completeCandidates (judgeTally s.mount.tally)) q = some x → ∃ e,
      CurrentVersion s.mount.tally e x.2 ∧ x.1 = judgedEntry s.mount.tally e ∧ x.2.page = q := by
    intro q x hx
    obtain ⟨h1, h2⟩ := currentVersion_mem _ _ _ hx
    obtain ⟨e, he, hec, hem, e1⟩ := (mem_cands _ _).1 h1
    refine ⟨e, (current_iff hnod e x.2).2 ⟨he, hem, ?_⟩, e1, h2⟩
    rw [h2, hx, ← e1]
  constructor
  · refine (blockLaw_iff _).2 ⟨?_, ?_, ?_, ?_⟩
    · exact ⟨hpool.1.imp (fun {a b} k e => by subst e; exact poolOrder_irrefl _ _ k), fun b hb => (hpool.2 b).1 hb,
        fun _ b hb => (hpool.2 b).2 hb,
        hdirty.1.imp (fun k => Fin.ne_of_lt k), hdirty.2, hret.1.imp (fun k => Fin.ne_of_lt k), hret.2⟩
    · constructor
      · intro q b
        rw [hent]
        constructor
        · rintro ⟨sr, wr, e⟩
          obtain ⟨x, hx, e⟩ := Option.map_eq_some_iff.1 e
          obtain ⟨f, hv, -, hp⟩ := hcv q x hx
          refine ⟨_, (hcls b).1 f x.2 hv (by cases e; rfl), hp⟩
        · rintro ⟨info, hi, hp⟩
          by_cases hn : ∀ e c, CurrentVersion s.mount.tally e c → c.block ≠ b
          · exact absurd hi ((hcls b).2.1 hn info)
          · push Not at hn
            obtain ⟨e, c, hv, hb⟩ := hn
            rw [(hcls b).1 e c hv hb] at hi
            cases hi
            have hp : c.page = q := hp
            have := ((current_iff hnod e c).1 hv).2.2
            rw [← hp, this]
            subst hb; exact ⟨_, _, rfl⟩
      · intro q e info he hi
        rw [hent] at he
        obtain ⟨x, hx, rfl⟩ := Option.map_eq_some_iff.1 he
        obtain ⟨f, hv, e1, -⟩ := hcv q x hx
        rw [(hcls x.2.block).1 f x.2 hv rfl] at hi
        cases hi
        simp only [e1]
        exact ⟨rfl, rfl⟩
    · rw [heng, hidle]; trivial
    · rw [hses]; exact u
  · have hmem : ∀ l : List TallyEntry, ∀ T, (l.map fun e => ({ e with complete := some (TallyEntry.judge T e) } :
      TallyEntry)).flatMap TallyEntry.members = l.flatMap TallyEntry.members := by
      intro l T; rw [List.flatMap_map]
    have hj : (judgeTally s.mount.tally).flatMap TallyEntry.members = s.mount.tally.flatMap TallyEntry.members :=
        hmem _ _
    have hj2 : (judgeTally s.mount.tally).map TallyEntry.serial = s.mount.tally.map TallyEntry.serial :=
        by unfold judgeTally; rw [List.map_map]; rfl
    have hnr : s.mount.condition ≠ .ready := fun k => by have := m1.1 k; rw [hs] at this; cases this
    unfold State.MountLaw State.Ready Mount.candidates
    rw [heng, hmt]
    have hv : ∀ l : List BlockId, l.Pairwise (· < ·) → l.Nodup := fun l k => k.imp fun h => Fin.ne_of_lt h
    have hv := hv _ (voidingList_sorted (judgeTally s.mount.tally))
    have hne : MountStage.built ≠ .ended := by simp
    have hne' : MountStage.built ≠ .scan := by simp
    refine ⟨⟨fun k => absurd k hnr, fun k => absurd k hne⟩, fun _ => hidle, fun k => absurd k hne', ?_, ?_, ?_⟩
    · show (((judgeTally s.mount.tally).flatMap TallyEntry.members).map Candidate.block).Nodup
      rw [hj]; exact m4
    · show ((judgeTally s.mount.tally).map TallyEntry.serial).Nodup
      rw [hj2]; exact m5
    · generalize hvl : voidingList (judgeTally s.mount.tally) = vl at hv
      intro _
      refine ⟨hv, fun b hb => ?_⟩
      have hb : b ∈ vl := hb
      rw [← hvl] at hb
      unfold voidingList judgeTally at hb
      simp only [List.mem_filter, List.any_eq_true, List.mem_map, Bool.and_eq_true, bne_iff_ne, beq_iff_eq,
          allBlocks, List.mem_finRange, true_and] at hb
      obtain ⟨_, ⟨e, he, rfl⟩, h3, c, hc, hb⟩ := hb
      refine (hcls b).2.2 ⟨c, List.mem_flatMap.2 ⟨e, he, hc⟩, hb⟩ fun f d hv hd => ?_
      obtain ⟨k1, -⟩ := candidate_unique hnod hv.1 he hv.2.2.1 hc (hd.trans hb.symm)
      subst k1
      exact h3 (congrArg some ((judge_iff _ _).2 hv.2.1))

theorem flip_law (s : State) (r : CommitRec) (h : Law s) (hw : s.eng.work = .commit r .flipRequested)
    (x : Option FlipWork) :
    Law (State.setWork { s.flipMembers r with map := { (s.flipMembers r).map with flip := x } }
        (.commit r .flipTaken)) := by
  have hr := flipReady h.1 hw
  have f := flipMembers_spec hr
  generalize ht : s.flipMembers r = t at f
  obtain ⟨hbl, hm⟩ := h
  obtain ⟨l, m, w, u⟩ := (blockLaw_iff s).1 hbl
  rw [hw] at w
  obtain ⟨w1, w2, w3, w4, w5, w6⟩ := w
  have hold := w5 (by simp)
  have hns : s.mount.stage ≠ .scan := fun k => by have := hm.2.1 (.inl k); rw [hw] at this; cases this
  have hnb : s.mount.stage ≠ .built := fun k => by have := hm.2.1 (.inr k); rw [hw] at this; cases this
  -- the class of a block after the flip
  have ct : ∀ m q b, r.pages[m]? = some q → r.targets[m]? = some (some b) → t.bm.classOf b =
      some (.data (flipInfo r m q)) := by
    intro m q b h1 h2
    have := f.data m q b (List.getElem?_eq_some_iff.1 h1).1 h1 h2
    unfold BlockManager.classOf; rw [this]
    have hc := hold.2 b (List.mem_of_getElem? h2)
    unfold BlockManager.classOf at hc
    cases e : s.bm.block b with
    | none => rw [e] at hc; cases hc
    | some x => rfl
  have cb : ∀ q b, s.map.currentBlock q = some b → ∃ info, s.bm.classOf b = some (.data info)
      ∧ info.page = q := fun q b k => (m.data q b).1 ((currentBlock_iff _ _ _).1 k)
  have cd : ∀ q b, q ∈ r.pages → s.map.currentBlock q = some b → t.bm.classOf b = some .dirty := by
    intro q b h1 h2
    obtain ⟨m, h1⟩ := List.mem_iff_getElem?.1 h1
    have := f.dirty m q b (List.getElem?_eq_some_iff.1 h1).1 h1 h2
    unfold BlockManager.classOf; rw [this]
    obtain ⟨info, hc, -⟩ := cb q b h2
    unfold BlockManager.classOf at hc
    cases e : s.bm.block b with
    | none => rw [e] at hc; cases hc
    | some x => rfl
  have cs : ∀ b, some b ∉ r.targets → (∀ q ∈ r.pages, s.map.currentBlock q ≠ some b) → t.bm.classOf b =
      s.bm.classOf b := by
    intro b h1 h2
    unfold BlockManager.classOf
    rw [f.same b (fun m _ e => h1 (List.mem_of_getElem? e)) fun m q _ e => h2 q (List.mem_of_getElem? e)]
  have tpage : ∀ b, some b ∈ r.targets → ∃ (m : Nat) (q : PageId), r.pages[m]? = some q
      ∧ r.targets[m]? = some (some b) := by
    intro b hb
    obtain ⟨m, e⟩ := List.mem_iff_getElem?.1 hb
    have hlt := (List.getElem?_eq_some_iff.1 e).1
    rw [w2] at hlt
    exact ⟨m, _, List.getElem?_eq_getElem hlt, e⟩
  -- trichotomy
  have tri : ∀ b, (∃ (m : Nat) (q : PageId), r.pages[m]? = some q ∧ r.targets[m]? = some (some b)
      ∧ s.bm.classOf b = some (.target r.session) ∧ t.bm.classOf b = some (.data (flipInfo r m q)))
      ∨ (∃ q ∈ r.pages, s.map.currentBlock q = some b ∧ (∃ info, s.bm.classOf b = some (.data info))
          ∧ t.bm.classOf b = some .dirty)
      ∨ (some b ∉ r.targets ∧ (∀ q ∈ r.pages, s.map.currentBlock q ≠ some b) ∧ t.bm.classOf b = s.bm.classOf b) := by
    intro b
    by_cases h1 : some b ∈ r.targets
    · obtain ⟨m, q, e1, e2⟩ := tpage b h1
      exact .inl ⟨m, q, e1, e2, hold.2 b h1, ct m q b e1 e2⟩
    · by_cases h2 : ∃ q ∈ r.pages, s.map.currentBlock q = some b
      · obtain ⟨q, hq, e⟩ := h2
        obtain ⟨info, hi, -⟩ := cb q b e
        exact .inr (.inl ⟨q, hq, e, ⟨info, hi⟩, cd q b hq e⟩)
      · push Not at h2
        exact .inr (.inr ⟨h1, h2, cs b h1 h2⟩)
  have full : r.pages.take r.pages.length = r.pages := List.take_length
  have dl := f.dirtyList
  rw [full] at dl
  have key : ListsOk (s.mount.stage ≠ .scan) t.bm ∧ MapsOk t.map.entry t.bm := by
    refine ⟨⟨by rw [f.freePool]; exact l.freeNodup, fun b hb => ?_, fun _ b hb => ?_, ?_, fun b => ?_,
        by rw [f.retiredSet]; exact l.retNodup, fun b => ?_⟩, ⟨fun q b => ?_, fun q e info he hi => ?_⟩⟩
    · rw [f.freePool] at hb
      have := l.free b hb
      rcases tri b with ⟨_, _, _, _, k, _⟩ | ⟨_, _, _, ⟨_, k⟩, _⟩ | ⟨_, _, k⟩
      · rw [this] at k; cases k
      · rw [this] at k; cases k
      · rw [k]; exact this
    · rw [f.freePool]
      rcases tri b with ⟨_, _, _, _, _, k⟩ | ⟨_, _, _, _, k⟩ | ⟨_, _, k⟩
      · rw [hb] at k; cases k
      · rw [hb] at k; cases k
      · rw [k] at hb; exact l.pool hns b hb
    · rw [dl]
      refine List.nodup_append.2 ⟨l.dirtyNodup, ?_, ?_⟩
      · refine w1.filterMap ?_
        intro a a' b h1 h2
        exact hr.single a a' b h1 h2
      · rintro a ha b hb rfl
        obtain ⟨q, -, e⟩ := List.mem_filterMap.1 hb
        obtain ⟨info, hi, -⟩ := cb q a e
        have := (l.dirty a).1 ha
        rw [hi] at this; cases this
    · rw [dl, List.mem_append, List.mem_filterMap, l.dirty]
      rcases tri b with ⟨_, _, _, k0, k1, k⟩ | ⟨q, hq, e, _, k⟩ | ⟨_, k0, k⟩
      · rw [k1, k]
        constructor
        · rintro (h | ⟨q, -, e⟩)
          · cases h
          · obtain ⟨info, hi, -⟩ := cb q b e
            rw [hi] at k1; cases k1
        · intro h; cases h
      · exact ⟨fun _ => k, fun _ => .inr ⟨q, hq, e⟩⟩
      · rw [k]
        exact ⟨fun h => h.resolve_right fun ⟨q, hq, e⟩ => k0 q hq e, .inl⟩
    · rw [f.retiredSet, l.ret]
      rcases tri b with ⟨_, _, _, k0, k1, k⟩ | ⟨q, hq, e, ⟨_, k1⟩, k⟩ | ⟨_, k0, k⟩
      · rw [k1, k]; simp
      · rw [k1, k]; simp
      · rw [k]
    · by_cases hq : q ∈ r.pages
      · obtain ⟨i, hi⟩ := List.mem_iff_getElem?.1 hq
        obtain ⟨b', hb'⟩ := hr.target i q hi
        have he := f.entry i q b' (List.getElem?_eq_some_iff.1 hi).1 hi hb'
        rw [he]
        constructor
        · rintro ⟨_, _, e⟩
          have e : b' = b := by cases e; rfl
          exact ⟨_, e ▸ ct i q b' hi hb', rfl⟩
        · rintro ⟨info, hc, hp⟩
          rcases tri b with ⟨j, q', e1, e2, _, k⟩ | ⟨q', hq', e, _, k⟩ | ⟨_, k0, k⟩
          · rw [hc] at k; cases k
            have hp : q' = q := hp
            subst hp
            have hij : i = j := by
              have a1 := List.getElem?_eq_some_iff.1 hi
              have a2 := List.getElem?_eq_some_iff.1 e1
              exact (w1.getElem_inj_iff (hi := a1.1) (hj := a2.1)).1 (a1.2.trans a2.2.symm)
            subst hij
            rw [hb'] at e2; cases e2
            exact ⟨_, _, rfl⟩
          · rw [hc] at k; cases k
          · rw [k] at hc
            exact absurd ((currentBlock_iff _ _ _).2 ((m.data q b).2 ⟨info, hc, hp⟩)) (k0 q hq)
      · rw [f.others q fun i _ e => hq (List.mem_of_getElem? e), m.data]
        constructor
        · rintro ⟨info, hc, hp⟩
          rcases tri b with ⟨j, q', e1, e2, k1, k⟩ | ⟨q', hq', e, _, k⟩ | ⟨_, k0, k⟩
          · rw [hc] at k1; cases k1
          · obtain ⟨i', hi', hp'⟩ := cb q' b e
            rw [hc] at hi'; cases hi'
            exact absurd (hp ▸ hp' ▸ hq') hq
          · rw [← k] at hc; exact ⟨info, hc, hp⟩
        · rintro ⟨info, hc, hp⟩
          rcases tri b with ⟨j, q', e1, e2, k1, k⟩ | ⟨q', hq', e, _, k⟩ | ⟨_, k0, k⟩
          · rw [hc] at k; cases k
            have hp : q' = q := hp
            subst hp
            exact absurd (List.mem_of_getElem? e1) hq
          · rw [hc] at k; cases k
          · rw [k] at hc; exact ⟨info, hc, hp⟩
    · by_cases hq : q ∈ r.pages
      · obtain ⟨i, hi'⟩ := List.mem_iff_getElem?.1 hq
        obtain ⟨b', hb'⟩ := hr.target i q hi'
        have he' := f.entry i q b' (List.getElem?_eq_some_iff.1 hi').1 hi' hb'
        rw [he'] at he; cases he
        have := ct i q _ hi' hb'
        rw [this] at hi; cases hi
        exact ⟨rfl, rfl⟩
      · rw [f.others q fun i _ e => hq (List.mem_of_getElem? e)] at he
        have hcur : s.map.currentBlock q = some e.block := by unfold MapUnit.currentBlock; rw [he]; rfl
        rcases tri e.block with ⟨j, q', e1, e2, k1, k⟩ | ⟨q', hq', e', _, k⟩ | ⟨_, k0, k⟩
        · obtain ⟨i', hi', -⟩ := cb q _ hcur
          rw [hi'] at k1; cases k1
        · rw [hi] at k; cases k
        · rw [k] at hi; exact m.info q e info he hi
  have hmt : t.mount = s.mount := by rw [f.frame]
  have hst : t.ses = s.ses := by rw [f.frame]
  refine sound_law s _ hm hns hnb ⟨⟨?_, key.2, ?_, ?_⟩, .inl hmt⟩
  · show ListsOk (t.mount.stage ≠ .scan) t.bm
    rw [hmt]; exact key.1
  · exact ⟨w1, w2, w3, w4, fun k => absurd rfl k, (fun k => by cases k)⟩
  · show MembersOk t.ses
    rw [hst]; exact u

end Sys2Proof.Laws
end

