-- ==== Sys2Proof/Laws/PinLaw.lean ====
section
/-! SUPPORT. Pins and the mount's voiding: that the pin counts are those of the read streams, that a pinned block is DATA or DIRTY,
that the Free Pool keeps its order, and that the engine voids for the mount in the mount's last stage alone (R15, R18, R89, R95,
R173 to R175). -/

namespace Sys2Proof.Laws

open Sys2Proof Sys2Proof.Machine

/-- The block that a port's stream holds. -/
def pinOf (s : State) (p : PortId) : Option BlockId := (s.port p).stream.bind fun st => st.pinned

/-- The ports whose pin is on the block. -/
def pinCount (f : PortId → Option BlockId) (b : BlockId) : Nat := ((List.finRange 4).filter fun p => decide (f p = some b)).length

/-- The counts of the pins `f`, and the classes of the pinned blocks. -/
structure PinOk (bm : BlockManager) (f : PortId → Option BlockId) : Prop where
  count : ∀ b, bm.pins b = pinCount f b
  pinned : Pinned bm

/-- A port with a stream is behind a reply on a READY part. -/
def StreamOk (ready : Prop) (r : Port) : Prop :=
  r.stream ≠ none → ready ∧ (r.decoder = .turnaround ∨ r.decoder = .reply ∨ r.decoder = .stream)

theorem pinLaw_iff (s : State) : s.PinLaw ↔ PinOk s.bm (pinOf s) ∧ ∀ p, StreamOk s.Ready (s.port p) :=
  ⟨fun ⟨a, b, c⟩ => ⟨⟨a, b⟩, c⟩, fun ⟨⟨a, b⟩, c⟩ => ⟨a, b, c⟩⟩

theorem pinCount_set (f : PortId → Option BlockId) (p : PortId) (new : Option BlockId) (b : BlockId) :
    pinCount (fun q => if q = p then new else f q) b + (if f p = some b then 1 else 0)
      = pinCount f b + if new = some b then 1 else 0 := by
  have h : ∀ (l : List PortId), l.Nodup → (l.filter fun q => decide ((if q = p then new else f q) = some b)).length
      + (if p ∈ l ∧ f p = some b then 1 else 0)
      = (l.filter fun q => decide (f q = some b)).length + if p ∈ l ∧ new = some b then 1 else 0 := by
    intro l hl
    induction l with
    | nil => simp
    | cons x l ih =>
      obtain ⟨hx, hl⟩ := List.nodup_cons.1 hl
      have ih := ih hl
      by_cases ex : x = p
      · subst ex
        have same : (l.filter fun q => decide ((if q = x then new else f q) = some b)) = l.filter fun q => decide (f q = some b) :=
          List.filter_congr fun y hy => by rw [if_neg (by rintro rfl; exact hx hy)]
        simp only [List.filter_cons, if_true, List.mem_cons, true_or, true_and, decide_eq_true_eq, same]
        split <;> split <;> simp only [List.length_cons] <;> omega
      · have hm : (p ∈ x :: l) ↔ p ∈ l := by simp [Ne.symm ex]
        simp only [List.filter_cons, if_neg ex, hm, decide_eq_true_eq]
        split
        · simp only [List.length_cons]; omega
        · exact ih
  have := h (List.finRange 4) (List.nodup_finRange 4)
  simpa [pinCount, List.mem_finRange] using this

/-- One port's pin moves: the counts follow. -/
theorem PinOk.move {bm bm' : BlockManager} {f g : PortId → Option BlockId} (p : PortId) (h : bm.PinsMoved bm' (f p) (g p))
    (others : ∀ q, q ≠ p → g q = f q) (data : ∀ b, g p = some b → ∃ info, bm.classOf b = some (.data info))
    (k : PinOk bm f) : PinOk bm' g := by
  have hg : g = fun q => if q = p then g p else f q := by
    funext q
    by_cases e : q = p
    · subst e; simp
    · simp [e, others q e]
  have cls : ∀ b, bm'.classOf b = bm.classOf b := by
    intro b
    unfold BlockManager.classOf
    rw [h.2]
    cases bm.block b <;> rfl
  have hc := fun b => pinCount_set f p (g p) b
  have count : ∀ b, bm'.pins b = pinCount g b := by
    intro b
    have e1 := hc b
    rw [← hg] at e1
    have e2 := k.count b
    unfold BlockManager.pins at *
    rw [h.2]
    cases hb : bm.block b with
    | none =>
      rw [hb] at e2
      simp only [Option.map_none, Option.getD_none] at e2 ⊢
      have : g p ≠ some b := by
        intro e
        obtain ⟨info, hi⟩ := data b e
        unfold BlockManager.classOf at hi
        rw [hb] at hi; cases hi
      rw [if_neg this] at e1
      omega
    | some r =>
      rw [hb] at e2
      simp only [Option.map_some, Option.getD_some] at e2 ⊢
      have := pinCount_set f p none b
      simp only [reduceCtorEq, if_false, Nat.add_zero] at this
      omega
  refine ⟨count, fun b hb => ?_⟩
  rw [cls]
  by_cases e : g p = some b
  · exact .inl (data b e)
  · refine k.pinned b ?_
    have e1 := hc b
    rw [← hg, ← count, if_neg e, ← k.count] at e1
    omega

/-- Nothing of the pins changes. -/
theorem PinOk.congr {bm bm' : BlockManager} {f g : PortId → Option BlockId} (hp : ∀ b, bm'.pins b = bm.pins b)
    (hc : ∀ b, 0 < bm.pins b → (∃ info, bm.classOf b = some (.data info)) ∨ bm.classOf b = some .dirty →
      (∃ info, bm'.classOf b = some (.data info)) ∨ bm'.classOf b = some .dirty)
    (hg : ∀ q, g q = f q) (k : PinOk bm f) : PinOk bm' g :=
  ⟨fun b => by rw [hp, k.count, funext hg], fun b hb => by rw [hp] at hb; exact hc b hb (k.pinned b hb)⟩

/-- No pin at all. -/
theorem PinOk.none {bm : BlockManager} {f : PortId → Option BlockId} (h : ∀ b, bm.pins b = 0) (hf : ∀ q, f q = none) : PinOk bm f :=
  ⟨fun b => by simp [h, pinCount, hf], fun b hb => by rw [h] at hb; omega⟩

theorem pins_zero {s : State} (P : s.PinLaw) (h : ¬ s.Ready) : (∀ p, (s.port p).stream = none) ∧ ∀ b, s.bm.pins b = 0 := by
  have hs : ∀ p, (s.port p).stream = none := by
    intro p
    by_contra e
    exact h (P.2.2 p e).1
  exact ⟨hs, fun b => by rw [P.1]; simp [hs]⟩

/-- A port is changed, and its pin with it. -/
theorem pin_port (s : State) (p : PortId) (bm : BlockManager) (r : Port)
    (h : s.bm.PinsMoved bm (pinOf s p) (r.stream.bind fun st => st.pinned))
    (data : ∀ b, (r.stream.bind fun st => st.pinned) = some b → ∃ info, s.bm.classOf b = some (.data info))
    (hs : StreamOk s.Ready r) (P : s.PinLaw) : State.PinLaw (State.setPort { s with bm := bm } p r) := by
  obtain ⟨k, hst⟩ := (pinLaw_iff s).1 P
  have self : (State.setPort { s with bm := bm } p r).port p = r := port_setPort _ _ _
  have other : ∀ q, q ≠ p → (State.setPort { s with bm := bm } p r).port q = s.port q := fun q hq =>
    (port_setPort_ne _ _ _ _ hq).trans rfl
  refine (pinLaw_iff _).2 ⟨PinOk.move p (f := pinOf s) ?_ (fun q hq => ?_) ?_ k, fun q => ?_⟩
  · show s.bm.PinsMoved bm _ (((State.setPort { s with bm := bm } p r).port p).stream.bind fun st => st.pinned)
    rw [self]; exact h
  · unfold pinOf; rw [other q hq]
  · unfold pinOf; rw [self]; exact data
  · by_cases e : q = p
    · subst e; rw [self]; exact hs
    · rw [other q e]; exact hst q

/-- A port is changed, but not its stream. -/
theorem pin_frame (s : State) (p : PortId) (r : Port) (h : r.stream = (s.port p).stream)
    (hs : (s.port p).stream ≠ none → r.decoder = (s.port p).decoder ∨ r.decoder = .turnaround ∨ r.decoder = .reply ∨ r.decoder = .stream)
    (P : s.PinLaw) : (s.setPort p r).PinLaw := by
  obtain ⟨k, hst⟩ := (pinLaw_iff s).1 P
  have self : (s.setPort p r).port p = r := port_setPort _ _ _
  have other : ∀ q, q ≠ p → (s.setPort p r).port q = s.port q := fun q hq => port_setPort_ne _ _ _ _ hq
  refine (pinLaw_iff _).2 ⟨k.congr (fun _ => rfl) (fun _ _ x => x) fun q => ?_, fun q => ?_⟩
  · unfold pinOf
    by_cases e : q = p
    · subst e; rw [self, h]
    · rw [other q e]
  · by_cases e : q = p
    · subst e
      rw [self]
      intro n
      rw [h] at n
      obtain ⟨a, b⟩ := hst q n
      refine ⟨a, ?_⟩
      rcases hs n with k | k
      · rw [k]; exact b
      · exact k
    · rw [other q e]; exact hst q

theorem samePorts_streams {s t : State} (h : s.SamePorts t) (p : PortId) : (t.port p).stream = (s.port p).stream
    ∧ (t.port p).decoder = (s.port p).decoder := by
  have e := h p
  have e1 := congrArg Port.stream e
  have e2 := congrArg Port.decoder e
  exact ⟨e1, e2⟩

/-- The streams stand, and no block changes its pins; classes may change where the block is not pinned. -/
theorem pin_congr {s t : State} (hp : ∀ b, t.bm.pins b = s.bm.pins b) (hk : Pinned t.bm) (hs : s.SamePorts t)
    (hr : s.Ready → t.Ready) (P : s.PinLaw) : t.PinLaw := by
  obtain ⟨k, hst⟩ := (pinLaw_iff s).1 P
  refine (pinLaw_iff t).2 ⟨⟨fun b => ?_, hk⟩, fun p n => ?_⟩
  · rw [hp, k.count]
    congr 1
    funext p
    unfold pinOf
    rw [(samePorts_streams hs p).1]
  · rw [(samePorts_streams hs p).1] at n
    rw [(samePorts_streams hs p).2]
    exact ⟨hr (hst p n).1, (hst p n).2⟩

/-! ### The engine's operations -/

theorem ready_finish {s t : State} (h : t.mount = s.mount ∨ t.mount = s.mount.finish) (k : s.Ready) : t.Ready := by
  unfold State.Ready at *
  rcases h with h | h <;> rw [h]
  · exact k
  · rfl

theorem voids_pins {s : State} (M : s.MountLaw) (V : s.VoidingLaw) (P : s.PinLaw) (h : WorkVoids s.eng.work) (x : BlockId) :
    s.bm.pins x = 0 := by
  refine (pins_zero P fun k => ?_).2 x
  have hv : s.mount.stage = .voiding := by
    refine V.1 ?_
    revert h
    cases e : s.eng.work <;> simp [WorkVoids]
  have := M.1.1 k
  rw [hv] at this; cases this

theorem pin_ends {s t : State} (M : s.MountLaw) (V : s.VoidingLaw) (h : EndsOk s t) (hp : s.SamePorts t) (P : s.PinLaw) :
    t.PinLaw :=
  pin_congr h.2.2.1.pins (h.2.2.1.pinned P.2.1 fun k x => voids_pins M V P k x) hp (ready_finish h.2.1) P

theorem pool_ends {s t : State} (B : s.BlockLaw) (h : EndsOk s t) (P : s.PoolLaw) : t.PoolLaw :=
  (h.2.2.1.pool ⟨((blockLaw_iff s).1 B).1.free, P⟩).2

theorem pool_same {s t : State} (hl : t.bm.freePool = s.bm.freePool) (hc : ∀ x ∈ s.bm.freePool, t.bm.eraseCount x = s.bm.eraseCount x)
    (P : s.PoolLaw) : t.PoolLaw := by
  unfold State.PoolLaw
  rw [hl]
  exact pairwise_congr hc P

theorem pool_pins {s : State} {bm : BlockManager} {d u : Option BlockId} (h : s.bm.PinsMoved bm d u) (P : s.PoolLaw) :
    State.PoolLaw { s with bm := bm } := by
  refine pool_same (by show bm.freePool = _; rw [h.1]) (fun x _ => ?_) P
  show bm.eraseCount x = _
  unfold BlockManager.eraseCount
  rw [h.2]
  cases s.bm.block x <;> rfl

/-! ### The mount's voiding -/

theorem voidingLaw_iff (s : State) : s.VoidingLaw ↔ (WorkVoids s.eng.work ↔ s.mount.stage = .voiding) := by
  unfold State.VoidingLaw
  cases e : s.eng.work <;> simp [WorkVoids]

theorem voiding_same {s t : State} (hw : t.eng.work = s.eng.work) (hm : t.mount = s.mount) (h : s.VoidingLaw) : t.VoidingLaw := by
  unfold State.VoidingLaw; rw [hw, hm]; exact h

/-- The engine works on something else than the mount's voiding, or ends that voiding. -/
theorem voiding_ends {s t : State} (h : EndsOk s t) (hv : WorkVoids s.eng.work → WorkVoids t.eng.work ∨ t.mount = s.mount.finish)
    (V : s.VoidingLaw) : t.VoidingLaw := by
  rw [voidingLaw_iff] at V ⊢
  constructor
  · intro k
    obtain ⟨k1, k2⟩ := h.2.2.2 k
    rw [k2]; exact V.1 k1
  · intro k
    rcases h.2.1 with e | e
    · rw [e] at k
      rcases hv (V.2 k) with x | x
      · exact x
      · rw [← e, x] at k; cases k
    · rw [e] at k; cases k

theorem handStart_mount (s : State) (p : PortId) (i : SessionId) (k : StartKind) : (s.handStart p i k).mount = s.mount := rfl

theorem unwindNext_mount (s : State) (u : UnwindRec) : (s.unwindNext u).mount = s.mount := by
  unfold State.unwindNext
  split <;> rfl

theorem beginMember_mount (s : State) (r : CommitRec) : (s.beginMember r).mount = s.mount := by
  unfold State.beginMember
  split
  · rfl
  · exact unwindNext_mount _ _

theorem takeStart_mount (s : State) (h : StartHandoff) : (s.takeStart h).mount = s.mount := by
  unfold State.takeStart
  simp only
  split
  · split
    · exact beginMember_mount _ _
    · rfl
    · rfl
  · rfl

theorem choose_mount (s : State) : s.choose.mount = s.mount := by
  unfold State.choose
  split
  · rfl
  · split
    · unfold State.startCheck State.askSerial
      simp only
      split
      · split <;> rfl
      · split <;> rfl
    · split <;> rfl

/-- The choice of work has no part in the mount. -/
theorem choiceEvent_mount (s : State) : s.choiceEvent.mount = s.mount := by
  unfold State.choiceEvent
  split
  · split
    · exact takeStart_mount _ _
    · exact choose_mount _
  · rfl

theorem mountVoidNext_voids (s : State) (l : List BlockId) :
    WorkVoids (s.mountVoidNext l).eng.work ∨ (s.mountVoidNext l).mount = s.mount.finish := by
  cases l with
  | nil =>
    exact .inr (choiceEvent_mount _)
  | cons b rest => exact .inl trivial

theorem mountVoidEnded_voids (s : State) (b : BlockId) (rest : List BlockId) (n : Nat) (ok : Bool) :
    WorkVoids (s.mountVoidEnded b rest n ok).eng.work ∨ (s.mountVoidEnded b rest n ok).mount = s.mount.finish := by
  unfold State.mountVoidEnded
  split
  · exact mountVoidNext_voids _ _
  · split <;> exact .inl trivial

theorem retireEnded_voids (s : State) (ok : Bool) (h : WorkVoids s.eng.work) :
    WorkVoids (s.retireEnded ok).eng.work ∨ (s.retireEnded ok).mount = s.mount.finish := by
  unfold State.retireEnded
  split
  · next e => rw [e] at h; cases h
  · next e => rw [e] at h; cases h
  · next e => rw [e] at h; cases h
  · split
    · exact .inl trivial
    · exact mountVoidNext_voids _ _
  · exact .inl h

theorem opFailed_voids (s : State) (h : WorkVoids s.eng.work) :
    WorkVoids s.opFailed.eng.work ∨ s.opFailed.mount = s.mount.finish := by
  unfold State.opFailed
  split
  · next e => rw [e] at h; cases h
  · next e => rw [e] at h; cases h
  · next e => rw [e] at h; cases h
  · next e => rw [e] at h; cases h
  · next e => rw [e] at h; cases h
  · next e => rw [e] at h; cases h
  · exact mountVoidEnded_voids _ _ _ _ _
  · exact retireEnded_voids _ _ h

/-! ### The flip, the mount and the resets -/

theorem flip_pins (s : State) (r : CommitRec) (L : Law s) (hw : s.eng.work = .commit r .flipRequested) (x : Option FlipWork)
    (P : s.PinLaw) :
    State.PinLaw (State.setWork { s.flipMembers r with map := { (s.flipMembers r).map with flip := x } } (.commit r .flipTaken)) := by
  have hr := flipReady L.1 hw
  have f := flipMembers_spec hr
  have hold : HoldsTargets s.bm r.session r.targets := by
    have := work_of s L
    rw [hw] at this
    exact this.2.2.2.2.1 (by simp)
  have blocks : ∀ b, (s.flipMembers r).bm.block b = s.bm.block b
      ∨ (∃ c, (s.flipMembers r).bm.block b = (s.bm.block b).map fun y => { y with cls := .data c })
      ∨ (s.flipMembers r).bm.block b = (s.bm.block b).map fun y => { y with cls := .dirty } := by
    intro b
    by_cases h1 : ∃ m q, m < r.pages.length ∧ r.pages[m]? = some q ∧ r.targets[m]? = some (some b)
    · obtain ⟨m, q, h1, h2, h3⟩ := h1
      exact .inr (.inl ⟨_, f.data m q b h1 h2 h3⟩)
    · by_cases h2 : ∃ m q, m < r.pages.length ∧ r.pages[m]? = some q ∧ s.map.currentBlock q = some b
      · obtain ⟨m, q, k1, k2, k3⟩ := h2
        exact .inr (.inr (f.dirty m q b k1 k2 k3))
      · refine .inl (f.same b (fun m hm e => h1 ?_) fun m q hm e k => h2 ⟨m, q, hm, e, k⟩)
        exact ⟨m, _, hm, List.getElem?_eq_getElem hm, e⟩
  have pins : ∀ b, (s.flipMembers r).bm.pins b = s.bm.pins b := by
    intro b
    unfold BlockManager.pins
    rcases blocks b with e | ⟨c, e⟩ | e <;> rw [e] <;> cases s.bm.block b <;> rfl
  have hf : ∀ p, (s.flipMembers r).port p = s.port p := fun p => by
    have : (s.flipMembers r).ports = s.ports := by rw [f.frame]
    unfold State.port; rw [this]
  refine pin_congr (s := s) pins (fun b hb => ?_) (fun p => ?_) (fun k => ?_) P
  · have hb : 0 < s.bm.pins b := by rw [← pins]; exact hb
    have old := P.2.1 b hb
    show (∃ info, (s.flipMembers r).bm.classOf b = _) ∨ (s.flipMembers r).bm.classOf b = _
    unfold BlockManager.classOf at old ⊢
    rcases blocks b with e | ⟨c, e⟩ | e
    · rw [e]; exact old
    · rw [e]
      cases hbk : s.bm.block b with
      | none => rw [hbk] at old; simp at old
      | some y => exact .inl ⟨c, rfl⟩
    · rw [e]
      cases hbk : s.bm.block b with
      | none => rw [hbk] at old; simp at old
      | some y => exact .inr rfl
  · show { (s.flipMembers r).port p with alert := (s.port p).alert } = _
    rw [hf]
  · show (s.flipMembers r).mount.condition = _
    have : (s.flipMembers r).mount = s.mount := by rw [f.frame]
    rw [this]; exact k

theorem flip_pool (s : State) (r : CommitRec) (L : Law s) (hw : s.eng.work = .commit r .flipRequested) (x : Option FlipWork)
    (P : s.PoolLaw) :
    State.PoolLaw (State.setWork { s.flipMembers r with map := { (s.flipMembers r).map with flip := x } } (.commit r .flipTaken)) := by
  have f := flipMembers_spec (flipReady L.1 hw)
  refine pool_same f.freePool (fun b hb => ?_) P
  have hcls := ((blockLaw_iff s).1 L.1).1.free b hb
  have w := work_of s L
  rw [hw] at w
  have hold := w.2.2.2.2.1 (by simp)
  have m := ((blockLaw_iff s).1 L.1).2.1
  show (s.flipMembers r).bm.eraseCount b = _
  unfold BlockManager.eraseCount
  rw [f.same b (fun i _ e => ?_) fun i q _ _ e => ?_]
  · have := hold.2 b (List.mem_of_getElem? e)
    rw [hcls] at this; cases this
  · obtain ⟨info, hi, -⟩ := (m.data q b).1 ((currentBlock_iff _ _ _).1 e)
    rw [hcls] at hi; cases hi

/-- A step of a mount that places blocks with no pin. -/
theorem mounting_pins {s t : State} (hn : ¬ s.Ready) (P : s.PinLaw) (hp : t.ports = s.ports)
    (hb : ∀ b, t.bm.block b = s.bm.block b ∨ ∃ r, t.bm.block b = some r ∧ r.pins = 0) : t.PinLaw := by
  obtain ⟨z1, z2⟩ := pins_zero P hn
  have port : ∀ p, t.port p = s.port p := fun p => by unfold State.port; rw [hp]
  refine (pinLaw_iff t).2 ⟨.none (fun b => ?_) fun q => ?_, fun p n => ?_⟩
  · have := z2 b
    unfold BlockManager.pins at *
    rcases hb b with e | ⟨r, e, e'⟩
    · rw [e]; exact this
    · rw [e]; exact e'
  · unfold pinOf; rw [port, z1]; rfl
  · rw [port, z1] at n; exact absurd rfl n

theorem not_ready_of {s : State} (M : s.MountLaw) {st : MountStage} (h : s.mount.stage = st) (ne : st ≠ .ended) : ¬ s.Ready :=
  fun k => ne (h.symm.trans (M.1.1 k))

theorem scan_block (s : State) (b x : BlockId) :
    (s.scanBlock b).bm.block x = s.bm.block x ∨ ∃ r, (s.scanBlock b).bm.block x = some r ∧ r.pins = 0 := by
  have place : ∀ (r : BlockRec), r.pins = 0 → (s.bm.place b r).block x = s.bm.block x
      ∨ ∃ r', (s.bm.place b r).block x = some r' ∧ r'.pins = 0 := by
    intro r hr
    rw [block_place]
    split
    · exact .inr ⟨r, rfl, hr⟩
    · exact .inl rfl
  show (s.placeRow b _).bm.block x = _ ∨ ∃ r, (s.placeRow b _).bm.block x = some r ∧ r.pins = 0
  unfold State.placeRow
  split
  · exact place _ rfl
  · exact place _ rfl
  · exact place _ rfl
  · exact place _ rfl
  · exact place _ rfl
  · exact .inl rfl

theorem scan_pins (s : State) (b : BlockId) (L : Law s) (hs : s.mount.stage = .scan) (P : s.PinLaw) : (s.scanBlock b).PinLaw := by
  refine mounting_pins (not_ready_of L.2 hs (by simp)) P ?_ (scan_block s b)
  show (s.placeRow b _).ports = _
  unfold State.placeRow
  split <;> rfl

theorem scan_pool (s : State) (b : BlockId) (L : Law s) (hs : s.mount.stage = .scan) (hb : s.mount.position = b.val) (P : s.PoolLaw) :
    (s.scanBlock b).PoolLaw := by
  have hn : s.bm.block b = none := (L.2.2.2.1 hs).2.1 b (by omega)
  have l := ((blockLaw_iff s).1 L.1).1
  have hne : ∀ x ∈ s.bm.freePool, x ≠ b := by
    rintro x hx rfl
    have := l.free x hx
    unfold BlockManager.classOf at this
    rw [hn] at this; cases this
  have place : ∀ (r : BlockRec) (x : BlockId), x ≠ b → (s.bm.place b r).block x = s.bm.block x := fun r x h => by
    rw [block_place, if_neg h]
  refine pool_same ?_ (fun x hx => ?_) P
  · show (s.placeRow b _).bm.freePool = _
    unfold State.placeRow
    split <;> rfl
  · show (s.placeRow b _).bm.eraseCount x = _
    unfold BlockManager.eraseCount
    have : (s.placeRow b (classify (s.flash.spare b))).bm.block x = s.bm.block x := by
      unfold State.placeRow
      split
      · exact place _ x (hne x hx)
      · exact place _ x (hne x hx)
      · exact place _ x (hne x hx)
      · exact place _ x (hne x hx)
      · exact place _ x (hne x hx)
      · rfl
    rw [this]

theorem build_pins (s : State) (L : Law s) (hs : s.mount.stage = .scan) (P : s.PinLaw) : s.buildTables.PinLaw := by
  refine mounting_pins (not_ready_of L.2 hs (by simp)) P (by unfold State.buildTables; dsimp only) fun b => .inr ⟨_, built_block s b, ?_⟩
  unfold State.builtRecord
  split
  · rfl
  · simp only; split <;> rfl

theorem build_pool (s : State) : s.buildTables.PoolLaw := by
  obtain ⟨bm, e⟩ := built_lists s
  unfold State.PoolLaw
  rw [e]
  exact (collect_spec bm).1.1

/-- The windows table is loaded, and the voiding begins or the mount ends (R122 to R124). -/
theorem load_law (s : State) (L : Law s) (prot : Protection) (hs : s.mount.stage = .built) :
    let t : State := { s with prot := prot, mount := { s.mount with stage := .voiding, voidList := [] } }
    Law (t.mountVoidNext s.mount.voidList)
    ∧ (s.PinLaw → (t.mountVoidNext s.mount.voidList).PinLaw)
    ∧ (s.PoolLaw → (t.mountVoidNext s.mount.voidList).PoolLaw)
    ∧ (t.mountVoidNext s.mount.voidList).VoidingLaw := by
  intro t
  obtain ⟨hb, m1, m2, m3, m4, m5, m6⟩ := L
  obtain ⟨l, m, w, u⟩ := (blockLaw_iff s).1 hb
  obtain ⟨v1, v2⟩ := m6 hs
  have hidle := m2 (.inr hs)
  have hnr : s.mount.condition ≠ .ready := fun k => by have := m1.1 k; rw [hs] at this; cases this
  have hm : t.MountLaw := ⟨⟨fun k => absurd k hnr, fun k => by cases k⟩, fun k => (by rcases k with k | k <;> cases k),
    fun k => (by cases k), m4, m5, fun k => (by cases k)⟩
  have base : Base t := ⟨lists_weak (fun _ => by rw [hs]; simp) l, m, u, by intro k; cases k⟩
  have hne1 : t.mount.stage ≠ .scan := by intro k; cases k
  have hne2 : t.mount.stage ≠ .built := by intro k; cases k
  generalize s.mount.voidList = list at v1 v2
  cases list with
  | cons b rest =>
    have e : t.mountVoidNext (b :: rest) = t.setWork (.mountVoid b rest (.void 0)) := rfl
    rw [e]
    refine ⟨sound_law t _ hm hne1 hne2 ⟨⟨base.lists, base.maps, ⟨v1, v2⟩, base.members⟩, .inl rfl⟩, fun P => ?_, id, ?_⟩
    · exact pin_congr (s := s) (fun _ => rfl) P.2.1 (fun _ => rfl) (fun k => absurd k hnr) P
    · exact (voidingLaw_iff _).2 ⟨fun _ => rfl, fun _ => trivial⟩
  | nil =>
    let v : State := State.setWork { t with mount := t.mount.finish } .idle
    have e : t.mountVoidNext [] = v.choiceEvent := rfl
    rw [e]
    have hbv : Base v := ⟨⟨base.lists.freeNodup, base.lists.free, fun _ => base.lists.pool base.noScan, base.lists.dirtyNodup,
      base.lists.dirty, base.lists.retNodup, base.lists.ret⟩, base.maps, base.members, by intro k; cases k⟩
    have hmv : v.MountLaw := ⟨⟨fun _ => rfl, fun _ => rfl⟩, fun _ => rfl, fun k => (by cases k), List.nodup_nil, List.nodup_nil,
      fun k => (by cases k)⟩
    have hvv : v.VoidingLaw := (voidingLaw_iff _).2 ⟨fun k => k.elim, fun k => (by cases k)⟩
    have ends := choiceEvent_ok v hbv trivial
    refine ⟨endsOk_law v _ hmv (by intro k; cases k) (by intro k; cases k) ends, fun P => ?_, fun P => ?_, ?_⟩
    · refine pin_ends hmv hvv ends (choiceEvent_move v).port ?_
      exact pin_congr (s := s) (fun _ => rfl) P.2.1 (fun _ => rfl) (fun _ => rfl) P
    · refine pool_ends ?_ ends P
      exact (blockLaw_iff v).2 ⟨hbv.lists, hbv.maps, trivial, hbv.members⟩
    · exact voiding_ends ends (fun k => k.elim) hvv

theorem reset_pins (t : State) (h1 : t.bm = BlockManager.reset) (hs : ∀ p, (t.port p).stream = none) (h4 : t.eng.work = .idle)
    (c : ResetCause) (h5 : t.mount = Mount.start c) : t.PinLaw ∧ t.PoolLaw ∧ t.VoidingLaw := by
  have hb : ∀ b, t.bm.block b = none := fun b => by rw [h1]; simp [BlockManager.reset, BlockManager.block]
  refine ⟨(pinLaw_iff t).2 ⟨.none (fun b => ?_) fun q => ?_, fun p n => absurd (hs p) n⟩, ?_, ?_⟩
  · unfold BlockManager.pins; rw [hb]; rfl
  · unfold pinOf; rw [hs]; rfl
  · unfold State.PoolLaw; rw [h1]; exact List.Pairwise.nil
  · rw [voidingLaw_iff, h4, h5]
    exact ⟨fun k => k.elim, fun k => by cases k⟩

/-! ### The streams -/

theorem endStream_pins (s : State) (p : PortId) (P : s.PinLaw) : (s.endStream p).PinLaw :=
  pin_port s p _ _ (pins_unpinPage _ _) (fun _ k => by cases k) (fun n => absurd rfl n) P

theorem deliverLast_pins (s : State) (p : PortId) (st : Stream) (P : s.PinLaw) : (s.deliverLast p st).PinLaw := by
  unfold State.deliverLast
  refine pin_frame _ p _ rfl (fun n => ?_) (endStream_pins s p P)
  unfold State.endStream at n
  rw [port_setPort] at n
  exact absurd rfl n

/-- The block of a page is DATA (R22). -/
theorem current_data {s : State} (B : s.BlockLaw) {q : PageId} {b : BlockId} (h : s.map.currentBlock q = some b) :
    ∃ info, s.bm.classOf b = some (.data info) := by
  obtain ⟨info, hi, -⟩ := (((blockLaw_iff s).1 B).2.1.data q b).1 ((currentBlock_iff _ _ _).1 h)
  exact ⟨info, hi⟩

theorem deliverPageEnd_pins (s : State) (p : PortId) (st : Stream) (B : s.BlockLaw) (hd : (s.port p).decoder = .stream)
    (hs : (s.port p).stream = some st) (P : s.PinLaw) : (s.deliverPageEnd p st).PinLaw := by
  have hr : s.Ready := (P.2.2 p (by rw [hs]; simp)).1
  unfold State.deliverPageEnd
  split
  · next h =>
    have P1 : State.PinLaw (State.setPort { s with bm := s.bm.unpinPage st.pinned } p { s.port p with stream := none }) :=
      pin_port s p _ _ (by unfold pinOf; rw [hs]; exact pins_unpinPage _ _) (fun _ k => by cases k) (fun n => absurd rfl n) P
    have cls : ∀ b, (s.bm.unpinPage st.pinned).classOf b = s.bm.classOf b := fun b => by
      unfold BlockManager.classOf
      rw [(pins_unpinPage s.bm st.pinned).2]
      cases s.bm.block b <;> rfl
    let u : State := State.setPort { s with bm := s.bm.unpinPage st.pinned } p { s.port p with stream := none }
    let bm := (s.bm.unpinPage st.pinned).pinPage (s.map.currentBlock ⟨_, h⟩)
    let r : Port := { s.port p with sdo := some (s.streamByte st)
                                    stream := some { page := ⟨_, h⟩, position := 0, pinned := s.map.currentBlock ⟨_, h⟩,
                                                     bytesLeft := st.bytesLeft - 1 } }
    have P2 : State.PinLaw (State.setPort { u with bm := bm } p r) := by
      refine pin_port u p bm r ?_ (fun b k => ?_) (fun _ => ⟨hr, .inr (.inr hd)⟩) P1
      · unfold pinOf; rw [show u.port p = { s.port p with stream := none } from port_setPort _ _ _]; exact pins_pinPage _ _
      · obtain ⟨info, hi⟩ := current_data B k
        exact ⟨info, (cls b).trans hi⟩
    have e : State.setPort { u with bm := bm } p r = State.setPort { s with bm := bm } p r :=
      setPort_setPort { s with bm := bm } p _ _
    rw [e] at P2
    exact P2
  · exact P

theorem deliverData_pins (s : State) (p : PortId) (st : Stream) (B : s.BlockLaw) (hd : (s.port p).decoder = .stream)
    (hs : (s.port p).stream = some st) (P : s.PinLaw) : (s.deliverData p st).PinLaw := by
  have hr : s.Ready := (P.2.2 p (by rw [hs]; simp)).1
  unfold State.deliverData
  split
  · exact deliverLast_pins s p st P
  · split
    · exact deliverPageEnd_pins s p st B hd hs P
    · obtain ⟨k, hst⟩ := (pinLaw_iff s).1 P
      unfold State.deliverOrdinary
      have self := fun r => port_setPort s p r
      refine (pinLaw_iff _).2 ⟨k.congr (fun _ => rfl) (fun _ _ x => x) fun q => ?_, fun q => ?_⟩
      · unfold pinOf
        by_cases e : q = p
        · subst e; rw [self, hs]; rfl
        · rw [port_setPort_ne _ _ _ _ e]
      · by_cases e : q = p
        · subst e; rw [self]; exact fun _ => ⟨hr, .inr (.inr hd)⟩
        · rw [port_setPort_ne _ _ _ _ e]; exact hst q

theorem deliverByte_pins (s : State) (p : PortId) (B : s.BlockLaw) (P : s.PinLaw) : (s.deliverByte p).PinLaw := by
  unfold State.deliverByte State.driveOnes
  simp only
  split
  · exact P
  · exact P
  · exact pin_frame s p _ rfl (fun _ => .inl rfl) P
  · exact pin_frame s p _ rfl (fun _ => .inl rfl) P
  · refine pin_frame s p _ rfl (fun _ => .inr ?_) P
    simp only; split <;> simp
  · split
    · exact P
    · refine pin_frame s p _ rfl (fun n => .inr (.inr ?_)) P
      have : (s.port p).stream.isSome = true := by
        cases e : (s.port p).stream with
        | none => exact absurd e n
        | some _ => rfl
      simp only [this, if_true]; split <;> simp
  · next hd =>
    split
    · next st hs => exact deliverData_pins s p st B hd hs P
    · exact P

/-- A move of an edge keeps the pins, when a request that it takes does. -/
theorem edgeMove_pins {p : PortId} {s t : State} (h : EdgeMove p s t) (B : s.BlockLaw) (P : s.PinLaw)
    (request : ∀ c, c.requestPort = some p → exec c s = .next t → t.PinLaw) : t.PinLaw := by
  cases h with
  | gather n l bits high count => exact pin_frame s p _ rfl (fun _ => .inl rfl) P
  | deliver => exact deliverByte_pins s p B P
  | status owners =>
    rcases gatherStatus_cases s p owners with e | ⟨g, -, -, -, e⟩ <;> rw [e]
    · exact P
    · exact pin_frame s p _ rfl (fun _ => .inl rfl) P
  | request _ c port taken => exact request c port taken

end Sys2Proof.Laws
end

