-- ==== Sys2Proof/Laws/Tally.lean ====
section
/-! SUPPORT. Groups on the array: a stamp that was programmed is read back whole, the tally that a mount makes of the array, and when it
takes a group as complete (R75, R116 to R119). -/

namespace Sys2Proof.Laws

open Sys2Proof Sys2Proof.Machine

/-! ### A stamp that was programmed reads back -/

theorem natOfBytes_two (p : Nat) (h : p < 65536) : natOfBytes (natBytes2 p) = p := by
  simp [natOfBytes, natBytes2]; omega

theorem natOfBytes_three (p : Nat) (h : p < 16777216) : natOfBytes (natBytes3 p) = p := by
  simp [natOfBytes, natBytes3, natBytes2]; omega

theorem natOfBytes_four (p : Nat) (h : p < 4294967296) : natOfBytes (natBytes4 p) = p := by
  simp [natOfBytes, natBytes4, natBytes3, natBytes2]; omega

/-- What the fields of a valid data stamp obey (R6). -/
structure StampOk (st : DataStamp) : Prop where
  count : st.pages.length = st.count
  low : 1 ≤ st.count
  high : st.count ≤ 4
  index : st.index < st.count
  nodup : st.pages.Nodup
  first : 1 ≤ st.serial
  last : st.serial ≤ 0xFFFFFF00

theorem slice_slice (l : List Byte) (k n j m : Nat) (h : j + m ≤ n) : slice l (k + j) m = slice (slice l k n) j m := by
  unfold slice
  rw [List.drop_take, List.take_take, List.drop_drop, Nat.min_eq_left (by omega)]

theorem byteAt_slice (l : List Byte) (k n j : Nat) (h : j < n) : byteAt l (k + j) = byteAt (slice l k n) j := by
  simp [byteAt, slice, List.getD_eq_getElem?_getD, List.getElem?_take, List.getElem?_drop, h]

theorem slice_spare (m : Memory) (b : BlockId) (k n : Nat) (h : k + n ≤ 64) :
    slice (m.spare b) k n = m.readBytes (spareAddr b k) n := by
  apply List.ext_getElem?
  intro i
  by_cases hi : i < n
  · simp [slice, Memory.spare, Memory.readBytes, List.getElem?_take, List.getElem?_drop, hi, show k + i < 64 by omega,
      spareAddr, Nat.add_assoc]
  · simp [slice, Memory.spare, Memory.readBytes, List.getElem?_take, hi]

theorem slice_cons (a : Byte) (l : List Byte) (k n : Nat) : slice (a :: l) (k + 1) n = slice l k n := rfl

theorem page_number (q : PageId) : natOfBytes (natBytes2 q.val) = q.val := natOfBytes_two _ (by have := q.isLt; omega)

theorem dataStamp_fields (spare : List Byte) (st : DataStamp) (h : StampOk st) (e : slice spare 8 18 = dataStampBytes st) :
    dataStamp spare = some st := by
  have sl : ∀ j m, j + m ≤ 18 → slice spare (8 + j) m = slice (dataStampBytes st) j m := fun j m hm => by
    rw [slice_slice spare 8 18 j m hm, e]
  have bt : ∀ j, j < 18 → byteAt spare (8 + j) = byteAt (dataStampBytes st) j := fun j hj => by
    rw [byteAt_slice spare 8 18 j hj, e]
  obtain ⟨n, ix, pages, serial, w⟩ := st
  obtain ⟨h1, h2, h3, h4, h5, h6, h7⟩ := h
  simp only at h1 h2 h3 h4 h5 h6 h7
  have hs := natOfBytes_four serial (by omega)
  have hw : (BitVec.ofNat 8 w.val).toNat = w.val := by have := w.isLt; simp; omega
  have hn : (BitVec.ofNat 8 n).toNat = n := by simp; omega
  have hx : (BitVec.ofNat 8 ix).toNat = ix := by simp; omega
  have b8 := bt 0 (by omega)
  have b9 := bt 1 (by omega)
  have b10 := bt 2 (by omega)
  have b23 := bt 15 (by omega)
  have s24 := sl 16 2 (by omega)
  have s8 := sl 0 16 (by omega)
  have s19 := sl 11 4 (by omega)
  have p0 := sl 3 2 (by omega)
  have p1 := sl 5 2 (by omega)
  have p2 := sl 7 2 (by omega)
  have p3 := sl 9 2 (by omega)
  have four : ∀ P : Nat → Prop, (∀ i ∈ List.range 4, P i) ↔ P 0 ∧ P 1 ∧ P 2 ∧ P 3 := by
    intro P
    simp [List.range, List.range.loop]
  -- the page list: its entries one by one
  have list : ∃ a b c d, pageListBytes pages = a ++ b ++ c ++ d ∧ a.length = 2 ∧ b.length = 2 ∧ c.length = 2 ∧ d.length = 2
      ∧ (∀ i q, pages[i]? = some q → natOfBytes ([a, b, c, d].getD i []) = q.val)
      ∧ ∀ i, i < 4 → n ≤ i → natOfBytes ([a, b, c, d].getD i []) = 0xFFFF := by
    have ff : natOfBytes [0xFF, 0xFF] = 65535 := by decide
    subst h1
    match pages, h2, h3 with
    | [a], _, _ =>
      refine ⟨natBytes2 a.val, [0xFF, 0xFF], [0xFF, 0xFF], [0xFF, 0xFF], rfl, rfl, rfl, rfl, rfl, fun i q hi => ?_, fun i h4 hn => ?_⟩
      · have : i = 0 := by have := (List.getElem?_eq_some_iff.1 hi).1; simpa using this
        subst this
        cases hi; exact page_number a
      · simp at hn
        obtain rfl | rfl | rfl : i = 1 ∨ i = 2 ∨ i = 3 := by omega
        all_goals exact ff
    | [a, b], _, _ =>
      refine ⟨natBytes2 a.val, natBytes2 b.val, [0xFF, 0xFF], [0xFF, 0xFF], rfl, rfl, rfl, rfl, rfl, fun i q hi => ?_, fun i h4 hn => ?_⟩
      · have : i < 2 := by have := (List.getElem?_eq_some_iff.1 hi).1; simpa using this
        obtain rfl | rfl : i = 0 ∨ i = 1 := by omega
        all_goals (cases hi; exact page_number _)
      · simp at hn
        obtain rfl | rfl : i = 2 ∨ i = 3 := by omega
        all_goals exact ff
    | [a, b, c], _, _ =>
      refine ⟨natBytes2 a.val, natBytes2 b.val, natBytes2 c.val, [0xFF, 0xFF], rfl, rfl, rfl, rfl, rfl, fun i q hi => ?_, fun i h4 hn => ?_⟩
      · have : i < 3 := by have := (List.getElem?_eq_some_iff.1 hi).1; simpa using this
        obtain rfl | rfl | rfl : i = 0 ∨ i = 1 ∨ i = 2 := by omega
        all_goals (cases hi; exact page_number _)
      · simp at hn
        obtain rfl : i = 3 := by omega
        exact ff
    | [a, b, c, d], _, _ =>
      refine ⟨natBytes2 a.val, natBytes2 b.val, natBytes2 c.val, natBytes2 d.val, rfl, rfl, rfl, rfl, rfl, fun i q hi => ?_, fun i h4 hn => ?_⟩
      · have : i < 4 := by have := (List.getElem?_eq_some_iff.1 hi).1; simpa using this
        obtain rfl | rfl | rfl | rfl : i = 0 ∨ i = 1 ∨ i = 2 ∨ i = 3 := by omega
        all_goals (cases hi; exact page_number _)
      · simp at hn; omega
  obtain ⟨a, b, c, d, hl, la, lb, lc, ld, lp, lf⟩ := list
  obtain ⟨a0, a1, rfl⟩ := List.length_eq_two.1 la
  obtain ⟨c0, c1, rfl⟩ := List.length_eq_two.1 lb
  obtain ⟨d0, d1, rfl⟩ := List.length_eq_two.1 lc
  obtain ⟨e0, e1, rfl⟩ := List.length_eq_two.1 ld
  obtain ⟨r0, r1, r2, r3, hr⟩ : ∃ r0 r1 r2 r3, natBytes4 serial = [r0, r1, r2, r3] := ⟨_, _, _, _, rfl⟩
  obtain ⟨k0, k1, hk⟩ : ∃ k0 k1, crcBytes (0x5A :: BitVec.ofNat 8 n :: BitVec.ofNat 8 ix :: (pageListBytes pages
      ++ natBytes4 serial ++ [BitVec.ofNat 8 w.val])) = [k0, k1] := ⟨_, _, rfl⟩
  have bytes : dataStampBytes { count := n, index := ix, pages := pages, serial := serial, writer := w }
      = [0x5A, BitVec.ofNat 8 n, BitVec.ofNat 8 ix, a0, a1, c0, c1, d0, d1, e0, e1, r0, r1, r2, r3, BitVec.ofNat 8 w.val, k0, k1] := by
    unfold dataStampBytes
    simp only
    rw [hk, hl, hr]; rfl
  have hcrc : crcBytes [0x5A, BitVec.ofNat 8 n, BitVec.ofNat 8 ix, a0, a1, c0, c1, d0, d1, e0, e1, r0, r1, r2, r3, BitVec.ofNat 8 w.val]
      = [k0, k1] := by rw [← hk, hl, hr]; rfl
  rw [bytes] at b8 b9 b10 b23 s24 s8 s19 p0 p1 p2 p3
  have page : ∀ i, i < 4 → stampPage spare i = natOfBytes ([[a0, a1], [c0, c1], [d0, d1], [e0, e1]].getD i []) := by
    intro i hi
    obtain rfl | rfl | rfl | rfl : i = 0 ∨ i = 1 ∨ i = 2 ∨ i = 3 := by omega
    · exact congrArg natOfBytes p0
    · exact congrArg natOfBytes p1
    · exact congrArg natOfBytes p2
    · exact congrArg natOfBytes p3
  have b9' : (byteAt spare 9).toNat = n := by rw [show byteAt spare 9 = BitVec.ofNat 8 n from b9]; exact hn
  have b10' : (byteAt spare 10).toNat = ix := by rw [show byteAt spare 10 = BitVec.ofNat 8 ix from b10]; exact hx
  have b23' : (byteAt spare 23).toNat = w.val := by rw [show byteAt spare 23 = BitVec.ofNat 8 w.val from b23]; exact hw
  have s19' : natOfBytes (slice spare 19 4) = serial := by
    rw [show slice spare 19 4 = [r0, r1, r2, r3] from s19, ← hr]; exact hs
  unfold dataStamp
  simp only [b9', b10', b23', s19']
  have hc : slice spare 24 2 = crcBytes (slice spare 8 16) := by
    rw [show slice spare 24 2 = [k0, k1] from s24, show slice spare 8 16 = _ from s8]
    exact hcrc.symm
  have hf : ∀ i ∈ List.range 4, n ≤ i → stampPage spare i = 0xFFFF := fun i hi hin => by
    rw [page i (List.mem_range.1 hi)]; exact lf i (List.mem_range.1 hi) hin
  have hp : stampPages spare n = some pages := (stampPages_iff spare n pages).2 ⟨h1, fun i q hi => by
    rw [page i (by have := (List.getElem?_eq_some_iff.1 hi).1; omega)]; exact lp i q hi⟩
  rw [if_pos ⟨b8, hc, h2, h3, h4, hf, h6, h7⟩, hp]
  simp only
  rw [dif_pos w.isLt, if_pos h5]

/-- A data stamp programmed into the data slot of a block reads valid, with its own fields (R6, R75). -/
theorem dataStamp_programmed (m : Memory) (b : BlockId) (st : DataStamp) (h : StampOk st)
    (e : m.readBytes (spareAddr b 8) 18 = dataStampBytes st) : dataStamp (m.spare b) = some st :=
  dataStamp_fields _ st h (by rw [slice_spare m b 8 18 (by omega)]; exact e)

/-- A free stamp programmed into a block reads valid, with its erase count (R4, R97). -/
theorem freeStamp_programmed (m : Memory) (b : BlockId) (n : Nat) (h : n < 16777216)
    (e : m.readBytes (spareAddr b 0) 6 = freeStampBytes n) : freeStampCount (m.spare b) = some n := by
  have s := slice_spare m b 0 6 (by omega)
  rw [e] at s
  have sl : ∀ j k, j + k ≤ 6 → slice (m.spare b) (0 + j) k = slice (freeStampBytes n) j k := fun j k hk => by
    rw [slice_slice (m.spare b) 0 6 j k hk, s]
  have b0 := byteAt_slice (m.spare b) 0 6 0 (by omega)
  rw [s] at b0
  obtain ⟨r0, r1, r2, hr⟩ : ∃ r0 r1 r2, natBytes3 n = [r0, r1, r2] := ⟨_, _, _, rfl⟩
  obtain ⟨k0, k1, hk⟩ : ∃ k0 k1, crcBytes (0xA5 :: natBytes3 n) = [k0, k1] := ⟨_, _, rfl⟩
  have bytes : freeStampBytes n = [0xA5, r0, r1, r2, k0, k1] := by
    unfold freeStampBytes; simp only; rw [hk, hr]; rfl
  have s4 := sl 4 2 (by omega)
  have s0 := sl 0 4 (by omega)
  have s1 := sl 1 3 (by omega)
  rw [bytes] at s4 s0 s1 b0
  have hc : slice (m.spare b) 4 2 = crcBytes (slice (m.spare b) 0 4) := by
    rw [show slice (m.spare b) 4 2 = [k0, k1] from s4, show slice (m.spare b) 0 4 = [0xA5, r0, r1, r2] from s0, ← hr, hk]
  unfold freeStampCount
  rw [if_pos ⟨b0, hc⟩, show slice (m.spare b) 1 3 = [r0, r1, r2] from s1, ← hr]
  exact congrArg some (natOfBytes_three n h)

/-! ### The tally of an array -/

/-- An entry of the tally with one candidate more (R116). -/
def TallyEntry.withCandidate (e : TallyEntry) (st : DataStamp) (b : BlockId) : TallyEntry :=
  { e with members := e.members ++ [st.candidate b]
           consistent := e.consistent && e.count == st.count && e.pages == st.pages && e.writer == st.writer }

/-- A new entry of the tally (R116). -/
def newEntry (st : DataStamp) (b : BlockId) : TallyEntry :=
  { serial := st.serial, count := st.count, pages := st.pages, writer := st.writer, members := [st.candidate b],
    consistent := true, complete := none }

theorem mem_tallyAdd (st : DataStamp) (b : BlockId) (l : List TallyEntry) (h : (l.map TallyEntry.serial).Nodup) (x : TallyEntry) :
    x ∈ tallyAdd st b l ↔ (x ∈ l ∧ x.serial ≠ st.serial)
      ∨ (∃ e ∈ l, e.serial = st.serial ∧ x = TallyEntry.withCandidate e st b)
      ∨ ((∀ e ∈ l, e.serial ≠ st.serial) ∧ x = newEntry st b) := by
  induction l with
  | nil => simp [tallyAdd, newEntry]
  | cons e rest ih =>
    rw [List.map_cons] at h
    obtain ⟨h1, h2⟩ := List.nodup_cons.1 h
    have ih := ih h2
    unfold tallyAdd
    split
    · next es =>
      have others : ∀ y ∈ rest, y.serial ≠ st.serial := fun y hy k => h1 (List.mem_map.2 ⟨y, hy, k.trans es.symm⟩)
      rw [List.mem_cons]
      constructor
      · rintro (rfl | hx)
        · exact .inr (.inl ⟨e, by simp, es, rfl⟩)
        · exact .inl ⟨by simp [hx], others x hx⟩
      · rintro (⟨hx, hn⟩ | ⟨y, hy, ys, rfl⟩ | ⟨hn, -⟩)
        · rcases List.mem_cons.1 hx with rfl | hx
          · exact absurd es hn
          · exact .inr hx
        · rcases List.mem_cons.1 hy with rfl | hy
          · exact .inl rfl
          · exact absurd ys (others y hy)
        · exact absurd es (hn e (by simp))
    · next ne =>
      rw [List.mem_cons, ih]
      constructor
      · rintro (rfl | ⟨hx, hn⟩ | ⟨y, hy, ys, rfl⟩ | ⟨hn, rfl⟩)
        · exact .inl ⟨by simp, ne⟩
        · exact .inl ⟨by simp [hx], hn⟩
        · exact .inr (.inl ⟨y, by simp [hy], ys, rfl⟩)
        · exact .inr (.inr ⟨fun y hy => (List.mem_cons.1 hy).elim (fun k => k ▸ ne) (hn y), rfl⟩)
      · rintro (⟨hx, hn⟩ | ⟨y, hy, ys, rfl⟩ | ⟨hn, rfl⟩)
        · rcases List.mem_cons.1 hx with rfl | hx
          · exact .inl rfl
          · exact .inr (.inl ⟨hx, hn⟩)
        · rcases List.mem_cons.1 hy with rfl | hy
          · exact absurd ys ne
          · exact .inr (.inr (.inl ⟨y, hy, ys, rfl⟩))
        · exact .inr (.inr (.inr ⟨fun y hy => hn y (by simp [hy]), rfl⟩))

/-- What the tally of the blocks `bs` says of their candidate stamps. -/
structure TallyOk (cand : BlockId → Option DataStamp) (bs : List BlockId) (tally : List TallyEntry) : Prop where
  serials : (tally.map TallyEntry.serial).Nodup
  members : ∀ e ∈ tally, ∀ c ∈ e.members, ∃ b ∈ bs, ∃ st, cand b = some st ∧ st.serial = e.serial ∧ c = st.candidate b
  all : ∀ b ∈ bs, ∀ st, cand b = some st → ∃ e ∈ tally, e.serial = st.serial ∧ st.candidate b ∈ e.members
  fields : ∀ e ∈ tally, ∃ b ∈ bs, ∃ st, cand b = some st ∧ st.serial = e.serial ∧ st.count = e.count ∧ st.pages = e.pages
    ∧ st.writer = e.writer
  consistent : ∀ e ∈ tally, (∀ b ∈ bs, ∀ st, cand b = some st → st.serial = e.serial →
    st.count = e.count ∧ st.pages = e.pages ∧ st.writer = e.writer) → e.consistent = true

theorem tallyOk_none {cand : BlockId → Option DataStamp} {bs : List BlockId} {tally : List TallyEntry} (b : BlockId)
    (hb : cand b = none) (h : TallyOk cand bs tally) : TallyOk cand (bs ++ [b]) tally := by
  refine ⟨h.serials, fun e he c hc => ?_, fun x hx st k => ?_, fun e he => ?_, fun e he k => h.consistent e he fun x hx => k x (by simp [hx])⟩
  · obtain ⟨x, hx, k⟩ := h.members e he c hc
    exact ⟨x, by simp [hx], k⟩
  · rcases List.mem_append.1 hx with hx | hx
    · exact h.all x hx st k
    · rw [List.mem_singleton.1 hx, hb] at k; cases k
  · obtain ⟨x, hx, k⟩ := h.fields e he
    exact ⟨x, by simp [hx], k⟩

theorem tallyOk_some {cand : BlockId → Option DataStamp} {bs : List BlockId} {tally : List TallyEntry} (b : BlockId) (st : DataStamp)
    (hb : cand b = some st) (h : TallyOk cand bs tally) : TallyOk cand (bs ++ [b]) (tallyAdd st b tally) := by
  have mem := mem_tallyAdd st b tally h.serials
  have here : b ∈ bs ++ [b] := by simp
  refine ⟨(tally_serials st b tally h.serials).1, fun x hx c hc => ?_, fun y hy st' k => ?_, fun x hx => ?_, fun x hx k => ?_⟩
  · rcases (mem x).1 hx with ⟨hx, -⟩ | ⟨e, he, es, rfl⟩ | ⟨-, rfl⟩
    · obtain ⟨y, hy, k⟩ := h.members x hx c hc
      exact ⟨y, by simp [hy], k⟩
    · rcases List.mem_append.1 hc with hc | hc
      · obtain ⟨y, hy, k⟩ := h.members e he c hc
        exact ⟨y, by simp [hy], k⟩
      · exact ⟨b, here, st, hb, es.symm, List.mem_singleton.1 hc⟩
    · exact ⟨b, here, st, hb, rfl, List.mem_singleton.1 hc⟩
  · have new : ∃ e ∈ tallyAdd st b tally, e.serial = st.serial ∧ st.candidate b ∈ e.members := by
      by_cases hs : ∃ e ∈ tally, e.serial = st.serial
      · obtain ⟨e, he, es⟩ := hs
        exact ⟨TallyEntry.withCandidate e st b, (mem _).2 (.inr (.inl ⟨e, he, es, rfl⟩)), es, by simp [TallyEntry.withCandidate]⟩
      · push Not at hs
        exact ⟨newEntry st b, (mem _).2 (.inr (.inr ⟨hs, rfl⟩)), rfl, by simp [newEntry]⟩
    rcases List.mem_append.1 hy with hy | hy
    · obtain ⟨e, he, es, hm⟩ := h.all y hy st' k
      by_cases hs : e.serial = st.serial
      · exact ⟨TallyEntry.withCandidate e st b, (mem _).2 (.inr (.inl ⟨e, he, hs, rfl⟩)), es,
          List.mem_append_left _ hm⟩
      · exact ⟨e, (mem _).2 (.inl ⟨he, hs⟩), es, hm⟩
    · have hy := List.mem_singleton.1 hy
      subst hy
      rw [hb] at k; cases k
      exact new
  · rcases (mem x).1 hx with ⟨hx, -⟩ | ⟨e, he, es, rfl⟩ | ⟨-, rfl⟩
    · obtain ⟨y, hy, k⟩ := h.fields x hx
      exact ⟨y, by simp [hy], k⟩
    · obtain ⟨y, hy, k⟩ := h.fields e he
      exact ⟨y, by simp [hy], k⟩
    · exact ⟨b, here, st, hb, rfl, rfl, rfl, rfl⟩
  · rcases (mem x).1 hx with ⟨hx, -⟩ | ⟨e, he, es, rfl⟩ | ⟨-, rfl⟩
    · exact h.consistent x hx fun y hy => k y (by simp [hy])
    · have old := h.consistent e he fun y hy => k y (by simp [hy])
      obtain ⟨k1, k2, k3⟩ := k b here st hb es.symm
      have k1 : st.count = e.count := k1
      have k2 : st.pages = e.pages := k2
      have k3 : st.writer = e.writer := k3
      simp [TallyEntry.withCandidate, old, k1, k2, k3]
    · rfl

/-- The tally of the first `n` blocks is that of their candidates (R116). -/
theorem tallied_ok (m : Memory) (n : Nat) : TallyOk m.candidate (allBlocks.take n) (m.tallied n) := by
  unfold Memory.tallied
  generalize allBlocks.take n = bs
  induction bs using List.reverseRecOn with
  | nil => exact ⟨List.nodup_nil, by simp, by simp, by simp, by simp⟩
  | append_singleton bs b ih =>
    rw [List.foldl_append]
    simp only [List.foldl_cons, List.foldl_nil]
    split
    · next st e => exact tallyOk_some b st e ih
    · next e => exact tallyOk_none b e ih

theorem take_blocks (n : Nat) (h : n < 512) : allBlocks.take (n + 1) = allBlocks.take n ++ [⟨n, h⟩] := by
  unfold allBlocks
  rw [List.take_add_one, List.getElem?_eq_getElem (by simpa using h)]
  simp

theorem tallied_succ (m : Memory) (n : Nat) (h : n < 512) : m.tallied (n + 1) =
    match m.candidate ⟨n, h⟩ with
    | some st => tallyAdd st ⟨n, h⟩ (m.tallied n)
    | none => m.tallied n := by
  unfold Memory.tallied
  rw [take_blocks n h, List.foldl_append]
  rfl

theorem largestSerial_succ (m : Memory) (n : Nat) (h : n < 512) :
    m.largestSerial (n + 1) = largestWith (m.largestSerial n) (m.spare ⟨n, h⟩) := by
  unfold Memory.largestSerial
  rw [take_blocks n h, List.foldl_append]
  rfl

/-- No valid data stamp among the first `n` blocks has a larger serial (R27). -/
theorem largestSerial_le (m : Memory) (n : Nat) (hn : n ≤ 512) (b : BlockId) (hb : b.val < n) (st : DataStamp)
    (h : dataStamp (m.spare b) = some st) : st.serial ≤ m.largestSerial n := by
  induction n with
  | zero => omega
  | succ n ih =>
    rw [largestSerial_succ m n (by omega)]
    unfold largestWith
    by_cases e : b.val = n
    · have : (⟨n, by omega⟩ : BlockId) = b := Fin.ext e.symm
      rw [this, h]; simp
    · have := ih (by omega) (by omega)
      split <;> omega

theorem mem_allBlocks (b : BlockId) : b ∈ allBlocks.take 512 := by
  have : allBlocks.take 512 = allBlocks := List.take_of_length_le (by simp [allBlocks])
  rw [this]; simp [allBlocks]

/-! ### When a mount takes a group as complete -/

/-- The group of a commit whose candidates are all its own: a mount takes it as complete exactly when every member has its candidate,
since no stamp carries a higher serial (R117 to R119). -/
theorem groupComplete_iff (m : Memory) (r : CommitRec) (n : Nat) (hpos : 1 ≤ r.pages.length) (w : m.GroupWithin r n)
    (low : ∀ b st, m.candidate b = some st → st.serial ≤ r.serial) :
    m.GroupComplete r.serial ↔ ∀ i, i < r.pages.length → ∃ b, r.targets[i]? = some (some b) ∧ m.candidate b = some (r.stamp i) := by
  have ok := tallied_ok m 512
  have own : ∀ b st, m.candidate b = some st → st.serial = r.serial → r.targets[st.index]? = some (some b) ∧ st = r.stamp st.index :=
    fun b st h k => (w b st h k).2
  have same : ∀ e ∈ m.tallied 512, e.serial = r.serial → e.count = r.pages.length ∧ e.pages = r.pages ∧ e.writer = r.writer := by
    intro e he es
    obtain ⟨b, -, st, hs, k1, k2, k3, k4⟩ := ok.fields e he
    obtain ⟨-, k⟩ := own b st hs (k1.trans es)
    rw [k] at k2 k3 k4
    exact ⟨k2.symm, k3.symm, k4.symm⟩
  constructor
  · rintro ⟨e, he, es, -, hm⟩ i hi
    obtain ⟨e1, -, -⟩ := same e he es
    rcases hm i (by rw [e1]; exact hi) with ⟨c, hc, rfl⟩ | ⟨page, -, f, hf, hlt, c, hc, -⟩
    · obtain ⟨b, -, st, hs, k1, rfl⟩ := ok.members e he c hc
      obtain ⟨t1, t2⟩ := own b st hs (k1.trans es)
      exact ⟨b, t1, by rw [hs, t2]; rfl⟩
    · obtain ⟨b, -, st, hs, k1, -⟩ := ok.members f hf c hc
      have := low b st hs
      omega
  · intro h
    obtain ⟨b0, -, hb0⟩ := h 0 (by omega)
    obtain ⟨e, he, es, -⟩ := ok.all b0 (mem_allBlocks b0) _ hb0
    have es : e.serial = r.serial := es
    obtain ⟨e1, e2, e3⟩ := same e he es
    refine ⟨e, he, es, ok.consistent e he fun b _ st hs k => ?_, fun i hi => .inl ?_⟩
    · obtain ⟨-, k'⟩ := own b st hs (k.trans es)
      rw [k', e1, e2, e3]; exact ⟨rfl, rfl, rfl⟩
    · obtain ⟨b, -, hb⟩ := h i (by rw [← e1]; exact hi)
      obtain ⟨f, hf, fs, hc⟩ := ok.all b (mem_allBlocks b) _ hb
      have fs : f.serial = r.serial := fs
      have : f = e := by
        have := List.inj_on_of_nodup_map ok.serials hf he (fs.trans es.symm)
        exact this
      exact ⟨_, this ▸ hc, rfl⟩

end Sys2Proof.Laws
end

