-- ==== Sys2Proof/Laws/StampLaw.lean ====
section
/-! SUPPORT. The stamps on the array: what an operation may leave of them, that every serial is below the next one, and that the group of
a commit stands as its steps left it, so that a mount shows it whole or not at all (R24, R27, R73 to R76, R81, R91, R92, R97). -/

namespace Sys2Proof.Laws

open Sys2Proof Sys2Proof.Machine

/-! ### What an operation may leave -/

/-- What any end of an operation leaves: nothing outside its field, no programmed byte of a program changed, a valid stamp is the one
that stood there or the one programmed, and a block with a valid data stamp has not lost a discard byte (R1, R3, R91, R92). -/
structure OpWrote (s : State) (op : FlashOp) (m : Memory) : Prop where
  outside : s.flash.SameOutside m op.start op.size
  line : ∀ k, op = .line op.block k → k < 16
  kept : (∀ b, op ≠ .erase b) → ∀ a, s.flash.read a ≠ 0xFF → m.read a = s.flash.read a
  stamp : ∀ b, (dataStamp (m.spare b)).isSome = true →
    m.readBytes (spareAddr b 8) 18 = s.flash.readBytes (spareAddr b 8) 18
    ∨ op = .dataStamp b ∧ m.readBytes (spareAddr b 8) 18 = s.intendedBytes op
  freeStamp : ∀ b, (freeStampCount (m.spare b)).isSome = true →
    m.readBytes (spareAddr b 0) 6 = s.flash.readBytes (spareAddr b 0) 6 ∨ op = .freeStamp b
  discard : ∀ b, (dataStamp (m.spare b)).isSome = true → m.read (spareAddr b 32) = 0xFF → m.read (spareAddr b 33) = 0xFF →
    s.flash.read (spareAddr b 32) = 0xFF ∧ s.flash.read (spareAddr b 33) = 0xFF

theorem opWrote_settle (s : State) (op : FlashOp) (m : Memory) (hl : ∀ k, op = .line op.block k → k < 16)
    (out : s.flash.SameOutside m op.start op.size)
    (prog : (∀ c, op ≠ .erase c) → ∀ a, s.flash.read a ≠ 0xFF → m.read a = s.flash.read a) : OpWrote s op (s.settle op m) :=
  ⟨settle_outside s op _ out, hl, fun ne a ha => read_settle_same s op _ a (prog ne a ha),
    fun b v => settle_dataStamp s op _ b out hl v, fun b v => (settle_freeStamp s op _ b out hl v).imp id And.left,
    fun b v => settle_discard s op m b out prog v⟩

theorem opWrote_cut (s : State) (op : FlashOp) (c : Cut) (hl : ∀ k, op = .line op.block k → k < 16) : OpWrote s op (s.flashCut op c) :=
  opWrote_settle s op _ hl (cutOp_outside s op c) (cutOp_programmed s.flash op c)

theorem intended_length (s : State) (op : FlashOp) (h : s.eng.work.inFlight = some op) :
    (∃ b, op = .erase b) ∨ (s.intendedBytes op).length = op.size := by
  cases op with
  | begunMark b => exact .inr rfl
  | void b => exact .inr rfl
  | retire b => exact .inr rfl
  | erase b => exact .inl ⟨b, rfl⟩
  | freeStamp b => exact .inr rfl
  | line b k =>
    right
    revert h
    unfold State.intendedBytes
    cases s.eng.work with
    | commit r st => intro _; simp [mergedLine, FlashOp.size, Config.lineBytes]
    | idle => intro h; cases h
    | unwind u st => cases st <;> intro h <;> cases h
    | erase b st => cases st <;> intro h <;> cases h
    | mountVoid b l st => cases st <;> intro h <;> cases h
  | dataStamp b =>
    right
    revert h
    unfold State.intendedBytes
    cases s.eng.work with
    | commit r st => intro _; simp [dataStampBytes, FlashOp.size, length_pageListBytes, natBytes4, natBytes3, natBytes2, length_crcBytes]
    | idle => intro h; cases h
    | unwind u st => cases st <;> intro h <;> cases h
    | erase b st => cases st <;> intro h <;> cases h
    | mountVoid b l st => cases st <;> intro h <;> cases h

theorem opWrote_after (s : State) (op : FlashOp) (w : Written) (h : s.eng.work.inFlight = some op)
    (hl : ∀ k, op = .line op.block k → k < 16) : OpWrote s op (s.flashAfter op w) := by
  obtain ⟨out, raw⟩ := rawAfter_leaves s op w (intended_length s op h)
  rw [flashAfter_raw]
  refine opWrote_settle s op _ hl out fun ne a ha => ?_
  by_cases hin : op.start ≤ a ∧ a < op.start + op.size
  · have := raw (a - op.start) (by omega)
    rw [show op.start + (a - op.start) = a by omega] at this
    rw [this]
    cases op with
    | erase b => exact absurd rfl (ne b)
    | _ => cases w <;> simp only [if_neg ha]
  · exact out a (by omega)

/-- The spare bytes of its block that an operation acts on (R184). -/
def FlashOp.touches (op : FlashOp) (j : Nat) : Prop :=
  match op with
  | .begunMark _ => j = 31
  | .line _ _ => False
  | .dataStamp _ => 8 ≤ j ∧ j < 26
  | .void _ => j = 32
  | .retire _ => j = 33
  | .erase _ => True
  | .freeStamp _ => j < 6

theorem spare_read {s : State} {op : FlashOp} {m : Memory} (h : OpWrote s op m) (x : BlockId) (j : Nat) (hj : j < 64)
    (hx : x ≠ op.block ∨ ¬ FlashOp.touches op j) : m.read (spareAddr x j) = s.flash.read (spareAddr x j) := by
  refine h.outside _ ?_
  have hb := x.isLt
  have ne : x ≠ op.block → x.val ≠ op.block.val := fun k e => k (Fin.ext e)
  cases op with
  | line c k =>
    have := h.line k rfl
    simp only [FlashOp.start, FlashOp.size, spareAddr, dataAddr, Config.blockBytes, Config.pageBytes, Config.lineBytes]
    rcases lt_trichotomy c.val x.val with g | g | g <;> omega
  | erase c =>
    have := ne (hx.resolve_right fun k => k trivial)
    simp only [FlashOp.start, FlashOp.size, spareAddr, dataAddr, Config.blockBytes, Config.pageBytes, FlashOp.block] at *
    rcases lt_trichotomy c.val x.val with g | g | g <;> omega
  | _ c =>
    simp only [FlashOp.start, FlashOp.size, spareAddr, Config.blockBytes, Config.pageBytes, FlashOp.block, FlashOp.touches] at *
    rcases hx with hx | hx
    · have := ne hx; omega
    · by_cases e : x = c
      · subst e; omega
      · have := ne e; omega

theorem spare_other {s : State} {op : FlashOp} {m : Memory} (h : OpWrote s op m) (x : BlockId) (hx : x ≠ op.block) :
    m.spare x = s.flash.spare x :=
  readBytes_congr _ _ _ _ fun k hk => by
    have := spare_read h x k hk (.inl hx)
    simpa [spareAddr] using this

theorem candidate_other {s : State} {op : FlashOp} {m : Memory} (h : OpWrote s op m) (x : BlockId) (hx : x ≠ op.block) :
    m.candidate x = s.flash.candidate x := by
  unfold Memory.candidate; rw [spare_other h x hx]

/-- A block is a candidate exactly when its discard bytes 0 and 1 are erased and both its stamps are valid (R114, R116). -/
theorem candidate_iff (m : Memory) (b : BlockId) (st : DataStamp) : m.candidate b = some st ↔
    m.read (spareAddr b 33) = 0xFF ∧ m.read (spareAddr b 32) = 0xFF ∧ (freeStampCount (m.spare b)).isSome = true
      ∧ dataStamp (m.spare b) = some st := by
  have b33 : byteAt (m.spare b) 33 = m.read (spareAddr b 33) := getD_spare m b 33 (by omega)
  have b32 : byteAt (m.spare b) 32 = m.read (spareAddr b 32) := getD_spare m b 32 (by omega)
  have clean : (slotErased (m.spare b) && discardErased (m.spare b)) = true → dataStamp (m.spare b) = none := by
    intro h
    have := (clean_iff (m.spare b) (length_spare m b)).1 h 8 (by omega) (by omega)
    rw [getD_spare m b 8 (by omega)] at this
    exact dataStamp_none m b this
  have r33 : retireProgrammed (m.spare b) = true ↔ m.read (spareAddr b 33) ≠ 0xFF := by
    unfold retireProgrammed programmed; rw [b33]; exact bne_iff_ne
  have r32 : voidProgrammed (m.spare b) = true ↔ m.read (spareAddr b 32) ≠ 0xFF := by
    unfold voidProgrammed programmed; rw [b32]; exact bne_iff_ne
  unfold Memory.candidate classify
  simp only
  by_cases h1 : m.read (spareAddr b 33) = 0xFF
  · by_cases h2 : m.read (spareAddr b 32) = 0xFF
    · rw [if_neg (fun k => r33.1 k h1), if_neg (fun k => r32.1 k h2)]
      cases hf : freeStampCount (m.spare b) with
      | none => simp
      | some c =>
        simp only [Option.isSome_some, h1, h2, true_and]
        by_cases hc : (slotErased (m.spare b) && discardErased (m.spare b)) = true
        · rw [if_pos hc, clean hc]
        · rw [if_neg hc]
          cases hd : dataStamp (m.spare b) <;> simp
    · rw [if_neg (fun k => r33.1 k h1), if_pos (r32.2 h2)]
      exact ⟨fun k => (by cases k), fun k => absurd k.2.1 h2⟩
  · rw [if_pos (r33.2 h1)]
    exact ⟨fun k => (by cases k), fun k => absurd k.1 h1⟩

/-- No operation makes a candidate but by its own data stamp; a free stamp is programmed into an erased block (R1, R91, R92). -/
theorem candidate_made {s : State} {op : FlashOp} {m : Memory} (h : OpWrote s op m)
    (erased : ∀ b, op = .freeStamp b → s.flash.read (spareAddr b 8) = 0xFF) (x : BlockId) (st : DataStamp)
    (k : m.candidate x = some st) :
    s.flash.candidate x = some st ∨ op = .dataStamp x ∧ m.readBytes (spareAddr x 8) 18 = s.intendedBytes op := by
  obtain ⟨k1, k2, k3, k4⟩ := (candidate_iff m x st).1 k
  rcases h.stamp x (by rw [k4]; rfl) with e | e
  · left
    obtain ⟨d2, d1⟩ := h.discard x (by rw [k4]; rfl) k2 k1
    have stamp := dataStamp_read_congr m s.flash x fun j h1 h2 => by
      have := (readBytes_eq_iff m s.flash (spareAddr x 8) 18).1 e (j - 8) (by omega)
      rw [show spareAddr x 8 + (j - 8) = spareAddr x j by simp only [spareAddr]; omega] at this
      exact this
    rcases h.freeStamp x k3 with f | f
    · refine (candidate_iff _ _ _).2 ⟨d1, d2, ?_, stamp ▸ k4⟩
      rw [← freeStamp_read_congr m s.flash x fun j hj => ?_]
      · exact k3
      · have := (readBytes_eq_iff m s.flash (spareAddr x 0) 6).1 f j hj
        rw [show spareAddr x 0 + j = spareAddr x j by simp only [spareAddr]; omega] at this
        exact this
    · rw [stamp, dataStamp_none _ _ (erased x f)] at k4; cases k4
  · exact .inr e

/-- A program makes no candidate but by its own data stamp (R1, R91). -/
theorem candidate_after {s : State} {op : FlashOp} {m : Memory} (h : OpWrote s op m) (ne : ∀ b, op ≠ .erase b ∧ op ≠ .freeStamp b)
    (x : BlockId) (st : DataStamp) (k : m.candidate x = some st) :
    s.flash.candidate x = some st ∨ op = .dataStamp x ∧ m.readBytes (spareAddr x 8) 18 = s.intendedBytes op := by
  by_cases hx : x = op.block
  · obtain ⟨k1, k2, k3, k4⟩ := (candidate_iff m x st).1 k
    have old : ∀ a, m.read a = 0xFF → s.flash.read a = 0xFF := by
      intro a ha
      by_contra n
      have := h.kept (fun b => (ne b).1) a n
      rw [ha] at this; exact n this.symm
    rcases h.stamp x (by rw [k4]; rfl) with e | e
    · left
      refine (candidate_iff _ _ _).2 ⟨old _ k1, old _ k2, ?_, ?_⟩
      · rw [← freeStamp_read_congr m s.flash x fun j hj => spare_read h x j (by omega) (.inr ?_)]
        · exact k3
        · cases op with
          | erase b => exact absurd rfl (ne b).1
          | freeStamp b => exact absurd rfl (ne b).2
          | line b k => exact id
          | _ => simp only [FlashOp.touches]; omega
      · rw [← k4]
        refine (dataStamp_read_congr m s.flash x fun j h1 h2 => ?_).symm
        have := (readBytes_eq_iff m s.flash (spareAddr x 8) 18).1 e (j - 8) (by omega)
        rw [show spareAddr x 8 + (j - 8) = spareAddr x j by simp only [spareAddr]; omega] at this
        exact this
    · exact .inr e
  · rw [candidate_other h x hx] at k
    exact .inl k

/-! ### Serials and FREE blocks -/

/-- Every serial in a valid data stamp is below `next`. -/
def Below (m : Memory) (next : Nat) : Prop := ∀ b st, dataStamp (m.spare b) = some st → st.serial < next

/-- A FREE block has its free stamp, and is erased behind it. -/
def FreeOk (m : Memory) (bm : BlockManager) : Prop :=
  ∀ b, bm.classOf b = some .free → freeStampCount (m.spare b) = some (bm.eraseCount b)
    ∧ ∀ j, 8 ≤ j → j < 36 → m.read (spareAddr b j) = 0xFF

theorem below_mono {m : Memory} {n n' : Nat} (h : Below m n) (k : n ≤ n') : Below m n' := fun b st e => Nat.lt_of_lt_of_le (h b st e) k

theorem dataStamp_old {m m' : Memory} {b : BlockId} (e : m.readBytes (spareAddr b 8) 18 = m'.readBytes (spareAddr b 8) 18) :
    dataStamp (m.spare b) = dataStamp (m'.spare b) := by
  refine dataStamp_read_congr m m' b fun j h1 h2 => ?_
  have := (readBytes_eq_iff m m' (spareAddr b 8) 18).1 e (j - 8) (by omega)
  rw [show spareAddr b 8 + (j - 8) = spareAddr b j by simp only [spareAddr]; omega] at this
  exact this

theorem below_step {s : State} {op : FlashOp} {m : Memory} (h : OpWrote s op m) {n : Nat} (k : Below s.flash n)
    (own : ∀ b, op = .dataStamp b → ∃ st, s.intendedBytes op = dataStampBytes st ∧ StampOk st ∧ st.serial < n) : Below m n := by
  intro b st e
  rcases h.stamp b (by rw [e]; rfl) with e' | ⟨e1, e2⟩
  · rw [dataStamp_old e'] at e; exact k b st e
  · obtain ⟨st', k1, k2, k3⟩ := own b e1
    rw [k1] at e2
    rw [dataStamp_programmed m b st' k2 e2] at e
    cases e; exact k3

theorem free_step {s : State} {op : FlashOp} {m : Memory} (h : OpWrote s op m) {bm : BlockManager} (k : FreeOk s.flash bm)
    (hb : bm.classOf op.block ≠ some .free) : FreeOk m bm := by
  intro b hc
  have ne : b ≠ op.block := fun e => hb (e ▸ hc)
  obtain ⟨k1, k2⟩ := k b hc
  exact ⟨by rw [spare_other h b ne]; exact k1, fun j h1 h2 => by rw [spare_read h b j (by omega) (.inl ne)]; exact k2 j h1 h2⟩

theorem free_congr {m : Memory} {bm bm' : BlockManager} (h : ∀ b, bm'.classOf b = some .free →
    bm.classOf b = some .free ∧ bm'.eraseCount b = bm.eraseCount b) (k : FreeOk m bm) : FreeOk m bm' := by
  intro b hc
  obtain ⟨h1, h2⟩ := h b hc
  rw [h2]; exact k b h1

theorem free_reclassed {m : Memory} {bm bm' : BlockManager} {b : BlockId} {c : BlockClass} (h : bm.Reclassed bm' b c)
    (hc : c ≠ .free) (k : FreeOk m bm) : FreeOk m bm' := by
  refine free_congr (fun x hx => ?_) k
  refine ⟨?_, reclassed_count h x⟩
  unfold BlockManager.classOf at hx ⊢
  rw [h.1] at hx
  split at hx
  · cases hb : bm.block b with
    | none => rw [hb] at hx; cases hx
    | some r => rw [hb] at hx; cases hx; exact absurd rfl hc
  · exact hx

/-! ### The group on the array -/

/-- What every step of a commit has: the record, the finished members, the free stamp of the current target, no later target, and, unless
a retire mark has failed, nothing of the group elsewhere. -/
structure GroupBase (m : Memory) (next : Nat) (fault : Bool) (r : CommitRec) : Prop where
  stampable : r.Stampable next
  whole : ∀ k b, k < r.member → r.targets[k]? = some (some b) → m.candidate b = some (r.stamp k)
  free : ∀ b, r.targets[r.member]? = some (some b) → (freeStampCount (m.spare b)).isSome = true
  later : ∀ k b, r.member < k → r.targets[k]? ≠ some (some b)
  within : fault = false → m.GroupWithin r (r.member + 1)

/-- The discard bytes of the current target are erased. -/
def Unmarked (m : Memory) (r : CommitRec) : Prop :=
  ∀ b, r.targets[r.member]? = some (some b) → m.read (spareAddr b 32) = 0xFF ∧ m.read (spareAddr b 33) = 0xFF

/-- The data stamp of the current target is not begun. -/
def Unstamped (m : Memory) (r : CommitRec) : Prop :=
  ∀ b, r.targets[r.member]? = some (some b) → ∀ j, 8 ≤ j → j < 26 → m.read (spareAddr b j) = 0xFF

/-- The commit's last member has its data stamp. -/
def Stamped (m : Memory) (r : CommitRec) : Prop :=
  r.pages.length = r.member + 1 ∧ ∀ b, r.targets[r.member]? = some (some b) → m.candidate b = some (r.stamp r.member)

/-- What a step of a commit has when its operation has ended, whatever it left. -/
structure GroupMid (m : Memory) (next : Nat) (fault : Bool) (r : CommitRec) (step : CommitStep) : Prop where
  base : GroupBase m next fault r
  lines : ∀ k, step = .line k → k < 16
  unmarked : (∀ n, step ≠ .retire n) → Unmarked m r
  unstamped : step = .begunMark ∨ (∃ k, step = .line k) ∨ step = .boundary → Unstamped m r
  stamped : step = .flipRequested ∨ step = .flipTaken → Stamped m r

theorem commitOnArray_iff (s : State) (r : CommitRec) (step : CommitStep) : s.CommitOnArray r step ↔
    GroupMid s.flash s.map.nextSerial s.eng.markFault r step ∧ (step = .dataStamp → Unstamped s.flash r) := by
  constructor
  · rintro ⟨a, b, c, d, e, f, g⟩
    exact ⟨⟨⟨a, c, fun x h => (d x h).1, e, g⟩, b, fun h x k => (d x k).2.1 h, fun h x k => (d x k).2.2.1 (by tauto),
      fun h => ⟨f h, fun x k => (d x k).2.2.2 h⟩⟩, fun h x k => (d x k).2.2.1 (by tauto)⟩
  · rintro ⟨⟨⟨a, c, d1, e, g⟩, b, d2, d3, d4⟩, d5⟩
    refine ⟨a, b, c, fun x h => ⟨d1 x h, fun k => d2 k x h, fun k => ?_, fun k => (d4 k).2 x h⟩, e, fun k => (d4 k).1, g⟩
    rcases k with k | k | k | k
    · exact d3 (.inl k) x h
    · exact d3 (.inr (.inl k)) x h
    · exact d3 (.inr (.inr k)) x h
    · exact d5 k x h

/-- What an unwinding has. -/
def UnwindAt (m : Memory) (next : Nat) (fault : Bool) (u : UnwindRec) : Prop :=
  fault = false → ∃ r : CommitRec, r.toUnwind = u ∧ r.Stampable next ∧ m.GroupWithin r (r.pages.length - 1)

theorem unwindOnArray_iff (s : State) (u : UnwindRec) : s.UnwindOnArray u ↔ UnwindAt s.flash s.map.nextSerial s.eng.markFault u := Iff.rfl

/-! ### The law in parts -/

/-- What the law says of the engine's work. -/
def WorkStamps (m : Memory) (next : Nat) (fault : Bool) : Work → Prop
  | .idle => True
  | .commit r step => GroupMid m next fault r step ∧ (step = .dataStamp → Unstamped m r)
  | .unwind u _ => UnwindAt m next fault u
  | .erase b .freeStamp => ∀ j, 8 ≤ j → j < 36 → m.read (spareAddr b j) = 0xFF
  | .erase _ .erase | .erase _ (.retire _) => True
  | .mountVoid _ _ _ => True

/-- What the law says of a start hand-off. -/
def StartStamps (s : State) : Prop :=
  ∀ h, s.eng.start = some h → s.Ready ∧ s.eng.work = .idle
    ∧ ∀ serial bases, h.kind = .start serial bases →
        serial + 1 = s.map.nextSerial ∧ 1 ≤ serial ∧ serial ≤ 0xFFFFFF00 ∧ Below s.flash serial

/-- The law of stamps once pass 1 of the mount is over. -/
structure StampsOk (s : State) : Prop where
  next : 1 ≤ s.map.nextSerial
  below : Below s.flash s.map.nextSerial
  free : FreeOk s.flash s.bm
  work : WorkStamps s.flash s.map.nextSerial s.eng.markFault s.eng.work
  start : StartStamps s

theorem workStamps_iff (s : State) : WorkStamps s.flash s.map.nextSerial s.eng.markFault s.eng.work ↔
    (∀ b, s.eng.work = .erase b .freeStamp → ∀ j, 8 ≤ j → j < 36 → s.flash.read (spareAddr b j) = 0xFF)
    ∧ (∀ r step, s.eng.work = .commit r step → s.CommitOnArray r step)
    ∧ ∀ u step, s.eng.work = .unwind u step → s.UnwindOnArray u := by
  constructor
  · intro h
    refine ⟨fun b e => by rw [e] at h; exact h, fun r st e => ?_, fun u st e => ?_⟩
    · rw [e] at h; exact (commitOnArray_iff s r st).2 h
    · rw [e] at h; exact h
  · rintro ⟨a, b, c⟩
    cases e : s.eng.work with
    | idle => trivial
    | commit r st => exact (commitOnArray_iff s r st).1 (b r st e)
    | unwind u st => exact c u st e
    | mountVoid b l st => trivial
    | erase b st =>
      cases st with
      | freeStamp => exact a b e
      | erase => trivial
      | retire n => trivial

theorem stampLaw_of {s : State} (h : StampsOk s) : s.StampLaw := by
  obtain ⟨a, b, c⟩ := (workStamps_iff s).1 h.work
  exact ⟨fun _ => ⟨h.next, h.below⟩, h.free, a, b, c, h.start⟩

theorem stampsOk_of {s : State} (h : s.StampLaw) (hs : s.mount.stage ≠ .scan) : StampsOk s := by
  obtain ⟨a, b, c, d, e, f⟩ := h
  exact ⟨(a hs).1, (a hs).2, b, (workStamps_iff s).2 ⟨c, d, e⟩, f⟩

/-- What an operation of the engine needs, but for its own record. -/
structure Ground (s : State) : Prop where
  next : 1 ≤ s.map.nextSerial
  below : Below s.flash s.map.nextSerial
  free : FreeOk s.flash s.bm
  pool : ∀ b ∈ s.bm.freePool, s.bm.classOf b = some .free
  start : s.eng.start = none

theorem Ground.ok {s t : State} (h : Ground s) (hf : t.flash = s.flash) (hn : t.map.nextSerial = s.map.nextSerial)
    (hb : t.bm = s.bm) (hst : t.eng.start = none) (hw : WorkStamps s.flash s.map.nextSerial t.eng.markFault t.eng.work) : StampsOk t :=
  ⟨by rw [hn]; exact h.next, by rw [hf, hn]; exact h.below, by rw [hf, hb]; exact h.free, by rw [hf, hn]; exact hw,
    fun k e => by rw [hst] at e; cases e⟩

theorem ground_work (s : State) (h : Ground s) (w : Work) (hw : WorkStamps s.flash s.map.nextSerial s.eng.markFault w) :
    StampsOk (s.setWork w) := h.ok rfl rfl rfl h.start hw

/-- The block is given a class other than FREE. -/
theorem ground_reclassed {s : State} {bm : BlockManager} {b : BlockId} {c : BlockClass} (h : Ground s) (k : s.bm.Reclassed bm b c)
    (hc : c ≠ .free) (hp : ∀ x ∈ bm.freePool, x ∈ s.bm.freePool ∧ x ≠ b) : Ground { s with bm := bm } := by
  refine ⟨h.next, h.below, free_reclassed k hc h.free, fun x hx => ?_, h.start⟩
  obtain ⟨h1, h2⟩ := hp x hx
  have := h.pool x h1
  show bm.classOf x = _
  unfold BlockManager.classOf at this ⊢
  rw [k.1, if_neg h2]; exact this

theorem notFree_pool {s : State} (h : Ground s) {b : BlockId} {k : BlockClass} (hk : s.bm.classOf b = some k) (ne : k ≠ .free) :
    ∀ x ∈ s.bm.freePool, x ≠ b := by
  rintro x hx rfl
  have := h.pool x hx
  rw [hk] at this; cases this; exact ne rfl

/-! ### Unwinding -/

theorem unwindFinish_stamps (s : State) (i : SessionId) (h : Ground s) : StampsOk (s.unwindFinish i) :=
  h.ok rfl rfl rfl h.start trivial

theorem unwindNext_stamps (s : State) (u : UnwindRec) (h : Ground s)
    (hu : UnwindAt s.flash s.map.nextSerial s.eng.markFault u) : StampsOk (s.unwindNext u) := by
  unfold State.unwindNext
  split
  · exact ground_work s h _ hu
  · exact unwindFinish_stamps s _ h

theorem giveUp_stamps (s : State) (r : CommitRec) (f : FailReason) (h : Ground s)
    (hu : UnwindAt s.flash s.map.nextSerial s.eng.markFault r.toUnwind) : StampsOk (s.giveUp r f) :=
  unwindNext_stamps _ _ ⟨h.next, h.below, h.free, h.pool, h.start⟩ hu

theorem within_mono {m : Memory} {r : CommitRec} {n n' : Nat} (h : m.GroupWithin r n) (k : n ≤ n') : m.GroupWithin r n' :=
  fun b st e es => ⟨Nat.lt_of_lt_of_le (h b st e es).1 k, (h b st e es).2⟩

/-- The current target is not a candidate, so that the group's candidates are the members before it. -/
theorem within_current {m : Memory} {r : CommitRec} (h : m.GroupWithin r (r.member + 1))
    (no : ∀ b, r.targets[r.member]? = some (some b) → ∀ st, m.candidate b = some st → st.serial ≠ r.serial) :
    m.GroupWithin r r.member := by
  intro b st e es
  obtain ⟨h1, h2, h3⟩ := h b st e es
  refine ⟨?_, h2, h3⟩
  by_contra hn
  have : st.index = r.member := by omega
  rw [this] at h2
  exact no b h2 st e es

theorem unstamped_none {m : Memory} {r : CommitRec} (h : Unstamped m r) (b : BlockId) (hb : r.targets[r.member]? = some (some b))
    (st : DataStamp) : m.candidate b ≠ some st := by
  intro k
  have := dataStamp_none m b (h b hb 8 (by omega) (by omega))
  rw [((candidate_iff m b st).1 k).2.2.2] at this
  cases this

/-- The commit is unwound at a member whose data stamp is not there, or that is not the last. -/
theorem unwindAt_of {m : Memory} {next : Nat} {fault : Bool} {r : CommitRec} (h : GroupBase m next fault r)
    (hm : r.member < r.pages.length) (no : fault = false → Unstamped m r ∨ r.member + 1 < r.pages.length) :
    UnwindAt m next fault r.toUnwind := by
  intro hf
  refine ⟨r, rfl, h.stampable, ?_⟩
  rcases no hf with k | k
  · exact within_mono (within_current (h.within hf) fun b hb st e => absurd e (unstamped_none k b hb st)) (by omega)
  · exact within_mono (h.within hf) (by omega)

/-! ### A member -/

/-- What a commit has before the engine begins its current member. -/
structure Before (m : Memory) (next : Nat) (fault : Bool) (r : CommitRec) : Prop where
  stampable : r.Stampable next
  whole : ∀ k b, k < r.member → r.targets[k]? = some (some b) → m.candidate b = some (r.stamp k)
  later : ∀ k b, r.member < k → r.targets[k]? ≠ some (some b)
  within : fault = false → m.GroupWithin r r.member
  lt : r.member < r.pages.length

theorem Before.unwind {m : Memory} {next : Nat} {fault : Bool} {r : CommitRec} (h : Before m next fault r) :
    UnwindAt m next fault r.toUnwind := fun hf =>
  ⟨r, rfl, h.stampable, within_mono (h.within hf) (by have := h.lt; omega)⟩

theorem beginMember_stamps (s : State) (r : CommitRec) (h : Ground s) (k : Before s.flash s.map.nextSerial s.eng.markFault r) :
    StampsOk (s.beginMember r) := by
  unfold State.beginMember
  cases hp : s.bm.freePool with
  | nil =>
    rw [allocate_none hp]
    exact giveUp_stamps s r _ h k.unwind
  | cons b rest =>
    obtain ⟨bm, hb, ha, -⟩ := allocate_some hp r.session
    rw [hb]
    simp only
    obtain ⟨a1, a2, a3, a4⟩ := ha
    have hfree := h.pool b (by rw [hp]; simp)
    obtain ⟨f1, f2⟩ := h.free b hfree
    refine ⟨h.next, h.below, free_reclassed a4 (by simp) h.free, ?_, fun x e => ?_⟩
    · have get : ∀ (j : Nat) (x : BlockId), j ≠ r.member → (r.targets.set r.member (some b))[j]? = some (some x) →
          r.targets[j]? = some (some x) := fun j x hj e => by
        rw [List.getElem?_set, if_neg (Ne.symm hj)] at e; exact e
      have cur : ∀ x, (r.targets.set r.member (some b))[r.member]? = some (some x) → x = b := fun x e => by
        rw [List.getElem?_set, if_pos rfl] at e
        split at e
        · cases e; rfl
        · cases e
      refine ⟨⟨⟨k.stampable, fun j x hj e => ?_, fun x e => ?_, fun j x hj e => ?_, fun hf => ?_⟩, fun _ e => (by cases e),
        fun _ x e => ?_, fun _ x e => ?_, fun e => (by rcases e with e | e <;> cases e)⟩, fun e => (by cases e)⟩
      · exact k.whole j x hj (get j x (Nat.ne_of_lt hj) e)
      · rw [cur x e]; show (freeStampCount (s.flash.spare b)).isSome = true; rw [f1]; rfl
      · exact k.later j x hj (get j x (Nat.ne_of_gt hj) e)
      · intro x st e es
        obtain ⟨w1, w2, w3⟩ := k.within hf x st e es
        refine ⟨Nat.lt_succ_of_lt w1, ?_, w3⟩
        show (r.targets.set r.member (some b))[st.index]? = _
        rw [List.getElem?_set, if_neg (Nat.ne_of_gt w1)]; exact w2
      · rw [cur x e]; exact ⟨f2 32 (by omega) (by omega), f2 33 (by omega) (by omega)⟩
      · rw [cur x e]; exact fun j h1 h2 => f2 j h1 (by omega)
    · have : s.eng.start = some x := e
      rw [h.start] at this; cases this

/-! ### The ends of the engine's operations -/

/-- What the law says of the engine's work when the operation in flight has ended, before the engine goes on. -/
def WorkMid (m : Memory) (next : Nat) (fault : Bool) : Work → Prop
  | .commit r step => GroupMid m next fault r step
  | .unwind u _ => UnwindAt m next fault u
  | .erase b .freeStamp => ∀ j, 8 ≤ j → j < 36 → m.read (spareAddr b j) = 0xFF
  | .idle | .erase _ .erase | .erase _ (.retire _) | .mountVoid _ _ _ => True

theorem WorkStamps.mid {m : Memory} {next : Nat} {fault : Bool} {w : Work} (h : WorkStamps m next fault w) : WorkMid m next fault w := by
  cases w with
  | commit r st => exact h.1
  | unwind u st => exact h
  | erase b st => cases st <;> exact h
  | idle => trivial
  | mountVoid b l st => trivial

/-- A commit goes on with the same record at a step that programs no data stamp. -/
theorem GroupMid.goOn {m : Memory} {next : Nat} {fault : Bool} {r : CommitRec} {step step' : CommitStep} (h : GroupMid m next fault r step)
    (lines : ∀ k, step' = .line k → k < 16) (u : (∀ n, step' ≠ .retire n) → Unmarked m r)
    (v : step' = .begunMark ∨ (∃ k, step' = .line k) ∨ step' = .boundary ∨ step' = .dataStamp → Unstamped m r)
    (w : step' = .flipRequested ∨ step' = .flipTaken → Stamped m r) : WorkStamps m next fault (.commit r step') :=
  ⟨⟨h.base, lines, u, fun k => v (by tauto), w⟩, fun k => v (by tauto)⟩

theorem GroupMid.retire {m : Memory} {next : Nat} {fault : Bool} {r : CommitRec} {step : CommitStep} (h : GroupMid m next fault r step)
    (n : Nat) : WorkStamps m next fault (.commit r (.retire n)) :=
  h.goOn (fun _ e => by cases e) (fun k => absurd rfl (k n)) (fun k => by rcases k with k | ⟨_, k⟩ | k | k <;> cases k)
    fun k => by rcases k with k | k <;> cases k

theorem commitOpEnded_stamps (s : State) (r : CommitRec) (step : CommitStep) (ok : Bool) (goOn : State → State) (h : Ground s)
    (g : GroupMid s.flash s.map.nextSerial s.eng.markFault r step) (lt : r.member < r.pages.length)
    (no : r.unwindRequested = true → Unstamped s.flash r ∨ r.member + 1 < r.pages.length)
    (hg : ok = true → StampsOk (goOn s)) : StampsOk (s.commitOpEnded r ok goOn) := by
  unfold State.commitOpEnded
  split
  · next e =>
    split
    · next hu => exact unwindNext_stamps s _ h (unwindAt_of g.base lt fun _ => no hu)
    · exact hg e
  · exact ground_work s h _ (g.retire 0)

theorem begunMarkEnded_stamps (s : State) (r : CommitRec) (ok : Bool) (h : Ground s)
    (g : GroupMid s.flash s.map.nextSerial s.eng.markFault r .begunMark) (lt : r.member < r.pages.length) :
    StampsOk (s.begunMarkEnded r ok) := by
  have u := g.unstamped (.inl rfl)
  refine commitOpEnded_stamps s r .begunMark ok _ h g lt (fun _ => .inl u) fun _ => ground_work s h _ ?_
  exact g.goOn (fun k e => by cases e; omega) (fun _ => g.unmarked (by simp)) (fun _ => u) fun k => by rcases k with k | k <;> cases k

theorem lineEnded_stamps (s : State) (r : CommitRec) (k : Nat) (ok : Bool) (h : Ground s)
    (g : GroupMid s.flash s.map.nextSerial s.eng.markFault r (.line k)) (lt : r.member < r.pages.length) :
    StampsOk (s.lineEnded r k ok) := by
  have u := g.unstamped (.inr (.inl ⟨k, rfl⟩))
  have v := g.unmarked (by simp)
  refine commitOpEnded_stamps s r (.line k) ok _ h g lt (fun _ => .inl u) fun _ => ?_
  split
  · exact ground_work s h _ (g.goOn (fun j e => by cases e; omega) (fun _ => v) (fun _ => u) fun k => by rcases k with k | k <;> cases k)
  · split
    · exact ground_work s h _ (g.goOn (fun j e => by cases e) (fun _ => v) (fun _ => u) fun k => by rcases k with k | k <;> cases k)
    · exact ground_work s h _ (g.goOn (fun j e => by cases e) (fun _ => v) (fun _ => u) fun k => by rcases k with k | k <;> cases k)

theorem dataStampEnded_stamps (s : State) (r : CommitRec) (ok : Bool) (h : Ground s)
    (g : GroupMid s.flash s.map.nextSerial s.eng.markFault r .dataStamp) (lt : r.member < r.pages.length)
    (hu : r.unwindRequested = true → r.member + 1 < r.pages.length)
    (hok : ok = true → ∀ b, r.targets[r.member]? = some (some b) → s.flash.candidate b = some (r.stamp r.member)) :
    StampsOk (s.dataStampEnded r ok) := by
  have v := g.unmarked (by simp)
  refine commitOpEnded_stamps s r .dataStamp ok _ h g lt (fun k => .inr (hu k)) fun e => ?_
  have st := hok e
  split
  · next hl =>
    have hl : r.pages.length ≤ r.member + 1 := by simpa [CommitRec.lastMember] using hl
    refine ground_work s h _ (g.goOn (fun j e => by cases e) (fun _ => v)
      (fun k => by rcases k with k | ⟨_, k⟩ | k | k <;> cases k) fun _ => ⟨by omega, st⟩)
  · next hl =>
    have hl : r.member + 1 < r.pages.length := by
      have : ¬ r.pages.length ≤ r.member + 1 := by simpa [CommitRec.lastMember] using hl
      omega
    refine beginMember_stamps s _ h ⟨g.base.stampable, fun k b hk e => ?_, fun k b hk => g.base.later k b ?_, g.base.within, hl⟩
    · have hk : k < r.member + 1 := hk
      rcases Nat.lt_succ_iff_lt_or_eq.1 hk with hk | rfl
      · exact g.base.whole k b hk e
      · exact st b e
    · have hk : r.member + 1 < k := hk
      omega

theorem currentTarget_some {r : CommitRec} {b : BlockId} (h : r.currentTarget = some b) : r.targets[r.member]? = some (some b) := by
  unfold CommitRec.currentTarget at h
  rw [List.getD_eq_getElem?_getD] at h
  cases e : r.targets[r.member]? with
  | none => rw [e] at h; cases h
  | some x => rw [e] at h; exact congrArg some h

/-- The current target is retired: the group's candidates are the members before it (R76, R84). -/
theorem GroupBase.retired {m : Memory} {next : Nat} {fault fault' : Bool} {r : CommitRec} {b : BlockId} (h : GroupBase m next fault r)
    (lt : r.member < r.pages.length) (hb : r.targets[r.member]? = some (some b))
    (hf : fault' = false → fault = false ∧ m.read (spareAddr b 33) ≠ 0xFF) :
    Before m next fault' { r with targets := r.targets.set r.member none } := by
  refine ⟨h.stampable, fun k x hk e => ?_, fun k x hk e => ?_, fun k => ?_, lt⟩
  · have e : (r.targets.set r.member none)[k]? = some (some x) := e
    rw [List.getElem?_set, if_neg (Nat.ne_of_gt hk)] at e
    exact h.whole k x hk e
  · have e : (r.targets.set r.member none)[k]? = some (some x) := e
    rw [List.getElem?_set, if_neg (Nat.ne_of_lt hk)] at e
    exact h.later k x hk e
  · obtain ⟨k1, k2⟩ := hf k
    intro x st e es
    obtain ⟨w1, w2, w3⟩ := within_current (h.within k1) (fun y hy st' e' => by
      rw [hb] at hy; cases hy
      exact absurd ((candidate_iff m b st').1 e').1 k2) x st e es
    refine ⟨w1, ?_, w3⟩
    show (r.targets.set r.member none)[st.index]? = _
    rw [List.getElem?_set, if_neg (Nat.ne_of_gt w1)]; exact w2

/-- A block is dropped from an unwinding: it is voided or retired (R82 to R84). -/
theorem UnwindAt.drop {m : Memory} {next : Nat} {fault fault' : Bool} {u : UnwindRec} (b : BlockId) (h : UnwindAt m next fault u)
    (hf : fault' = false → fault = false ∧ (m.read (spareAddr b 32) ≠ 0xFF ∨ m.read (spareAddr b 33) ≠ 0xFF)) :
    UnwindAt m next fault' { u with targets := dropTarget b u.targets } := by
  intro k
  obtain ⟨k1, k2⟩ := hf k
  obtain ⟨r, rfl, hs, w⟩ := h k1
  refine ⟨{ r with targets := dropTarget b r.targets }, rfl, hs, fun x st e es => ?_⟩
  obtain ⟨w1, w2, w3⟩ := w x st e es
  refine ⟨w1, ?_, w3⟩
  show (dropTarget b r.targets)[st.index]? = _
  unfold dropTarget
  rw [List.getElem?_map, w2]
  have ne : x ≠ b := by
    rintro rfl
    obtain ⟨c1, c2, -⟩ := (candidate_iff m x st).1 e
    rcases k2 with k2 | k2
    · exact k2 c2
    · exact k2 c1
  simp [ne]

theorem handRetired_ground (s : State) (b : BlockId) (ok : Bool) (h : Ground s) {k : BlockClass} (hk : s.bm.classOf b = some k)
    (ne : k ≠ .free) : Ground (s.handRetired b ok) := by
  have g := ground_reclassed h (retire_spec s.bm b).2.2.2 (by simp) (fun x hx => by
    rw [(retire_spec s.bm b).1] at hx
    exact ⟨hx, notFree_pool h hk ne x hx⟩)
  exact ⟨g.next, g.below, g.free, g.pool, h.start⟩

theorem fault_of {fault ok : Bool} {P : Prop} (hp : ok = true → P) (h : (fault || !ok) = false) : fault = false ∧ P := by
  cases fault <;> cases ok <;> simp at h ⊢
  exact hp rfl

theorem unwindVoidEnded_stamps (s : State) (u : UnwindRec) (b : BlockId) (n : Nat) (ok : Bool) (h : Ground s)
    (hu : UnwindAt s.flash s.map.nextSerial s.eng.markFault u) {i : SessionId} (hk : s.bm.classOf b = some (.target i))
    (hok : ok = true → s.flash.read (spareAddr b 32) ≠ 0xFF) : StampsOk (s.unwindVoidEnded u b n ok) := by
  unfold State.unwindVoidEnded
  split
  · next e =>
    have g := ground_reclassed h (toDirty_spec s.bm b).2.2.2 (by simp) (fun x hx => by
      rw [(toDirty_spec s.bm b).1] at hx
      exact ⟨hx, notFree_pool h hk (by simp) x hx⟩)
    exact unwindNext_stamps _ _ g (hu.drop b fun k => ⟨k, .inl (hok e)⟩)
  · split
    · exact ground_work s h _ hu
    · exact ground_work s h _ hu

theorem eraseEnded_stamps (s : State) (b : BlockId) (ok : Bool) (h : Ground s)
    (hok : ok = true → ∀ j, 8 ≤ j → j < 36 → s.flash.read (spareAddr b j) = 0xFF) : StampsOk (s.eraseEnded b ok) := by
  unfold State.eraseEnded
  split
  · next e => exact ground_work s h _ (hok e)
  · exact ground_work s h _ trivial

theorem freeStampEnded_stamps (s : State) (b : BlockId) (ok : Bool) (h : Ground s)
    (he : ∀ j, 8 ≤ j → j < 36 → s.flash.read (spareAddr b j) = 0xFF) (hk : s.bm.classOf b = some .erasing)
    (hok : ok = true → s.flash.readBytes (spareAddr b 0) 6 = freeStampBytes (nextEraseCount (s.bm.eraseCount b))) :
    StampsOk (s.freeStampEnded b ok) := by
  unfold State.freeStampEnded
  split
  · next e =>
    have spec := eraseDone_spec s.bm b
    refine ⟨h.next, h.below, fun x hx => ?_, trivial, fun k hk => ?_⟩
    · have hx : (s.bm.eraseDone b (nextEraseCount (s.bm.eraseCount b))).classOf x = some .free := hx
      show freeStampCount (s.flash.spare x) = some ((s.bm.eraseDone b (nextEraseCount (s.bm.eraseCount b))).eraseCount x) ∧ _
      by_cases e' : x = b
      · subst e'
        have count : (s.bm.eraseDone x (nextEraseCount (s.bm.eraseCount x))).eraseCount x = nextEraseCount (s.bm.eraseCount x) := by
          have at' := spec.2.2.1 x
          rw [if_pos rfl] at at'
          unfold BlockManager.classOf at hk
          cases hb : s.bm.block x with
          | none => rw [hb] at hk; cases hk
          | some r =>
            rw [hb] at at'
            show (((s.bm.eraseDone x (nextEraseCount (s.bm.eraseCount x))).block x).map (·.eraseCount)).getD 0 = _
            rw [at']; rfl
        rw [count]
        exact ⟨freeStamp_programmed _ _ _ (by simp [nextEraseCount, Config.lastEraseCount]) (hok e), he⟩
      · rw [returned_cls spec hk, if_neg e'] at hx
        rw [returned_count spec x e']
        exact h.free x hx
    · have : s.eng.start = some k := hk
      rw [h.start] at this; cases this
  · exact ground_work s h _ trivial

/-! ### The choice of work -/

theorem choose_stamps (s : State) (h : StampsOk s) (hn : s.eng.start = none) (hr : s.Ready) (hw : s.eng.work = .idle) :
    StampsOk s.choose := by
  have none : ∀ t : State, t.eng.start = s.eng.start → StartStamps t := fun t e k hk => by rw [e, hn] at hk; cases hk
  have hand : ∀ (e : Engine) (k : StartKind) (p : PortId) (i : SessionId), e.work = .idle → e.markFault = s.eng.markFault →
      (∀ serial bases, k ≠ .start serial bases) → StampsOk (State.handStart { s with eng := e } p i k) := by
    intro e k p i he hf hk
    refine ⟨h.next, h.below, h.free, ?_, fun x hx => ?_⟩
    · show WorkStamps _ _ _ e.work
      rw [he]; trivial
    · cases hx
      exact ⟨hr, he, fun serial bases ek => absurd ek (hk serial bases)⟩
  have reclaim : ∀ b, StampsOk (s.reclaimStart b) := by
    intro b
    exact ⟨h.next, h.below, free_reclassed (eraseStart_spec s.bm b).2.2.2 (by simp) h.free, trivial, none _ rfl⟩
  unfold State.choose
  split
  · exact reclaim _
  · split
    · unfold State.startCheck State.askSerial
      simp only
      split
      · split
        · exact hand _ _ _ _ (by simpa using hw) rfl (by simp)
        · next hs =>
          have hs : s.map.nextSerial ≤ 0xFFFFFF00 := by simpa [serialEndOf, Config.lastSerial] using hs
          refine ⟨Nat.le_add_left 1 _, below_mono h.below (Nat.le_succ _), h.free, ?_, fun x hx => ?_⟩
          · show WorkStamps _ _ _ s.eng.work
            rw [hw]; trivial
          · cases hx
            exact ⟨hr, hw, fun serial bases ek => by
              cases ek; exact ⟨rfl, h.next, hs, h.below⟩⟩
      · split
        · exact hand _ _ _ _ (by simpa using hw) rfl (by simp)
        · exact h
    · split
      · exact reclaim _
      · exact h

theorem takeStart_stamps (s : State) (k : StartHandoff) (h : StampsOk s) (hs : s.eng.start = some k)
    (pool : ∀ b ∈ s.bm.freePool, s.bm.classOf b = some .free) (mem : MembersOk s.ses) : StampsOk (s.takeStart k) := by
  obtain ⟨hr, hw, hk⟩ := h.start k hs
  have g : Ground { s with eng := { s.eng with start := none } } := ⟨h.next, h.below, h.free, pool, rfl⟩
  have idle : ∀ t : State, t.flash = s.flash → t.map = s.map → t.bm = s.bm → t.eng.start = none → t.eng.work = .idle → StampsOk t :=
    fun t e1 e2 e3 e4 e5 => g.ok (t := t) e1 (by rw [e2]) e3 e4 (by rw [e5]; trivial)
  unfold State.takeStart
  simp only
  split
  · next hq =>
    split
    · next serial bases e =>
      obtain ⟨k1, k2, k3, k4⟩ := hk serial bases e
      obtain ⟨m1, m2, m3⟩ := mem k.session
      have m3 := m3 (by rw [hq.2]; simp)
      have no : ∀ b st, s.flash.candidate b = some st → st.serial ≠ serial := fun b st e es => by
        have := k4 b st ((candidate_iff _ b st).1 e).2.2.2
        omega
      refine beginMember_stamps _ _ ⟨h.next, h.below, h.free, pool, rfl⟩ ⟨⟨k1, k2, k3, ?_, m2, m1⟩, fun j b hj => ?_, fun j b _ e => ?_,
        fun _ b st e es => ?_, ?_⟩
      · exact List.length_pos_iff.2 m3
      · exact absurd hj (Nat.not_lt_zero j)
      · have e : (List.map (fun _ => (none : Option BlockId)) _)[j]? = some (some b) := e
        rw [List.getElem?_map] at e
        cases e' : (s.ses.session k.session).members[j]? with
        | none => rw [e'] at e; cases e
        | some q => rw [e'] at e; cases e
      · exact absurd es (no b st e)
      · exact List.length_pos_iff.2 m3
    · exact idle _ rfl rfl rfl rfl hw
    · exact idle _ rfl rfl rfl rfl hw
  · exact idle _ rfl rfl rfl rfl hw

theorem choiceEvent_stamps (s : State) (h : StampsOk s) (pool : ∀ b ∈ s.bm.freePool, s.bm.classOf b = some .free)
    (mem : MembersOk s.ses) : StampsOk s.choiceEvent := by
  unfold State.choiceEvent
  split
  · next hc =>
    split
    · next k hk => exact takeStart_stamps s k h hk pool mem
    · next hn => exact choose_stamps s h hn hc.2.1 hc.2.2
  · exact h

theorem mountVoidNext_stamps (s : State) (l : List BlockId) (h : Ground s) (mem : MembersOk s.ses) : StampsOk (s.mountVoidNext l) := by
  cases l with
  | cons b rest => exact ground_work s h _ trivial
  | nil =>
    refine choiceEvent_stamps _ ⟨h.next, h.below, h.free, trivial, fun k hk => ?_⟩ h.pool mem
    have : s.eng.start = some k := hk
    rw [h.start] at this; cases this

theorem mountVoidEnded_stamps (s : State) (b : BlockId) (rest : List BlockId) (n : Nat) (ok : Bool) (h : Ground s)
    (mem : MembersOk s.ses) : StampsOk (s.mountVoidEnded b rest n ok) := by
  unfold State.mountVoidEnded
  split
  · exact mountVoidNext_stamps s rest h mem
  · split <;> exact ground_work s h _ trivial

/-! ### Retiring, and an operation that fails -/

theorem retireEnded_stamps (s : State) (ok : Bool) (h : Ground s) (mem : MembersOk s.ses)
    (w : WorkMid s.flash s.map.nextSerial s.eng.markFault s.eng.work) (hb : s.eng.work.HoldsBlocks s.bm)
    (hret : s.eng.work.retiring = true)
    (hok : ok = true → ∀ b, s.eng.work.inFlight = some (.retire b) → s.flash.read (spareAddr b 33) ≠ 0xFF) :
    StampsOk (s.retireEnded ok) := by
  unfold State.retireEnded
  split
  · next r n e =>
    rw [e] at w hb
    have pk := progOk_of hb (by simp)
    split
    · exact ground_work s h _ (w.retire (n + 1))
    · split
      · next b ht =>
        have hbt := currentTarget_some ht
        have hg := handRetired_ground s b ok h (pk.hold.2 b (List.mem_of_getElem? hbt)) (by simp)
        have bf : Before s.flash s.map.nextSerial (s.eng.markFault || !ok) { r with targets := r.targets.set r.member none } :=
          w.base.retired pk.lt hbt fun k => fault_of (fun k1 => hok k1 b (by rw [e]; simp [Work.inFlight, ht])) k
        unfold State.afterRetire
        split
        · exact unwindNext_stamps _ _ hg bf.unwind
        · split
          · exact beginMember_stamps _ _ hg bf
          · exact giveUp_stamps _ _ _ hg bf.unwind
      · next ht =>
        obtain ⟨b, hb'⟩ := pk.upTo r.member (Nat.le_refl _)
        unfold CommitRec.currentTarget at ht
        rw [List.getD_eq_getElem?_getD, hb'] at ht; cases ht
  · next u b n e =>
    rw [e] at w hb
    split
    · exact ground_work s h _ w
    · have hg := handRetired_ground s b ok h (hb.1.2 b hb.2) (by simp)
      refine unwindNext_stamps _ _ hg (UnwindAt.drop b w fun k => ?_)
      obtain ⟨k1, k2⟩ := fault_of (fun k1 => hok k1 b (by rw [e]; rfl)) k
      exact ⟨k1, .inr k2⟩
  · next b n e =>
    rw [e] at hb
    split
    · exact ground_work s h _ trivial
    · exact ground_work _ (handRetired_ground s b ok h hb (by simp)) _ trivial
  · next b rest n e =>
    rw [e] at hb
    split
    · exact ground_work s h _ trivial
    · exact mountVoidNext_stamps _ _ (handRetired_ground s b ok h (hb.2 b (by simp)) (by simp)) mem
  · next h1 h2 h3 h4 =>
    revert hret
    unfold Work.retiring
    split
    · next r n e => exact absurd e (h1 r n)
    · next u b n e => exact absurd e (h2 u b n)
    · next b n e => exact absurd e (h3 b n)
    · next b l n e => exact absurd e (h4 b l n)
    · intro k; cases k

/-- An operation in flight that is no other is a retire mark. -/
theorem retiring_of {w : Work} {op : FlashOp} (hop : w.inFlight = some op) (h1 : ∀ r, w ≠ .commit r .begunMark)
    (h2 : ∀ r k, w ≠ .commit r (.line k)) (h3 : ∀ r, w ≠ .commit r .dataStamp) (h4 : ∀ u b n, w ≠ .unwind u (.void b n))
    (h5 : ∀ b, w ≠ .erase b .erase) (h6 : ∀ b, w ≠ .erase b .freeStamp) (h7 : ∀ b l n, w ≠ .mountVoid b l (.void n)) :
    w.retiring = true := by
  cases w with
  | idle => cases hop
  | commit r st =>
    cases st with
    | begunMark => exact absurd rfl (h1 r)
    | line k => exact absurd rfl (h2 r k)
    | dataStamp => exact absurd rfl (h3 r)
    | retire n => rfl
    | boundary => cases hop
    | flipRequested => cases hop
    | flipTaken => cases hop
  | unwind u st =>
    cases st with
    | void b n => exact absurd rfl (h4 u b n)
    | retire b n => rfl
  | erase b st =>
    cases st with
    | erase => exact absurd rfl (h5 b)
    | freeStamp => exact absurd rfl (h6 b)
    | retire n => rfl
  | mountVoid b l st =>
    cases st with
    | void n => exact absurd rfl (h7 b l n)
    | retire n => rfl

theorem opFailed_stamps (s : State) (op : FlashOp) (h : Ground s) (mem : MembersOk s.ses)
    (w : WorkMid s.flash s.map.nextSerial s.eng.markFault s.eng.work) (hb : s.eng.work.HoldsBlocks s.bm)
    (hop : s.eng.work.inFlight = some op)
    (hu : ∀ r, s.eng.work = .commit r .dataStamp → r.unwindRequested = true → r.member + 1 < r.pages.length) : StampsOk s.opFailed := by
  unfold State.opFailed
  split
  · next r e => rw [e] at w hb; exact begunMarkEnded_stamps s r _ h w (progOk_of hb (by simp)).lt
  · next r k e => rw [e] at w hb; exact lineEnded_stamps s r k _ h w (progOk_of hb (by simp)).lt
  · next r e =>
    rw [e] at w hb
    exact dataStampEnded_stamps s r _ h w (progOk_of hb (by simp)).lt (hu r e) (fun k => by cases k)
  · next u b n e =>
    rw [e] at w hb
    exact unwindVoidEnded_stamps s u b n _ h w (hb.1.2 b hb.2) (fun k => by cases k)
  · next b e => exact eraseEnded_stamps s b _ h (fun k => by cases k)
  · next b e => rw [e] at w hb; exact freeStampEnded_stamps s b _ h w hb (fun k => by cases k)
  · next b rest n e => exact mountVoidEnded_stamps s b rest n _ h mem
  · next h1 h2 h3 h4 h5 h6 h7 =>
    exact retireEnded_stamps s false h mem w hb (retiring_of hop h1 h2 h3 h4 h5 h6 h7) (fun k => by cases k)

/-! ### The operation in flight ends -/

theorem inFlight_notFree (s : State) (hb : s.eng.work.HoldsBlocks s.bm) {op : FlashOp} (h : s.eng.work.inFlight = some op) :
    ∃ k, s.bm.classOf op.block = some k ∧ k ≠ .free := by
  revert h hb
  cases s.eng.work with
  | idle => intro _ k; cases k
  | commit r st =>
    intro hb k
    have step : st ≠ .flipTaken := by rintro rfl; cases k
    have pk := progOk_of hb step
    have : r.currentTarget = some op.block := by
      cases st <;> simp only [Work.inFlight, reduceCtorEq, Option.map_eq_some_iff] at k
      all_goals (obtain ⟨b, hb, rfl⟩ := k; exact hb)
    exact ⟨_, pk.hold.2 _ (List.mem_of_getElem? (currentTarget_some this)), by simp⟩
  | unwind u st =>
    rintro ⟨h1, h2⟩ k
    cases st with
    | void b n => cases k; exact ⟨_, h1.2 b h2, by simp⟩
    | retire b n => cases k; exact ⟨_, h1.2 b h2, by simp⟩
  | erase b st => intro hb k; cases st <;> (cases k; exact ⟨_, hb, by simp⟩)
  | mountVoid b l st => intro hb k; cases st <;> (cases k; exact ⟨_, hb.2 b (by simp), by simp⟩)

/-- The bytes of the data stamp in flight are those of the current member, which obey R6. -/
theorem intended_stamp (s : State) (r : CommitRec) (b : BlockId) (h : s.eng.work = .commit r .dataStamp) :
    s.intendedBytes (.dataStamp b) = dataStampBytes (r.stamp r.member) := by
  unfold State.intendedBytes; rw [h]; rfl

theorem stampOk_of {r : CommitRec} {next : Nat} (h : r.Stampable next) (lt : r.member < r.pages.length) : StampOk (r.stamp r.member) :=
  ⟨rfl, h.2.2.2.1, h.2.2.2.2.1, lt, h.2.2.2.2.2, h.2.1, h.2.2.1⟩

theorem line_in_range (s : State) (h : WorkStamps s.flash s.map.nextSerial s.eng.markFault s.eng.work) {op : FlashOp}
    (k : s.eng.work.inFlight = some op) : ∀ j, op = .line op.block j → j < 16 := by
  intro j hj
  rw [hj] at k
  revert h k
  cases s.eng.work with
  | idle => intro _ k; cases k
  | commit r st =>
    intro h k
    cases st <;> simp only [Work.inFlight, reduceCtorEq, Option.map_eq_some_iff, exists_and_left, and_false, exists_false] at k
    all_goals first
      | (obtain ⟨b, hb, e⟩ := k; cases e; exact h.1.lines _ rfl)
      | (obtain ⟨b, hb, e⟩ := k; cases e)
  | unwind u st => intro _ k; cases st <;> cases k
  | erase b st => intro _ k; cases st <;> cases k
  | mountVoid b l st => intro _ k; cases st <;> cases k

/-- The operation in flight has ended, whatever it left: the law's parts hold of the array that it left. -/
theorem op_ended (s : State) (m : Memory) (op : FlashOp) (h : StampsOk s)
    (pool : ∀ b ∈ s.bm.freePool, s.bm.classOf b = some .free) (hb : s.eng.work.HoldsBlocks s.bm)
    (hop : s.eng.work.inFlight = some op) (w : OpWrote s op m) :
    Ground { s with flash := m } ∧ WorkMid m s.map.nextSerial s.eng.markFault s.eng.work := by
  have hstart : s.eng.start = none := by
    cases e : s.eng.start with
    | none => rfl
    | some k =>
      have := (h.start k e).2.1
      rw [this] at hop; cases hop
  obtain ⟨cls, hc, hcf⟩ := inFlight_notFree s hb hop
  have hfree : FreeOk m s.bm := free_step w h.free (by rw [hc]; exact fun e => hcf (Option.some.inj e))
  have main : Below m s.map.nextSerial ∧ WorkMid m s.map.nextSerial s.eng.markFault s.eng.work := by
    have hw := h.work
    cases hwork : s.eng.work with
    | idle => rw [hwork] at hop; cases hop
    | commit r st =>
      rw [hwork] at hw hb hop
      obtain ⟨g, gs⟩ := hw
      have hst : st ≠ .flipTaken := by rintro rfl; cases hop
      have pk := progOk_of hb hst
      have cur : r.targets[r.member]? = some (some op.block) := by
        refine currentTarget_some ?_
        cases st <;> simp only [Work.inFlight, reduceCtorEq, Option.map_eq_some_iff] at hop
        all_goals (obtain ⟨b, hb, rfl⟩ := hop; exact hb)
      have only : ∀ b, r.targets[r.member]? = some (some b) → b = op.block := fun b e => by rw [cur] at e; cases e; rfl
      have kind : (st = .begunMark ∧ op = .begunMark op.block) ∨ (∃ k, st = .line k ∧ op = .line op.block k)
          ∨ (st = .dataStamp ∧ op = .dataStamp op.block) ∨ ∃ n, st = .retire n ∧ op = .retire op.block := by
        cases st <;> simp only [Work.inFlight, reduceCtorEq, Option.map_eq_some_iff] at hop
        · obtain ⟨b, -, rfl⟩ := hop; exact .inl ⟨rfl, rfl⟩
        · obtain ⟨b, -, rfl⟩ := hop; exact .inr (.inl ⟨_, rfl, rfl⟩)
        · obtain ⟨b, -, rfl⟩ := hop; exact .inr (.inr (.inl ⟨rfl, rfl⟩))
        · obtain ⟨b, -, rfl⟩ := hop; exact .inr (.inr (.inr ⟨_, rfl, rfl⟩))
      have stamp : ∀ b, op = .dataStamp b → st = .dataStamp := by
        intro b e
        rcases kind with ⟨-, k⟩ | ⟨_, -, k⟩ | ⟨k, -⟩ | ⟨_, -, k⟩
        · rw [k] at e; cases e
        · rw [k] at e; cases e
        · exact k
        · rw [k] at e; cases e
      have program : ∀ b, op ≠ .erase b ∧ op ≠ .freeStamp b := by
        intro b
        rcases kind with ⟨-, k⟩ | ⟨_, -, k⟩ | ⟨-, k⟩ | ⟨_, -, k⟩ <;> rw [k] <;> simp
      have free6 : ∀ j, j < 6 → ¬ FlashOp.touches op j := by
        intro j hj
        rcases kind with ⟨-, k⟩ | ⟨_, -, k⟩ | ⟨-, k⟩ | ⟨_, -, k⟩
        · rw [k]; simp only [FlashOp.touches]; omega
        · rw [k]; exact id
        · rw [k]; simp only [FlashOp.touches]; omega
        · rw [k]; simp only [FlashOp.touches]; omega
      have sok := stampOk_of g.base.stampable pk.lt
      refine ⟨below_step w h.below fun b e => ⟨r.stamp r.member, ?_, sok, ?_⟩, ⟨⟨g.base.stampable, fun k b hk e => ?_, fun b e => ?_,
        g.base.later, fun hf => ?_⟩, g.lines, fun hn b e => ?_, fun hs b e => ?_, fun hs => ?_⟩⟩
      · rw [e, intended_stamp s r b (by rw [hwork, stamp b e])]
      · have := g.base.stampable.1
        show r.serial < _
        omega
      · have ne : b ≠ op.block := by
          rintro rfl
          have := index_inj pk.hold.1 _ _ _ e cur
          omega
        rw [candidate_other w b ne]; exact g.base.whole k b hk e
      · rw [only b e, freeStamp_read_congr m s.flash op.block fun j hj => spare_read w _ j (by omega) (.inr (free6 j hj))]
        exact g.base.free _ cur
      · intro x sx e es
        rcases candidate_after w program x sx e with k | ⟨k1, k2⟩
        · exact g.base.within hf x sx k es
        · rw [k1, intended_stamp s r x (by rw [hwork, stamp x k1])] at k2
          have := dataStamp_programmed m x _ sok k2
          rw [((candidate_iff m x sx).1 e).2.2.2] at this
          have hx : x = op.block := by rw [k1]; rfl
          cases this
          exact ⟨Nat.lt_succ_self _, by rw [hx]; exact cur, rfl⟩
      · have free : ∀ j, j = 32 ∨ j = 33 → ¬ FlashOp.touches op j := by
          intro j hj
          rcases kind with ⟨-, k⟩ | ⟨_, -, k⟩ | ⟨-, k⟩ | ⟨n, k, -⟩
          · rw [k]; simp only [FlashOp.touches]; omega
          · rw [k]; exact id
          · rw [k]; simp only [FlashOp.touches]; omega
          · exact absurd k (hn n)
        have u := g.unmarked hn b e
        exact ⟨by rw [spare_read w b 32 (by omega) (.inr (free 32 (.inl rfl)))]; exact u.1,
          by rw [spare_read w b 33 (by omega) (.inr (free 33 (.inr rfl)))]; exact u.2⟩
      · intro j h1 h2
        have free : ¬ FlashOp.touches op j := by
          rcases kind with ⟨-, k⟩ | ⟨_, -, k⟩ | ⟨k, -⟩ | ⟨n, k, -⟩
          · rw [k]; simp only [FlashOp.touches]; omega
          · rw [k]; exact id
          · rw [k] at hs; rcases hs with hs | ⟨_, hs⟩ | hs <;> cases hs
          · rw [k] at hs; rcases hs with hs | ⟨_, hs⟩ | hs <;> cases hs
        rw [spare_read w b j (by omega) (.inr free)]
        exact g.unstamped hs b e j h1 h2
      · rcases hs with rfl | rfl <;> cases hop
    | unwind u st =>
      rw [hwork] at hw hop
      have ne : ∀ b, op ≠ .dataStamp b ∧ op ≠ .erase b ∧ op ≠ .freeStamp b := by
        intro b; cases st <;> cases hop <;> simp
      refine ⟨below_step w h.below fun b e => absurd e (ne b).1, fun hf => ?_⟩
      obtain ⟨r, h1, h2, h3⟩ := hw hf
      refine ⟨r, h1, h2, fun x sx e es => ?_⟩
      rcases candidate_after w (fun b => (ne b).2) x sx e with k | k
      · exact h3 x sx k es
      · exact absurd k.1 (ne x).1
    | erase b st =>
      rw [hwork] at hw hop
      refine ⟨below_step w h.below fun c e => ?_, ?_⟩
      · subst e; cases st <;> cases hop
      · cases st with
        | erase => trivial
        | retire n => trivial
        | freeStamp =>
          cases hop
          intro j h1 h2
          rw [spare_read w b j (by omega) (.inr (by simp only [FlashOp.touches]; omega))]
          exact hw j h1 h2
    | mountVoid b l st =>
      rw [hwork] at hop
      refine ⟨below_step w h.below fun c e => ?_, trivial⟩
      subst e; cases st <;> cases hop
  exact ⟨⟨h.next, main.1, hfree, pool, hstart⟩, main.2⟩

/-- What a verified data stamp makes of its block (R75). -/
theorem verified_candidate (s : State) (m : Memory) (r : CommitRec) (b : BlockId) (hw : s.eng.work = .commit r .dataStamp)
    (g : GroupMid m s.map.nextSerial s.eng.markFault r .dataStamp) (lt : r.member < r.pages.length)
    (hb : r.targets[r.member]? = some (some b)) (v : m.readBytes (spareAddr b 8) 18 = s.intendedBytes (.dataStamp b)) :
    m.candidate b = some (r.stamp r.member) := by
  rw [intended_stamp s r b hw] at v
  obtain ⟨k1, k2⟩ := g.unmarked (by simp) b hb
  exact (candidate_iff _ _ _).2 ⟨k2, k1, g.base.free b hb, dataStamp_programmed m b _ (stampOk_of g.base.stampable lt) v⟩

end Sys2Proof.Laws
end

