-- ==== Sys2Proof/Laws/GroupLaw.lean ====
section
/-! SUPPORT. The rest of the law of stamps: the flip, the mount and the resets; and that a cut shows the group of the commit in progress
whole or not at all (R27, R91, R92, R114, R121). -/

namespace Sys2Proof.Laws

open Sys2Proof Sys2Proof.Machine

/-! ### Events that touch no stamp -/

/-- Nothing that the law of stamps speaks of changed, but that the engine may have become idle, and a start hand-off may have been
withdrawn. -/
structure Untouched (s t : State) : Prop where
  flash : t.flash = s.flash
  next : t.map.nextSerial = s.map.nextSerial
  fault : t.eng.markFault = s.eng.markFault
  mount : t.mount = s.mount
  blocks : ∀ b, t.bm.classOf b = s.bm.classOf b ∧ t.bm.eraseCount b = s.bm.eraseCount b
  work : t.eng.work = s.eng.work ∨ t.eng.work = .idle
  start : ∀ h, t.eng.start = some h → ∃ k, s.eng.start = some k ∧ h.kind = k.kind

theorem Untouched.refl (s : State) : Untouched s s := ⟨rfl, rfl, rfl, rfl, fun _ => ⟨rfl, rfl⟩, .inl rfl, fun h k => ⟨h, k, rfl⟩⟩

theorem Untouched.trans {s t u : State} (h : Untouched s t) (k : Untouched t u) : Untouched s u := by
  refine ⟨k.flash.trans h.flash, k.next.trans h.next, k.fault.trans h.fault, k.mount.trans h.mount,
    fun b => ⟨(k.blocks b).1.trans (h.blocks b).1, (k.blocks b).2.trans (h.blocks b).2⟩, ?_, fun x hx => ?_⟩
  · rcases k.work with e | e
    · rw [e]; exact h.work
    · exact .inr e
  · obtain ⟨y, hy, e⟩ := k.start x hx
    obtain ⟨z, hz, e'⟩ := h.start y hy
    exact ⟨z, hz, e.trans e'⟩

/-- Pins, ports, sessions, notices and the protection are no matter of the stamps. -/
theorem Untouched.of (s t : State) (h1 : t.flash = s.flash) (h2 : t.map.nextSerial = s.map.nextSerial) (h3 : t.eng = s.eng)
    (h4 : t.mount = s.mount) (h5 : t.bm = s.bm) : Untouched s t :=
  ⟨h1, h2, by rw [h3], h4, fun b => by rw [h5]; exact ⟨rfl, rfl⟩, .inl (by rw [h3]), fun h k => ⟨h, by rw [← h3]; exact k, rfl⟩⟩

theorem Untouched.pins (s : State) (bm : BlockManager) {d u : Option BlockId} (h : s.bm.PinsMoved bm d u) :
    Untouched s { s with bm := bm } := by
  refine ⟨rfl, rfl, rfl, rfl, fun b => ?_, .inl rfl, fun h k => ⟨h, k, rfl⟩⟩
  constructor
  · show bm.classOf b = _
    unfold BlockManager.classOf
    rw [h.2]; cases s.bm.block b <;> rfl
  · show bm.eraseCount b = _
    unfold BlockManager.eraseCount
    rw [h.2]; cases s.bm.block b <;> rfl

theorem Untouched.law {s t : State} (u : Untouched s t) (h : s.StampLaw) : t.StampLaw := by
  obtain ⟨a, b, c, d, e, f⟩ := h
  have work : ∀ w, t.eng.work = w → w ≠ .idle → s.eng.work = w := fun w k n => by
    rcases u.work with x | x
    · rw [← x]; exact k
    · rw [k] at x; exact absurd x n
  refine ⟨fun k => ?_, fun x k => ?_, fun x k => ?_, fun r st k => ?_, fun x st k => ?_, fun h k => ?_⟩
  · rw [u.mount] at k; rw [u.flash, u.next]; exact a k
  · rw [(u.blocks x).1] at k; rw [u.flash, (u.blocks x).2]; exact b x k
  · rw [u.flash]; exact c x (work _ k (by simp))
  · have := d r st (work _ k (by simp))
    unfold State.CommitOnArray at this ⊢
    rw [u.flash, u.next, u.fault]; exact this
  · have := e x st (work _ k (by simp))
    unfold State.UnwindOnArray at this ⊢
    rw [u.flash, u.next, u.fault]; exact this
  · obtain ⟨y, hy, ky⟩ := u.start h k
    obtain ⟨f1, f2, f3⟩ := f y hy
    refine ⟨?_, ?_, fun n bases ek => ?_⟩
    · unfold State.Ready at *; rw [u.mount]; exact f1
    · rcases u.work with x | x
      · rw [x]; exact f2
      · exact x
    · rw [u.flash, u.next]
      exact f3 n bases (ky ▸ ek)

theorem Untouched.scan {s t : State} (u : Untouched s t) (h : s.ScanLaw) : t.ScanLaw := by
  unfold State.ScanLaw at *
  rw [u.flash, u.mount]; exact h

/-- Past pass 1 the law of the scan says nothing. -/
theorem scan_of_stage {t : State} (h : t.mount.stage ≠ .scan) : t.ScanLaw := fun k => absurd k h

theorem scan_ends {s t : State} (hs : s.mount.stage ≠ .scan) (hm : t.mount = s.mount ∨ t.mount = s.mount.finish) : t.ScanLaw := by
  refine scan_of_stage ?_
  rcases hm with e | e <;> rw [e]
  · exact hs
  · simp [Mount.finish]

/-! ### Hand-offs of the engine -/

theorem ground_of {s : State} (h : StampsOk s) (pool : ∀ b ∈ s.bm.freePool, s.bm.classOf b = some .free) (hw : s.eng.work ≠ .idle) :
    Ground s := by
  refine ⟨h.next, h.below, h.free, pool, ?_⟩
  cases e : s.eng.start with
  | none => rfl
  | some k => exact absurd (h.start k e).2.1 hw

/-- The record of a commit is the same to the array whatever was handed or requested. -/
theorem GroupMid.flags {m : Memory} {next : Nat} {fault : Bool} {r : CommitRec} {step : CommitStep} (a b : Bool)
    (h : GroupMid m next fault r step) : GroupMid m next fault { r with unwindRequested := a, boundaryHanded := b } step :=
  ⟨⟨h.base.stampable, h.base.whole, h.base.free, h.base.later, h.base.within⟩, h.lines, h.unmarked, h.unstamped, h.stamped⟩

theorem boundaryHandoff_stamps (s t : State) (h : StampsOk s) (pool : ∀ b ∈ s.bm.freePool, s.bm.classOf b = some .free)
    (hb : s.eng.work.HoldsBlocks s.bm) (e : execBoundaryHandoff s = .next t) : StampsOk t := by
  unfold execBoundaryHandoff at e
  split at e
  · next r hw =>
    have g := ground_of h pool (by rw [hw]; simp)
    have w := h.work
    rw [hw] at w hb
    have u := w.1.unstamped (.inr (.inr rfl))
    simp only at e
    split at e
    · cases e
      refine ⟨h.next, h.below, h.free, ?_, fun k hk => ?_⟩
      · have := (w.1.flags r.unwindRequested true).goOn (step' := .dataStamp) (fun _ e => by cases e)
          (fun _ => w.1.unmarked (by simp)) (fun _ => u) fun k => by rcases k with k | k <;> cases k
        exact this
      · have : s.eng.start = some k := hk
        rw [g.start] at this; cases this
    · cases e
      exact unwindNext_stamps s _ g (unwindAt_of w.1.base (progOk_of hb (by simp)).lt fun _ => .inl u)
  · cases e; exact h

theorem takeUnwind_stamps (s : State) (i : SessionId) (h : StampsOk s) (pool : ∀ b ∈ s.bm.freePool, s.bm.classOf b = some .free)
    (hb : s.eng.work.HoldsBlocks s.bm) : StampsOk (s.takeUnwind i) := by
  unfold State.takeUnwind
  split
  · next r step hw =>
    have g := ground_of h pool (by rw [hw]; simp)
    have w := h.work
    rw [hw] at w hb
    have mark : StampsOk (s.setWork (.commit { r with unwindRequested := true } step)) :=
      ground_work s g _ ⟨w.1.flags true r.boundaryHanded, w.2⟩
    split
    · split
      · exact mark
      · exact mark
      · exact mark
      · exact mark
      · exact unwindNext_stamps s _ g (unwindAt_of w.1.base (progOk_of hb (by simp)).lt fun _ => .inl (w.1.unstamped (.inr (.inr rfl))))
      · exact h
      · exact h
    · exact h
  · exact h

theorem failureHandoff_stamps (s t : State) (h : StampsOk s) (e : execFailureHandoff s = .next t) : StampsOk t := by
  cases e
  exact ⟨h.next, h.below, h.free, h.work, h.start⟩

/-! ### The flip -/

theorem flip_stamps (s : State) (r : CommitRec) (L : Law s) (h : StampsOk s) (hw : s.eng.work = .commit r .flipRequested)
    (x : Option FlipWork) :
    StampsOk (State.setWork { s.flipMembers r with map := { (s.flipMembers r).map with flip := x } } (.commit r .flipTaken)) := by
  have hr := flipReady L.1 hw
  have f := flipMembers_spec hr
  have w := h.work
  rw [hw] at w
  have hold : HoldsTargets s.bm r.session r.targets := by
    have := work_of s L
    rw [hw] at this
    exact this.2.2.2.2.1 (by simp)
  have e1 : (s.flipMembers r).flash = s.flash := by rw [f.frame]
  have e2 : (s.flipMembers r).map.nextSerial = s.map.nextSerial := by rw [f.map]
  have e3 : (s.flipMembers r).eng = s.eng := by rw [f.frame]
  have hs : s.eng.start = none := (ground_of h ((blockLaw_iff s).1 L.1).1.free (by rw [hw]; simp)).start
  have blocks : ∀ b, (s.flipMembers r).bm.block b = s.bm.block b
      ∨ (∃ c, c ≠ .free ∧ (s.flipMembers r).bm.block b = (s.bm.block b).map fun y => { y with cls := c }) := by
    intro b
    by_cases h1 : ∃ m q, m < r.pages.length ∧ r.pages[m]? = some q ∧ r.targets[m]? = some (some b)
    · obtain ⟨m, q, h1, h2, h3⟩ := h1
      exact .inr ⟨_, by simp, f.data m q b h1 h2 h3⟩
    · by_cases h2 : ∃ m q, m < r.pages.length ∧ r.pages[m]? = some q ∧ s.map.currentBlock q = some b
      · obtain ⟨m, q, k1, k2, k3⟩ := h2
        exact .inr ⟨_, by simp, f.dirty m q b k1 k2 k3⟩
      · refine .inl (f.same b (fun m hm e => h1 ?_) fun m q hm e k => h2 ⟨m, q, hm, e, k⟩)
        exact ⟨m, _, hm, List.getElem?_eq_getElem hm, e⟩
  refine ⟨?_, ?_, ?_, ?_, fun k hk => ?_⟩
  · show 1 ≤ (s.flipMembers r).map.nextSerial
    rw [e2]; exact h.next
  · show Below (s.flipMembers r).flash (s.flipMembers r).map.nextSerial
    rw [e1, e2]; exact h.below
  · show FreeOk (s.flipMembers r).flash (s.flipMembers r).bm
    rw [e1]
    refine free_congr (fun b hb => ?_) h.free
    unfold BlockManager.classOf BlockManager.eraseCount at *
    rcases blocks b with e | ⟨c, hc, e⟩
    · rw [e] at hb ⊢; exact ⟨hb, rfl⟩
    · rw [e] at hb
      cases hbk : s.bm.block b with
      | none => rw [hbk] at hb; cases hb
      | some y => rw [hbk] at hb; exact absurd (Option.some.inj hb) hc
  · show WorkStamps (s.flipMembers r).flash (s.flipMembers r).map.nextSerial (s.flipMembers r).eng.markFault (.commit r .flipTaken)
    rw [e1, e2, e3]
    exact w.1.goOn (fun _ e => by cases e) (fun _ => w.1.unmarked (by simp)) (fun k => by rcases k with k | ⟨_, k⟩ | k | k <;> cases k)
      fun _ => w.1.stamped (.inl rfl)
  · have : (s.flipMembers r).eng.start = some k := hk
    rw [e3, hs] at this; cases this

/-! ### The mount -/

/-- With an IDLE engine and no start hand-off, the law is about serials and FREE blocks alone. -/
theorem stampLaw_idle {t : State} (hw : t.eng.work = .idle) (hs : t.eng.start = none)
    (serials : t.mount.stage ≠ .scan → 1 ≤ t.map.nextSerial ∧ Below t.flash t.map.nextSerial) (free : FreeOk t.flash t.bm) : t.StampLaw := by
  refine ⟨serials, free, fun b k => ?_, fun r st k => ?_, fun u st k => ?_, fun h k => ?_⟩
  · rw [hw] at k; cases k
  · rw [hw] at k; cases k
  · rw [hw] at k; cases k
  · rw [hs] at k; cases k

theorem noStart_of {s : State} (h : s.StampLaw) (hn : ¬ s.Ready) : s.eng.start = none := by
  cases e : s.eng.start with
  | none => rfl
  | some k => exact absurd (h.2.2.2.2.2 k e).1 hn

theorem classify_free {spare : List Byte} {c : Nat} (hl : spare.length = 64) (h : classify spare = .free c) :
    freeStampCount spare = some c ∧ ∀ j, 8 ≤ j → j < 36 → spare.getD j 0xFF = 0xFF := by
  unfold classify at h
  simp only at h
  split at h
  · cases h
  · split at h
    · cases h
    · split at h
      · cases h
      · next n hn =>
        split at h
        · next hc => cases h; exact ⟨hn, (clean_iff spare hl).1 hc⟩
        · split at h <;> cases h

theorem scan_stamps (s : State) (b : BlockId) (L : Law s) (hs : s.mount.stage = .scan) (hb : s.mount.position = b.val)
    (h : s.StampLaw) : (s.scanBlock b).StampLaw := by
  have hidle : s.eng.work = .idle := L.2.2.1 (.inl hs)
  have hstart := noStart_of h (not_ready_of L.2 hs (by simp))
  have eflash : (s.placeRow b (classify (s.flash.spare b))).flash = s.flash := by unfold State.placeRow; split <;> rfl
  have eeng : (s.placeRow b (classify (s.flash.spare b))).eng = s.eng := by unfold State.placeRow; split <;> rfl
  have estage : (s.placeRow b (classify (s.flash.spare b))).mount.stage = .scan := by unfold State.placeRow; split <;> exact hs
  have work : (s.scanBlock b).eng.work = .idle := by
    show (s.placeRow b _).eng.work = _
    rw [eeng]; exact hidle
  have start : (s.scanBlock b).eng.start = none := by
    show (s.placeRow b _).eng.start = _
    rw [eeng]; exact hstart
  refine stampLaw_idle work start (fun k => absurd estage k) fun x hx => ?_
  have hx : (s.placeRow b (classify (s.flash.spare b))).bm.classOf x = some .free := hx
  show freeStampCount ((s.placeRow b (classify (s.flash.spare b))).flash.spare x)
    = some ((s.placeRow b (classify (s.flash.spare b))).bm.eraseCount x)
    ∧ ∀ j, 8 ≤ j → j < 36 → (s.placeRow b (classify (s.flash.spare b))).flash.read (spareAddr x j) = 0xFF
  rw [eflash]
  have old := h.2.1 x
  have placed : ∀ (bm : BlockManager) (r : BlockRec), (∀ y, bm.block y = if y = b then some r else s.bm.block y) →
      bm.classOf x = some .free → (x = b → r.cls = .free → freeStampCount (s.flash.spare b) = some r.eraseCount
        ∧ ∀ j, 8 ≤ j → j < 36 → s.flash.read (spareAddr b j) = 0xFF) →
      freeStampCount (s.flash.spare x) = some (bm.eraseCount x) ∧ ∀ j, 8 ≤ j → j < 36 → s.flash.read (spareAddr x j) = 0xFF := by
    intro bm r hbm hc hn
    unfold BlockManager.classOf BlockManager.eraseCount at *
    rw [hbm] at hc ⊢
    by_cases e : x = b
    · subst e
      rw [if_pos rfl] at hc ⊢
      exact hn rfl (Option.some.inj hc)
    · rw [if_neg e] at hc ⊢
      exact old hc
  cases hrow : classify (s.flash.spare b) with
  | retired c => rw [hrow] at hx; exact placed _ _ (fun y => block_place s.bm b y _) hx (fun _ k => by cases k)
  | voided c => rw [hrow] at hx; exact placed _ _ (fun y => block_place s.bm b y _) hx (fun _ k => by cases k)
  | torn c => rw [hrow] at hx; exact placed _ _ (fun y => block_place s.bm b y _) hx (fun _ k => by cases k)
  | unknownErase => rw [hrow] at hx; exact placed _ _ (fun y => block_place s.bm b y _) hx (fun _ k => by cases k)
  | candidate st => rw [hrow] at hx; exact old hx
  | free c =>
    rw [hrow] at hx
    refine placed _ _ (fun y => block_place s.bm b y _) hx fun _ _ => ?_
    obtain ⟨k1, k2⟩ := classify_free (length_spare _ _) hrow
    exact ⟨k1, fun j h1 h2 => by rw [← getD_spare s.flash b j (by omega)]; exact k2 j h1 h2⟩

theorem scan_scan (s : State) (hp : s.mount.position < 512) (hs : s.mount.stage = .scan) (h : s.ScanLaw) :
    (s.scanBlock ⟨s.mount.position, hp⟩).ScanLaw := by
  obtain ⟨h1, h2, h3⟩ := h hs
  intro _
  have eflash : ∀ row, (s.placeRow ⟨s.mount.position, hp⟩ row).flash = s.flash := by intro row; unfold State.placeRow; split <;> rfl
  refine ⟨hp, ?_, ?_⟩
  · show (s.placeRow _ _).mount.tally = (s.placeRow _ _).flash.tallied (s.mount.position + 1)
    rw [eflash, tallied_succ _ _ hp, ← h2]
    unfold Memory.candidate
    cases hrow : classify (s.flash.spare ⟨s.mount.position, hp⟩) <;> rfl
  · show largestWith s.mount.largestSerial _ = (s.placeRow _ _).flash.largestSerial (s.mount.position + 1)
    rw [eflash, largestSerial_succ _ _ hp, ← h3]

theorem build_stamps (s : State) (L : Law s) (hs : s.mount.stage = .scan) (hp : 512 ≤ s.mount.position) (hscan : s.ScanLaw)
    (h : s.StampLaw) : s.buildTables.StampLaw := by
  obtain ⟨h1, -, h3⟩ := hscan hs
  have hpos : s.mount.position = 512 := by omega
  have hidle : s.eng.work = .idle := L.2.2.1 (.inl hs)
  have hstart := noStart_of h (not_ready_of L.2 hs (by simp))
  have eflash : s.buildTables.flash = s.flash := by unfold State.buildTables; dsimp only
  have eeng : s.buildTables.eng = s.eng := by unfold State.buildTables; dsimp only
  have enext : s.buildTables.map.nextSerial = s.mount.largestSerial + 1 := by unfold State.buildTables; dsimp only; rfl
  refine stampLaw_idle (by rw [eeng]; exact hidle) (by rw [eeng]; exact hstart)
    (fun _ => ⟨by rw [enext]; omega, fun b st hb => ?_⟩) fun b hb => ?_
  · rw [eflash] at hb
    rw [enext, h3, hpos]
    exact Nat.lt_succ_of_le (largestSerial_le s.flash 512 (Nat.le_refl _) b b.isLt st hb)
  · rw [eflash]
    have old := h.2.1 b
    unfold BlockManager.classOf BlockManager.eraseCount at *
    rw [built_block] at hb ⊢
    unfold State.builtRecord at hb ⊢
    cases hbk : s.bm.block b with
    | some r =>
      rw [hbk] at hb old
      exact old hb
    | none =>
      rw [hbk] at hb
      simp only at hb
      split at hb <;> cases hb

theorem reset_stamps (t : State) (h1 : t.bm = BlockManager.reset) (m : Bool) (h2 : t.eng = Engine.reset m) (c : ResetCause)
    (h3 : t.mount = Mount.start c) : t.ScanLaw ∧ t.StampLaw := by
  have hb : ∀ b, t.bm.block b = none := fun b => by rw [h1]; simp [BlockManager.reset, BlockManager.block]
  refine ⟨fun _ => by rw [h3]; exact ⟨Nat.zero_le _, rfl, rfl⟩, stampLaw_idle (by rw [h2]; rfl) (by rw [h2]; rfl) (fun k => ?_) fun b k => ?_⟩
  · rw [h3] at k; exact absurd rfl k
  · unfold BlockManager.classOf at k; rw [hb] at k; cases k

/-! ### A cut shows a group whole or not at all (R92) -/

/-- Whatever a cut leaves, the group's candidates are those of its members, and no stamp carries a higher serial. -/
theorem cut_group (s : State) (cut : Cut) (h : StampsOk s) (pool : ∀ b ∈ s.bm.freePool, s.bm.classOf b = some .free)
    (hb : s.eng.work.HoldsBlocks s.bm) : Below (s.cutFlash cut).flash s.map.nextSerial
      ∧ WorkMid (s.cutFlash cut).flash s.map.nextSerial s.eng.markFault s.eng.work := by
  cases hop : s.eng.work.inFlight with
  | none =>
    have : (s.cutFlash cut).flash = s.flash := by unfold State.cutFlash; rw [hop]
    rw [this]; exact ⟨h.below, h.work.mid⟩
  | some op =>
    rw [cutFlash_some s cut op hop]
    obtain ⟨g, w⟩ := op_ended s _ op h pool hb hop (opWrote_cut s op cut (line_in_range s h.work hop))
    exact ⟨g.below, w⟩

/-- The group of a commit is complete exactly when its last member has its data stamp. -/
theorem group_shown (m : Memory) (next : Nat) (r : CommitRec) (step : CommitStep) (g : GroupMid m next false r step) (low : Below m next)
    (lt : r.member < r.pages.length) (upTo : ∀ k, k ≤ r.member → ∃ b, r.targets[k]? = some (some b)) :
    m.GroupComplete r.serial ↔ ∃ b, r.targets[r.pages.length - 1]? = some (some b)
      ∧ m.candidate b = some (r.stamp (r.pages.length - 1)) := by
  have w := g.base.within rfl
  rw [groupComplete_iff m r (r.member + 1) (by omega) w fun b st e => by
    have := low b st ((candidate_iff m b st).1 e).2.2.2
    have := g.base.stampable.1
    omega]
  constructor
  · intro h; exact h _ (by omega)
  · rintro ⟨b, h1, h2⟩ i hi
    have last : r.member = r.pages.length - 1 := by
      have : r.pages.length - 1 < r.member + 1 := (w b _ h2 rfl).1
      omega
    by_cases e : i = r.pages.length - 1
    · subst e; exact ⟨b, h1, h2⟩
    · obtain ⟨c, hc⟩ := upTo i (by omega)
      exact ⟨c, hc, g.base.whole i c (by omega) hc⟩

/-- A group that is unwound is not complete. -/
theorem group_hidden (m : Memory) (next : Nat) (u : UnwindRec) (h : UnwindAt m next false u) (low : Below m next) :
    ¬ m.GroupComplete u.serial := by
  obtain ⟨r, rfl, hs, w⟩ := h rfl
  have hpos : 1 ≤ r.pages.length := hs.2.2.2.1
  intro k
  have k : m.GroupComplete r.serial := k
  rw [groupComplete_iff m r _ hpos w fun b st e => by
    have := low b st ((candidate_iff m b st).1 e).2.2.2
    have := hs.1
    omega] at k
  obtain ⟨b, -, hb⟩ := k (r.pages.length - 1) (by omega)
  have : r.pages.length - 1 < r.pages.length - 1 := (w b _ hb rfl).1
  omega

end Sys2Proof.Laws
end

