-- ==== Sys2Proof/Laws/ArrayLaw.lean ====
section
/-! SUPPORT. All groups on the array: when a mount takes a group as complete and which versions it shows, and that the engine, its
operations, the flip and the mount keep the law of the array (R28, R72 to R92, R114 to R123). -/

namespace Sys2Proof.Laws

open Sys2Proof Sys2Proof.Machine

/-! ### Valid stamps -/

theorem stampOk_valid (spare : List Byte) (st : DataStamp) (h : dataStamp spare = some st) : StampOk st := by
  unfold dataStamp at h
  simp only at h
  split at h
  · next k =>
    obtain ⟨-, -, h1, h2, h3, -, h4, h5⟩ := k
    split at h
    · next pages hp =>
      split at h
      · split at h
        · next hn => cases h; exact ⟨((stampPages_iff _ _ _).1 hp).1, h1, h2, h3, hn, h4, h5⟩
        · cases h
      · cases h
    · cases h
  · cases h

theorem candidate_stamp {m : Memory} {b : BlockId} {st : DataStamp} (h : m.candidate b = some st) : StampOk st :=
  stampOk_valid _ st ((candidate_iff m b st).1 h).2.2.2

/-- The page of a member is the one in its group's list. -/
theorem page_at {st : DataStamp} (h : StampOk st) : st.pages[st.index]? = some st.page := by
  have hi : st.index < st.pages.length := by rw [h.count]; exact h.index
  unfold DataStamp.page
  rw [List.getD_eq_getElem?_getD, List.getElem?_eq_getElem hi]; rfl

theorem page_mem {st : DataStamp} (h : StampOk st) : st.page ∈ st.pages := List.mem_of_getElem? (page_at h)

/-- In one group, a page is that of one member. -/
theorem index_of_page {st st' : DataStamp} (h : StampOk st) (h' : StampOk st') (e : st.pages = st'.pages) (hp : st.page = st'.page) :
    st.index = st'.index := by
  have a := page_at h
  have b := page_at h'
  rw [← e] at b
  obtain ⟨i1, e1⟩ := List.getElem?_eq_some_iff.1 a
  obtain ⟨i2, e2⟩ := List.getElem?_eq_some_iff.1 b
  exact (List.Nodup.getElem_inj_iff h.nodup).1 (e1.trans (hp.trans e2.symm))

/-! ### When a mount takes a group as complete -/

/-- A group with a candidate is complete exactly when each of its pages has a candidate of the group or a newer one (R117). -/
theorem complete_iff {m : Memory} (A : m.Agrees) {b : BlockId} {st : DataStamp} (h : m.candidate b = some st) :
    m.GroupComplete st.serial ↔ ∀ page ∈ st.pages, ∃ b' st', m.candidate b' = some st' ∧ st'.page = page
      ∧ st.serial ≤ st'.serial := by
  have ok := tallied_ok m 512
  have hst := candidate_stamp h
  obtain ⟨e, he, es, hm⟩ := ok.all b (mem_allBlocks b) st h
  have only : ∀ f ∈ m.tallied 512, f.serial = st.serial → f = e := fun f hf k =>
    List.inj_on_of_nodup_map ok.serials hf he (k.trans es.symm)
  obtain ⟨b0, -, st0, hb0, s0, c0, p0, w0⟩ := ok.fields e he
  have hst0 := candidate_stamp hb0
  obtain ⟨pg, wr, -⟩ := A b b0 st st0 h hb0 (es.symm.trans s0.symm)
  have epages : e.pages = st.pages := by rw [← p0, pg]
  have ecount : e.count = st.count := by rw [← c0, ← hst0.count, ← pg, hst.count]
  have cons : e.consistent = true := ok.consistent e he fun x _ sx hx k => by
    obtain ⟨g1, g2, -⟩ := A x b sx st hx h (k.trans es)
    refine ⟨?_, g1.trans epages.symm, g2.trans (wr.trans w0)⟩
    rw [← (candidate_stamp hx).count, g1, hst.count, ecount]
  have member : ∀ i page, st.pages[i]? = some page → ((∃ c ∈ e.members, c.index = i) ↔
      ∃ b' st', m.candidate b' = some st' ∧ st'.page = page ∧ st'.serial = st.serial) := by
    intro i page hp
    constructor
    · rintro ⟨c, hc, rfl⟩
      obtain ⟨x, -, sx, hx, k, rfl⟩ := ok.members e he c hc
      refine ⟨x, sx, hx, ?_, k.trans es⟩
      obtain ⟨g1, -, -⟩ := A x b sx st hx h (k.trans es)
      have := page_at (candidate_stamp hx)
      rw [g1] at this
      exact Option.some.inj (this.symm.trans hp)
    · rintro ⟨x, sx, hx, hpg, k⟩
      obtain ⟨f, hf, fs, hc⟩ := ok.all x (mem_allBlocks x) sx hx
      rw [only f hf (fs.trans k)] at hc
      refine ⟨_, hc, ?_⟩
      show sx.index = i
      obtain ⟨g1, -, -⟩ := A x b sx st hx h k
      have a := page_at (candidate_stamp hx)
      rw [g1, hpg] at a
      obtain ⟨i1, e1⟩ := List.getElem?_eq_some_iff.1 a
      obtain ⟨i2, e2⟩ := List.getElem?_eq_some_iff.1 hp
      exact (List.Nodup.getElem_inj_iff hst.nodup).1 (e1.trans e2.symm)
  have newer : ∀ page, (∃ f ∈ m.tallied 512, e.serial < f.serial ∧ ∃ c ∈ f.members, c.page = page) ↔
      ∃ b' st', m.candidate b' = some st' ∧ st'.page = page ∧ st.serial < st'.serial := by
    intro page
    constructor
    · rintro ⟨f, hf, lt, c, hc, rfl⟩
      obtain ⟨x, -, sx, hx, k, rfl⟩ := ok.members f hf c hc
      exact ⟨x, sx, hx, rfl, by omega⟩
    · rintro ⟨x, sx, hx, hp, lt⟩
      obtain ⟨f, hf, fs, hc⟩ := ok.all x (mem_allBlocks x) sx hx
      exact ⟨f, hf, by omega, _, hc, hp⟩
  constructor
  · rintro ⟨f, hf, fs, -, hall⟩ page hp
    rw [only f hf fs] at hall
    obtain ⟨i, hi, ep⟩ := List.getElem_of_mem hp
    have hget : st.pages[i]? = some page := by rw [List.getElem?_eq_getElem hi, ep]
    rcases hall i (by rw [ecount, ← hst.count]; exact hi) with k | ⟨pg', k1, k2⟩
    · obtain ⟨x, sx, hx, h1, h2⟩ := (member i page hget).1 k
      exact ⟨x, sx, hx, h1, by omega⟩
    · rw [epages, hget] at k1
      cases k1
      obtain ⟨x, sx, hx, h1, h2⟩ := (newer page).1 k2
      exact ⟨x, sx, hx, h1, by omega⟩
  · intro hall
    refine ⟨e, he, es, cons, fun i hi => ?_⟩
    have hi : i < st.pages.length := by rw [hst.count, ← ecount]; exact hi
    have hget : st.pages[i]? = some st.pages[i] := List.getElem?_eq_getElem hi
    obtain ⟨x, sx, hx, h1, h2⟩ := hall _ (List.getElem_mem hi)
    rcases Nat.lt_or_eq_of_le h2 with lt | eq
    · exact .inr ⟨_, by rw [epages]; exact hget, (newer _).2 ⟨x, sx, hx, h1, lt⟩⟩
    · exact .inl ((member i _ hget).2 ⟨x, sx, hx, h1, eq.symm⟩)

/-- A complete group has a candidate. -/
theorem complete_candidate {m : Memory} {serial : Nat} (h : m.GroupComplete serial) :
    ∃ b st, m.candidate b = some st ∧ st.serial = serial := by
  obtain ⟨e, he, es, -⟩ := h
  obtain ⟨b, -, st, hb, k, -⟩ := (tallied_ok m 512).fields e he
  exact ⟨b, st, hb, k.trans es⟩

/-- The versions that a mount shows, block by block (R120). -/
theorem shows_iff {m : Memory} (A : m.Agrees) (q : PageId) (e : MapEntry) :
    m.Shows q e ↔ ∃ st, m.candidate e.block = some st ∧ st.serial = e.serial ∧ st.writer = e.writer ∧ st.page = q
      ∧ m.GroupComplete st.serial
      ∧ ∀ b' st', m.candidate b' = some st' → st'.page = q → m.GroupComplete st'.serial → st'.serial ≤ st.serial := by
  have ok := tallied_ok m 512
  have complete : ∀ f ∈ m.tallied 512, (f.Complete (m.tallied 512) ↔ m.GroupComplete f.serial) := fun f hf => by
    constructor
    · exact fun k => ⟨f, hf, rfl, k⟩
    · rintro ⟨g, hg, gs, k⟩
      rwa [List.inj_on_of_nodup_map ok.serials hg hf gs] at k
  constructor
  · rintro ⟨g, c, ⟨hg, hcpl, hc, hmax⟩, rfl, rfl⟩
    obtain ⟨b, -, st, hb, k, rfl⟩ := ok.members g hg c hc
    obtain ⟨b0, -, st0, hb0, s0, -, -, w0⟩ := ok.fields g hg
    refine ⟨st, hb, k, ?_, rfl, by rw [k]; exact (complete g hg).1 hcpl, fun b' st' hb' hp hcp => ?_⟩
    · obtain ⟨-, w, -⟩ := A b b0 st st0 hb hb0 (k.trans s0.symm)
      exact w.trans w0
    · obtain ⟨f, hf, fs, hd⟩ := ok.all b' (mem_allBlocks b') st' hb'
      rcases hmax f hf ((complete f hf).2 (by rw [fs]; exact hcp)) _ hd hp with h | h <;> omega
  · rintro ⟨st, hb, h1, h2, h3, h4, h5⟩
    obtain ⟨g, hg, gs, hc⟩ := ok.all e.block (mem_allBlocks _) st hb
    obtain ⟨b0, -, st0, hb0, s0, -, -, w0⟩ := ok.fields g hg
    obtain ⟨-, w, -⟩ := A e.block b0 st st0 hb hb0 (gs.symm.trans s0.symm)
    refine ⟨g, st.candidate e.block, ⟨hg, (complete g hg).2 (by rw [gs]; exact h4), hc, fun f hf hfc d hd hp => ?_⟩, h3, ?_⟩
    · obtain ⟨x, -, sx, hx, k, rfl⟩ := ok.members f hf d hd
      have hp : sx.page = st.page := hp
      have := h5 x sx hx (hp.trans h3) (by rw [k]; exact (complete f hf).1 hfc)
      rcases Nat.lt_or_eq_of_le this with lt | eq
      · left; omega
      · right
        refine ⟨by omega, ?_⟩
        obtain ⟨g1, -, g3⟩ := A x e.block sx st hx hb eq
        have : x = e.block := g3 (index_of_page (candidate_stamp hx) (candidate_stamp hb) g1 hp)
        rw [this]; exact Nat.le_refl _
    · cases e
      simp only at h1 h2 w
      rw [gs, h1, ← w0, ← w, h2]
      rfl

/-! ### The law in parts -/

/-- Each page of the stamp's group is mapped to that version or a newer one. -/
def Newer (entry : PageId → Option MapEntry) (st : DataStamp) : Prop :=
  ∀ page ∈ st.pages, ∃ e, entry page = some e ∧ st.serial ≤ e.serial

/-- The law of the array behind pass 3: over the Page Map, the serial of the group at work, and the blocks still to be voided. -/
structure Arrayed (m : Memory) (entry : PageId → Option MapEntry) (u : Option Nat) (v : List BlockId) : Prop where
  agrees : m.Agrees
  mapped : ∀ q e, entry q = some e → ∃ st, m.candidate e.block = some st ∧ st.serial = e.serial ∧ st.writer = e.writer
    ∧ st.page = q ∧ Newer entry st
  placed : ∀ b st, m.candidate b = some st → Newer entry st ∨ u = some st.serial ∨ b ∈ v ∧ ¬ m.GroupComplete st.serial

theorem arrayLaw_iff (s : State) (h : s.mount.stage ≠ .scan) :
    s.ArrayLaw ↔ Arrayed s.flash s.map.entry s.eng.work.unflipped s.toVoid :=
  ⟨fun k => ⟨k.1, (k.2.2 h).1, (k.2.2 h).2⟩, fun k => ⟨k.agrees, fun e => absurd e h, fun _ => ⟨k.mapped, k.placed⟩⟩⟩

theorem arrayLaw_scan (s : State) (h : s.mount.stage = .scan) : s.ArrayLaw ↔ s.flash.Agrees ∧ s.flash.Recoverable :=
  ⟨fun k => ⟨k.1, k.2.1 h⟩, fun k => ⟨k.1, fun _ => k.2, fun n => absurd h n⟩⟩

section
variable {m m' : Memory} {entry : PageId → Option MapEntry} {u : Option Nat} {v : List BlockId}

/-- The law over the same array and Page Map. -/
theorem Arrayed.carry (A : Arrayed m entry u v) {u' : Option Nat} {v' : List BlockId}
    (hu : ∀ S, u = some S → u' = some S ∨ ∀ b st, m.candidate b = some st → st.serial ≠ S)
    (hv : ∀ b ∈ v, b ∈ v' ∨ m.candidate b = none) : Arrayed m entry u' v' := by
  refine ⟨A.agrees, A.mapped, fun b st h => ?_⟩
  rcases A.placed b st h with k | k | ⟨k, n⟩
  · exact .inl k
  · rcases hu _ k with e | e
    · exact .inr (.inl e)
    · exact absurd rfl (e b st h)
  · rcases hv b k with e | e
    · exact .inr (.inr ⟨e, n⟩)
    · rw [h] at e; cases e

/-- A group that was flipped is complete. -/
theorem Arrayed.complete (A : Arrayed m entry u v) {b : BlockId} {st : DataStamp} (h : m.candidate b = some st)
    (k : Newer entry st) : m.GroupComplete st.serial := by
  refine (complete_iff A.agrees h).2 fun page hp => ?_
  obtain ⟨e, he, le⟩ := k page hp
  obtain ⟨st', h', s', -, p', -⟩ := A.mapped page e he
  exact ⟨e.block, st', h', p', by omega⟩

/-- With fewer candidates no more groups are complete. -/
theorem incomplete_kept (A : m.Agrees) (A' : m'.Agrees) (less : ∀ b st, m'.candidate b = some st → m.candidate b = some st)
    {S : Nat} (h : m'.GroupComplete S) : m.GroupComplete S := by
  obtain ⟨b, st, hb, rfl⟩ := complete_candidate h
  refine (complete_iff A (less b st hb)).2 fun page hp => ?_
  obtain ⟨b', st', h', k⟩ := (complete_iff A' hb).1 h page hp
  exact ⟨b', st', less _ _ h', k⟩

/-- An operation ends, whatever it leaves: candidates are those of before and of the group at work, and those of mapped pages
stand. -/
theorem Arrayed.operation (A : Arrayed m entry u v) (A' : m'.Agrees)
    (made : ∀ b st, m'.candidate b = some st → m.candidate b = some st ∨ u = some st.serial)
    (kept : ∀ q e, entry q = some e → m'.candidate e.block = m.candidate e.block)
    (hv : v = [] ∨ ∀ b st, m'.candidate b = some st → m.candidate b = some st) : Arrayed m' entry u v := by
  refine ⟨A', fun q e he => ?_, fun b st h => ?_⟩
  · obtain ⟨st, h, k⟩ := A.mapped q e he
    exact ⟨st, by rw [kept q e he]; exact h, k⟩
  · rcases made b st h with k | k
    · rcases A.placed b st k with x | x | ⟨x, n⟩
      · exact .inl x
      · exact .inr (.inl x)
      · rcases hv with e | less
        · rw [e] at x; cases x
        · exact .inr (.inr ⟨x, fun c => n (incomplete_kept A.agrees A' less c)⟩)
    · exact .inr (.inl k)

/-- Stamps agree when those of one serial are those of one record's members, and the others are of before. -/
theorem agrees_record (A : m.Agrees) (r : CommitRec)
    (old : ∀ b st, m'.candidate b = some st → m.candidate b = some st ∨ st.serial = r.serial)
    (own : ∀ b st, m'.candidate b = some st → st.serial = r.serial → r.targets[st.index]? = some (some b) ∧ st = r.stamp st.index) :
    m'.Agrees := by
  intro b b' st st' h h' e
  by_cases k : st.serial = r.serial
  · obtain ⟨t1, s1⟩ := own b st h k
    obtain ⟨t2, s2⟩ := own b' st' h' (e.symm.trans k)
    refine ⟨by rw [s1, s2]; rfl, by rw [s1, s2]; rfl, fun i => ?_⟩
    rw [i, t2] at t1
    cases t1; rfl
  · exact A b b' st st' ((old b st h).resolve_right k) ((old b' st' h').resolve_right fun x => k (e.trans x)) e

/-- The next mount recovers: every page of a complete group has a version in a complete group. -/
theorem Arrayed.recoverable (A : Arrayed m entry u v) (top : ∀ S, u = some S → ∀ b st, m.candidate b = some st → st.serial ≤ S) :
    m.Recoverable := by
  intro b st h hc page hp
  rcases A.placed b st h with k | k | ⟨-, n⟩
  · obtain ⟨e, he, le⟩ := k page hp
    obtain ⟨st', h', s', -, p', k'⟩ := A.mapped page e he
    exact ⟨e.block, st', h', p', by omega, A.complete h' k'⟩
  · obtain ⟨b', st', h', p', le⟩ := (complete_iff A.agrees h).1 hc page hp
    have := top _ k b' st' h'
    exact ⟨b', st', h', p', le, by rw [show st'.serial = st.serial by omega]; exact hc⟩
  · exact absurd hc n

/-- A page that is no page of the group at work, or whose group is not complete, is shown as it is mapped (R92, R120). -/
theorem Arrayed.shows_mapped (A : Arrayed m entry u v) (q : PageId)
    (no : ∀ b st, m.candidate b = some st → u = some st.serial → m.GroupComplete st.serial → st.page ≠ q) (e : MapEntry) :
    m.Shows q e ↔ entry q = some e := by
  have flipped : ∀ b st, m.candidate b = some st → st.page = q → m.GroupComplete st.serial → Newer entry st := by
    intro b st h hp hc
    rcases A.placed b st h with k | k | ⟨-, n⟩
    · exact k
    · exact absurd hp (no b st h k hc)
    · exact absurd hc n
  rw [shows_iff A.agrees]
  constructor
  · rintro ⟨st, h, s1, w1, hp, hc, hmax⟩
    obtain ⟨e', he, le⟩ := flipped _ st h hp hc q (hp ▸ page_mem (candidate_stamp h))
    obtain ⟨st', h', s2, w2, p2, k'⟩ := A.mapped q e' he
    have := hmax _ st' h' p2 (A.complete h' k')
    obtain ⟨g1, g2, g3⟩ := A.agrees e.block e'.block st st' h h' (by omega)
    have hb := g3 (index_of_page (candidate_stamp h) (candidate_stamp h') g1 (hp.trans p2.symm))
    rw [he]
    have : e' = e := by
      cases e; cases e'
      simp only at *
      subst hb
      rw [← s2, ← w2, ← w1, ← g2, show st'.serial = st.serial by omega, s1]
    rw [this]
  · intro he
    obtain ⟨st, h, s1, w1, hp, k⟩ := A.mapped q e he
    refine ⟨st, h, s1, w1, hp, A.complete h k, fun b' st' h' hp' hc' => ?_⟩
    obtain ⟨e', he', le⟩ := flipped _ st' h' hp' hc' q (hp' ▸ page_mem (candidate_stamp h'))
    rw [he] at he'; cases he'
    omega

/-- A page of the group at work, complete, is shown on its target (R92, R120). -/
theorem shows_target (A : m.Agrees) (r : CommitRec) (n : Nat) (w : m.GroupWithin r n) (pages : r.pages.Nodup)
    (low : ∀ b st, m.candidate b = some st → st.serial ≤ r.serial) (hpos : 1 ≤ r.pages.length)
    (hc : m.GroupComplete r.serial) (i : Nat) (q : PageId) (hq : r.pages[i]? = some q) (e : MapEntry) :
    m.Shows q e ↔ ∃ b, r.targets[i]? = some (some b) ∧ e = { block := b, serial := r.serial, writer := r.writer } := by
  obtain ⟨hi, eq⟩ := List.getElem?_eq_some_iff.1 hq
  obtain ⟨b, hb, cb⟩ := (groupComplete_iff m r n hpos w low).1 hc i hi
  have page : (r.stamp i).page = q := by
    show r.pages.getD i 0 = q
    rw [List.getD_eq_getElem?_getD, hq]; rfl
  rw [shows_iff A]
  constructor
  · rintro ⟨st, h, s1, w1, hp, -, hmax⟩
    have := hmax b _ cb page hc
    have hs : st.serial = r.serial := by
      have := low _ st h
      have : (r.stamp i).serial = r.serial := rfl
      omega
    obtain ⟨-, t, es⟩ := w _ st h hs
    have hidx := index_of_page (candidate_stamp h) (candidate_stamp cb) (by rw [es]; rfl) (hp.trans page.symm)
    rw [hidx] at t
    refine ⟨e.block, t, ?_⟩
    cases e
    simp only at s1 w1
    rw [← s1, ← w1, hs, show st.writer = r.writer by rw [es]; rfl]
  · rintro ⟨b', hb', rfl⟩
    rw [hb] at hb'; cases hb'
    exact ⟨r.stamp i, cb, rfl, rfl, page, hc, fun b' st' h' _ _ => low b' st' h'⟩

/-- The flip: the group at work is a group that was flipped (R28). -/
theorem Arrayed.flip (A : Arrayed m entry u v) {entry' : PageId → Option MapEntry} (r : CommitRec) (n : Nat) (hu : u = some r.serial)
    (w : m.GroupWithin r n) (low : ∀ b st, m.candidate b = some st → st.serial ≤ r.serial)
    (whole : ∀ (i : Nat) (q : PageId), r.pages[i]? = some q → ∃ b, r.targets[i]? = some (some b) ∧ m.candidate b = some (r.stamp i))
    (new : ∀ (i : Nat) (q : PageId) (b : BlockId), r.pages[i]? = some q → r.targets[i]? = some (some b) →
      entry' q = some { block := b, serial := r.serial, writer := r.writer })
    (others : ∀ q, q ∉ r.pages → entry' q = entry q) : Arrayed m entry' none v := by
  have own : ∀ i, Newer entry' (r.stamp i) := by
    intro i page hp
    obtain ⟨j, hj, ej⟩ := List.getElem_of_mem (show page ∈ r.pages from hp)
    have hq : r.pages[j]? = some page := by rw [List.getElem?_eq_getElem hj, ej]
    obtain ⟨b, hb, -⟩ := whole j page hq
    exact ⟨_, new j page b hq hb, Nat.le_refl _⟩
  have old : ∀ b st, m.candidate b = some st → Newer entry st → Newer entry' st := by
    intro b st h k page hp
    by_cases g : page ∈ r.pages
    · obtain ⟨j, hj, ej⟩ := List.getElem_of_mem g
      have hq : r.pages[j]? = some page := by rw [List.getElem?_eq_getElem hj, ej]
      obtain ⟨b', hb', -⟩ := whole j page hq
      exact ⟨_, new j page b' hq hb', low b st h⟩
    · rw [others page g]; exact k page hp
  refine ⟨A.agrees, fun q e he => ?_, fun b st h => ?_⟩
  · by_cases g : q ∈ r.pages
    · obtain ⟨j, hj, ej⟩ := List.getElem_of_mem g
      have hq : r.pages[j]? = some q := by rw [List.getElem?_eq_getElem hj, ej]
      obtain ⟨b, hb, cb⟩ := whole j q hq
      rw [new j q b hq hb] at he
      cases he
      refine ⟨r.stamp j, cb, rfl, rfl, ?_, own j⟩
      show r.pages.getD j 0 = q
      rw [List.getD_eq_getElem?_getD, hq]; rfl
    · rw [others q g] at he
      obtain ⟨st, h, k1, k2, k3, k4⟩ := A.mapped q e he
      exact ⟨st, h, k1, k2, k3, old _ st h k4⟩
  · rcases A.placed b st h with k | k | k
    · exact .inl (old b st h k)
    · rw [hu] at k
      rw [(w b st h (Option.some.inj k).symm).2.2]
      exact .inl (own _)
    · exact .inr (.inr k)

end

/-! ### The mount (R116 to R121) -/

/-- The Page Map that the tables are built with shows what the array shows. -/
theorem built_shows (s : State) (M : s.MountLaw) (ht : s.mount.tally = s.flash.tallied 512) (q : PageId) (e : MapEntry) :
    s.buildTables.map.entry q = some e ↔ s.flash.Shows q e := by
  have nodup : ((s.mount.tally.flatMap TallyEntry.members).map Candidate.block).Nodup := M.2.2.2.1
  rw [built_entry, Option.map_eq_some_iff]
  unfold Memory.Shows
  rw [← ht]
  constructor
  · rintro ⟨x, hx, rfl⟩
    obtain ⟨h1, h2⟩ := currentVersion_mem _ _ _ hx
    obtain ⟨g, hg, -, hm, e1⟩ := (mem_cands _ _).1 h1
    refine ⟨g, x.2, (current_iff nodup g x.2).2 ⟨hg, hm, ?_⟩, h2, by rw [e1]; rfl⟩
    rw [h2, hx, ← e1]
  · rintro ⟨g, c, hv, rfl, rfl⟩
    exact ⟨_, ((current_iff nodup g c).1 hv).2.2, rfl⟩

/-- A page with a version in a complete group is mapped, to that version or a newer one (R120). -/
theorem built_mapped (s : State) (M : s.MountLaw) (ht : s.mount.tally = s.flash.tallied 512) (A : s.flash.Agrees) {b : BlockId}
    {st : DataStamp} (h : s.flash.candidate b = some st) (hc : s.flash.GroupComplete st.serial) :
    ∃ e, s.buildTables.map.entry st.page = some e ∧ st.serial ≤ e.serial := by
  cases hv : s.buildTables.map.entry st.page with
  | some e =>
    obtain ⟨st', -, s', -, -, -, hmax⟩ := (shows_iff A _ _).1 ((built_shows s M ht _ e).1 hv)
    exact ⟨e, rfl, by have := hmax b st h rfl hc; omega⟩
  | none =>
    exfalso
    rw [built_entry, Option.map_eq_none_iff] at hv
    unfold currentVersion at hv
    have ok := tallied_ok s.flash 512
    obtain ⟨g, hg, gs, hm⟩ := ok.all b (mem_allBlocks b) st h
    have hcpl : g.Complete (s.flash.tallied 512) := by
      obtain ⟨f, hf, fs, k⟩ := hc
      rwa [List.inj_on_of_nodup_map ok.serials hf hg (fs.trans gs.symm)] at k
    rw [← ht] at hg hcpl
    have hin : (judgedEntry s.mount.tally g, st.candidate b) ∈
        (completeCandidates (judgeTally s.mount.tally)).filter (fun x => x.2.page == st.page) :=
      List.mem_filter.2 ⟨(mem_cands _ _).2 ⟨g, hg, hcpl, hm, rfl⟩, by simp [DataStamp.candidate]⟩
    rcases best_spec ((completeCandidates (judgeTally s.mount.tally)).filter (fun x => x.2.page == st.page)) with ⟨k, -⟩ | ⟨x, -, k, -⟩
    · rw [k] at hin; cases hin
    · rw [k] at hv; cases hv

theorem mem_voidingList (tally : List TallyEntry) (b : BlockId) : b ∈ voidingList (judgeTally tally) ↔
    ∃ e ∈ tally, ¬ e.Complete tally ∧ ∃ c ∈ e.members, c.block = b := by
  unfold voidingList judgeTally
  rw [List.mem_filter]
  simp only [allBlocks, List.mem_finRange, true_and, List.any_eq_true, List.mem_map, Bool.and_eq_true, beq_iff_eq]
  constructor
  · rintro ⟨_, ⟨e, he, rfl⟩, h1, c, hc, hb⟩
    refine ⟨e, he, fun k => ?_, c, hc, hb⟩
    simp [(judge_iff tally e).2 k] at h1
  · rintro ⟨e, he, n, c, hc, hb⟩
    refine ⟨_, ⟨e, he, rfl⟩, ?_, c, hc, hb⟩
    have : e.judge tally = false := by
      cases k : e.judge tally with
      | false => rfl
      | true => exact absurd ((judge_iff tally e).1 k) n
    simp [this]

/-- Passes 2 and 3 establish the law of the array behind them (R117 to R121). -/
theorem build_arrayed (s : State) (M : s.MountLaw) (ht : s.mount.tally = s.flash.tallied 512) (A : s.flash.Agrees)
    (R : s.flash.Recoverable) :
    Arrayed s.flash s.buildTables.map.entry none (voidingList (judgeTally s.mount.tally)) := by
  have newer : ∀ b st, s.flash.candidate b = some st → s.flash.GroupComplete st.serial → Newer s.buildTables.map.entry st := by
    intro b st h hc page hp
    obtain ⟨b', st', h', rfl, le, hc'⟩ := R b st h hc page hp
    obtain ⟨e, he, le'⟩ := built_mapped s M ht A h' hc'
    exact ⟨e, he, by omega⟩
  refine ⟨A, fun q e he => ?_, fun b st h => ?_⟩
  · obtain ⟨st, h, k1, k2, k3, k4, -⟩ := (shows_iff A _ _).1 ((built_shows s M ht q e).1 he)
    exact ⟨st, h, k1, k2, k3, newer _ st h k4⟩
  · by_cases hc : s.flash.GroupComplete st.serial
    · exact .inl (newer b st h hc)
    · refine .inr (.inr ⟨?_, hc⟩)
      obtain ⟨g, hg, gs, hm⟩ := (tallied_ok s.flash 512).all b (mem_allBlocks b) st h
      exact (mem_voidingList _ _).2 ⟨g, by rw [ht]; exact hg, fun k => hc ⟨g, hg, gs, by rw [← ht]; exact k⟩, _, hm, rfl⟩

/-! ### The operation in flight ends -/

theorem inFlight_notData (s : State) (hb : s.eng.work.HoldsBlocks s.bm) {op : FlashOp} (h : s.eng.work.inFlight = some op)
    (info : DataInfo) : s.bm.classOf op.block ≠ some (.data info) := by
  have target : ∀ {i : SessionId} {l : List (Option BlockId)} {b : BlockId}, HoldsTargets s.bm i l → some b ∈ l →
      s.bm.classOf b ≠ some (.data info) := fun k hm => by rw [k.2 _ hm]; simp
  revert h hb
  cases s.eng.work with
  | idle => intro _ k; cases k
  | commit r st =>
    intro hb k
    have pk := progOk_of hb (by rintro rfl; cases k)
    have : r.currentTarget = some op.block := by
      cases st <;> simp only [Work.inFlight, reduceCtorEq, Option.map_eq_some_iff] at k
      all_goals (obtain ⟨b, hb, rfl⟩ := k; exact hb)
    exact target pk.hold (List.mem_of_getElem? (currentTarget_some this))
  | unwind u st =>
    rintro ⟨h1, h2⟩ k
    cases st with
    | void b n => cases k; exact target h1 h2
    | retire b n => cases k; exact target h1 h2
  | erase b st =>
    intro hb k
    have hb : s.bm.classOf b = some .erasing := hb
    have : op.block = b := by cases st <;> cases k <;> rfl
    rw [this, hb]; simp
  | mountVoid b l st =>
    intro hb k
    have : op.block = b := by cases st <;> cases k <;> rfl
    rw [this, hb.2 b (by simp)]; simp

/-- The block of a mapped page keeps its spare area through an operation (R1, R22). -/
theorem mapped_spare (s : State) (L : Law s) {op : FlashOp} {m : Memory} (hop : s.eng.work.inFlight = some op) (w : OpWrote s op m)
    {q : PageId} {e : MapEntry} (he : s.map.entry q = some e) : e.block ≠ op.block := by
  intro k
  obtain ⟨info, hi, -⟩ := (L.1.2.2.2.1 q e.block).1 ⟨e.serial, e.writer, he⟩
  exact inFlight_notData s (work_of s L) hop info (k ▸ hi)

/-- What an operation in flight makes a candidate is the current member of the group at work (R75, R92). -/
theorem made_unflipped (s : State) (L : Law s) (S : StampsOk s) {op : FlashOp} {m : Memory} (hop : s.eng.work.inFlight = some op)
    (w : OpWrote s op m) (b : BlockId) (st : DataStamp) (h : m.candidate b = some st) :
    s.flash.candidate b = some st
      ∨ ∃ r, s.eng.work = .commit r .dataStamp ∧ st.serial = r.serial := by
  have erased : ∀ b, op = .freeStamp b → s.flash.read (spareAddr b 8) = 0xFF := by
    rintro b rfl
    have hw := S.work
    cases e : s.eng.work with
    | erase c st =>
      rw [e] at hop hw
      cases st <;> cases hop
      exact hw 8 (by omega) (by omega)
    | idle => rw [e] at hop; cases hop
    | commit r st => rw [e] at hop; cases st <;> simp [Work.inFlight] at hop
    | unwind u st => rw [e] at hop; cases st <;> cases hop
    | mountVoid c l st => rw [e] at hop; cases st <;> cases hop
  rcases candidate_made w erased b st h with k | ⟨rfl, k⟩
  · exact .inl k
  · right
    have hw := S.work
    cases e : s.eng.work with
    | commit r step =>
      rw [e] at hop hw
      have hs : step = .dataStamp := by cases step <;> simp [Work.inFlight] at hop ⊢
      subst hs
      rw [intended_stamp s r b e] at k
      have pk := progOk_of (e ▸ work_of s L : (Work.commit r .dataStamp).HoldsBlocks s.bm) (by simp)
      have := dataStamp_programmed m b _ (stampOk_of hw.1.base.stampable pk.lt) k
      rw [((candidate_iff m b st).1 h).2.2.2] at this
      cases this
      exact ⟨r, rfl, rfl⟩
    | idle => rw [e] at hop; cases hop
    | unwind u st => rw [e] at hop; cases st <;> cases hop
    | erase c st => rw [e] at hop; cases st <;> cases hop
    | mountVoid c l st => rw [e] at hop; cases st <;> cases hop

theorem toVoid_working {s : State} (M : s.MountLaw) (h : s.eng.work ≠ .idle) (n : ∀ b l st, s.eng.work ≠ .mountVoid b l st) : s.toVoid = [] := by
  unfold State.toVoid
  split
  · next b l st e => exact absurd e (n b l st)
  · exact if_neg fun k => h (M.2.1 (.inr k))

/-- Whatever an operation leaves, the law of the array holds of it (R91, R92). -/
theorem op_arrayed (s : State) (L : Law s) (S : StampsOk s) (hf : s.eng.markFault = false) {op : FlashOp} {m : Memory}
    (hop : s.eng.work.inFlight = some op) (w : OpWrote s op m)
    (A : Arrayed s.flash s.map.entry s.eng.work.unflipped s.toVoid) : Arrayed m s.map.entry s.eng.work.unflipped s.toVoid := by
  have made := made_unflipped s L S hop w
  have mid := (op_ended s m op S ((blockLaw_iff s).1 L.1).1.free (work_of s L) hop w).2
  have agrees : m.Agrees := by
    by_cases e : ∃ r, s.eng.work = .commit r .dataStamp
    · obtain ⟨r, e⟩ := e
      rw [e] at mid
      refine agrees_record A.agrees r (fun b st h => ?_) fun b st h k => (mid.base.within hf b st h k).2
      rcases made b st h with k | ⟨r', e', k⟩
      · exact .inl k
      · rw [e] at e'; cases e'
        exact .inr k
    · intro b b' st st' h h'
      exact A.agrees b b' st st' ((made b st h).resolve_right fun ⟨r, k, _⟩ => e ⟨r, k⟩)
        ((made b' st' h').resolve_right fun ⟨r, k, _⟩ => e ⟨r, k⟩)
  refine A.operation agrees (fun b st h => ?_) (fun q e he => candidate_other w _ (mapped_spare s L hop w he)) ?_
  · rcases made b st h with k | ⟨r, e, k⟩
    · exact .inl k
    · right; rw [e, k]; rfl
  · by_cases e : ∃ r, s.eng.work = .commit r .dataStamp
    · obtain ⟨r, e⟩ := e
      exact .inl (toVoid_working L.2 (by rw [e]; simp) (by rw [e]; simp))
    · exact .inr fun b st h => (made b st h).resolve_right fun ⟨r, k, _⟩ => e ⟨r, k⟩

/-- A cut leaves the law of the array (R3, R92). -/
theorem cut_arrayed (s : State) (cut : Cut) (L : Law s) (S : StampsOk s) (hf : s.eng.markFault = false)
    (A : Arrayed s.flash s.map.entry s.eng.work.unflipped s.toVoid) :
    Arrayed (s.cutFlash cut).flash s.map.entry s.eng.work.unflipped s.toVoid := by
  cases hop : s.eng.work.inFlight with
  | none =>
    have : (s.cutFlash cut).flash = s.flash := by unfold State.cutFlash; rw [hop]
    rw [this]; exact A
  | some op =>
    rw [cutFlash_some s cut op hop]
    exact op_arrayed s L S hf hop (opWrote_cut s op cut (line_in_range s S.work hop)) A

/-! ### The group at work, step by step -/

/-- Unless a retire mark has failed, the group of the serial is still at work in `t`, or has no candidate left. -/
def Carried (m : Memory) (t : State) (serial : Nat) : Prop :=
  t.eng.markFault = false → t.eng.work.unflipped = some serial ∨ ∀ b st, m.candidate b = some st → st.serial ≠ serial

theorem carried_work (s : State) (w : Work) {serial : Nat} (h : w.unflipped = some serial) : Carried s.flash (s.setWork w) serial :=
  fun _ => .inl h

theorem unwindNext_carried (s : State) (u : UnwindRec) (hu : UnwindAt s.flash s.map.nextSerial s.eng.markFault u) :
    Carried s.flash (s.unwindNext u) u.serial := by
  unfold State.unwindNext
  split
  · exact fun _ => .inl rfl
  · next hn =>
    have gone : s.eng.markFault = false → ∀ b st, s.flash.candidate b = some st → st.serial ≠ u.serial := by
      intro hf b st h e
      obtain ⟨r, rfl, -, w⟩ := hu hf
      have hm := List.mem_of_getElem? (w b st h e).2.1
      have := List.findSome?_eq_none_iff.1 hn _ hm
      cases this
    exact fun hf => .inr (gone hf)

theorem giveUp_carried (s : State) (r : CommitRec) (f : FailReason)
    (hu : UnwindAt s.flash s.map.nextSerial s.eng.markFault r.toUnwind) : Carried s.flash (s.giveUp r f) r.serial :=
  unwindNext_carried { s with ses := { s.ses with failure := some { session := r.session, reason := f } } } r.toUnwind hu

theorem beginMember_carried (s : State) (r : CommitRec)
    (hu : UnwindAt s.flash s.map.nextSerial s.eng.markFault r.toUnwind) : Carried s.flash (s.beginMember r) r.serial := by
  unfold State.beginMember
  split
  · exact fun _ => .inl rfl
  · exact giveUp_carried s r _ hu

theorem commitOpEnded_carried (s : State) (r : CommitRec) (step : CommitStep) (ok : Bool) (goOn : State → State)
    (g : GroupMid s.flash s.map.nextSerial s.eng.markFault r step) (lt : r.member < r.pages.length)
    (no : r.unwindRequested = true → Unstamped s.flash r ∨ r.member + 1 < r.pages.length)
    (hg : Carried s.flash (goOn s) r.serial) : Carried s.flash (s.commitOpEnded r ok goOn) r.serial := by
  unfold State.commitOpEnded
  split
  · split
    · next hu => exact unwindNext_carried s r.toUnwind (unwindAt_of g.base lt fun _ => no hu)
    · exact hg
  · exact fun _ => .inl rfl

theorem begunMarkEnded_carried (s : State) (r : CommitRec) (ok : Bool)
    (g : GroupMid s.flash s.map.nextSerial s.eng.markFault r .begunMark) (lt : r.member < r.pages.length) :
    Carried s.flash (s.begunMarkEnded r ok) r.serial :=
  commitOpEnded_carried s r .begunMark ok _ g lt (fun _ => .inl (g.unstamped (.inl rfl))) fun _ => .inl rfl

theorem lineEnded_carried (s : State) (r : CommitRec) (k : Nat) (ok : Bool)
    (g : GroupMid s.flash s.map.nextSerial s.eng.markFault r (.line k)) (lt : r.member < r.pages.length) :
    Carried s.flash (s.lineEnded r k ok) r.serial := by
  refine commitOpEnded_carried s r (.line k) ok _ g lt (fun _ => .inl (g.unstamped (.inr (.inl ⟨k, rfl⟩)))) ?_
  split
  · exact fun _ => .inl rfl
  · split
    · exact fun _ => .inl rfl
    · exact fun _ => .inl rfl

theorem dataStampEnded_carried (s : State) (r : CommitRec) (ok : Bool)
    (g : GroupMid s.flash s.map.nextSerial s.eng.markFault r .dataStamp) (lt : r.member < r.pages.length)
    (hu : r.unwindRequested = true → r.member + 1 < r.pages.length) : Carried s.flash (s.dataStampEnded r ok) r.serial := by
  refine commitOpEnded_carried s r .dataStamp ok _ g lt (fun k => .inr (hu k)) ?_
  split
  · exact fun _ => .inl rfl
  · next hl =>
    have hl : r.member + 1 < r.pages.length := by
      have : ¬ r.pages.length ≤ r.member + 1 := by simpa [CommitRec.lastMember] using hl
      omega
    exact beginMember_carried s { r with member := r.member + 1, tries := 0 } fun hf =>
      ⟨r, rfl, g.base.stampable, within_mono (g.base.within hf) (by omega)⟩

theorem unwindVoidEnded_carried (s : State) (u : UnwindRec) (b : BlockId) (n : Nat) (ok : Bool)
    (hu : UnwindAt s.flash s.map.nextSerial s.eng.markFault u) (hok : ok = true → s.flash.read (spareAddr b 32) ≠ 0xFF) :
    Carried s.flash (s.unwindVoidEnded u b n ok) u.serial := by
  unfold State.unwindVoidEnded
  split
  · next e =>
    exact unwindNext_carried { s with bm := s.bm.toDirty b } { u with targets := dropTarget b u.targets }
      (hu.drop b fun k => ⟨k, .inl (hok e)⟩)
  · split
    · exact fun _ => .inl rfl
    · exact fun _ => .inl rfl

theorem retireEnded_carried (s : State) (ok : Bool) (w : WorkMid s.flash s.map.nextSerial s.eng.markFault s.eng.work)
    (hb : s.eng.work.HoldsBlocks s.bm) (hret : s.eng.work.retiring = true)
    (hok : ok = true → ∀ b, s.eng.work.inFlight = some (.retire b) → s.flash.read (spareAddr b 33) ≠ 0xFF) (serial : Nat)
    (hs : s.eng.work.unflipped = some serial) : Carried s.flash (s.retireEnded ok) serial := by
  unfold State.retireEnded
  split
  · next r n e =>
    rw [e] at w hb hs
    have hs : r.serial = serial := Option.some.inj hs
    subst hs
    have pk := progOk_of hb (by simp)
    split
    · exact fun _ => .inl rfl
    · split
      · next b ht =>
        have hbt := currentTarget_some ht
        have bf : Before s.flash s.map.nextSerial (s.eng.markFault || !ok) { r with targets := r.targets.set r.member none } :=
          w.base.retired pk.lt hbt fun k => fault_of (fun k1 => hok k1 b (by rw [e]; simp [Work.inFlight, ht])) k
        unfold State.afterRetire
        split
        · exact unwindNext_carried (s.handRetired b ok) (CommitRec.toUnwind { r with targets := r.targets.set r.member none }) bf.unwind
        · split
          · exact beginMember_carried (s.handRetired b ok) _ bf.unwind
          · exact giveUp_carried (s.handRetired b ok) _ _ bf.unwind
      · next ht =>
        obtain ⟨b, hb'⟩ := pk.upTo r.member (Nat.le_refl _)
        unfold CommitRec.currentTarget at ht
        rw [List.getD_eq_getElem?_getD, hb'] at ht; cases ht
  · next u b n e =>
    rw [e] at w hs
    have hs : u.serial = serial := by simpa [Work.unflipped] using hs
    subst hs
    split
    · exact fun _ => .inl rfl
    · refine unwindNext_carried (s.handRetired b ok) { u with targets := dropTarget b u.targets } (UnwindAt.drop b w fun k => ?_)
      obtain ⟨k1, k2⟩ := fault_of (fun k1 => hok k1 b (by rw [e]; rfl)) k
      exact ⟨k1, .inr k2⟩
  · next b n e => rw [e] at hs; cases hs
  · next b rest n e => rw [e] at hs; cases hs
  · next h1 h2 h3 h4 =>
    revert hret
    unfold Work.retiring
    split
    · next r n e => exact absurd e (h1 r n)
    · next u b n e => exact absurd e (h2 u b n)
    · next b n e => exact absurd e (h3 b n)
    · next b l n e => exact absurd e (h4 b l n)
    · intro k; cases k

theorem opFailed_carried (s : State) {op : FlashOp} (w : WorkMid s.flash s.map.nextSerial s.eng.markFault s.eng.work)
    (hb : s.eng.work.HoldsBlocks s.bm) (hop : s.eng.work.inFlight = some op)
    (hu : ∀ r, s.eng.work = .commit r .dataStamp → r.unwindRequested = true → r.member + 1 < r.pages.length) (serial : Nat)
    (hs : s.eng.work.unflipped = some serial) : Carried s.flash s.opFailed serial := by
  have commit : ∀ {r : CommitRec} {step : CommitStep}, s.eng.work = .commit r step → r.serial = serial := by
    intro r step e
    rw [e] at hs
    unfold Work.unflipped at hs
    simp only at hs
    split at hs
    · cases hs
    · exact Option.some.inj hs
  unfold State.opFailed
  split
  · next r e => rw [e] at w hb; rw [← commit e]; exact begunMarkEnded_carried s r _ w (progOk_of hb (by simp)).lt
  · next r k e => rw [e] at w hb; rw [← commit e]; exact lineEnded_carried s r k _ w (progOk_of hb (by simp)).lt
  · next r e =>
    rw [e] at w hb; rw [← commit e]
    exact dataStampEnded_carried s r _ w (progOk_of hb (by simp)).lt (hu r e)
  · next u b n e =>
    rw [e] at w hs
    have hs : u.serial = serial := by simpa [Work.unflipped] using hs
    rw [← hs]
    exact unwindVoidEnded_carried s u b n _ w (fun k => by cases k)
  · next b e => rw [e] at hs; cases hs
  · next b e => rw [e] at hs; cases hs
  · next b rest n e => rw [e] at hs; cases hs
  · next h1 h2 h3 h4 h5 h6 h7 =>
    exact retireEnded_carried s false w hb (retiring_of hop h1 h2 h3 h4 h5 h6 h7) (fun k => by cases k) serial hs

theorem boundaryHandoff_carried (s t : State) (S : StampsOk s) (hb : s.eng.work.HoldsBlocks s.bm) (e : execBoundaryHandoff s = .next t)
    (serial : Nat) (hs : s.eng.work.unflipped = some serial) : Carried s.flash t serial := by
  unfold execBoundaryHandoff at e
  split at e
  · next r hw =>
    have w := S.work
    rw [hw] at w hb hs
    have hs : r.serial = serial := Option.some.inj hs
    subst hs
    simp only at e
    split at e
    · cases e; exact fun _ => .inl rfl
    · cases e
      exact unwindNext_carried s r.toUnwind (unwindAt_of w.1.base (progOk_of hb (by simp)).lt fun _ => .inl (w.1.unstamped (.inr (.inr rfl))))
  · cases e; exact fun _ => .inl hs

theorem takeUnwind_carried (s : State) (i : SessionId) (S : StampsOk s) (hb : s.eng.work.HoldsBlocks s.bm) (serial : Nat)
    (hs : s.eng.work.unflipped = some serial) : Carried s.flash (s.takeUnwind i) serial := by
  have same : Carried s.flash s serial := fun _ => .inl hs
  unfold State.takeUnwind
  split
  · next r step hw =>
    have w := S.work
    rw [hw] at w hb hs
    split
    · split
      · exact fun _ => .inl hs
      · exact fun _ => .inl hs
      · exact fun _ => .inl hs
      · exact fun _ => .inl hs
      · have hs : r.serial = serial := Option.some.inj hs
        subst hs
        exact unwindNext_carried s r.toUnwind (unwindAt_of w.1.base (progOk_of hb (by simp)).lt fun _ => .inl (w.1.unstamped (.inr (.inr rfl))))
      · exact same
      · exact same
    · exact same
  · exact same

/-! ### Mount voiding -/

theorem mountVoidNext_toVoid (s : State) (l : List BlockId) : ∀ x ∈ l, x ∈ (s.mountVoidNext l).toVoid := by
  cases l with
  | nil => simp
  | cons b rest => exact fun x hx => hx

theorem mountVoidEnded_toVoid (s : State) (b : BlockId) (rest : List BlockId) (n : Nat) (ok : Bool)
    (hok : ok = true → s.flash.read (spareAddr b 32) ≠ 0xFF) :
    ∀ x ∈ b :: rest, x ∈ (s.mountVoidEnded b rest n ok).toVoid ∨ s.flash.candidate x = none := by
  intro x hx
  unfold State.mountVoidEnded
  split
  · next e =>
    rcases List.mem_cons.1 hx with rfl | hx
    · right
      cases k : s.flash.candidate x with
      | none => rfl
      | some st => exact absurd ((candidate_iff _ _ _).1 k).2.1 (hok e)
    · exact .inl (mountVoidNext_toVoid s rest x hx)
  · split
    · exact .inl hx
    · exact .inl hx

theorem retireEnded_toVoid (s : State) (b : BlockId) (rest : List BlockId) (n : Nat) (ok : Bool)
    (hw : s.eng.work = .mountVoid b rest (.retire n)) (hok : ok = true → s.flash.read (spareAddr b 33) ≠ 0xFF)
    (hf : (s.retireEnded ok).eng.markFault = false) :
    ∀ x ∈ b :: rest, x ∈ (s.retireEnded ok).toVoid ∨ s.flash.candidate x = none := by
  intro x hx
  unfold State.retireEnded at hf ⊢
  rw [hw] at hf ⊢
  simp only at hf ⊢
  split at hf
  · next k => rw [if_pos k]; exact .inl hx
  · next k =>
    rw [if_neg k]
    have kept := (mountVoidNext_move (s.handRetired b ok) rest).markFault
    have hk : ok = true := by
      cases ok with
      | true => rfl
      | false =>
        have : (s.handRetired b false).eng.markFault = true := by simp [State.handRetired, Engine.noteMark]
        rw [kept this] at hf; cases hf
    rcases List.mem_cons.1 hx with rfl | hx
    · right
      cases e : s.flash.candidate x with
      | none => rfl
      | some st => exact absurd ((candidate_iff _ _ _).1 e).1 (hok hk)
    · exact .inl (mountVoidNext_toVoid _ rest x hx)

theorem opFailed_toVoid (s : State) (b : BlockId) (rest : List BlockId) (step : MountVoidStep) (hw : s.eng.work = .mountVoid b rest step)
    (hf : s.opFailed.eng.markFault = false) : ∀ x ∈ b :: rest, x ∈ s.opFailed.toVoid ∨ s.flash.candidate x = none := by
  unfold State.opFailed at hf ⊢
  cases step with
  | void n =>
    rw [hw] at hf ⊢
    exact mountVoidEnded_toVoid s b rest n false (fun k => by cases k)
  | retire n =>
    rw [hw] at hf ⊢
    exact retireEnded_toVoid s b rest n false hw (fun k => by cases k) hf

/-! ### The law through a step -/

/-- While the group at work is not flipped, no candidate has a higher serial. -/
theorem unflipped_top {m : Memory} {next : Nat} {w : Work} (low : Below m next) (mid : WorkMid m next false w) (serial : Nat)
    (hs : w.unflipped = some serial) (b : BlockId) (st : DataStamp) (h : m.candidate b = some st) : st.serial ≤ serial := by
  have low := low b st ((candidate_iff _ b st).1 h).2.2.2
  cases w with
  | commit r step =>
    unfold Work.unflipped at hs
    simp only at hs
    split at hs
    · cases hs
    · cases hs
      have := mid.base.stampable.1
      omega
  | unwind u step =>
    cases hs
    obtain ⟨r, rfl, k, -⟩ := mid rfl
    have := k.1
    show st.serial ≤ r.serial
    omega
  | idle => cases hs
  | erase c st => cases hs
  | mountVoid c l st => cases hs

/-- Events that touch no stamp keep the law; the engine may have become idle at the end of a flip. -/
theorem Untouched.array {s t : State} (u : Untouched s t) (entry : ∀ q, t.map.entry q = s.map.entry q)
    (hw : t.eng.work = s.eng.work ∨ t.eng.work = .idle ∧ ∃ r, s.eng.work = .commit r .flipTaken) (A : s.ArrayLaw) : t.ArrayLaw := by
  have hu : t.eng.work.unflipped = s.eng.work.unflipped := by
    rcases hw with e | ⟨e, r, k⟩
    · rw [e]
    · rw [e, k]; rfl
  have hv : t.toVoid = s.toVoid := by
    unfold State.toVoid
    rw [u.mount]
    rcases hw with e | ⟨e, r, k⟩
    · rw [e]
    · rw [e, k]
  have he : t.map.entry = s.map.entry := funext entry
  by_cases k : s.mount.stage = .scan
  · rw [arrayLaw_scan s k] at A
    rw [arrayLaw_scan t (by rw [u.mount]; exact k), u.flash]; exact A
  · rw [arrayLaw_iff s k] at A
    rw [arrayLaw_iff t (by rw [u.mount]; exact k), u.flash, he, hu, hv]; exact A

/-- An operation of the engine keeps the law: the group at work is carried on, and so are the blocks to be voided. -/
theorem ends_array {s t : State} {m : Memory} (h1 : s.mount.stage ≠ .scan) (hm : t.mount = s.mount ∨ t.mount = s.mount.finish)
    (mv : EngineMove { s with flash := m } t) (A : Arrayed m s.map.entry s.eng.work.unflipped s.toVoid)
    (hf : t.eng.markFault = false) (hu : ∀ S, s.eng.work.unflipped = some S → Carried m t S)
    (hv : ∀ b ∈ s.toVoid, b ∈ t.toVoid ∨ m.candidate b = none) : t.ArrayLaw := by
  have stage : t.mount.stage ≠ .scan := by
    rcases hm with e | e <;> rw [e]
    · exact h1
    · simp [Mount.finish]
  have he : t.map.entry = s.map.entry := funext fun q => by
    unfold MapUnit.entry
    rw [mv.pages]
  rw [arrayLaw_iff t stage, mv.flash, he]
  exact A.carry (fun S e => hu S e hf) hv

/-- An array with no data stamp holds no group. -/
theorem blank_recovers (m : Memory) (h : ∀ b, m.read (spareAddr b 8) = 0xFF) : m.Agrees ∧ m.Recoverable := by
  have no : ∀ b st, m.candidate b ≠ some st := fun b st k => by
    have := ((candidate_iff m b st).1 k).2.2.2
    rw [dataStamp_none m b (h b)] at this; cases this
  exact ⟨fun b _ st _ k => absurd k (no b st), fun b st k => absurd k (no b st)⟩

/-- A mount recovers the array as it stands. -/
theorem still_recovers (s : State) (S : s.StampLaw) (hf : s.eng.markFault = false) (A : s.ArrayLaw) :
    s.flash.Agrees ∧ s.flash.Recoverable := by
  by_cases k : s.mount.stage = .scan
  · exact (arrayLaw_scan s k).1 A
  · have S' := stampsOk_of S k
    have A' := (arrayLaw_iff s k).1 A
    exact ⟨A'.agrees, A'.recoverable (unflipped_top S'.below (hf ▸ S'.work.mid))⟩

/-- Whatever a cut leaves, the next mount recovers it. -/
theorem cut_recovers (s : State) (cut : Cut) (L : Law s) (S : s.StampLaw) (hf : s.eng.markFault = false) (A : s.ArrayLaw) :
    (s.cutFlash cut).flash.Agrees ∧ (s.cutFlash cut).flash.Recoverable := by
  by_cases k : s.mount.stage = .scan
  · have idle : s.eng.work = .idle := L.2.2.1 (.inl k)
    have : (s.cutFlash cut).flash = s.flash := by unfold State.cutFlash; rw [idle]; rfl
    rw [this]; exact (arrayLaw_scan s k).1 A
  · have S' := stampsOk_of S k
    have A' := cut_arrayed s cut L S' hf ((arrayLaw_iff s k).1 A)
    obtain ⟨low, mid⟩ := cut_group s cut S' ((blockLaw_iff s).1 L.1).1.free (work_of s L)
    exact ⟨A'.agrees, A'.recoverable (unflipped_top low (hf ▸ mid))⟩

/-- The flip keeps the law (R28). -/
theorem flip_array (s : State) (r : CommitRec) (L : Law s) (S : StampsOk s) (hw : s.eng.work = .commit r .flipRequested)
    (hf : s.eng.markFault = false) (x : Option FlipWork) (h1 : s.mount.stage ≠ .scan) (A : s.ArrayLaw) :
    (State.setWork { s.flipMembers r with map := { (s.flipMembers r).map with flip := x } } (.commit r .flipTaken)).ArrayLaw := by
  have f := flipMembers_spec (flipReady L.1 hw)
  have w := S.work
  have wk := work_of s L
  rw [hw] at w wk
  have pk := progOk_of wk (by simp)
  have last : r.pages.length = r.member + 1 := (w.1.stamped (.inl rfl)).1
  have A := (arrayLaw_iff s h1).1 A
  have e1 : (s.flipMembers r).flash = s.flash := by rw [f.frame]
  have e3 : (s.flipMembers r).mount = s.mount := by rw [f.frame]
  refine (arrayLaw_iff _ (by show (s.flipMembers r).mount.stage ≠ _; rw [e3]; exact h1)).2 ?_
  show Arrayed (s.flipMembers r).flash (s.flipMembers r).map.entry none (if (s.flipMembers r).mount.stage = .built then _ else [])
  have built : s.mount.stage ≠ .built := fun k => by
    have := L.2.2.1 (.inr k)
    rw [hw] at this; cases this
  rw [e1, e3, if_neg built]
  have hv : s.toVoid = [] := toVoid_working L.2 (by rw [hw]; simp) (by rw [hw]; simp)
  rw [hv] at A
  refine A.flip r (r.member + 1) (by rw [hw]; rfl) (w.1.base.within hf)
    (unflipped_top S.below (hf ▸ S.work.mid) r.serial (by rw [hw]; rfl)) (fun i q hq => ?_) (fun i q b hq hb => ?_) fun q hq => ?_
  · have hi := (List.getElem?_eq_some_iff.1 hq).1
    obtain ⟨b, hb⟩ := pk.upTo i (by omega)
    refine ⟨b, hb, ?_⟩
    by_cases e : i = r.member
    · subst e; exact (w.1.stamped (.inl rfl)).2 b hb
    · exact w.1.base.whole i b (by omega) hb
  · exact f.entry i q b (List.getElem?_eq_some_iff.1 hq).1 hq hb
  · exact f.others q fun i _ k => hq (List.mem_of_getElem? k)

/-- The building of the tables keeps the law (R117 to R121). -/
theorem build_array (s : State) (L : Law s) (hs : s.mount.stage = .scan) (hp : 512 ≤ s.mount.position) (hscan : s.ScanLaw)
    (A : s.ArrayLaw) : s.buildTables.ArrayLaw := by
  obtain ⟨h1, h2, -⟩ := hscan hs
  have ht : s.mount.tally = s.flash.tallied 512 := by rw [h2, show s.mount.position = 512 by omega]
  obtain ⟨a, r⟩ := (arrayLaw_scan s hs).1 A
  have B := build_arrayed s L.2 ht a r
  have idle : s.eng.work = .idle := L.2.2.1 (.inl hs)
  have eflash : s.buildTables.flash = s.flash := by unfold State.buildTables; dsimp only
  have eeng : s.buildTables.eng = s.eng := by unfold State.buildTables; dsimp only
  have hv : s.buildTables.toVoid = voidingList (judgeTally s.mount.tally) := by
    unfold State.toVoid
    rw [eeng, idle, built_mount]
    simp
  refine (arrayLaw_iff _ (by rw [built_mount]; simp)).2 ?_
  rw [eflash, eeng, idle, hv]
  exact B

end Sys2Proof.Laws
end

