-- ==== Sys2Proof/Laws/PerInstr.lean ====
section
/-! SUPPORT. A fact about every command, as syntax: the frame of a well-formed request is its code byte and the parameter
bytes that Table 45 and R167 count. -/

namespace Sys2Proof.Laws.FrameLength

open Sys2Proof Sys2Proof.Machine

/-- The parameter bytes of a request's frame (Table 45, R167). -/
def params : Instr → Nat
  | .read .. => 6
  | .mapQuery .. => 2
  | .openSession _ count _ => 1 + 2 * openPageCount count
  | .stage _ _ _ _ length _ => 6 + stageDataCount length
  | .commit .. | .abort .. | .collect .. | .watchClear .. | .leaseSet .. => 1
  | .watchSet .. => 5
  | _ => 0

/-- A command has a frame exactly when it is a request, and the frame of a well-formed one has one byte more than its
parameters. -/
def Statement (i : Instr) : Prop :=
  i.wellFormed = true → (encodeFrame i).map List.length = i.requestPort.map fun _ => 1 + params i

theorem read (p : PortId) (page offset length : Half) : Statement (.read p page offset length) := fun _ => rfl

theorem mapQuery (p : PortId) (page : Half) : Statement (.mapQuery p page) := fun _ => rfl

theorem status (p : PortId) : Statement (.status p) := fun _ => rfl

theorem openSession (p : PortId) (count : Byte) (pages : List Half) : Statement (.openSession p count pages) := by
  intro h
  have h : pages.length = openPageCount count := by simpa [Instr.wellFormed] using h
  have e := halfBytes_length pages
  simp only [encodeFrame, Instr.requestPort, params, Option.map_some, List.length_cons, e, h]
  congr 1
  omega

theorem stage (p : PortId) (sid member : Byte) (offset length : Half) (data : List Byte) : Statement (.stage p sid member offset length data) := by
  intro h
  have h : data.length = stageDataCount length := by simpa [Instr.wellFormed] using h
  simp [encodeFrame, Instr.requestPort, params, halfBytes, h]
  omega

theorem commit (p : PortId) (sid : Byte) : Statement (.commit p sid) := fun _ => rfl

theorem abort (p : PortId) (sid : Byte) : Statement (.abort p sid) := fun _ => rfl

theorem collect (p : PortId) (sid : Byte) : Statement (.collect p sid) := fun _ => rfl

theorem watchSet (p : PortId) (slot : Byte) (first last : Half) : Statement (.watchSet p slot first last) := fun _ => rfl

theorem watchClear (p : PortId) (slot : Byte) : Statement (.watchClear p slot) := fun _ => rfl

theorem noticeFetch (p : PortId) : Statement (.noticeFetch p) := fun _ => rfl

theorem leaseSet (p : PortId) (units : Byte) : Statement (.leaseSet p units) := fun _ => rfl

theorem freeze (p : PortId) : Statement (.freeze p) := fun _ => rfl

theorem unknownRequestCode (p : PortId) (code : Byte) : Statement (.unknownRequestCode p code) := fun _ => rfl

theorem csFall (p : PortId) : Statement (.csFall p) := fun _ => rfl

theorem chipSelectRise (p : PortId) : Statement (.chipSelectRise p) := fun _ => rfl

theorem readStreamNextPage (p : PortId) : Statement (.readStreamNextPage p) := fun _ => rfl

theorem readStreamEnd (p : PortId) : Statement (.readStreamEnd p) := fun _ => rfl

theorem prstAssert (p : PortId) : Statement (.prstAssert p) := fun _ => rfl

theorem prstRelease (p : PortId) : Statement (.prstRelease p) := fun _ => rfl

theorem resetAssert (cut : Cut) : Statement (.resetAssert cut) := fun _ => rfl

theorem resetRelease : Statement .resetRelease := fun _ => rfl

theorem powerOn (cut : Cut) : Statement (.powerOn cut) := fun _ => rfl

theorem powerLoss (cut : Cut) : Statement (.powerLoss cut) := fun _ => rfl

theorem leaseExpiry (i : SessionId) : Statement (.leaseExpiry i) := fun _ => rfl

theorem flashOpTimeout (cut : Cut) : Statement (.flashOpTimeout cut) := fun _ => rfl

theorem choiceOfWork : Statement .choiceOfWork := fun _ => rfl

theorem begunMarkCompletion (w : Written) : Statement (.begunMarkCompletion w) := fun _ => rfl

theorem lineProgramCompletion (w : Written) : Statement (.lineProgramCompletion w) := fun _ => rfl

theorem dataStampCompletion (w : Written) : Statement (.dataStampCompletion w) := fun _ => rfl

theorem retireMarkCompletion (w : Written) : Statement (.retireMarkCompletion w) := fun _ => rfl

theorem failureHandoff : Statement .failureHandoff := fun _ => rfl

theorem boundaryHandoff : Statement .boundaryHandoff := fun _ => rfl

theorem unwindRequest : Statement .unwindRequest := fun _ => rfl

theorem voidCompletion (w : Written) : Statement (.voidCompletion w) := fun _ => rfl

theorem flip : Statement .flip := fun _ => rfl

theorem windowsTableReload : Statement .windowsTableReload := fun _ => rfl

theorem revocation : Statement .revocation := fun _ => rfl

theorem flipEndOfSession : Statement .flipEndOfSession := fun _ => rfl

theorem flipNoticeHandoff : Statement .flipNoticeHandoff := fun _ => rfl

theorem eraseCompletion (w : Written) : Statement (.eraseCompletion w) := fun _ => rfl

theorem freeStampCompletion (w : Written) : Statement (.freeStampCompletion w) := fun _ => rfl

theorem mountBlockScan : Statement .mountBlockScan := fun _ => rfl

theorem mountTableBuild : Statement .mountTableBuild := fun _ => rfl

theorem windowsTableLoad : Statement .windowsTableLoad := fun _ => rfl

theorem mountVoidCompletion (w : Written) : Statement (.mountVoidCompletion w) := fun _ => rfl

theorem replyByteDelivery (run : SckRun) : Statement (.replyByteDelivery run) := fun _ => rfl

end Sys2Proof.Laws.FrameLength
end

