-- ==== Sys2Proof/Tests/Slice0.lean ====
section
/-! SUPPORT. The model's own tests: ill-formed terms that the check refuses, the guide's worked examples, single steps, and for
every statement with hypotheses a state and operands that meet them (`witness_<statement>`), clause by clause. -/

namespace Sys2Proof.Tests

open Sys2Proof Sys2Proof.Machine

set_option Elab.async false

/-! ### States -/

/-- A part that is READY, with empty tables. -/
def up : State := { State.reset with mount := { State.reset.mount with condition := .ready, stage := .ended, position := 512 } }

/-- A frame has begun on a port. -/
def listening (p : PortId) (s : State) : State :=
  s.setPort p { s.port p with csLow := true, decoder := .request, sdo := some 0xFF }

/-- A session record with an empty buffer for each member while it holds any. -/
def record (state : SessionState) (owner : Option PortId) (members : List PageId) : Session :=
  { Session.freeSlot with
    state := state, owner := owner, members := members
    buffers := if state.holds then members.map fun _ => [] else [] }

/-- A session put into a slot, with its claims. -/
def put (i : SessionId) (r : Session) (s : State) : State :=
  { s with ses := (s.ses.setSession i r).claimPages i (if r.state.holds then r.members else []) }

/-- A block put into the Block Table. -/
def block (b : BlockId) (c : BlockClass) (pins : Nat) (s : State) : State :=
  { s with bm := s.bm.place b { cls := c, eraseCount := 1, pins := pins } }

/-- The collections of the blocks. -/
def pools (free dirty : List BlockId) (s : State) : State :=
  { s with bm := { s.bm with freePool := free, dirtyList := dirty }.refresh }

/-- A page mapped to a block. -/
def mapTo (q : PageId) (b : BlockId) (s : State) : State :=
  { s with map := { s.map with pages := s.map.pages.set q.val (some { block := b, serial := 0x2A0, writer := 1 }) } }

/-- A table in force that gives no port any permission. -/
def walled (s : State) : State :=
  { s with prot := { s.prot with table := .windows [{ valid := true, first := 0, last := 463, readSet := 0, writeSet := 0 }] } }

/-- The reply bytes that stand to be delivered on a port. -/
def reply (p : PortId) : Host.Outcome State Fault Refusal → List Byte
  | .next t => (t.port p).reply
  | _ => []

/-- The next state of an outcome. -/
def nextOf : Host.Outcome State Fault Refusal → State
  | .next t => t
  | _ => State.reset

/-! ### The check refuses ill-formed terms -/

theorem test_ill_formed_open : (Instr.openSession 0 2 [12]).wellFormed = false := by decide +kernel
theorem test_ill_formed_open_count_five : (Instr.openSession 0 5 [1, 2, 3, 4, 5]).wellFormed = false := by decide +kernel
theorem test_ill_formed_stage : (Instr.stage 0 0 0 0 3 [1, 2]).wellFormed = false := by decide +kernel
theorem test_ill_formed_stage_no_length : (Instr.stage 0 0 0 0 300 [1]).wellFormed = false := by decide +kernel
theorem test_ill_formed_unknown : (Instr.unknownRequestCode 0 0x41).wellFormed = false := by decide +kernel
theorem test_ill_formed_reset_cut : (Instr.resetAssert ⟨false, List.replicate 4149 0⟩).wellFormed = false := by decide +kernel
theorem test_ill_formed_power_on_cut : (Instr.powerOn ⟨false, List.replicate 4149 0⟩).wellFormed = false := by decide +kernel
theorem test_ill_formed_power_loss_cut : (Instr.powerLoss ⟨true, List.replicate 4149 0⟩).wellFormed = false := by decide +kernel
theorem test_ill_formed_timeout_cut : (Instr.flashOpTimeout ⟨true, List.replicate 4149 0⟩).wellFormed = false := by decide +kernel
theorem test_ill_formed_mark : (Instr.begunMarkCompletion (.left [0, 0])).wellFormed = false := by decide +kernel
theorem test_ill_formed_retire : (Instr.retireMarkCompletion (.left [0, 0])).wellFormed = false := by decide +kernel
theorem test_ill_formed_void : (Instr.voidCompletion (.left [0, 0])).wellFormed = false := by decide +kernel
theorem test_ill_formed_mount_void : (Instr.mountVoidCompletion (.left [0, 0])).wellFormed = false := by decide +kernel
theorem test_ill_formed_line : (Instr.lineProgramCompletion (.left (List.replicate 257 0))).wellFormed = false := by
  decide +kernel
theorem test_ill_formed_stamp : (Instr.dataStampCompletion (.left (List.replicate 19 0))).wellFormed = false := by
  decide +kernel
theorem test_ill_formed_free_stamp : (Instr.freeStampCompletion (.left (List.replicate 7 0))).wellFormed = false := by
  decide +kernel
theorem test_ill_formed_erase : (Instr.eraseCompletion (.left (List.replicate 4161 0))).wellFormed = false := by
  decide +kernel

/-! ### The guide's worked examples -/

/-- R183: the check value of the CRC-16. -/
theorem test_crc_check_value : crc16 [0x31, 0x32, 0x33, 0x34, 0x35, 0x36, 0x37, 0x38, 0x39] = 0x29B1 := by decide +kernel

/-- Section 10.2: the data stamp of member 1 of the group on pages 105, 106 and 110. -/
def exampleStamp : DataStamp := { count := 3, index := 1, pages := [105, 106, 110], serial := 0x2A0, writer := 1 }

/-- A spare area that holds that stamp and a free stamp. -/
def exampleSpare : List Byte :=
  freeStampBytes 7 ++ [0xFF, 0xFF] ++ dataStampBytes exampleStamp ++ List.replicate 38 0xFF

theorem test_data_stamp_bytes : (dataStampBytes exampleStamp).take 16 =
    [0x5A, 0x03, 0x01, 0x00, 0x69, 0x00, 0x6A, 0x00, 0x6E, 0xFF, 0xFF, 0x00, 0x00, 0x02, 0xA0, 0x01] := by decide +kernel
theorem test_data_stamp_read : dataStamp exampleSpare = some exampleStamp := by decide +kernel
theorem test_data_stamp_page : exampleStamp.page = 106 := by decide +kernel
theorem test_free_stamp_read : freeStampCount exampleSpare = some 7 := by decide +kernel
theorem test_data_stamp_crc : dataStamp (exampleSpare.set 24 0x00) = none := by decide +kernel

/-- Section 10.3: the table of Table 30, encoded, up to its CRC-16, in three parts of 22 bytes. -/
def tablePart1 : List Byte :=
  [0xD6, 0x47, 0x01, 0x00, 0x00, 0x00, 0x3F, 0x0F, 0x01, 0x00, 0x01, 0x00, 0x20, 0x00, 0x5F, 0x02, 0x02, 0x00, 0x00, 0x00,
   0x00, 0x00]

/-- The second part: the rest of record 2, record 3 and record 4. -/
def tablePart2 : List Byte :=
  [0x00, 0x00, 0x00, 0x00, 0x01, 0x01, 0x90, 0x01, 0xCF, 0x0F, 0x08, 0x00, 0x01, 0x01, 0xC2, 0x01, 0xCF, 0x0F, 0x04, 0x00,
   0x00, 0x00]

/-- The third part: zeros to the end of record 7. -/
def tablePart3 : List Byte := List.replicate 22 0x00

/-- The line of 256 bytes. -/
def exampleTable : List Byte :=
  tablePart1 ++ tablePart2 ++ tablePart3 ++ [0xD9, 0x13] ++ List.replicate 188 0xFF

theorem test_table_crc : crc16 (tablePart1 ++ tablePart2 ++ tablePart3) = 0xD913 := by
  have h1 : (tablePart1.flatMap byteBits).foldl crcBit 0xFFFF = 0xED43 := by decide +kernel
  have h2 : (tablePart2.flatMap byteBits).foldl crcBit 0xED43 = 0xD0DC := by decide +kernel
  have h3 : (tablePart3.flatMap byteBits).foldl crcBit 0xD0DC = 0xD913 := by decide +kernel
  unfold crc16
  rw [List.flatMap_append, List.flatMap_append, List.foldl_append, List.foldl_append, h1, h2, h3]

/-- The records of Table 30. -/
def exampleWindows : List Window := (List.range 8).map (windowRecord exampleTable)

theorem test_table_judged : judgeLine exampleTable = .wellFormed exampleWindows := by
  have h0 : allErased exampleTable = false := by decide +kernel
  have h1 : slice exampleTable 0 66 = tablePart1 ++ tablePart2 ++ tablePart3 := by decide +kernel
  have h2 : slice exampleTable 66 2 = crcBytes (slice exampleTable 0 66) := by
    rw [h1]; unfold crcBytes; rw [test_table_crc]; decide +kernel
  unfold judgeLine
  rw [if_neg (by rw [h0]; simp), if_pos ⟨by decide +kernel, h2, by decide +kernel⟩]
  rfl

/-- The ports that have a permission on a page under that table. -/
def permitted (f : WindowsTable → PortId → Nat → Bool) (page : Nat) : List PortId :=
  (List.finRange 4).filter fun p => f (.windows exampleWindows) p page

/-- Table 31. -/
theorem test_table_permissions :
    [10, 40, 80, 150, 455, 463].map (permitted WindowsTable.canRead)
      = [[0, 1, 2, 3], [0, 1, 2, 3], [1], [0, 1, 2, 3], [0, 1, 2, 3], [0, 1, 2, 3]]
    ∧ [10, 40, 80, 150, 455, 463].map (permitted WindowsTable.canWrite) = [[0], [0], [1], [0, 1, 2, 3], [3], [3]] := by
  decide +kernel

/-- A pad other than 0 makes the line malformed (R130). -/
theorem test_line_malformed : judgeLine (exampleTable.set 9 0x01) = .malformed := by
  have h0 : allErased (exampleTable.set 9 0x01) = false := by decide +kernel
  have h1 : (List.range 8).all (windowRecordOk (exampleTable.set 9 0x01)) = false := by decide +kernel
  unfold judgeLine
  rw [if_neg (by rw [h0]; simp), if_neg (by rw [h1]; simp)]

theorem test_line_empty : judgeLine (List.replicate 256 0xFF) = .empty := by decide +kernel

/-- Section 10.4: where the status byte falls, by the number of request bytes taken. -/
theorem test_status_positions :
    (encodeFrame (.stage 0 0 0 0 4 [1, 2, 3, 4])).map List.length = some 11
    ∧ (encodeFrame (.stage 0 0 0 0 300 [])).map List.length = some 7
    ∧ (encodeFrame (.openSession 0 2 [12, 13])).map List.length = some 6
    ∧ (encodeFrame (.openSession 0 0 [])).map List.length = some 2 := by decide +kernel

theorem test_decode_open : decodeFrame 1 [0x20, 0x02, 0x00, 0x0C, 0x00, 0x0D, 0xEE] = some (.openSession 1 2 [12, 13]) := by
  decide +kernel
theorem test_decode_read : decodeFrame 1 [0x10, 0x01, 0xCF, 0x0F, 0xA0, 0x00, 0x60] = some (.read 1 463 4000 96) := by
  decide +kernel
theorem test_decode_unknown : decodeFrame 1 [0xFF] = some (.unknownRequestCode 1 0xFF) := by decide +kernel

/-- Section 9.5: the limits of READ. -/
theorem test_read_limits : readInRange 463 4000 96 = true ∧ readInRange 463 4000 97 = false ∧ readInRange 100 8192 16 = true := by
  decide +kernel

/-! ### Single steps -/

theorem test_no_word : decodeTableWord 8 0x12 = none ∧ State.reset.withFetchWord 8 0x12 = State.reset := ⟨rfl, rfl⟩

/-- Section 10.5: the STATUS of a part after the first mount of a blank array. -/
theorem test_status : reply 2 (exec (.status 2) (listening 2 (pools [] allBlocks up))) =
    [0x00, 0x42, 0x10, 0x01, 0x02, 0x00, 0x01, 0x00, 0x00, 0x02, 0x00, 0x00, 0x00, 0x00, 0x00, 0x00, 0x00, 0xFF, 0xFF, 0xFF,
     0xFF, 0x00, 0x00, 0x64] := by decide +kernel
theorem test_not_ready : reply 0 (exec (.mapQuery 0 5) (listening 0 State.reset)) = [0x01] := by decide +kernel
theorem test_read_refused : reply 0 (exec (.read 0 463 4000 97) (listening 0 up)) = [0x02] := by decide +kernel
theorem test_map_query : reply 0 (exec (.mapQuery 0 5) (listening 0 (mapTo 5 9 up))) =
    [0x00, 0x01, 0x00, 0x00, 0x02, 0xA0, 0x01, 0x00, 0xFF] := by decide +kernel
theorem test_open : reply 1 (exec (.openSession 1 2 [12, 13]) (listening 1 (put 0 (record .opened (some 0) [7]) up))) =
    [0x00, 0x01] := by decide +kernel
theorem test_open_page_busy : reply 1 (exec (.openSession 1 1 [7]) (listening 1 (put 0 (record .opened (some 0) [7]) up))) =
    [0x04] := by decide +kernel
theorem test_stage_crosses_line : reply 0 (exec (.stage 0 0 0 255 2 [1, 2]) (listening 0 (put 0 (record .opened (some 0) [7]) up)))
    = [0x02] := by decide +kernel
theorem test_commit : ((nextOf (exec (.commit 0 0) (listening 0 (put 0 (record .opened (some 0) [7]) up)))).eng.queueOf 0) = [0] := by
  decide +kernel
theorem test_collect : reply 0 (exec (.collect 0 3)
    (listening 0 (put 3 { record .finished (some 0) [7] with outcome := some (.failed (.verify 2)) } up))) =
    [0x00, 0x03, 0x05, 0x00, 0x00, 0x00, 0x00, 0x02, 0x02] := by decide +kernel
theorem test_notice_empty : reply 0 (exec (.noticeFetch 0) (listening 0 up)) = [0x0D] := by decide +kernel
theorem test_unknown : reply 3 (exec (.unknownRequestCode 3 0x13) (listening 3 State.reset)) = [0x0E] := by decide +kernel
theorem test_reset_release : (nextOf (exec .resetRelease { up with power := { supplied := true, resetLow := true } })).mount.cause =
    .resetLine := by decide +kernel

/-- R114: a block of a blank array is DIRTY with erase count 0. -/
theorem test_scan_blank : (nextOf (exec .mountBlockScan State.reset)).bm.dirtyList = [0]
    ∧ (nextOf (exec .mountBlockScan State.reset)).mount.position = 1 := by decide +kernel

/-- R124: with no voiding list the load of the windows table ends the mount. -/
theorem test_load_ready : (nextOf (exec .windowsTableLoad { State.reset with
    mount := { State.reset.mount with stage := .built } })).mount.condition = .ready := by decide +kernel

/-- R69, R96: with the free count below 4 the oldest dirty block is erased. -/
theorem test_choice_erases : (nextOf (exec .choiceOfWork (block 3 .dirty 0 (pools [] [3] up)))).eng.work = .erase 3 .erase := by
  decide +kernel

/-- R124: the event that ends the mount makes the first choice of work. -/
theorem test_load_chooses : (nextOf (exec .windowsTableLoad (block 3 .dirty 0 (pools [] [3] { State.reset with
    mount := { State.reset.mount with stage := .built } })))).eng.work = .erase 3 .erase := by decide +kernel

/-- R163, R166: the bits of a STATUS, the most significant first, clocked in on SDI; a bit less is no request. -/
theorem test_status_bits :
    (let t := nextOf (exec (.replyByteDelivery ⟨2, clockEdges [false, false, false, true, false, false, true, false], []⟩) (listening 2 up))
     (t.port 2).decoder = .turnaround ∧ (t.port 2).received = 1 ∧ (t.port 2).reply = reply 2 (exec (.status 2) (listening 2 up)))
    ∧ (let t := nextOf (exec (.replyByteDelivery ⟨2, clockEdges [false, false, false, true, false, false, true], []⟩) (listening 2 up))
       (t.port 2).decoder = .request ∧ (t.port 2).bits.length = 7 ∧ (t.port 2).reply = []) := by decide +kernel

/-- R166: the request byte of COLLECT is held until its parameter byte has arrived. -/
theorem test_collect_bits :
    let t := nextOf (exec (.replyByteDelivery ⟨0, clockEdges (byteBits 0x24), []⟩) (listening 0 up))
    (t.port 0).request = [0x24] ∧ (t.port 0).received = 1 ∧ (t.port 0).decoder = .request
    ∧ reply 0 (exec (.replyByteDelivery ⟨0, clockEdges (byteBits 0x03), []⟩) t) = reply 0 (exec (.collect 0 3) (listening 0 up))
    ∧ ((nextOf (exec (.collect 0 3) t)).port 0).decoder = .request := by decide +kernel

/-- R1: a program changes no byte that was programmed before; and R91: it leaves no other valid data stamp. -/
theorem test_program_keeps :
    (State.flashAfter { up with flash := Memory.writeBytes [] (spareAddr 3 32) [0x3C] } (.void 3) .intended).read (spareAddr 3 32)
      = 0x3C
    ∧ (up.flashAfter (.dataStamp 3) (.left (dataStampBytes exampleStamp))).read (spareAddr 3 8) = 0xFF
    ∧ (up.flashCut (.dataStamp 3) { secondPhase := false, left := dataStampBytes exampleStamp }).read (spareAddr 3 8) = 0xFF := by
  decide +kernel

/-- R92: an erase that leaves the data stamp of a voided block valid leaves its VOID byte; where the stamp is not valid it clears. -/
theorem test_erase_keeps_discard :
    let old := Memory.writeBytes [] (spareAddr 3 0) (exampleSpare.set 32 0x3C)
    (old.keptDiscard (Memory.writeBytes [] (spareAddr 3 0) exampleSpare) 3).read (spareAddr 3 32) = 0x3C
    ∧ (old.keptDiscard (Memory.writeBytes [] (spareAddr 3 0) (exampleSpare.set 8 0xFF)) 3).read (spareAddr 3 32) = 0xFF := by
  decide +kernel

/-- R97: the free stamp that follows an erase carries the erase count raised by one. -/
theorem test_free_stamp : (nextOf (exec (.freeStampCompletion .intended)
    { block 3 .erasing 0 up with eng := { up.eng with work := .erase 3 .freeStamp } })).flash.readBytes (spareAddr 3 0) 4 =
    [0xA5, 0x00, 0x00, 0x02] := by decide +kernel

/-! ### Witnesses: the machine and the requests -/

theorem witness_StepTakesTheFrontCommand : State.reset.pending = [] := rfl

theorem witness_MountingRefusesRequests :
    (Instr.openSession 0 4 [0, 1, 2, 3]).wellFormed = true
    ∧ encodeFrame (.openSession 0 4 [0, 1, 2, 3]) = some [0x20, 0x04, 0, 0, 0, 1, 0, 2, 0, 3]
    ∧ (Instr.openSession 0 4 [0, 1, 2, 3]).requestPort = some 0 ∧ Instr.openSession 0 4 [0, 1, 2, 3] ≠ .status 0
    ∧ (∀ code, Instr.openSession 0 4 [0, 1, 2, 3] ≠ .unknownRequestCode 0 code)
    ∧ (listening 0 State.reset).Receiving 0 ∧ (listening 0 State.reset).mount.condition = .mounting :=
  ⟨by decide +kernel, by decide +kernel, rfl, by simp, by simp, by unfold State.Receiving; decide +kernel, rfl⟩

theorem witness_RequestsLeaveTheRest :
    (Instr.freeze 0).requestPort = some 0 ∧ ∃ t, exec (.freeze 0) (listening 0 up) = .next t := ⟨rfl, _, rfl⟩

/-- The range clauses at their limits, the last byte of the space, one page denied, and every page allowed. -/
theorem witness_ReadAnswers :
    (listening 0 up).Receiving 0 ∧ (listening 0 up).Ready ∧ (listening 0 (walled up)).Receiving 0 ∧ (listening 0 (walled up)).Ready
    ∧ 463 < (464 : Half).toNat ∧ (0 : Half).toNat = 0 ∧ 16384 < (16385 : Half).toNat
    ∧ 1900544 < 4096 * (463 : Half).toNat + (4000 : Half).toNat + (97 : Half).toNat
    ∧ ((463 : Half).toNat ≤ 463 ∧ 1 ≤ (96 : Half).toNat ∧ (96 : Half).toNat ≤ 16384
        ∧ 4096 * (463 : Half).toNat + (4000 : Half).toNat + (96 : Half).toNat ≤ 1900544)
    ∧ (1 ≤ (16384 : Half).toNat ∧ (16384 : Half).toNat ≤ 16384)
    ∧ (listening 0 (walled up)).prot.table.canRead 0 463 = false
    ∧ (∀ q, 463 ≤ q → q ≤ 463 → (listening 0 up).prot.table.canRead 0 q = true) := by
  refine ⟨?_, rfl, ?_, rfl, ?_, ?_, ?_, ?_, ?_, ?_, ?_, fun _ _ _ => rfl⟩ <;> (try unfold State.Receiving) <;> decide +kernel

/-- Pages 5 to 8 mapped or not, claimed by an attached session, by a detached one, or by none. -/
def queried : State :=
  listening 0 (mapTo 5 9 (put 0 (record .opened (some 1) [5]) (put 1 (record .programming none [7]) up)))

theorem witness_MapQueryAnswers :
    queried.Receiving 0 ∧ queried.Ready ∧ 463 < (464 : Half).toNat
    ∧ queried.map.entry 6 = none ∧ queried.map.entry 5 = some { block := 9, serial := 0x2A0, writer := 1 }
    ∧ queried.ses.claim 6 = none
    ∧ (queried.ses.claim 5 = some 0 ∧ (queried.ses.session 0).owner = some 1)
    ∧ (queried.ses.claim 7 = some 1 ∧ (queried.ses.session 1).owner = none) := by
  refine ⟨?_, rfl, ?_⟩ <;> (try unfold State.Receiving) <;> decide +kernel

/-- A session in each state, two of them of port 0, and three of the flags. -/
def reported : State :=
  let five := put 0 (record .opened (some 0) [5]) (put 1 (record .queued (some 1) [6]) (put 2 (record .programming none [7])
    (put 3 (record .unwinding none [8]) (put 4 (record .finished (some 0) [3]) up))))
  listening 0 { five with prot := { up.prot with frozen := true }, eng := { up.eng with markFault := true } }

/-- The same part while port 0 takes a STATUS: its code has arrived, and the Notice Unit's group has been taken again since. -/
def reporting : State :=
  reported.setPort 0 { (reported.port 0).answered 0 .ok [] with
    statusTaken := some { reported.statusGroups 0 with sessions := [(4, .finished)], late := [.notices] } }

/-- The same, where each group has been taken again. -/
def late : State :=
  reported.setPort 0 { (reported.port 0).answered 0 .ok [] with
    statusTaken := some { reported.statusGroups 0 with late := StatusOwner.all } }

theorem witness_StatusAnswers :
    (let mine : List (SessionId × SessionState) := [(0, .opened), (4, .finished)]
     (mine.map Prod.fst).Pairwise (· < ·)
     ∧ (∀ i st, (i, st) ∈ mine ↔ reported.Own 0 i ∧ (reported.ses.session i).state = st)
     ∧ (∀ i st, (i, st) ∈ mine ↔ reporting.Own 0 i ∧ (reporting.ses.session i).state = st)
     ∧ ∀ i st, (i, st) ∈ mine ↔ late.Own 0 i ∧ (late.ses.session i).state = st)
    ∧ (reported.Receiving 0 ∧ (reported.port 0).statusTaken = none)
    ∧ (let r := reporting.port 0
       r.statusTaken = some { reported.statusGroups 0 with sessions := [(4, .finished)], late := [.notices] }
       ∧ r.decoder = .turnaround ∧ r.turnaroundLeft = 2 ∧ r.bits = [] ∧ r.sckHigh = true
       ∧ StatusOwner.scanner ∉ [StatusOwner.notices] ∧ StatusOwner.scanner ∉ [StatusOwner.sessions])
    ∧ (late.port 0).statusTaken = some { reported.statusGroups 0 with late := StatusOwner.all }
    ∧ ∀ o : StatusOwner, o ∈ StatusOwner.all := by
  have mine : ∀ s ∈ [reported, reporting, late], ∀ (i : SessionId) (st : SessionState),
      (i, st) ∈ [((0 : SessionId), SessionState.opened), (4, .finished)] ↔ s.Own 0 i ∧ (s.ses.session i).state = st := by
    have : ∀ s ∈ [reported, reporting, late], ∀ (i : SessionId),
        ∀ st ∈ [SessionState.free, .opened, .queued, .programming, .unwinding, .finished],
        ((i, st) ∈ [((0 : SessionId), SessionState.opened), (4, .finished)] ↔ s.Own 0 i ∧ (s.ses.session i).state = st) := by
      unfold State.Own; decide +kernel
    exact fun s hs i st => this s hs i st (by cases st <;> simp)
  refine ⟨⟨by decide, mine _ (by simp), mine _ (by simp), mine _ (by simp)⟩, ⟨?_, by decide +kernel⟩, by decide +kernel,
    by decide +kernel, fun o => by cases o <;> decide⟩
  unfold State.Receiving; decide +kernel

/-- A part whose port 0 owns a session, before the flip that finishes it and after. -/
def flipSides : State × State :=
  let s := listening 0 (put 0 (record .programming (some 0) [5]) up)
  (s, { s with map := { s.map with mapped := 1 }, ses := s.ses.setSession 0 { s.ses.session 0 with state := .finished } })

/-- The STATUS bytes of port 0 when the code arrives in one state and the groups of some owners are taken again in the next. -/
def statusAcross (before after : State) (owners : List StatusOwner) : List Byte :=
  let s := nextOf (exec (.status 0) before)
  reply 0 (exec (.replyByteDelivery ⟨0, [], owners⟩) { after with ports := s.ports })

/-- R177, both ways of its example: PROGRAMMING beside the counts after the flip, and FINISHED beside those before it. -/
theorem test_status_split :
    let (before, after) := flipSides
    let first := statusAcross before after [.tables]
    let second := statusAcross before after [.sessions]
    (first[14]? = some 0x01 ∧ first[18]? = some 0x03) ∧ (second[14]? = some 0x00 ∧ second[18]? = some 0x05) := by decide +kernel

/-- R168, R177: a gather of every group, or one after SCK has moved, leaves the reply as it was. -/
theorem test_status_fixed :
    let (before, after) := flipSides
    let s := nextOf (exec (.status 0) before)
    let low := nextOf (exec (.replyByteDelivery ⟨0, [.fall], []⟩) s)
    statusAcross before after StatusOwner.all = reply 0 (exec (.status 0) before)
    ∧ reply 0 (exec (.replyByteDelivery ⟨0, [], [.tables]⟩) { after with ports := low.ports }) = reply 0 (.next low) := by
  decide +kernel

/-- A frame on a free port, eight bits of SDI, and ports whose PRST_n, or the part's RESET_n, is low. -/
theorem witness_UnknownCodeAnswered :
    (0x00 : Byte) ∉ requestCodes ∧ (0xFF : Byte) ∉ requestCodes
    ∧ (listening 0 State.reset).Receiving 0 ∧ ((listening 0 State.reset).port 0).stream = none
    ∧ (Instr.unknownRequestCode 0 0xFF).requestPort = some 0 ∧ (byteBits 0x20).length = 8
    ∧ (let s := State.reset.setPort 0 { State.reset.port 0 with prstLow := true }
       (s.port 0).csLow = false ∧ (s.port 0).prstLow = true)
    ∧ (let s := { State.reset with power := { supplied := true, resetLow := true } }
       (s.port 0).csLow = false ∧ s.power.resetLow = true) := by
  refine ⟨by decide, by decide, ?_, by decide +kernel, rfl, by decide +kernel, by decide +kernel, by decide +kernel⟩
  unfold State.Receiving; decide +kernel

/-! ### Witnesses: sessions -/

/-- A session of port 1 with four pages, which leaves four buffers. -/
def half : State := put 0 (record .opened (some 1) [10, 11, 12, 13]) up

/-- Four pages, page 463 among them, beside a session that leaves exactly four buffers; the lowest FREE slot is 1. -/
theorem witness_OpenAccepted :
    (listening 0 half).Receiving 0 ∧ (listening 0 half).Ready ∧ ([0, 1, 2, 463] : List PageId).Nodup
    ∧ (∀ q ∈ ([0, 1, 2, 463] : List PageId), (listening 0 half).prot.table.canWrite 0 q.val = true)
    ∧ ¬ ((listening 0 half).prot.frozen = true ∧ Config.windowsPage ∈ ([0, 1, 2, 463] : List PageId))
    ∧ (∀ q ∈ ([0, 1, 2, 463] : List PageId), (listening 0 half).ses.claim q = none)
    ∧ ((listening 0 half).ses.attached 0).length < 2 ∧ ((listening 0 half).ses.session 1).state = .free
    ∧ (∀ j : SessionId, j < 1 → ((listening 0 half).ses.session j).state ≠ .free)
    ∧ (listening 0 half).ses.buffersInUse + 4 ≤ 8 := by
  refine ⟨?_, rfl, ?_⟩ <;> (try unfold State.Receiving) <;> decide +kernel

/-- Every slot in use. -/
def full : State :=
  (List.finRange 8).foldl (fun s i => put i (record .finished (some (if i.val < 4 then 1 else 2)) [0]) s) up

/-- The lists that are malformed, and a list of one page that meets each refusal of Table 11 in its turn. -/
theorem witness_OpenRefused :
    ((listening 0 up).Receiving 0 ∧ (listening 0 up).Ready)
    ∧ (([] : List Half).length = openPageCount 0 ∧ ([] : List Half).length = openPageCount 5)
    ∧ (([3, 3] : List Half).length = openPageCount 2 ∧ ¬ ([3, 3] : List Half).Nodup)
    ∧ (([464] : List Half).length = openPageCount 1 ∧ 463 < (464 : Half).toNat)
    ∧ ([463] : List Half) = [Config.windowsPage].map pageHalf
    ∧ (walled up).prot.table.canWrite 0 463 = false
    ∧ (up.prot.table.canWrite 0 463 = true ∧ ({ up with prot := { up.prot with frozen := true } } : State).prot.frozen = true)
    ∧ (up.prot.frozen = false ∧ (put 0 (record .opened (some 1) [463]) up).ses.claim 463 ≠ none)
    ∧ (up.ses.claim 463 = none
        ∧ 2 ≤ ((put 0 (record .opened (some 0) [1]) (put 1 (record .queued (some 0) [2]) up)).ses.attached 0).length)
    ∧ (∀ i, (full.ses.session i).state ≠ .free)
    ∧ (let s := put 0 (record .opened (some 1) [1, 2, 3, 4]) (put 1 (record .opened (some 2) [5, 6, 7, 8]) up)
       (s.ses.attached 0).length < 2 ∧ (s.ses.session 2).state = .free ∧ 8 < s.ses.buffersInUse + 1) := by
  refine ⟨⟨?_, rfl⟩, ?_⟩ <;> (try unfold State.Receiving) <;> decide +kernel

/-- Each of the four requests with its count of bytes, a session id of 8, and slots that are FREE, detached, or another port's. -/
theorem witness_ForeignSessionsRefused :
    ((listening 0 up).Receiving 0 ∧ (listening 0 up).Ready)
    ∧ (([1, 2] : List Byte).length = stageDataCount 2 ∧ 9 = 7 + ([1, 2] : List Byte).length)
    ∧ 7 < (8 : Byte).toNat ∧ (7 : Byte) = sidByte 7 ∧ ¬ (listening 0 up).Own 0 7
    ∧ ¬ (listening 0 (put 0 (record .programming none [1]) up)).Own 0 0
    ∧ ¬ (listening 0 (put 0 (record .opened (some 1) [1]) up)).Own 0 0 := by
  refine ⟨⟨?_, rfl⟩, ?_⟩ <;> (try unfold State.Receiving) <;> (try unfold State.Own) <;> decide +kernel

/-- An OPEN session of port 0 on pages 463 and 7. -/
def staging : State := listening 0 (put 0 (record .opened (some 0) [463, 7]) up)

/-- A QUEUED session; ranges refused for each reason at its limit; and ranges that just fit their line. -/
theorem witness_StageAnswers :
    staging.Receiving 0 ∧ staging.Ready ∧ staging.Own 0 0 ∧ ([0xAB] : List Byte).length = stageDataCount 1
    ∧ (staging.ses.session 0).state = .opened
    ∧ (let s := listening 0 (put 0 (record .queued (some 0) [7]) up)
       s.Own 0 0 ∧ (s.ses.session 0).state ≠ .opened)
    ∧ (¬ (2 : Byte).toNat < (staging.ses.session 0).members.length ∧ ¬ 1 ≤ (0 : Half).toNat ∧ ¬ (257 : Half).toNat ≤ 256
        ∧ ¬ (4096 : Half).toNat ≤ 4095 ∧ ¬ (255 : Half).toNat % 256 + (2 : Half).toNat ≤ 256)
    ∧ ((1 : Byte).toNat < (staging.ses.session 0).members.length ∧ 1 ≤ (1 : Half).toNat ∧ (1 : Half).toNat ≤ 256
        ∧ (4095 : Half).toNat ≤ 4095 ∧ (4095 : Half).toNat % 256 + (1 : Half).toNat ≤ 256) := by
  refine ⟨?_, rfl, ?_, ?_⟩ <;> (try unfold State.Receiving) <;> (try unfold State.Own) <;> decide +kernel

/-- An OPEN session on page 463 with a byte of line 0 staged, which alone makes the merged line malformed, and one without. -/
def flagged : State :=
  listening 0 (put 0 { record .opened (some 0) [463] with windowsLine := true, buffers := [[(0, 0xD6)]] } up)

theorem witness_CommitAnswers :
    flagged.Receiving 0 ∧ flagged.Ready ∧ flagged.Own 0 0
    ∧ ((flagged.mergedWindowsLine 0).length = 256 ∧ ∀ o, o < 256 → (flagged.mergedWindowsLine 0)[o]? = some (mergedByte flagged.flash
        ((flagged.ses.session 0).buffers.getD ((flagged.ses.session 0).members.idxOf Config.windowsPage) [])
        (flagged.map.currentBlock Config.windowsPage) o))
    ∧ (flagged.ses.session 0).state = .opened ∧ (flagged.ses.session 0).windowsLine = true
    ∧ judgeLine (flagged.mergedWindowsLine 0) = .malformed
    ∧ ((staging.ses.session 0).state = .opened ∧ ¬ (staging.ses.session 0).windowsLine = true)
    ∧ (let s := listening 0 (put 0 (record .queued (some 0) [7]) up)
       s.Own 0 0 ∧ (s.ses.session 0).state ≠ .opened) := by
  have hb : allErased (flagged.mergedWindowsLine 0) = false := by decide +kernel
  have ht : slice (flagged.mergedWindowsLine 0) 0 2 ≠ [0xD6, 0x47] := by decide +kernel
  refine ⟨?_, rfl, ?_, ?_, ?_, ?_, ?_, ?_, ?_⟩
  all_goals (try unfold State.Receiving)
  all_goals (try unfold State.Own)
  case refine_6 =>
    unfold judgeLine
    rw [if_neg (by rw [hb]; simp), if_neg fun h => ht h.1]
  all_goals decide +kernel

/-- A PROGRAMMING session before the boundary and one after it. -/
def programming (passed : Bool) : State :=
  listening 0 (put 0 { record .programming (some 0) [7] with boundaryPassed := passed } up)

theorem witness_AbortEndsOrUnwinds :
    (staging.Receiving 0 ∧ staging.Ready ∧ staging.Own 0 0 ∧ (staging.ses.session 0).state = .opened)
    ∧ (let s := listening 0 (put 0 (record .queued (some 0) [7]) up)
       s.Receiving 0 ∧ s.Ready ∧ s.Own 0 0 ∧ (s.ses.session 0).state = .queued)
    ∧ ∀ passed : Bool, (programming passed).Receiving 0 ∧ (programming passed).Ready ∧ (programming passed).Own 0 0
      ∧ ((programming passed).ses.session 0).state = .programming
      ∧ ((programming passed).ses.session 0).boundaryPassed = passed := by
  unfold State.Receiving State.Ready State.Own; decide +kernel

theorem witness_AbortTooLateIsBadState :
    ∀ st : SessionState, st = .unwinding ∨ st = .finished →
      let s := listening 0 (put 0 (record st (some 0) [7]) up)
      s.Receiving 0 ∧ s.Ready ∧ s.Own 0 0 ∧ (s.ses.session 0).state = st := by
  rintro st (rfl | rfl) <;> unfold State.Receiving State.Ready State.Own <;> decide +kernel

/-- A FINISHED session with each outcome in turn, and an OPEN one. -/
theorem witness_CollectAnswers :
    (staging.Receiving 0 ∧ staging.Ready ∧ staging.Own 0 0 ∧ (staging.ses.session 0).state ≠ .finished)
    ∧ ∀ o ∈ [SessionOutcome.done 0x2A0, .abandoned, .expired, .revoked, .failed .noSpace, .failed (.verify 3), .failed .serialEnd],
        let s := listening 0 (put 0 { record .finished (some 0) [7] with outcome := some o } up)
        s.Receiving 0 ∧ s.Ready ∧ s.Own 0 0 ∧ (s.ses.session 0).state = .finished ∧ (s.ses.session 0).outcome = some o := by
  unfold State.Receiving State.Ready State.Own; decide +kernel

theorem witness_LeaseSetAnswers :
    (listening 0 up).Receiving 0 ∧ (listening 0 up).Ready ∧ (0 : Byte).toNat = 0 ∧ 250 < (251 : Byte).toNat
    ∧ 1 ≤ (1 : Byte).toNat ∧ (250 : Byte).toNat ≤ 250 := by
  unfold State.Receiving State.Ready; decide +kernel

theorem witness_LeaseExpires : (staging.ses.session 0).state = .opened ∧ (staging.ses.session 1).state ≠ .opened := by
  decide +kernel

/-! ### Witnesses: watches, notices, protection -/

theorem witness_WatchSetAnswers :
    (listening 0 up).Receiving 0 ∧ (listening 0 up).Ready
    ∧ (3 < (4 : Byte).toNat ∧ (4 : Half).toNat < (5 : Half).toNat ∧ 463 < (464 : Half).toNat)
    ∧ ¬ (3 < (3 : Byte).toNat ∨ (463 : Half).toNat < (463 : Half).toNat ∨ 463 < (463 : Half).toNat)
    ∧ ((listening 0 (walled up)).Receiving 0 ∧ (listening 0 (walled up)).Ready
        ∧ (listening 0 (walled up)).prot.table.canRead 0 463 = false)
    ∧ ∀ q, 463 ≤ q → q ≤ 463 → (listening 0 up).prot.table.canRead 0 q = true := by
  refine ⟨?_, rfl, ?_, ?_, ⟨?_, rfl, ?_⟩, fun _ _ _ => rfl⟩ <;> (try unfold State.Receiving) <;> decide +kernel

theorem witness_WatchClearEmptiesTheSlot :
    ((listening 0 State.reset).Receiving 0 ∧ (listening 0 State.reset).mount.condition = .mounting)
    ∧ (listening 0 up).Receiving 0 ∧ (listening 0 up).Ready ∧ 3 < (4 : Byte).toNat ∧ (3 : Byte).toNat ≤ 3 := by
  unfold State.Receiving State.Ready; decide +kernel

/-- A port with these entries in its queue and this overrun flag. -/
def noticed (queue : List Notice) (overrun : Bool) : State :=
  listening 0 (up.setNotice 0 { NoticePort.reset with queue := queue, overrun := overrun })

theorem witness_NoticeFetchAnswers :
    (∀ k ∈ [NoticeKind.pageChanged 463, .tableChanged],
      let s := noticed [⟨k, 0x2A0, 3⟩] true
      s.Receiving 0 ∧ s.Ready ∧ (s.notice 0).queue = ⟨k, 0x2A0, 3⟩ :: [])
    ∧ ∀ o : Bool, (noticed [] o).Receiving 0 ∧ (noticed [] o).Ready ∧ ((noticed [] o).notice 0).queue = []
        ∧ ((noticed [] o).notice 0).overrun = o := by
  unfold State.Receiving State.Ready; decide +kernel

theorem witness_FreezeAnswers :
    ((listening 0 State.reset).Receiving 0 ∧ (listening 0 State.reset).mount.condition = .mounting)
    ∧ (staging.Receiving 0 ∧ staging.Ready ∧ staging.ses.claim Config.windowsPage ≠ none)
    ∧ ((listening 0 (walled up)).Receiving 0 ∧ (listening 0 (walled up)).Ready
        ∧ (listening 0 (walled up)).ses.claim Config.windowsPage = none
        ∧ (listening 0 (walled up)).prot.table.canWrite 0 463 = false)
    ∧ ∀ frozen : Bool, let s := listening 0 { up with prot := { up.prot with frozen := frozen } }
        s.Receiving 0 ∧ s.Ready ∧ s.ses.claim Config.windowsPage = none ∧ s.prot.table.canWrite 0 463 = true
        ∧ s.prot.frozen = frozen ∧ (s.port 0).csLow = true := by
  unfold State.Receiving State.Ready; decide +kernel

/-- In the table of Table 30: page 463 is covered by window 3 first, page 0 by window 0, and page 399 by none. -/
theorem witness_FirstCoveringWindowDecides :
    (∀ w ∈ exampleWindows, ¬ (w.valid = true ∧ w.first ≤ 399 ∧ 399 ≤ w.last))
    ∧ (∀ k, k < 8 → (k = 0 ↔ ∃ w, exampleWindows[k]? = some w ∧ w.valid = true ∧ w.first ≤ 0 ∧ 0 ≤ w.last))
    ∧ exampleWindows = exampleWindows.take 3 ++ windowRecord exampleTable 3 :: exampleWindows.drop 4
    ∧ (∀ v ∈ exampleWindows.take 3, ¬ (v.valid = true ∧ v.first ≤ 463 ∧ 463 ≤ v.last))
    ∧ (windowRecord exampleTable 3).valid = true ∧ (windowRecord exampleTable 3).first ≤ 463
    ∧ 463 ≤ (windowRecord exampleTable 3).last := by
  refine ⟨by decide +kernel, fun k hk => ?_, by decide +kernel, by decide +kernel, by decide +kernel, by decide +kernel,
    by decide +kernel⟩
  have h : ∀ k : Fin 8, exampleWindows[k.val]? = some (windowRecord exampleTable k.val)
      ∧ (k.val = 0 ↔ (windowRecord exampleTable k.val).valid = true ∧ (windowRecord exampleTable k.val).first ≤ 0
          ∧ 0 ≤ (windowRecord exampleTable k.val).last) := by decide +kernel
  obtain ⟨h1, h2⟩ := h ⟨k, hk⟩
  simp only at h1 h2
  rw [h1, h2]
  simp

/-- An empty line, the line of Table 30, and that line with a pad that is not 0. -/
theorem witness_WindowsLineJudged :
    (List.replicate 256 (0xFF : Byte)).length = 256 ∧ (∀ v ∈ List.replicate 256 (0xFF : Byte), v = 0xFF)
    ∧ exampleTable.length = 256 ∧ (∃ v ∈ exampleTable, v ≠ 0xFF)
    ∧ (exampleTable.getD 0 0xFF = 0xD6 ∧ exampleTable.getD 1 0xFF = 0x47
        ∧ (exampleTable.getD 66 0xFF).toNat * 256 + (exampleTable.getD 67 0xFF).toNat = (crc16 (exampleTable.take 66)).toNat)
    ∧ (∀ w : Fin 8, (exampleTable.getD (2 + 8 * w.val) 0xFF = 0x00 ∨ exampleTable.getD (2 + 8 * w.val) 0xFF = 0x01)
        ∧ exampleTable.getD (9 + 8 * w.val) 0xFF = 0x00
        ∧ (windowRecord exampleTable w.val).first ≤ (windowRecord exampleTable w.val).last
        ∧ (windowRecord exampleTable w.val).last ≤ 463)
    ∧ (exampleTable.set 9 0x01).length = 256 ∧ (∃ v ∈ exampleTable.set 9 0x01, v ≠ 0xFF)
    ∧ ¬ (exampleTable.set 9 0x01).getD (9 + 8 * 0) 0xFF = 0x00 := by
  have h1 : exampleTable.take 66 = tablePart1 ++ tablePart2 ++ tablePart3 := by decide +kernel
  refine ⟨by decide +kernel, by decide +kernel, by decide +kernel, by decide +kernel, ⟨by decide +kernel, by decide +kernel, ?_⟩,
    by decide +kernel, by decide +kernel, by decide +kernel, by decide +kernel⟩
  rw [h1, test_table_crc]
  decide +kernel

/-! ### Witnesses: frames and resets -/

/-- A part with RESET_n low, and one without supply. -/
def inReset : State := { State.reset with power := { supplied := true, resetLow := true } }
def off : State := { State.reset with power := { supplied := false, resetLow := false } }

/-- A port whose PRST_n is low. -/
def portLow (s : State) : State := s.setPort 0 { s.port 0 with prstLow := true }

theorem witness_ChipSelectFalls :
    ((up.port 0).csLow = false ∧ ¬ ((up.port 0).prstLow = true ∨ up.power.resetLow = true ∨ up.power.supplied = false))
    ∧ (((portLow up).port 0).csLow = false ∧ ((portLow up).port 0).prstLow = true)
    ∧ ((inReset.port 0).csLow = false ∧ inReset.power.resetLow = true)
    ∧ ((off.port 0).csLow = false ∧ off.power.supplied = false) := by decide +kernel

theorem witness_ChipSelectRises :
    (((listening 0 up).port 0).csLow = true
      ∧ ¬ (((listening 0 up).port 0).prstLow = true ∨ (listening 0 up).power.resetLow = true ∨ (listening 0 up).power.supplied = false))
    ∧ (let s := listening 0 (portLow up)
       (s.port 0).csLow = true ∧ (s.port 0).prstLow = true)
    ∧ (((listening 0 inReset).port 0).csLow = true ∧ inReset.power.resetLow = true)
    ∧ (((listening 0 off).port 0).csLow = true ∧ off.power.supplied = false) := by decide +kernel

/-- A port in a decoder state, with reply bytes, turnaround bytes to come, and a stream; this many bits of a byte have come, and SCK
stands at a level. -/
def at_ (d : Decoder) (turnaround : Nat) (bytes : List Byte) (stream : Option Stream) (bits : Nat := 7) (high : Bool := false) : State :=
  up.setPort 0 { up.port 0 with csLow := true, decoder := d, turnaroundLeft := turnaround, reply := bytes, stream := stream,
                                sdo := some 0xFF, bits := List.replicate bits true, sckHigh := high }

/-- A stream on a page with its position and the bytes left. -/
def streaming (block : Option BlockId) (position left : Nat) : Stream :=
  { page := 5, position := position, pinned := block, bytesLeft := left }

/-- An edge with SCK high already, a bit that counts for nothing, the first and the seventh bit of a byte, and the eighth in each state;
SDO driven and at high impedance. -/
theorem witness_ReplyBytesDelivered :
    ((at_ .request 0 [] none 3 true).port 0).sckHigh = true
    ∧ (∀ d ∈ [Decoder.idle, .ignored], ((at_ d 0 [] none 0).port 0).decoder = d ∧ ((at_ d 0 [] none 0).port 0).sckHigh = false)
    ∧ (∀ n ∈ [0, 6], let r := (at_ .request 0 [] none n).port 0
       r.sckHigh = false ∧ r.decoder ≠ .idle ∧ r.decoder ≠ .ignored ∧ r.bits.length < 7)
    ∧ (∀ d ∈ [Decoder.request, .spent], let r := (at_ d 0 [] none).port 0
       r.decoder = d ∧ r.sckHigh = false ∧ r.bits.length = 7)
    ∧ (let r := (at_ .request 0 [] none).port 0
       (∀ k, k < 8 → (r.bits ++ [true])[k]? = some ((0xFF : Byte).getLsbD (7 - k)))
       ∧ (∀ k, k < 8 → (r.bits ++ [false])[k]? = some ((0xFE : Byte).getLsbD (7 - k)))
       ∧ decodeFrame 0 (r.request ++ [0xFE]) = some (.unknownRequestCode 0 0xFE))
    ∧ (let r := { (at_ .request 0 [] none).port 0 with bits := [false, false, false, true, false, false, false] }
       (∀ k, k < 8 → (r.bits ++ [false])[k]? = some ((0x10 : Byte).getLsbD (7 - k))) ∧ decodeFrame 0 (r.request ++ [0x10]) = none)
    ∧ (∀ n ∈ [1, 2], let r := (at_ .turnaround n [0] none).port 0
        r.decoder = .turnaround ∧ r.turnaroundLeft = n ∧ r.sckHigh = false ∧ r.bits.length = 7)
    ∧ (∀ rest ∈ [[], [(0x42 : Byte)]], let r := (at_ .reply 0 (0 :: rest) none).port 0
        r.decoder = .reply ∧ r.reply = 0 :: rest ∧ r.stream = none ∧ r.sckHigh = false ∧ r.bits.length = 7)
    ∧ (let r := (at_ .reply 0 [0] (some (streaming none 0 1))).port 0
       r.decoder = .reply ∧ r.reply = 0 :: [] ∧ r.stream ≠ none ∧ r.sckHigh = false ∧ r.bits.length = 7)
    ∧ (up.port 0).sdo = none
    ∧ (∀ d ∈ [Decoder.request, .turnaround, .spent, .reply], ∀ n ∈ [0, 7], let r := (at_ d 0 [0x42] none n).port 0
       r.decoder = d ∧ r.reply = 0x42 :: [] ∧ r.sdo ≠ none ∧ r.sckHigh = false ∧ r.bits.length ≤ 7) := by decide +kernel

/-- R163: eight clocks carry a reply byte out; SDO shows its second bit after the first. -/
theorem test_clocks :
    (let t := nextOf (exec (.replyByteDelivery ⟨0, clockEdges (byteBits 0x00), []⟩) (at_ .reply 0 [0x00, 0x42] none 0))
     (t.port 0).reply = [0x42] ∧ (t.port 0).sdo = some 0x00)
    ∧ (at_ .reply 0 [0x42] none 1).sdoLevel 0 = some true := by decide +kernel

/-- A mapped and an unmapped page; a byte within the page, the last of the page, and the last of the stream. -/
theorem witness_StreamDelivers :
    (∀ b ∈ [none, some (9 : BlockId)], ∀ k ∈ [(0, 2), (4094, 2), (4095, 2), (4095, 1), (0, 1)],
      let s := at_ .stream 0 [] (some (streaming b k.1 k.2))
      (s.port 0).decoder = .stream ∧ (s.port 0).stream = some (streaming b k.1 k.2)
      ∧ (∀ c, (streaming b k.1 k.2).pinned = some c → (0xFF : Byte) = s.flash.read (4160 * c.val + k.1))
      ∧ (s.port 0).sdo ≠ none ∧ (s.port 0).sckHigh = false ∧ (s.port 0).bits.length = 7)
    ∧ (1 < (streaming none 0 2).bytesLeft ∧ (streaming none 4094 2).position < 4095)
    ∧ (1 < (streaming none 4095 2).bytesLeft ∧ (streaming none 4095 2).position = 4095
        ∧ (6 : PageId).val = (streaming none 4095 2).page.val + 1)
    ∧ (streaming none 4095 1).bytesLeft = 1 := by decide +kernel

/-- Sessions of port 0 in every state that Table 15 distinguishes, and one of port 1. -/
def owned : State :=
  put 0 (record .opened (some 0) [1]) (put 1 (record .queued (some 0) [2]) (put 2 (record .finished (some 0) [3])
    (put 3 (record .programming (some 0) [4]) (put 4 (record .unwinding (some 0) [5]) (put 5 (record .opened (some 1) [6]) up)))))

theorem witness_PortReset :
    ((owned.port 0).prstLow = false ∧ owned.power.supplied = true ∧ owned.power.resetLow = false)
    ∧ ((owned.ses.session 0).owner = some 0 ∧ (owned.ses.session 0).state = .opened ∧ owned.ses.claim 1 = some 0)
    ∧ ((owned.ses.session 1).owner = some 0 ∧ (owned.ses.session 1).state = .queued)
    ∧ ((owned.ses.session 2).owner = some 0 ∧ (owned.ses.session 2).state = .finished)
    ∧ ((owned.ses.session 3).owner = some 0 ∧ (owned.ses.session 3).state = .programming ∧ owned.ses.claim 4 = some 3)
    ∧ ((owned.ses.session 4).owner = some 0 ∧ (owned.ses.session 4).state = .unwinding)
    ∧ (owned.ses.session 5).owner ≠ some 0
    ∧ ((inReset.port 0).prstLow = false ∧ inReset.power.resetLow = true)
    ∧ ((off.port 0).prstLow = false ∧ off.power.supplied = false)
    ∧ (((portLow up).port 0).prstLow = true ∧ (portLow up).power.supplied = true ∧ (portLow up).power.resetLow = false
        ∧ ((portLow up).port 0).csLow = false)
    ∧ (((portLow inReset).port 0).prstLow = true ∧ (portLow inReset).power.resetLow = true) := by decide +kernel

/-- An operation of each kind in flight when it is cut: none, a program, and each phase of an erase. -/
def working (w : Work) : State := { up with eng := { up.eng with work := w } }

theorem witness_ResetAssertDiscards :
    (up.power.resetLow = false ∧ up.power.supplied = true ∧ up.eng.work.inFlight = none)
    ∧ (working (.erase 3 .erase)).eng.work.inFlight = some (.erase 3)
    ∧ (working (.erase 3 .freeStamp)).eng.work.inFlight = some (.freeStamp 3)
    ∧ (({ secondPhase := false, left := [] } : Cut).secondPhase = false ∧ ({ secondPhase := true, left := [] } : Cut).secondPhase = true)
    ∧ (off.power.resetLow = false ∧ off.power.supplied = false) := by decide +kernel

theorem witness_ResetReleaseMounts :
    (inReset.power.resetLow = true ∧ inReset.power.supplied = true)
    ∧ (let s : State := { State.reset with power := { supplied := false, resetLow := true } }
       s.power.resetLow = true ∧ s.power.supplied = false) := by decide +kernel

theorem witness_SupplyLossAndReturn :
    up.power.supplied = true ∧ off.power.supplied = false := by decide +kernel

/-! ### Witnesses: the engine -/

/-- A session of port 2 queued for work, with free and dirty blocks; block 3 may be pinned. -/
def queuedWork (pages : List PageId) (free dirty : List BlockId) (pins next : Nat) : State :=
  let s := block 3 .dirty pins (pools free dirty (put 0 (record .queued (some 2) pages) up))
  { s with eng := { s.eng with queue := s.eng.queue.set 2 [0] }, map := { s.map with nextSerial := next } }

/-- From the round-robin pointer at port 3 the engine comes to port 2 after the empty lists of ports 0 and 1. -/
theorem nextIs (pages : List PageId) (free dirty : List BlockId) (pins next : Nat) :
    (queuedWork pages free dirty pins next).eng.NextIs 2 0 := by
  have hp : (queuedWork pages free dirty pins next).eng.pointer.val = 3 := rfl
  refine ⟨rfl, 2, by omega, by rw [hp]; rfl, fun d q hd hq => ?_⟩
  rw [hp] at hq
  have h : q.val = 0 ∨ q.val = 1 := by omega
  rcases h with h | h
  · obtain rfl : q = 0 := Fin.ext h
    rfl
  · obtain rfl : q = 1 := Fin.ext h
    rfl

/-- The engine is due to choose. -/
theorem due_choice (s : State) (h : s.running = true ∧ s.mount.condition = .ready ∧ s.eng.work = .idle) :
    s.Due .choiceOfWork := h

theorem witness_ChoiceErases :
    (let s := block 3 .dirty 1 (block 7 .dirty 0 (pools [0, 1, 2] [3, 7] up))
     s.Due .choiceOfWork ∧ s.eng.start = none ∧ s.bm.dirtyList = [3] ++ 7 :: [] ∧ (∀ x ∈ ([3] : List BlockId), s.bm.pins x ≠ 0) ∧ s.bm.pins 7 = 0
     ∧ s.bm.freePool.length < 4)
    ∧ (let s := block 3 .dirty 0 (pools [0, 1, 2, 4] [3] up)
       s.Due .choiceOfWork ∧ s.eng.start = none ∧ s.bm.pins 3 = 0 ∧ ¬ s.bm.freePool.length < 4 ∧ ∀ p, s.eng.queueOf p = [])
    ∧ (let s := block 3 .dirty 1 (pools [] [3] up)
       s.Due .choiceOfWork ∧ s.eng.start = none ∧ (∀ x ∈ s.bm.dirtyList, s.bm.pins x ≠ 0) ∧ ∀ p, s.eng.queueOf p = []) := by
  refine ⟨⟨due_choice _ (by decide +kernel), by decide +kernel⟩, ⟨due_choice _ (by decide +kernel), by decide +kernel⟩,
    due_choice _ (by decide +kernel), by decide +kernel⟩

/-- A start hand-off of session 0 that the Session Unit has still to take. -/
def handing (kind : StartKind) (live : Bool) (state : SessionState) : State :=
  let s := put 0 (record state (some 2) [5]) (pools [0, 1] [] up)
  { s with eng := { s.eng with start := some { session := 0, port := 2, kind := kind, live := live } } }

/-- R69, R70: a choice hands the start over and takes the serial. -/
theorem test_start_handed : let t := nextOf (exec .choiceOfWork (queuedWork [5] [0, 1, 2, 4] [] 0 0x2A0))
    t.map.nextSerial = 0x2A1 ∧ (t.ses.session 0).state = .queued
    ∧ t.eng.start = some { session := 0, port := 2, kind := .start 0x2A0 [none], live := true } := by decide +kernel

/-- R48, R71: a start of a session that has left QUEUED is refused. -/
theorem test_start_refused : let t := nextOf (exec .choiceOfWork (handing (.start 0x2A0 [none]) false .finished))
    t.eng.start = none ∧ t.eng.work = .idle ∧ (t.ses.session 0).state = .finished := by decide +kernel

/-- As many free blocks as members, and the last serial of the range; and a start to be taken of a session that is QUEUED, that has
been withdrawn, or that has left QUEUED. -/
theorem witness_ChoiceStartsCommit :
    (let s := queuedWork [5, 6, 7, 463] [0, 1, 2, 4] [] 0 0xFFFFFF00
     s.Due .choiceOfWork ∧ s.eng.start = none ∧ ¬ (s.bm.freePool.length < 4 ∧ ∃ b ∈ s.bm.dirtyList, s.bm.pins b = 0) ∧ s.eng.NextIs 2 0
     ∧ (s.ses.session 0).state = .queued ∧ (s.ses.session 0).members.length ≤ s.bm.freePool.length ∧ s.map.nextSerial ≤ 0xFFFFFF00)
    ∧ ∀ live : Bool, ∀ st ∈ [SessionState.queued, .finished],
        let s := handing (.start 0x2A0 [none]) live st
        s.Due .choiceOfWork
        ∧ s.eng.start = some { session := 0, port := 2, kind := .start 0x2A0 [none], live := live }
        ∧ (s.ses.session 0).state = st ∧ (s.ses.session 0).owner = some 2 :=
  ⟨⟨due_choice _ (by decide +kernel), rfl, by decide +kernel, nextIs _ _ _ _ _, by decide +kernel⟩,
    fun live st h => ⟨due_choice _ (by cases live <;> rcases List.mem_pair.1 h with rfl | rfl <;> decide +kernel), rfl, by
      cases live <;> rcases List.mem_pair.1 h with rfl | rfl <;> decide +kernel⟩⟩

/-- Too few blocks by one; the serials exhausted by one; one block that is dirty but pinned; and each failure to be taken. -/
theorem witness_ChoiceFailsOrWaits :
    (let s := queuedWork [5, 6] [0] [] 0 1
     s.Due .choiceOfWork ∧ s.eng.start = none ∧ ¬ (s.bm.freePool.length < 4 ∧ ∃ b ∈ s.bm.dirtyList, s.bm.pins b = 0) ∧ s.eng.NextIs 2 0
     ∧ (s.ses.session 0).state = .queued ∧ s.bm.freePool.length + s.bm.dirtyList.length < (s.ses.session 0).members.length)
    ∧ (let s := queuedWork [5] [0] [] 0 0xFFFFFF01
       s.Due .choiceOfWork ∧ s.eng.start = none ∧ s.eng.NextIs 2 0 ∧ (s.ses.session 0).members.length ≤ s.bm.freePool.length
       ∧ 0xFFFFFF00 < s.map.nextSerial)
    ∧ (let s := queuedWork [5, 6] [0] [3] 1 1
       s.Due .choiceOfWork ∧ s.eng.start = none ∧ ¬ (s.bm.freePool.length < 4 ∧ ∃ b ∈ s.bm.dirtyList, s.bm.pins b = 0) ∧ s.eng.NextIs 2 0
       ∧ s.bm.freePool.length < (s.ses.session 0).members.length
       ∧ (s.ses.session 0).members.length ≤ s.bm.freePool.length + s.bm.dirtyList.length)
    ∧ ∀ kind ∈ [StartKind.checkFailed, .serialRefused], ∀ st ∈ [SessionState.queued, .finished],
        (handing kind true st).Due .choiceOfWork
        ∧ (handing kind true st).eng.start = some { session := 0, port := 2, kind := kind, live := true }
        ∧ ((handing kind true st).ses.session 0).state = st := by
  refine ⟨⟨due_choice _ (by decide +kernel), rfl, by decide +kernel, nextIs _ _ _ _ _, by decide +kernel⟩,
    ⟨due_choice _ (by decide +kernel), rfl, nextIs _ _ _ _ _, by decide +kernel⟩,
    ⟨due_choice _ (by decide +kernel), rfl, by decide +kernel, nextIs _ _ _ _ _, by decide +kernel⟩, fun kind hk st h => ?_⟩
  rcases List.mem_pair.1 hk with rfl | rfl <;> rcases List.mem_pair.1 h with rfl | rfl <;>
    exact ⟨due_choice _ (by decide +kernel), rfl, by decide +kernel⟩

/-- A commit of session 0 on page 5 with block 0 as its target. -/
def commitRec : CommitRec :=
  { session := 0, serial := 0x2A0, writer := 0, pages := [5], windowsLine := false, bases := [none], targets := [some 0],
    member := 0, tries := 1, unwindRequested := false, boundaryHanded := false }

/-- An unwinding of that commit. -/
def unwindRec : UnwindRec := commitRec.toUnwind

theorem witness_WhatIsProgrammed :
    (working (.commit { commitRec with pages := [5, 6, 7, 463] } .dataStamp)).eng.work =
      .commit { commitRec with pages := [5, 6, 7, 463] } .dataStamp ∧ ([5, 6, 7, 463] : List PageId).length ≤ 4 := ⟨rfl, by decide⟩

theorem witness_CommitProgramsEnd :
    commitRec.currentTarget = some 0 ∧ (working (.commit commitRec .begunMark)).eng.work = .commit commitRec .begunMark
    ∧ (working (.commit commitRec (.line 15))).eng.work = .commit commitRec (.line 15)
    ∧ (working (.commit commitRec .dataStamp)).eng.work = .commit commitRec .dataStamp := ⟨rfl, rfl, rfl, rfl⟩

theorem witness_DiscardMarksEnd :
    (working (.unwind unwindRec (.void 0 2))).eng.work = .unwind unwindRec (.void 0 2)
    ∧ (working (.mountVoid 0 [1] (.void 2))).eng.work = .mountVoid 0 [1] (.void 2)
    ∧ ((working (.commit commitRec (.retire 2))).eng.work = .commit commitRec (.retire 2) ∧ commitRec.currentTarget = some 0)
    ∧ (working (.unwind unwindRec (.retire 0 2))).eng.work = .unwind unwindRec (.retire 0 2)
    ∧ (working (.erase 0 (.retire 2))).eng.work = .erase 0 (.retire 2)
    ∧ (working (.mountVoid 0 [] (.retire 2))).eng.work = .mountVoid 0 [] (.retire 2) := ⟨rfl, rfl, ⟨rfl, rfl⟩, rfl, rfl, rfl⟩

theorem witness_ReclaimOpsEnd :
    (working (.erase 0 .erase)).eng.work = .erase 0 .erase ∧ (working (.erase 0 .freeStamp)).eng.work = .erase 0 .freeStamp :=
  ⟨rfl, rfl⟩

theorem witness_TimeoutFails : (working (.commit commitRec (.line 0))).eng.work.inFlight = some (.line 0 0) := rfl

/-- A part whose session 0 is in a state, with a failure handed, an unwind request standing, and the engine at work. -/
def handed (state : SessionState) (outcome : Option SessionOutcome) (w : Work) : State :=
  let s := put 0 { record state (some 0) [5] with outcome := outcome } (working w)
  { s with ses := { s.ses with failure := some { session := 0, reason := .noSpace }, unwindRequest := some 0 } }

theorem witness_FailureTaken :
    (let s := handed .programming none (.unwind unwindRec (.void 0 0))
     s.ses.failure = some { session := 0, reason := .noSpace } ∧ (s.ses.session 0).state = .programming)
    ∧ (let s := handed .unwinding (some .abandoned) (.unwind unwindRec (.void 0 0))
       s.ses.failure = some { session := 0, reason := .noSpace } ∧ (s.ses.session 0).state ≠ .programming) := by decide +kernel

/-- R78, R81, R85: a commit that gives up with no target held ends in the event in which it gives up, and the engine is IDLE. -/
theorem test_unwind_ends_at_once :
    let s := put 0 (record .programming (some 0) [5]) (working (.commit commitRec (.retire 2)))
    let t := nextOf (exec (.retireMarkCompletion .intended) s)
    t.eng.work = .idle ∧ t.ses.failure = none ∧ (t.ses.session 0).state = .finished
    ∧ (t.ses.session 0).outcome = some (.failed .noSpace) := by decide +kernel

/-- R50, R85: the last void ends the session and leaves the engine IDLE, whether or not the failure has been taken before. -/
theorem test_last_void_ends :
    ∀ s ∈ [handed .programming none (.unwind unwindRec (.void 0 0)), handed .unwinding (some .abandoned) (.unwind unwindRec (.void 0 0))],
      let t := nextOf (exec (.voidCompletion .intended) s)
      t.eng.work = .idle ∧ t.ses.failure = none ∧ (t.ses.session 0).state = .finished := by decide +kernel

theorem witness_BoundaryAndUnwindRequest :
    (∀ st ∈ [SessionState.programming, .unwinding],
      (handed st none (.commit commitRec .boundary)).eng.work = .commit commitRec .boundary
      ∧ ((handed st none (.commit commitRec .boundary)).ses.session commitRec.session).state = st
      ∧ (handed st none (.commit commitRec .boundary)).ses.unwindRequest = some 0 ∧ commitRec.session = 0)
    ∧ ((handed .unwinding none (.commit commitRec (.line 3))).eng.work = .commit commitRec (.line 3)
        ∧ (Work.commit commitRec (.line 3)).inFlight.isSome = true)
    ∧ (∀ st ∈ [CommitStep.flipRequested, .flipTaken],
        (handed .unwinding none (.commit commitRec st)).eng.work = .commit commitRec st) := by decide +kernel

/-! ### Witnesses: the flip -/

/-- The engine at work on the group of `commitRec`: block 0 is its target, with this spare area, and no other block is placed. -/
def busy (w : Work) (spare : List Byte) : State :=
  let s := put 0 (record .programming (some 0) [5]) (block 0 (.target 0) 0 (working w))
  { s with flash := Memory.writeBytes [] (spareAddr 0 0) spare, map := { s.map with nextSerial := 0x2A1 } }

theorem busy_flash (w : Work) (spare : List Byte) : (busy w spare).flash = Memory.writeBytes [] (spareAddr 0 0) spare := rfl

theorem busy_class (w : Work) (spare : List Byte) (b : BlockId) :
    (busy w spare).bm.classOf b = if b = 0 then some (.target 0) else none := by
  have h : (busy w spare).bm.block b = if b = 0 then some { cls := .target 0, eraseCount := 1, pins := 0 } else up.bm.block b :=
    Laws.block_place up.bm 0 b _
  have h0 : up.bm.block b = none := by simp [up, State.reset, BlockManager.reset, BlockManager.block]
  unfold BlockManager.classOf
  rw [h, h0]
  split <;> rfl

theorem busy_session (w : Work) (spare : List Byte) (i : SessionId) :
    (busy w spare).ses.session i = if i = 0 then record .programming (some 0) [5] else Session.freeSlot := by
  have h : (busy w spare).ses.session i = if i = 0 then record .programming (some 0) [5] else up.ses.session i :=
    Laws.session_setSession up.ses 0 i _
  have h0 : up.ses.session i = Session.freeSlot := by simp [up, State.reset, SessionUnit.reset, SessionUnit.session]
  rw [h, h0]

theorem busy_targets (w : Work) (spare : List Byte) : HoldsTargets (busy w spare).bm 0 commitRec.targets := by
  refine ⟨by decide, fun b hb => ?_⟩
  have : b = 0 := by simpa [commitRec] using hb
  rw [busy_class, if_pos this]

theorem busy_laws (w : Work) (spare : List Byte) (h : w.HoldsBlocks (busy w spare).bm) :
    (busy w spare).BlockLaw ∧ (busy w spare).MountLaw := by
  have he : ∀ q, (busy w spare).map.entry q = none := fun q => by
    show up.map.entry q = none
    simp [up, State.reset, MapUnit.reset, MapUnit.entry]
  have hc := busy_class w spare
  refine ⟨(Laws.blockLaw_iff _).2 ⟨⟨List.nodup_nil, fun b hb => (List.not_mem_nil hb).elim, fun _ b hb => ?_, List.nodup_nil,
    fun b => ?_, List.nodup_nil, fun b => ?_⟩, ⟨fun q b => ?_, fun q e info h => ?_⟩, h, fun i => ?_⟩,
    ⟨fun _ => rfl, fun _ => rfl⟩, fun k => ?_, fun k => ?_, List.nodup_nil, List.nodup_nil, fun k => ?_⟩
  · rw [hc] at hb; split at hb <;> cases hb
  · rw [hc]; show b ∈ [] ↔ _; split <;> simp
  · rw [hc]; show b ∈ [] ↔ _; split <;> simp
  · rw [he, hc]; split <;> simp
  · rw [he] at h; cases h
  · rw [busy_session]; split <;> decide
  · rcases k with k | k <;> cases k
  · cases k
  · cases k

theorem busy_commit (step : CommitStep) (spare : List Byte) :
    (Work.commit commitRec step).HoldsBlocks (busy (.commit commitRec step) spare).bm := by
  refine ⟨by decide, rfl, by decide, fun m hm => ⟨0, ?_⟩, fun _ => busy_targets _ _, fun _ => rfl⟩
  have : m = 0 := by have h : m ≤ 0 := hm; omega
  subst this; rfl

/-- The spare area of the target as a commit leaves it: a free stamp, and the data stamp when it is programmed. -/
def stamped (done : Bool) : List Byte :=
  freeStampBytes 1 ++ [0xFF, 0xFF] ++ (if done then dataStampBytes (commitRec.stamp 0) else [])

/-- Every other block reads erased. -/
theorem busy_spare (w : Work) (spare : List Byte) (hl : spare.length ≤ 64) (b : BlockId) (hb : b ≠ 0) :
    (busy w spare).flash.spare b = List.replicate 64 0xFF := by
  have ne : b.val ≠ 0 := fun e => hb (Fin.ext e)
  refine List.ext_getElem (by simp [Memory.spare, Memory.readBytes]) fun j h1 h2 => ?_
  have hj : j < 64 := by simpa using h2
  have := Laws.getD_spare (busy w spare).flash b j hj
  rw [List.getD_eq_getElem?_getD, List.getElem?_eq_getElem h1] at this
  rw [List.getElem_replicate]
  refine this.trans ?_
  show (Memory.writeBytes [] (spareAddr 0 0) spare).read _ = _
  rw [Laws.read_writeBytes_outside]
  · rfl
  · simp only [spareAddr, dataAddr, Config.pageBytes, Config.blockBytes, Fin.val_zero]
    omega

/-- The only valid data stamp is that of the target, where it is programmed. -/
theorem busy_stamp (w : Work) (done : Bool) (b : BlockId) (st : DataStamp)
    (h : dataStamp ((busy w (stamped done)).flash.spare b) = some st) : done = true ∧ b = 0 ∧ st = commitRec.stamp 0 := by
  by_cases hb : b = 0
  · subst hb
    rw [busy_flash] at h
    cases done with
    | false =>
      have : dataStamp ((Memory.writeBytes [] (spareAddr 0 0) (stamped false)).spare 0) = none := by decide +kernel
      rw [this] at h; cases h
    | true =>
      have : dataStamp ((Memory.writeBytes [] (spareAddr 0 0) (stamped true)).spare 0) = some (commitRec.stamp 0) := by decide +kernel
      rw [this] at h; cases h; exact ⟨rfl, rfl, rfl⟩
  · rw [busy_spare w _ (by cases done <;> decide +kernel) b hb] at h
    have : dataStamp (List.replicate 64 0xFF) = none := by decide +kernel
    rw [this] at h; cases h

theorem busy_stamps (w : Work) (done : Bool)
    (h : Laws.WorkStamps (busy w (stamped done)).flash 0x2A1 false w) : (busy w (stamped done)).StampLaw := by
  refine Laws.stampLaw_of ⟨show 1 ≤ 0x2A1 by omega, fun b st e => ?_, fun b e => ?_, h, fun k e => (by cases e)⟩
  · obtain ⟨-, -, rfl⟩ := busy_stamp w done b st e
    show 0x2A0 < 0x2A1; omega
  · rw [busy_class] at e; split at e <;> cases e

theorem busy_group (w : Work) (done : Bool) (n : Nat) (hn : done = true → 0 < n) :
    (busy w (stamped done)).flash.GroupWithin commitRec n := fun b st e _ => by
  obtain ⟨hd, rfl, rfl⟩ := busy_stamp w done b st ((Laws.candidate_iff _ _ _).1 e).2.2.2
  exact ⟨hn hd, rfl, rfl⟩

theorem commitRec_stampable : commitRec.Stampable 0x2A1 := ⟨rfl, by decide, by decide, by decide, by decide, by decide⟩

/-- The target of the commit is block 0 and no other. -/
theorem commitRec_target {b : BlockId} (h : commitRec.targets[commitRec.member]? = some (some b)) : b = 0 := by
  have h : some (some (0 : BlockId)) = some (some b) := h
  cases h; rfl

theorem busy_mid (step : CommitStep) (done : Bool) (hu : done = true → step ≠ .dataStamp)
    (hs : step = .dataStamp ∨ step = .flipRequested ∧ done = true) :
    Laws.WorkStamps (busy (.commit commitRec step) (stamped done)).flash 0x2A1 false (.commit commitRec step) := by
  have marks : ∀ done : Bool, (Memory.writeBytes [] (spareAddr 0 0) (stamped done)).read (spareAddr 0 32) = 0xFF
      ∧ (Memory.writeBytes [] (spareAddr 0 0) (stamped done)).read (spareAddr 0 33) = 0xFF
      ∧ (freeStampCount ((Memory.writeBytes [] (spareAddr 0 0) (stamped done)).spare 0)).isSome = true := by decide +kernel
  obtain ⟨m1, m2, m3⟩ := marks done
  have within := busy_group (.commit commitRec step) done 1 fun _ => Nat.one_pos
  rw [busy_flash] at within ⊢
  refine ⟨⟨⟨commitRec_stampable, fun k b h => absurd h (Nat.not_lt_zero k), fun b hb => ?_, fun k b hk => ?_,
    fun _ => within⟩, fun k e => ?_, fun _ b hb => ?_, fun h => ?_, fun h => ⟨rfl, fun b hb => ?_⟩⟩,
    fun e b hb => ?_⟩
  · rw [commitRec_target hb]; exact m3
  · have hk : 0 < k := hk
    rw [List.getElem?_eq_none (by show 1 ≤ k; omega)]
    simp
  · rcases hs with rfl | ⟨rfl, -⟩ <;> cases e
  · rw [commitRec_target hb]; exact ⟨m1, m2⟩
  · rcases hs with rfl | ⟨rfl, -⟩ <;> rcases h with h | ⟨k, h⟩ | h <;> cases h
  · rw [commitRec_target hb]
    rcases hs with rfl | ⟨-, rfl⟩
    · rcases h with h | h <;> cases h
    · have : (Memory.writeBytes [] (spareAddr 0 0) (stamped true)).candidate 0 = some (commitRec.stamp 0) := by decide +kernel
      exact this
  · rw [commitRec_target hb]
    cases done with
    | true => exact absurd e (hu rfl)
    | false =>
      intro j h1 h2
      have : ∀ k : Fin 18, (Memory.writeBytes [] (spareAddr 0 0) (stamped false)).read (spareAddr 0 (8 + k.val)) = 0xFF := by decide +kernel
      have := this ⟨j - 8, by omega⟩
      rw [show 8 + (j - 8) = j by omega] at this
      exact this

/-- The flip of `commitRec` is requested. -/
def flipping : State := busy (.commit commitRec .flipRequested) []

theorem witness_FlipPoints :
    flipping.BlockLaw ∧ flipping.eng.work = .commit commitRec .flipRequested ∧ flipping.map.flip = none
    ∧ commitRec.pages[0]? = some 5 ∧ commitRec.targets[0]? = some (some 0) ∧ (6 : PageId) ∉ commitRec.pages :=
  ⟨(busy_laws _ _ (busy_commit _ _)).1, rfl, rfl, rfl, rfl, by decide⟩

/-- The hand-offs of a flip that are still to be taken, with the members' pages. -/
def flipped (reload revocation sessionEnd notices : Bool) (state : SessionState) (line : List Byte) : State :=
  let s := put 0 (record state (some 0) [463]) (put 1 (record .opened (some 1) [6]) (mapTo 463 9 up))
  { s with
    flash := s.flash.writeBytes (dataAddr 9 0) line
    map := { s.map with flip := some { session := 0, serial := 0x2A0, writer := 0, pages := [463], reloadDue := reload,
                                       revocationDue := revocation, sessionEndDue := sessionEnd, noticesDue := notices } } }

/-- The windows page reads as the line that was programmed. -/
theorem line_read (t : State) (bytes : List Byte) (hlen : bytes.length = 256)
    (hf : t.flash = Memory.writeBytes [] (dataAddr 9 0) bytes) (hc : t.map.currentBlock Config.windowsPage = some 9) :
    bytes.length = 256 ∧ ∀ o, o < 256 →
      bytes[o]? = some (mergedByte t.flash [] (t.map.currentBlock Config.windowsPage) o) := by
  refine ⟨hlen, fun o ho => ?_⟩
  rw [hc, hf]
  show bytes[o]? = some ((Memory.writeBytes [] (dataAddr 9 0) bytes).read (dataAddr 9 o))
  have := Laws.read_writeBytes_at [] (dataAddr 9 0) bytes o
  rw [show dataAddr 9 o = dataAddr 9 0 + o by simp [dataAddr], this, List.getD_eq_getElem?_getD,
    List.getElem?_eq_getElem (by omega)]
  rfl

theorem windowsPage_mapped : (mapTo 463 9 up).map.currentBlock Config.windowsPage = some 9 := by decide +kernel

/-- The three kinds of line have 256 bytes. -/
theorem lines_length : ∀ bytes ∈ [exampleTable, List.replicate 256 0xFF, exampleTable.set 9 0x01], bytes.length = 256 := by
  decide +kernel

/-- Every port but the writer, with PRST_n high, and an empty and a well-formed new line. -/
theorem witness_ReloadPutsInForce :
    (∀ bytes ∈ [exampleTable, List.replicate 256 0xFF, exampleTable.set 9 0x01],
      let s := flipped true false true true .programming bytes
      (∃ w : FlipWork, s.map.flip = some w ∧ w.reloadDue = true ∧ w.writer = 0)
      ∧ (bytes.length = 256 ∧ ∀ o, o < 256 →
          bytes[o]? = some (mergedByte s.flash [] (s.map.currentBlock Config.windowsPage) o)))
    ∧ judgeLine exampleTable = .wellFormed exampleWindows ∧ judgeLine (List.replicate 256 0xFF) = .empty
    ∧ (1 : PortId) ≠ 0 ∧ (up.port 1).prstLow = false :=
  ⟨fun bytes h => ⟨⟨_, rfl, rfl, rfl⟩, line_read _ bytes (lines_length bytes h) rfl windowsPage_mapped⟩, test_table_judged,
    test_line_empty, by decide, by decide +kernel⟩

/-- Session 1 of port 1 on page 6, which a table denies it; session 0 is PROGRAMMING and not examined. -/
theorem witness_RevocationRevokes :
    let s := walled (flipped false true true true .programming [])
    (∃ w : FlipWork, s.map.flip = some w ∧ w.revocationDue = true)
    ∧ ∀ i, decide (i = 1) = true ↔ ((s.ses.session i).state = .opened ∨ (s.ses.session i).state = .queued)
      ∧ ∃ o, (s.ses.session i).owner = some o ∧ ∃ q ∈ (s.ses.session i).members, s.prot.table.canWrite o q.val = false :=
  ⟨⟨_, rfl, rfl⟩, by decide +kernel⟩

theorem witness_FlipEndsSession :
    ∀ st ∈ [SessionState.programming, .finished], ∃ w : FlipWork, (flipped false false true true st []).map.flip = some w
      ∧ w.sessionEndDue = true ∧ w.reloadDue = false ∧ ((flipped false false true true st []).ses.session w.session).state = st := by
  intro st h
  refine ⟨_, rfl, rfl, rfl, ?_⟩
  rcases List.mem_pair.1 h with rfl | rfl <;> decide +kernel

/-- The writer, a port whose PRST_n is low, and a port that is offered its notices. -/
theorem witness_FlipNoticesOffered :
    let s := (flipped false false false true .finished []).setPort 2 { (up.port 2) with prstLow := true }
    (∃ w : FlipWork, s.map.flip = some w ∧ w.noticesDue = true ∧ w.reloadDue = false ∧ w.writer = 0)
    ∧ (s.port 2).prstLow = true ∧ (1 : PortId) ≠ 0 ∧ (s.port 1).prstLow = false :=
  ⟨⟨_, rfl, rfl, rfl, rfl⟩, by decide +kernel⟩

/-! ### Witnesses: mounting -/

theorem witness_StampsJudged : exampleSpare.length = 64 ∧ freeStampCount exampleSpare = some 7
    ∧ dataStamp exampleSpare = some exampleStamp := by decide +kernel

/-- Pass 1 stands at block 3, whose spare area holds these bytes. -/
def scanning (spare : List Byte) : State :=
  { State.reset with
    flash := Memory.writeBytes [] (spareAddr 3 0) spare, mount := { State.reset.mount with position := 3 } }

/-- What ScanPlaces asks of every row. -/
theorem scanning_due (spare : List Byte) : (scanning spare).Due .mountBlockScan ∧ (scanning spare).mount.position = (3 : BlockId).val :=
  ⟨⟨rfl, rfl, show 3 < 512 by omega⟩, rfl⟩

/-- The spare area of block 3 as the scan reads it. -/
def seen (spare : List Byte) : List Byte := (scanning spare).flash.readBytes (4160 * (3 : BlockId).val + 4096) 64

/-- Rows 1 to 6 of Table 26: RETIRED, VOID, no free stamp, blank behind a free stamp, a valid data stamp, and a torn slot. -/
theorem witness_ScanPlaces :
    (seen (List.replicate 33 0xFF ++ [0x00])).getD 33 0xFF ≠ 0xFF
    ∧ ((seen (List.replicate 32 0xFF ++ [0x00])).getD 33 0xFF = 0xFF ∧ (seen (List.replicate 32 0xFF ++ [0x00])).getD 32 0xFF ≠ 0xFF)
    ∧ ((seen []).getD 33 0xFF = 0xFF ∧ (seen []).getD 32 0xFF = 0xFF ∧ freeStampCount (seen []) = none)
    ∧ ((seen (freeStampBytes 7)).getD 33 0xFF = 0xFF ∧ (seen (freeStampBytes 7)).getD 32 0xFF = 0xFF
        ∧ freeStampCount (seen (freeStampBytes 7)) ≠ none
        ∧ ∀ j : Fin 28, (seen (freeStampBytes 7)).getD (8 + j.val) 0xFF = 0xFF)
    ∧ (freeStampCount (seen exampleSpare) ≠ none ∧ (seen exampleSpare).getD 8 0xFF ≠ 0xFF
        ∧ dataStamp (seen exampleSpare) = some exampleStamp ∧ exampleStamp.pages[exampleStamp.index]? = some 106)
    ∧ (let torn := exampleSpare.set 24 0x00
       freeStampCount (seen torn) ≠ none ∧ (seen torn).getD 8 0xFF ≠ 0xFF ∧ dataStamp (seen torn) = none) := by decide +kernel

/-- The end of pass 1: block 0 is a whole group on page 5, block 1 is one of two members of a group that is not complete, block 2 is
FREE, and no other block is placed. -/
def scanned : State :=
  { State.reset with
    bm := State.reset.bm.place 2 { cls := .free, eraseCount := 4, pins := 0 }
    mount := { State.reset.mount with
      position := 512, largestSerial := 9
      tally := [{ serial := 8, count := 1, pages := [5], writer := 0, members := [{ index := 0, block := 0, page := 5 }]
                  consistent := true, complete := none },
                { serial := 9, count := 2, pages := [6, 7], writer := 1, members := [{ index := 0, block := 1, page := 6 }]
                  consistent := true, complete := none }] } }

theorem scanned_block (b : BlockId) :
    scanned.bm.block b = if b = 2 then some { cls := .free, eraseCount := 4, pins := 0 } else none := by
  have h : scanned.bm.block b = if b = 2 then some { cls := .free, eraseCount := 4, pins := 0 } else State.reset.bm.block b :=
    Laws.block_place State.reset.bm 2 b _
  have h0 : State.reset.bm.block b = none := by simp [State.reset, BlockManager.reset, BlockManager.block]
  rw [h, h0]

/-- The first group is complete; the second lacks a member that nothing covers. -/
theorem scanned_judged : (scanned.mount.tally.map fun e => e.judge scanned.mount.tally) = [true, false] := by decide +kernel

theorem witness_TablesBuilt :
    scanned.MountLaw ∧ scanned.Due .mountTableBuild
    ∧ (∃ e c, CurrentVersion scanned.mount.tally e c)
    ∧ (∃ e ∈ scanned.mount.tally, ∃ c ∈ e.members, ¬ CurrentVersion scanned.mount.tally e c)
    ∧ (∀ e ∈ scanned.mount.tally, e.Complete scanned.mount.tally → ∀ c ∈ e.members, c.page ≠ 463)
    ∧ (∃ b r, scanned.bm.block b = some r) := by
  let e1 : TallyEntry := { serial := 8, count := 1, pages := [5], writer := 0, members := [{ index := 0, block := 0, page := 5 }],
                           consistent := true, complete := none }
  let e2 : TallyEntry := { serial := 9, count := 2, pages := [6, 7], writer := 1, members := [{ index := 0, block := 1, page := 6 }],
                           consistent := true, complete := none }
  have ht : scanned.mount.tally = [e1, e2] := rfl
  have hj := scanned_judged
  rw [ht] at hj
  have h1 : e1.Complete [e1, e2] := (Laws.judge_iff _ _).1 (by simpa using (List.cons.inj hj).1)
  have h2 : ¬ e2.Complete [e1, e2] := fun k => by
    have := (Laws.judge_iff _ _).2 k
    have hj2 := (List.cons.inj (List.cons.inj hj).2).1
    simp only at hj2
    rw [hj2] at this; cases this
  have only : ∀ f ∈ [e1, e2], f.Complete [e1, e2] → f = e1 := fun f hf k => by
    rcases List.mem_pair.1 hf with rfl | rfl
    · rfl
    · exact absurd k h2
  refine ⟨⟨⟨(fun k => by cases k), (fun k => by cases k)⟩, fun _ => rfl, fun _ => ⟨fun q => ?_, fun b hb => ?_, ?_⟩, by decide, by decide,
    (fun k => by cases k)⟩, ⟨rfl, rfl, Nat.le_refl _⟩, ⟨e1, { index := 0, block := 0, page := 5 }, ?_⟩,
    ⟨e2, ?_, { index := 0, block := 1, page := 6 }, by simp [e2], ?_⟩, ?_, ⟨2, _, scanned_block 2⟩⟩
  · show State.reset.map.entry q = none
    simp [State.reset, MapUnit.reset, MapUnit.entry]
  · have : b.val < 512 := b.isLt
    have : (512 : Nat) ≤ b.val := hb
    omega
  · have hm : scanned.mount.candidates = [{ index := 0, block := 0, page := 5 }, { index := 0, block := 1, page := 6 }] := rfl
    rw [hm]
    intro c hc
    rcases List.mem_pair.1 hc with rfl | rfl
    · exact ⟨show 0 < 512 by omega, by rw [scanned_block]; rfl⟩
    · exact ⟨show 1 < 512 by omega, by rw [scanned_block]; rfl⟩
  · rw [ht]
    refine ⟨by simp, h1, by simp [e1], fun f hf hfc d hd _ => ?_⟩
    obtain rfl := only f hf hfc
    obtain rfl : d = { index := 0, block := 0, page := 5 } := by simpa [e1] using hd
    exact .inr ⟨rfl, Nat.le_refl _⟩
  · rw [ht]; simp
  · rw [ht]; exact fun k => h2 k.2.1
  · rw [ht]
    intro f hf hfc c hc
    obtain rfl := only f hf hfc
    obtain rfl : c = { index := 0, block := 0, page := 5 } := by simpa [e1] using hc
    decide

/-- The tables are built, page 463 is mapped to a block with this line, and block 1 is to be voided. -/
def loading (bytes : List Byte) : State :=
  { flipped false false false false .finished bytes with
    mount := { State.reset.mount with stage := .built, voidList := [1] } }

theorem witness_WindowsLoaded :
    (∀ bytes ∈ [exampleTable, List.replicate 256 0xFF, exampleTable.set 9 0x01],
      (loading bytes).Due .windowsTableLoad
      ∧ (bytes.length = 256 ∧ ∀ o, o < 256 →
          bytes[o]? = some (mergedByte (loading bytes).flash [] ((loading bytes).map.currentBlock Config.windowsPage) o)))
    ∧ judgeLine (List.replicate 256 0xFF) = .empty ∧ judgeLine exampleTable = .wellFormed exampleWindows
    ∧ judgeLine (exampleTable.set 9 0x01) = .malformed :=
  ⟨fun bytes h => ⟨⟨rfl, rfl⟩, line_read _ bytes (lines_length bytes h) rfl windowsPage_mapped⟩, test_line_empty,
    test_table_judged, test_line_malformed⟩

/-! ### Witnesses: no event, frames, laws -/

theorem witness_NoEventChangesNothing :
    ((Instr.freeze 0).requestPort = some 0 ∧ ¬ up.Receiving 0 ∧ ¬ (at_ .request 0 [] none 1).Receiving 0) ∧ ¬ up.Due .flip
    ∧ ¬ up.Due .failureHandoff := by
  refine ⟨by unfold State.Receiving; decide +kernel, ?_, fun h => h rfl⟩
  rintro ⟨⟨r, h⟩, -⟩
  cases h

/-- The longest OPEN, the longest and the shortest STAGE, and a code that names no request. -/
theorem witness_FramesRoundTrip :
    ((Instr.openSession 0 4 [0, 1, 2, 463]).wellFormed = true ∧ (encodeFrame (.openSession 0 4 [0, 1, 2, 463])).isSome = true)
    ∧ ((Instr.stage 0 7 3 3840 256 (List.replicate 256 0xAB)).wellFormed = true
        ∧ (encodeFrame (.stage 0 7 3 3840 256 (List.replicate 256 0xAB))).isSome = true)
    ∧ ((Instr.stage 0 0 0 0 0 []).wellFormed = true ∧ (Instr.stage 0 0 0 0 257 []).wellFormed = true)
    ∧ (Instr.unknownRequestCode 0 0x00).wellFormed = true
    ∧ (listening 0 up).Receiving 0 ∧ ((listening 0 up).port 0).received = 0 := by unfold State.Receiving; decide +kernel

/-- A step to take: a fall of chip select on a part that is mounting. -/
def waiting : State := { State.reset with pending := [.csFall 0] }

theorem witness_FlashAlertAndNoticeLawsKept :
    (∃ t, step waiting = .next t) ∧ waiting.FlashLaw ∧ waiting.AlertLaw ∧ waiting.NoticeLaw := by
  refine ⟨⟨_, rfl⟩, ⟨List.Pairwise.nil, fun c hc => by cases hc⟩, ?_, ?_⟩
  · unfold State.AlertLaw State.OwnsFinished; decide +kernel
  · unfold State.NoticeLaw; decide +kernel

/-- Every record of a state whose tables were reset is that of a FREE slot. -/
theorem waiting_session (i : SessionId) : waiting.ses.session i = Session.freeSlot := by
  simp [waiting, State.reset, SessionUnit.reset, SessionUnit.session]

theorem waiting_laws : waiting.BlockLaw ∧ waiting.MountLaw ∧ waiting.PinLaw ∧ waiting.PoolLaw ∧ waiting.VoidingLaw
    ∧ waiting.QueueLaw ∧ waiting.EngineLaw ∧ waiting.ScanLaw ∧ waiting.StampLaw ∧ waiting.FrameLaw := by
  obtain ⟨a, b⟩ := Laws.reset_law waiting .powerOn rfl rfl rfl rfl rfl
  obtain ⟨c, d, e⟩ := Laws.reset_pins waiting rfl (fun p => by revert p; decide +kernel) rfl .powerOn rfl
  obtain ⟨f, g⟩ := Laws.reset_stamps waiting rfl false rfl .powerOn rfl
  refine ⟨a, b, c, d, e, Laws.queue_reset waiting rfl false rfl, Laws.engine_reset waiting rfl rfl false rfl, f, g, ?_⟩
  have port (p : PortId) : waiting.port p = Port.reset := by simp [waiting, State.reset, State.port]
  intro p
  rw [port]
  exact ⟨fun _ => ⟨rfl, rfl, rfl, .inl rfl⟩, (fun h => by cases h), fun g h => by cases h⟩

theorem witness_SessionLawsKept :
    (∃ t, step waiting = .next t) ∧ waiting.ClaimLaw ∧ waiting.BufferLaw ∧ waiting.FreezeLaw ∧ waiting.AttachLaw
    ∧ waiting.BlockLaw ∧ waiting.MountLaw ∧ waiting.QueueLaw ∧ waiting.EngineLaw := by
  obtain ⟨a, b, -, -, -, c, d, -⟩ := waiting_laws
  refine ⟨⟨_, rfl⟩, fun q i => ?_, ?_, fun h => (by cases h), ?_, a, b, c, d⟩
  · have h1 : waiting.ses.claim q = none := by simp [waiting, State.reset, SessionUnit.reset, SessionUnit.claim]
    rw [h1, waiting_session]
    simp [Session.freeSlot, SessionState.holds]
  · unfold State.BufferLaw; decide +kernel
  · unfold State.AttachLaw; decide +kernel

/-- The premises on the flags and serials, on a part that is READY with MARK_FAULT and FROZEN set. -/
theorem witness_CountersAndFlagsKept :
    (∃ t, step waiting = .next t) ∧ waiting.SpaceLaw ∧ waiting.SerialLaw ∧ waiting.MappedLaw
    ∧ waiting.BlockLaw ∧ waiting.MountLaw ∧ waiting.PoolLaw
    ∧ (let s : State := { reported with pending := [.status 0] }
       (∃ t, step s = .next t ∧ t.Ready ∧ t.power.supplied = true) ∧ s.Ready ∧ s.eng.markFault = true ∧ s.prot.frozen = true
       ∧ ∀ rest cut, s.pending ≠ .powerOn cut :: rest) := by
  obtain ⟨a, b, -, c, -⟩ := waiting_laws
  refine ⟨⟨_, rfl⟩, ?_, ?_, ?_, a, b, c, ⟨_, rfl, ?_, ?_⟩, rfl, rfl, rfl, by simp⟩
  · unfold State.SpaceLaw; decide +kernel
  · unfold State.SerialLaw; decide +kernel
  · unfold State.MappedLaw; decide +kernel
  · unfold State.Ready; decide +kernel
  · decide +kernel

theorem witness_PortLawsKept :
    (∃ t, step waiting = .next t) ∧ waiting.LeaseLaw ∧ waiting.FrameLaw ∧ waiting.BlockLaw ∧ waiting.MountLaw ∧ waiting.VoidingLaw
    ∧ waiting.PinLaw := by
  obtain ⟨a, b, c, -, d, -, -, -, -, e⟩ := waiting_laws
  refine ⟨⟨_, rfl⟩, ?_, e, a, b, d, c⟩
  unfold State.LeaseLaw; decide +kernel

theorem witness_BlockAndMountLawsKept :
    (∃ t, step waiting = .next t) ∧ waiting.BlockLaw ∧ waiting.MountLaw ∧ waiting.VoidingLaw := by
  obtain ⟨a, b, -, -, c, -⟩ := waiting_laws
  exact ⟨⟨_, rfl⟩, a, b, c⟩

/-- The array law of a part at work on `commitRec`, before its flip. -/
theorem busy_array (w : Work) (done : Bool) (h : done = true → w.unflipped = some commitRec.serial) :
    (busy w (stamped done)).ArrayLaw := by
  have only := fun b st e => busy_stamp w done b st ((Laws.candidate_iff _ b st).1 e).2.2.2
  refine ⟨fun b b' st st' e e' _ => ?_, fun k => (by cases k), fun _ => ⟨fun q e k => ?_, fun b st e => .inr (.inl ?_)⟩⟩
  · obtain ⟨-, rfl, rfl⟩ := only b st e
    obtain ⟨-, rfl, rfl⟩ := only b' st' e'
    exact ⟨rfl, rfl, fun _ => rfl⟩
  · have : (busy w (stamped done)).map.entry q = none := by
      show up.map.entry q = none
      simp [up, State.reset, MapUnit.reset, MapUnit.entry]
    rw [this] at k; cases k
  · obtain ⟨k, -, rfl⟩ := only b st e
    exact h k

/-- The part whose commit of `commitRec` has just been flipped. -/
def showing : State :=
  let s := busy (.commit commitRec .flipRequested) (stamped true)
  State.setWork { s.flipMembers commitRec with map := { (s.flipMembers commitRec).map with flip := none } } (.commit commitRec .flipTaken)

theorem showing_laws : showing.BlockLaw ∧ showing.MountLaw ∧ showing.StampLaw ∧ showing.ArrayLaw := by
  have L : Laws.Law (busy (.commit commitRec .flipRequested) (stamped true)) := busy_laws _ _ (busy_commit _ _)
  have S := Laws.stampsOk_of (busy_stamps (.commit commitRec .flipRequested) true (busy_mid _ _ (by simp) (by simp))) (by decide)
  obtain ⟨a, b⟩ := Laws.flip_law _ commitRec L rfl none
  exact ⟨a, b, Laws.stampLaw_of (Laws.flip_stamps _ commitRec L S rfl none),
    Laws.flip_array _ commitRec L S rfl rfl none (by decide) (busy_array _ _ fun _ => rfl)⟩

/-- The end of pass 1 of a blank array. -/
def scanEnd : State :=
  { State.reset with mount := { State.reset.mount with position := 512 } }

theorem scanEnd_laws : scanEnd.MountLaw ∧ scanEnd.ScanLaw ∧ scanEnd.Due .mountTableBuild := by
  obtain ⟨-, a⟩ := Laws.reset_law State.reset .powerOn rfl rfl rfl rfl rfl
  obtain ⟨m1, m2, m3, m4⟩ := a
  refine ⟨⟨m1, m2, fun k => ?_, m4⟩, fun _ => ⟨Nat.le_refl _, by decide +kernel, by decide +kernel⟩, rfl, rfl, Nat.le_refl _⟩
  obtain ⟨n1, -, -⟩ := m3 k
  exact ⟨n1, fun b _ => by simp [scanEnd, State.reset, BlockManager.reset, BlockManager.block], fun c h => by cases h⟩

/-- A step with all its premises; the end of pass 1; and a part that is cut while the last data stamp is programmed, between it and
the flip, with the flip taken (page 5 a page of the commit and mapped, page 6 neither), and during the unwinding of the group. -/
theorem witness_GroupsShownWhole :
    ((∃ t, step waiting = .next t) ∧ waiting.BlockLaw ∧ waiting.MountLaw ∧ waiting.EngineLaw ∧ waiting.ScanLaw ∧ waiting.StampLaw
      ∧ waiting.ArrayLaw ∧ waiting.eng.markFault = false ∧ waiting.mount.stage = .scan)
    ∧ (scanEnd.MountLaw ∧ scanEnd.ScanLaw ∧ scanEnd.Due .mountTableBuild ∧ ∃ t, exec .mountTableBuild scanEnd = .next t)
    ∧ (∀ k ∈ [(CommitStep.dataStamp, false), (.flipRequested, true)], let s := busy (.commit commitRec k.1) (stamped k.2)
        s.BlockLaw ∧ s.MountLaw ∧ s.StampLaw ∧ s.power.supplied = true ∧ s.power.resetLow = false ∧ s.eng.markFault = false
        ∧ s.eng.work = .commit commitRec k.1 ∧ s.ArrayLaw ∧ s.mount.stage ≠ .scan)
    ∧ ((showing.BlockLaw ∧ showing.MountLaw ∧ showing.StampLaw ∧ showing.ArrayLaw) ∧ showing.power.supplied = true
        ∧ showing.power.resetLow = false ∧ showing.eng.markFault = false ∧ showing.mount.stage ≠ .scan
        ∧ showing.eng.work = .commit commitRec .flipTaken ∧ commitRec.pages[0]? = some 5 ∧ (6 : PageId) ∉ commitRec.pages
        ∧ showing.map.entry 5 = some { block := 0, serial := 0x2A0, writer := 0 })
    ∧ (let s := busy (.unwind unwindRec (.void 0 0)) (stamped false)
       s.BlockLaw ∧ s.MountLaw ∧ s.StampLaw ∧ s.power.supplied = true ∧ s.power.resetLow = false ∧ s.eng.markFault = false
       ∧ s.eng.work = .unwind unwindRec (.void 0 0) ∧ s.ArrayLaw ∧ s.mount.stage ≠ .scan) := by
  obtain ⟨a, b, -, -, -, -, c, d, e, -⟩ := waiting_laws
  obtain ⟨f, g, h⟩ := scanEnd_laws
  have blank : waiting.ArrayLaw := (Laws.arrayLaw_scan waiting rfl).2 (Laws.blank_recovers _ fun _ => rfl)
  refine ⟨⟨⟨_, rfl⟩, a, b, c, d, e, blank, rfl, rfl⟩, ⟨f, g, h, _, rfl⟩, fun k hk => ?_,
    ⟨showing_laws, by decide +kernel⟩, ?_⟩
  · obtain ⟨f, g⟩ := busy_laws (.commit commitRec k.1) (stamped k.2) (busy_commit _ _)
    refine ⟨f, g, busy_stamps _ _ (busy_mid _ _ ?_ ?_), rfl, rfl, rfl, rfl, busy_array _ _ ?_, fun h => by cases h⟩ <;>
      rcases List.mem_pair.1 hk with rfl | rfl <;> simp [Work.unflipped]
  · obtain ⟨f, g⟩ := busy_laws (.unwind unwindRec (.void 0 0)) (stamped false) ⟨busy_targets _ _, List.mem_cons_self⟩
    refine ⟨f, g, busy_stamps _ _ fun _ => ⟨commitRec, rfl, commitRec_stampable, busy_group _ _ _ fun k => (by cases k)⟩, rfl, rfl,
      rfl, rfl, busy_array _ _ fun k => (by cases k), by decide⟩

end Sys2Proof.Tests
end

/-! ABORT of a session of the port that is past aborting (R53): how ABORT judges the port's own session, and the refusal that
follows in UNWINDING and in FINISHED. -/

namespace Sys2Proof.Proofs.Abort

open Sys2Proof Sys2Proof.Machine Sys2Proof.Laws

/-- ABORT means its request, with the one parameter byte of Table 45. -/
theorem exec_abort (p : PortId) (sid : Byte) (s : State) : exec (.abort p sid) s = execAbort p sid s := rfl

/-- A READY part takes ABORT at the start of a frame and sends the Session Unit's answer. -/
theorem exec_abort_ready (p : PortId) (sid : Byte) (s : State) (receiving : s.Receiving p) (ready : s.Ready) :
    exec (.abort p sid) s = .next ((s.answerAbort p sid).taken p 1) := by
  rw [exec_abort, execAbort, takeRequest_ready s p 1 _ receiving ready]

/-- The Session Unit refuses to abort the port's own session once it unwinds or has finished (Table 12, R53). -/
theorem answerAbort_badState (p : PortId) (i : SessionId) (s : State) (own : s.Own p i)
    (late : (s.ses.session i).state = .unwinding ∨ (s.ses.session i).state = .finished) :
    s.answerAbort p (sidByte i) = s.refuse .badState := by
  rw [State.answerAbort, named_own s p i _ own]
  rcases late with unwinding | finished
  · simp only [unwinding]
  · simp only [finished]

/-- Settles O16: the session checks pass, the state of the session refuses, and a refusal changes only the frame. -/
theorem abortTooLateIsBadState : Obligations.AbortTooLateIsBadState := by
  intro p i s receiving ready own late
  rw [exec_abort_ready p (sidByte i) s receiving ready, answerAbort_badState p i s own late, refuse_taken]
  rfl

end Sys2Proof.Proofs.Abort

/-! FREEZE (R143): how a request is answered while the part is MOUNTING, the cases of Table 34, and that a rise of chip select
leaves the Protection Unit alone. -/

namespace Sys2Proof.Proofs.Freeze

open Sys2Proof Sys2Proof.Machine Sys2Proof.Laws

/-! ### The request -/

/-- A request taken while the part is MOUNTING is refused, and its owner is not asked (R113). -/
theorem takeRequest_mounting (s : State) (p : PortId) (n : Nat) (f : State → Answer) (receiving : s.Receiving p)
    (mounting : s.mount.condition = .mounting) :
    s.takeRequest p n (fun t => t.whenReady f) = s.replied p (n + 1) [0x01] := by
  have start := (atFrameStart_iff s p).2 receiving
  rw [State.takeRequest, if_pos start, State.whenReady, if_pos mounting, refuse_taken]
  rfl

/-- FREEZE means its request, with no parameter byte (Table 45). -/
theorem exec_freeze (p : PortId) (s : State) : exec (.freeze p) s = execFreeze p s := rfl

/-- A MOUNTING part refuses FREEZE with NOT_READY (Table 34, case 1). -/
theorem exec_freeze_mounting (p : PortId) (s : State) (receiving : s.Receiving p) (mounting : s.mount.condition = .mounting) :
    exec (.freeze p) s = .next (s.replied p 1 [0x01]) := by
  rw [exec_freeze, execFreeze, takeRequest_mounting s p 0 _ receiving mounting]

/-- A READY part takes FREEZE at the start of a frame and sends the Protection Unit's answer. -/
theorem exec_freeze_ready (p : PortId) (s : State) (receiving : s.Receiving p) (ready : s.Ready) :
    exec (.freeze p) s = .next ((s.answerFreeze p).taken p 0) := by
  rw [exec_freeze, execFreeze, takeRequest_ready s p 0 _ receiving ready]

/-! ### The Protection Unit's answer -/

/-- A claim on page 463 refuses FREEZE, whoever holds it (Table 34, case 2). -/
theorem answerFreeze_claimed (p : PortId) (s : State) (claimed : s.ses.claim Config.windowsPage ≠ none) :
    s.answerFreeze p = s.refuse .pageBusy := by
  rw [State.answerFreeze, if_pos (Option.isSome_iff_ne_none.2 claimed)]

/-- On an unclaimed page 463 the write permission of the port decides (Table 34, cases 3 to 5). -/
theorem answerFreeze_unclaimed (p : PortId) (s : State) (unclaimed : s.ses.claim Config.windowsPage = none) :
    s.answerFreeze p =
      if s.prot.table.canWrite p 463 = true then
        { state := { s with prot := { s.prot with frozen := true } }, status := .ok, fields := [] }
      else s.refuse .denied := by
  have noClaim : ¬ (s.ses.claim Config.windowsPage).isSome = true := by simp [unclaimed]
  rw [State.answerFreeze, if_neg noClaim]
  rfl

/-! ### FREEZE on a READY part -/

/-- FREEZE while page 463 is claimed. -/
theorem exec_freeze_claimed (p : PortId) (s : State) (receiving : s.Receiving p) (ready : s.Ready)
    (claimed : s.ses.claim Config.windowsPage ≠ none) : exec (.freeze p) s = .next (s.replied p 1 [0x04]) := by
  rw [exec_freeze_ready p s receiving ready, answerFreeze_claimed p s claimed, refuse_taken]
  rfl

/-- FREEZE without write permission on page 463. -/
theorem exec_freeze_denied (p : PortId) (s : State) (receiving : s.Receiving p) (ready : s.Ready)
    (unclaimed : s.ses.claim Config.windowsPage = none) (barred : s.prot.table.canWrite p 463 = false) :
    exec (.freeze p) s = .next (s.replied p 1 [0x03]) := by
  have notAllowed : ¬ s.prot.table.canWrite p 463 = true := by simp [barred]
  rw [exec_freeze_ready p s receiving ready, answerFreeze_unclaimed p s unclaimed, if_neg notAllowed, refuse_taken]
  rfl

/-- FREEZE with write permission on page 463. -/
theorem exec_freeze_allowed (p : PortId) (s : State) (receiving : s.Receiving p) (ready : s.Ready)
    (unclaimed : s.ses.claim Config.windowsPage = none) (allowed : s.prot.table.canWrite p 463 = true) :
    exec (.freeze p) s = .next (State.replied { s with prot := { s.prot with frozen := true } } p 1 [0x00]) := by
  rw [exec_freeze_ready p s receiving ready, answerFreeze_unclaimed p s unclaimed, if_pos allowed, taken_eq]
  rfl

/-- To set FROZEN again changes nothing (Table 34, case 4). -/
theorem setFrozen_of_frozen (s : State) (frozen : s.prot.frozen = true) :
    { s with prot := { s.prot with frozen := true } } = s := by
  rw [← frozen]

/-! ### A rise of chip select -/

/-- A rise of chip select is the concern of the frame and of the stream's pin: the Protection Unit is left as it was. -/
theorem exec_chipSelectRise_prot (p : PortId) (s : State) :
    ∃ u : State, exec (.chipSelectRise p) s = .next u ∧ u.prot = s.prot := by
  have rise : exec (.chipSelectRise p) s = execChipSelectRise p s := rfl
  rw [rise, execChipSelectRise]
  split
  · exact ⟨_, rfl, rfl⟩
  · exact ⟨_, rfl, rfl⟩

/-- Settles O23, case by case of Table 34: the case of a set FROZEN is the last case with nothing to change, and the rise of chip
select comes after the request was taken. -/
theorem freezeAnswers : Obligations.FreezeAnswers := by
  intro p s receiving
  refine ⟨exec_freeze_mounting p s receiving, exec_freeze_claimed p s receiving, exec_freeze_denied p s receiving,
    exec_freeze_allowed p s receiving, ?alreadyFrozen, ?risen⟩
  case alreadyFrozen =>
    intro ready unclaimed allowed frozen
    rw [exec_freeze_allowed p s receiving ready unclaimed allowed, setFrozen_of_frozen s frozen]
  case risen =>
    intro ready unclaimed allowed _
    obtain ⟨u, rise, kept⟩ :=
      exec_chipSelectRise_prot p (State.replied { s with prot := { s.prot with frozen := true } } p 1 [0x00])
    refine ⟨_, u, exec_freeze_allowed p s receiving ready unclaimed allowed, rise, ?_⟩
    rw [kept]
    rfl

end Sys2Proof.Proofs.Freeze

/-! WATCH_CLEAR (R149): how a write of one watch slot reads back, when a page is watched (R147), and the answer to the request. -/

namespace Sys2Proof.Proofs.WatchClear

open Sys2Proof Sys2Proof.Machine Sys2Proof.Laws

/-! ### The watch slots of a port -/

/-- What a watch slot holds after one slot is written. -/
theorem setWatch_watches (n : NoticePort) (slot k : Fin 4) (w : Option WatchRange) :
    (n.setWatch slot w).watches[k.val] = if k.val = slot.val then w else n.watches[k.val] := by
  simp only [NoticePort.setWatch, Vector.getElem_set, eq_comm]

@[simp] theorem setWatch_queue (n : NoticePort) (slot : Fin 4) (w : Option WatchRange) :
    (n.setWatch slot w).queue = n.queue := rfl

@[simp] theorem setWatch_overrun (n : NoticePort) (slot : Fin 4) (w : Option WatchRange) :
    (n.setWatch slot w).overrun = n.overrun := rfl

/-- A page is watched exactly when the range of some slot contains it (R147). -/
theorem watchesPage_iff (n : NoticePort) (page : PageId) :
    n.watchesPage page = true ↔
      ∃ (k : Fin 4) (r : WatchRange), n.watches[k.val] = some r ∧ r.first ≤ page.val ∧ page.val ≤ r.last := by
  rw [NoticePort.watchesPage, List.any_eq_true]
  constructor
  · rintro ⟨w, slotOf, contains⟩
    obtain ⟨k, bound, rfl⟩ := Vector.mem_iff_getElem.1 (Vector.mem_toList_iff.1 slotOf)
    cases range : n.watches[k] with
    | none => simp [range] at contains
    | some r => exact ⟨⟨k, bound⟩, r, range, by simpa [range] using contains⟩
  · rintro ⟨k, r, range, contains⟩
    refine ⟨some r, Vector.mem_toList_iff.2 (Vector.mem_iff_getElem.2 ⟨k.val, k.isLt, range⟩), ?_⟩
    simpa using contains

/-- After a slot is emptied, a page is watched exactly when another slot's range contains it. -/
theorem watchesPage_cleared (n : NoticePort) (slot : Fin 4) (page : PageId) :
    (n.setWatch slot none).watchesPage page = true ↔
      ∃ (k : Fin 4) (r : WatchRange), k.val ≠ slot.val ∧ n.watches[k.val] = some r
        ∧ r.first ≤ page.val ∧ page.val ≤ r.last := by
  have range_iff (k : Fin 4) (r : WatchRange) :
      (n.setWatch slot none).watches[k.val] = some r ↔ k.val ≠ slot.val ∧ n.watches[k.val] = some r := by
    rw [setWatch_watches]
    split
    case isTrue cleared => simp [cleared]
    case isFalse other => simp [other]
  simp only [watchesPage_iff, range_iff, and_assoc]

/-! ### The request -/

/-- WATCH_CLEAR means its request, with the one parameter byte of Table 45. -/
theorem exec_watchClear (p : PortId) (slot : Byte) (s : State) :
    exec (.watchClear p slot) s = execWatchClear p slot s := rfl

/-- A READY part takes WATCH_CLEAR at the start of a frame and sends the Notice Unit's answer. -/
theorem exec_watchClear_ready (p : PortId) (slot : Byte) (s : State) (receiving : s.Receiving p) (ready : s.Ready) :
    exec (.watchClear p slot) s = .next ((s.answerWatchClear p slot).taken p 1) := by
  rw [exec_watchClear, execWatchClear, takeRequest_ready s p 1 _ receiving ready]

/-- A MOUNTING part refuses WATCH_CLEAR with NOT_READY, whatever slot it names. -/
theorem exec_watchClear_mounting (p : PortId) (slot : Byte) (s : State) (receiving : s.Receiving p)
    (mounting : s.mount.condition = .mounting) : exec (.watchClear p slot) s = .next (s.replied p 2 [0x01]) := by
  rw [exec_watchClear, execWatchClear, Freeze.takeRequest_mounting s p 1 _ receiving mounting]

/-- WATCH_CLEAR of a slot number that names no slot. -/
theorem exec_watchClear_noSlot (p : PortId) (slot : Byte) (s : State) (receiving : s.Receiving p) (ready : s.Ready)
    (above : 3 < slot.toNat) : exec (.watchClear p slot) s = .next (s.replied p 2 [0x02]) := by
  rw [exec_watchClear_ready p slot s receiving ready, State.answerWatchClear, slot_none slot above]
  rfl

/-- WATCH_CLEAR of one of the four slots empties it, with no question of what it held or of permissions. -/
theorem exec_watchClear_slot (p : PortId) (slot : Byte) (s : State) (receiving : s.Receiving p) (ready : s.Ready)
    (named : slot.toNat < 4) :
    exec (.watchClear p slot) s =
      .next (State.replied (s.setNotice p ((s.notice p).setWatch ⟨slot.toNat, named⟩ none)) p 2 [0x00]) := by
  rw [exec_watchClear_ready p slot s receiving ready, State.answerWatchClear, slot_some slot (Nat.le_of_lt_succ named)]
  rfl

/-- Settles O21: the two refusals, and the port's notice record with the one slot emptied. -/
theorem watchClearEmptiesTheSlot : Obligations.WatchClearEmptiesTheSlot := by
  intro p slot s receiving
  refine ⟨exec_watchClear_mounting p slot s receiving, exec_watchClear_noSlot p slot s receiving, ?cleared⟩
  case cleared =>
    intro ready atMost3
    have named : slot.toNat < 4 := Nat.lt_succ_of_le atMost3
    exact ⟨(s.notice p).setWatch ⟨slot.toNat, named⟩ none, exec_watchClear_slot p slot s receiving ready named,
      fun k => setWatch_watches _ _ k none, setWatch_queue _ _ none, setWatch_overrun _ _ none,
      watchesPage_cleared _ _⟩

end Sys2Proof.Proofs.WatchClear

/-! A code that names no request (R171): a request command is no event but at the start of a frame, what a byte clocked behind a
request does in each phase of the frame, the frame of an unknown code byte by byte, and a frame under reset. -/

namespace Sys2Proof.Proofs.UnknownCode

open Sys2Proof Sys2Proof.Machine Sys2Proof.Laws

/-! ### Requests that are no event -/

/-- Every request command goes through the taking of a request on its port, or spells no frame and changes nothing. -/
theorem exec_request_cases (c : Instr) (p : PortId) (s : State) (request : c.requestPort = some p) :
    exec c s = .next s ∨ ∃ params answer, exec c s = .next (s.takeRequest p params answer) := by
  cases c <;> simp only [Instr.requestPort, reduceCtorEq, Option.some.injEq] at request <;> subst request
  case openSession q count pages =>
    show execOpenSession q count pages s = _ ∨ ∃ params answer, execOpenSession q count pages s = _
    unfold execOpenSession
    split
    · exact .inl rfl
    · exact .inr ⟨_, _, rfl⟩
  case stage q sid member offset length data =>
    show execStage q sid member offset length data s = _
      ∨ ∃ params answer, execStage q sid member offset length data s = _
    unfold execStage
    split
    · exact .inl rfl
    · exact .inr ⟨_, _, rfl⟩
  case unknownRequestCode q code =>
    show execUnknownRequestCode q code s = _ ∨ ∃ params answer, execUnknownRequestCode q code s = _
    unfold execUnknownRequestCode
    split
    · exact .inl rfl
    · exact .inr ⟨_, _, rfl⟩
  all_goals exact .inr ⟨_, _, rfl⟩

/-- Outside the start of a frame no request is taken (log entry 2). -/
theorem takeRequest_of_not_receiving (s : State) (p : PortId) (params : Nat) (answer : State → Answer)
    (elsewhere : ¬ s.Receiving p) : s.takeRequest p params answer = s := by
  rw [State.takeRequest, if_neg fun start => elsewhere ((atFrameStart_iff s p).1 start)]

/-- Outside the start of a frame a request command changes nothing. -/
theorem exec_request_of_not_receiving (c : Instr) (p : PortId) (s : State) (request : c.requestPort = some p)
    (elsewhere : ¬ s.Receiving p) : exec c s = .next s := by
  rcases exec_request_cases c p s request with noFrame | ⟨params, answer, taking⟩
  · exact noFrame
  · rw [taking, takeRequest_of_not_receiving s p params answer elsewhere]

/-- No command of the port makes a request. -/
def IgnoresRequests (p : PortId) (t : State) : Prop := ∀ c : Instr, c.requestPort = some p → exec c t = .next t

/-- In every decoder state but REQUEST the port makes no request (R163, R164, R180). -/
theorem ignoresRequests_of_decoder (p : PortId) (t : State) (past : (t.port p).decoder ≠ .request) : IgnoresRequests p t :=
  fun c request => exec_request_of_not_receiving c p t request fun receiving => past receiving.1

/-! ### A byte of the part's, phase by phase -/

/-- A turnaround byte is 0xFF, and the reply follows the last one. -/
theorem deliverByte_turnaround (s : State) (p : PortId) (phase : (s.port p).decoder = .turnaround) :
    s.deliverByte p = s.setPort p { s.port p with
      sdo := some 0xFF, turnaroundLeft := (s.port p).turnaroundLeft - 1
      decoder := if (s.port p).turnaroundLeft ≤ 1 then .reply else .turnaround } := by
  simp only [State.deliverByte, phase]

/-- Behind the last reply byte comes the read stream, or nothing. -/
theorem deliverByte_lastReply (s : State) (p : PortId) (b : Byte) (phase : (s.port p).decoder = .reply)
    (last : (s.port p).reply = [b]) :
    s.deliverByte p = s.setPort p { s.port p with
      sdo := some b, reply := [], decoder := if (s.port p).stream.isSome then .stream else .spent } := by
  simp only [State.deliverByte, phase, last, ne_eq, not_true_eq_false, if_false]

/-- A SPENT frame delivers 0xFF (R164). -/
theorem deliverByte_spent (s : State) (p : PortId) (phase : (s.port p).decoder = .spent) :
    s.deliverByte p = s.setPort p { s.port p with sdo := some 0xFF } := by
  simp only [State.deliverByte, phase, State.driveOnes]

/-- REPLY_BYTE_DELIVERY with the edges of one byte. -/
def clockByte (p : PortId) (sdi : List Bool) : Instr := .replyByteDelivery ⟨p, clockEdges sdi, []⟩

/-- REPLY_BYTE_DELIVERY with no STATUS owner is the run of its edges. -/
theorem exec_edges (s : State) (p : PortId) (edges : List SckEdge) :
    exec (.replyByteDelivery ⟨p, edges, []⟩) s = .next (edges.foldl (State.sckEdge p) s) :=
  run_edges s p edges

/-! ### The frame of an unknown code -/

/-- The state `s` with the frame of an unknown code on the port: the phase, the turnaround bytes and the reply bytes to come, and
the byte last delivered. -/
def unknownFrame (s : State) (p : PortId) (phase : Decoder) (left : Nat) (reply : List Byte) (sent : Option Byte) : State :=
  s.setPort p { s.port p with decoder := phase, received := 1, turnaroundLeft := left, reply := reply, sdo := sent, bits := []
                              sckHigh := true }

section Frame

variable (s : State) (p : PortId) (phase : Decoder) (left : Nat) (reply : List Byte) (sent : Option Byte)

/-- The frame with the unknown code taken is one of them. -/
theorem replied_unknown : s.replied p 1 [0x0E] = unknownFrame s p .turnaround 2 [0x0E] (s.port p).sdo := rfl

@[simp] theorem unknownFrame_port : (unknownFrame s p phase left reply sent).port p =
    { s.port p with decoder := phase, received := 1, turnaroundLeft := left, reply := reply, sdo := sent, bits := []
                    sckHigh := true } :=
  port_setPort s p _

/-- A later phase of the frame takes the place of the earlier one, and nothing else of the state has changed. -/
@[simp] theorem unknownFrame_setPort (r : Port) : (unknownFrame s p phase left reply sent).setPort p r = s.setPort p r :=
  setPort_setPort s p _ r

theorem unknownFrame_sdo : ((unknownFrame s p phase left reply sent).port p).sdo = sent := by
  rw [unknownFrame_port]

theorem unknownFrame_ignores (past : phase ≠ .request) : IgnoresRequests p (unknownFrame s p phase left reply sent) :=
  ignoresRequests_of_decoder p _ (by rw [unknownFrame_port]; exact past)

/-- Between two bytes of the frame, SCK is high and no bit has been sampled. -/
theorem unknownFrame_sampledByte :
    (unknownFrame s p phase left reply sent).setPort p
      ((unknownFrame s p phase left reply sent).port p).sampledByte = unknownFrame s p phase left reply sent := by
  simp only [unknownFrame_port, unknownFrame_setPort, Port.sampledByte]
  rfl

/-- A byte clocked in a phase behind the request delivers a byte of the part's, whatever SDI carries (R164). -/
theorem exec_clockByte (sdi : List Bool) (eight : sdi.length = 8) (notIdle : phase ≠ .idle) (notIgnored : phase ≠ .ignored)
    (past : phase ≠ .request) :
    exec (clockByte p sdi) (unknownFrame s p phase left reply sent)
      = .next ((unknownFrame s p phase left reply sent).deliverByte p) := by
  rw [clockByte, exec_edges, clock_byte _ p sdi (by simpa using notIdle) (by simpa using notIgnored) (by simpa using past)
    (by simp) eight, unknownFrame_sampledByte]

/-- A turnaround byte of the frame. -/
theorem exec_turnaroundByte (sdi : List Bool) (eight : sdi.length = 8) :
    exec (clockByte p sdi) (unknownFrame s p .turnaround left reply sent)
      = .next (unknownFrame s p (if left ≤ 1 then .reply else .turnaround) (left - 1) reply (some 0xFF)) := by
  rw [exec_clockByte s p .turnaround left reply sent sdi eight (by decide) (by decide) (by decide),
    deliverByte_turnaround _ p (by simp)]
  simp only [unknownFrame_port, unknownFrame_setPort]
  rfl

/-- The phase behind the status byte UNKNOWN: SPENT on a port with no read stream. -/
def afterStatus : Decoder := if (s.port p).stream.isSome then .stream else .spent

theorem afterStatus_ne_request : afterStatus s p ≠ .request := by
  unfold afterStatus
  split <;> decide

theorem afterStatus_spent (noStream : (s.port p).stream = none) : afterStatus s p = .spent := by
  simp [afterStatus, noStream]

/-- The status byte of the frame. -/
theorem exec_statusByte (b : Byte) (sdi : List Bool) (eight : sdi.length = 8) :
    exec (clockByte p sdi) (unknownFrame s p .reply left [b] sent)
      = .next (unknownFrame s p (afterStatus s p) left [] (some b)) := by
  rw [exec_clockByte s p .reply left [b] sent sdi eight (by decide) (by decide) (by decide),
    deliverByte_lastReply _ p b (by simp) (by simp)]
  simp only [unknownFrame_port, unknownFrame_setPort]
  rfl

/-- A byte behind the status byte: 0xFF, and the frame stays as it is. -/
theorem exec_spentByte (sdi : List Bool) (eight : sdi.length = 8) :
    exec (clockByte p sdi) (unknownFrame s p .spent left reply sent)
      = .next (unknownFrame s p .spent left reply (some 0xFF)) := by
  rw [exec_clockByte s p .spent left reply sent sdi eight (by decide) (by decide) (by decide), deliverByte_spent _ p (by simp)]
  simp only [unknownFrame_port, unknownFrame_setPort]
  rfl

end Frame

/-- At the start of a frame an unknown code is answered UNKNOWN, with no question of the part's condition. -/
theorem exec_unknownRequestCode (p : PortId) (code : Byte) (s : State) (unknown : code ∉ requestCodes)
    (receiving : s.Receiving p) : exec (.unknownRequestCode p code) s = .next (s.replied p 1 [0x0E]) := by
  have meaning : exec (.unknownRequestCode p code) s = execUnknownRequestCode p code s := rfl
  have start := (atFrameStart_iff s p).2 receiving
  rw [meaning, execUnknownRequestCode, if_neg unknown, State.takeRequest, if_pos start, refuse_taken]
  rfl

/-! ### A frame under reset -/

/-- A fall of chip select under PRST_n or RESET_n begins a frame that is IGNORED (R180, R181). -/
theorem exec_csFall_held (p : PortId) (s : State) (high : (s.port p).csLow = false) (held : s.portHeld p = true) :
    exec (.csFall p) s = .next (s.setPort p ((s.port p).fallen true)) := by
  have meaning : exec (.csFall p) s = execCsFall p s := rfl
  rw [meaning, execCsFall, if_neg (by simp [high]), held]

/-- An edge of SCK in an IGNORED frame moves the level of SCK alone. -/
theorem sckEdge_ignored (s : State) (p : PortId) (e : SckEdge) (ignored : (s.port p).decoder = .ignored) :
    ∃ level, State.sckEdge p s e = s.setPort p { s.port p with sckHigh := level } := by
  cases e with
  | fall => exact ⟨false, rfl⟩
  | rise sdi =>
    show ∃ level, s.sckRise p sdi = _
    unfold State.sckRise
    by_cases high : (s.port p).sckHigh = true
    · exact ⟨(s.port p).sckHigh, by rw [if_pos high]; exact (setPort_self s p).symm⟩
    · exact ⟨true, by rw [if_neg high, if_pos (.inr ignored)]⟩

/-- So does a run of edges. -/
theorem edges_ignored (s : State) (p : PortId) (edges : List SckEdge) (ignored : (s.port p).decoder = .ignored) :
    ∃ level, edges.foldl (State.sckEdge p) s = s.setPort p { s.port p with sckHigh := level } := by
  induction edges generalizing s with
  | nil => exact ⟨(s.port p).sckHigh, (setPort_self s p).symm⟩
  | cons e edges ih =>
    obtain ⟨first, edge⟩ := sckEdge_ignored s p e ignored
    obtain ⟨level, rest⟩ := ih (s.setPort p { s.port p with sckHigh := first }) (by simpa using ignored)
    refine ⟨level, ?_⟩
    rw [List.foldl_cons, edge, rest, setPort_setPort, port_setPort]

/-- With no STATUS taken in the frame there is no group to take again. -/
theorem gatherStatus_none (s : State) (p : PortId) (owners : List StatusOwner) (noStatus : (s.port p).statusTaken = none) :
    s.gatherStatus p owners = s := by
  rcases gatherStatus_cases s p owners with same | ⟨g, taken, -⟩
  · exact same
  · rw [noStatus] at taken
    cases taken

/-- REPLY_BYTE_DELIVERY in an IGNORED frame moves the level of SCK alone. -/
theorem exec_replyByteDelivery_ignored (t : State) (p : PortId) (edges : List SckEdge) (owners : List StatusOwner)
    (ignored : (t.port p).decoder = .ignored) (noStatus : (t.port p).statusTaken = none) :
    ∃ level, exec (.replyByteDelivery ⟨p, edges, owners⟩) t = .next (t.setPort p { t.port p with sckHigh := level }) := by
  obtain ⟨level, run⟩ := edges_ignored t p edges ignored
  refine ⟨level, ?_⟩
  have meaning : exec (.replyByteDelivery ⟨p, edges, owners⟩) t = execReplyByteDelivery ⟨p, edges, owners⟩ t := rfl
  rw [meaning, execReplyByteDelivery, run, gatherStatus_none _ p owners (by simpa using noStatus)]

/-! ### The claim -/

/-- Settles O8: the frame of an unknown code is followed from its taking through both turnaround bytes and the status byte into
SPENT, and a frame that falls under reset is IGNORED. -/
theorem unknownCodeAnswered : Obligations.UnknownCodeAnswered := by
  intro p code s unknown ignores byte
  refine ⟨exec_unknownRequestCode p code s unknown, ?taken, ?bytes, ?held⟩
  case taken =>
    rw [replied_unknown]
    exact unknownFrame_ignores s p _ _ _ _ (by decide)
  case bytes =>
    intro b1 b2 b3 eight1 eight2 eight3
    rw [replied_unknown]
    refine ⟨_, _, _, exec_turnaroundByte s p 2 [0x0E] _ b1 eight1, unknownFrame_sdo ..,
      unknownFrame_ignores _ _ _ _ _ _ (by decide),
      exec_turnaroundByte s p 1 [0x0E] _ b2 eight2, unknownFrame_sdo ..,
      unknownFrame_ignores _ _ _ _ _ _ (by decide),
      exec_statusByte s p 0 _ 0x0E b3 eight3, unknownFrame_sdo ..,
      unknownFrame_ignores _ _ _ _ _ _ (afterStatus_ne_request s p),
      ?ones⟩
    intro noStream b4 eight4
    rw [afterStatus_spent s p noStream]
    exact ⟨_, exec_spentByte s p 0 [] _ b4 eight4, unknownFrame_sdo ..,
      unknownFrame_ignores _ _ _ _ _ _ (by decide),
      exec_spentByte s p 0 [] _⟩
  case held =>
    intro high reset
    have held : s.portHeld p = true := (portHeld_iff s p).2 (reset.imp_right .inl)
    have fallen : (s.setPort p ((s.port p).fallen true)).port p = (s.port p).fallen true := port_setPort s p _
    have ignored : ((s.setPort p ((s.port p).fallen true)).port p).decoder = .ignored := by rw [fallen]; rfl
    refine ⟨_, exec_csFall_held p s high held, by rw [fallen]; rfl,
      ignoresRequests_of_decoder p _ (by rw [ignored]; decide) _ rfl, fun edges owners => ?_⟩
    exact exec_replyByteDelivery_ignored _ p edges owners ignored (by rw [fallen]; rfl)

end Sys2Proof.Proofs.UnknownCode
/-! What a command can do to the part, said once: `Event` has a constructor for each kind of event, and every command of the
model is one of them (`exec_event`). The laws of the part are then proved kept event by event. -/

namespace Sys2Proof.Proofs.Events

open Sys2Proof Sys2Proof.Machine Sys2Proof.Laws

/-! ### Requests -/

/-- What the owner of a request leaves of the state when it answers port `p`, before the frame is answered. -/
inductive Answered (s : State) (p : PortId) : State → Prop where
  /-- A refusal, or a request that only reads. -/
  | same : Answered s p s
  /-- READ: the stream with its first page pinned (R173). -/
  | stream (start length : Nat) (ready : s.Ready) : Answered s p (s.createStream p start length)
  /-- STATUS: the port holds the groups taken (R177). -/
  | status : Answered s p (s.setPort p { s.port p with statusTaken := some (s.statusGroups p) })
  /-- LEASE_SET (R56). -/
  | lease (units : Byte) : Answered s p (s.setPort p { s.port p with lease := units })
  /-- WATCH_SET and WATCH_CLEAR (R148, R149). -/
  | watch (n : NoticePort) : Answered s p (s.setNotice p n)
  /-- NOTICE_FETCH (R156). -/
  | fetched (n : NoticePort) : Answered s p (s.setNotice p n).refreshAlerts
  /-- FREEZE (R143). -/
  | frozen : Answered s p { s with prot := { s.prot with frozen := true } }
  /-- OPEN (R41). -/
  | opened (pages : List PageId) (i : SessionId) (some : pages ≠ []) (few : pages.length ≤ 4) (distinct : pages.Nodup)
      (free : (s.ses.session i).state = .free) : Answered s p (s.acceptOpen p pages i).state
  /-- STAGE, and a COMMIT whose windows line is malformed: the session stays OPEN with its members (R44, R47). -/
  | record (i : SessionId) (r : Session) (old : (s.ses.session i).state = .opened) (new : r.state = .opened)
      (members : r.members = (s.ses.session i).members) (owner : r.owner = (s.ses.session i).owner) :
      Answered s p { s with ses := s.ses.setSession i r }
  /-- COMMIT (R47). -/
  | queued (i : SessionId) (old : (s.ses.session i).state = .opened) (own : (s.ses.session i).owner = some p) :
      Answered s p { s with ses := s.ses.setSession i { s.ses.session i with state := .queued, lease := none }
                            eng := s.eng.enqueue p i }
  /-- ABORT of an OPEN or QUEUED session (R51). -/
  | abandoned (i : SessionId) (old : (s.ses.session i).state = .opened ∨ (s.ses.session i).state = .queued) :
      Answered s p (s.finishSession i .abandoned)
  /-- ABORT of a PROGRAMMING session before the boundary (R52). -/
  | unwinding (i : SessionId) (old : (s.ses.session i).state = .programming)
      (before : (s.ses.session i).boundaryPassed = false) :
      Answered s p { s with ses := { s.ses.setSession i
        { s.ses.session i with state := .unwinding, outcome := some .abandoned } with unwindRequest := some i } }
  /-- COLLECT (R58). -/
  | collected (i : SessionId) (old : (s.ses.session i).state = .finished) :
      Answered s p { s with ses := s.ses.release i }.refreshAlerts

/-- A request that a port's owner has taken, with the frame answered. -/
def Taken (s : State) (p : PortId) (t : State) : Prop :=
  s.Receiving p ∧ ∃ (a : Answer) (params : Nat), Answered s p a.state ∧ t = a.taken p params

theorem answered_whenReady (s : State) (p : PortId) (f : State → Answer) (h : s.Ready → Answered s p (f s).state) :
    Answered s p (s.whenReady f).state := by
  unfold State.whenReady
  split
  · exact .same
  · next mounting =>
    refine h ?_
    unfold State.Ready
    cases condition : s.mount.condition with
    | mounting => exact absurd condition mounting
    | ready => rfl

theorem answered_namedSession (s : State) (p : PortId) (sid : Byte) (f : SessionId → Answer)
    (h : ∀ i, s.Own p i → Answered s p (f i).state) : Answered s p (s.namedSession p sid f).state := by
  unfold State.namedSession
  split
  · exact .same
  · next i _ =>
    split
    · next attached => exact h i ((attachedTo_iff s.ses p i).1 attached)
    · exact .same

theorem answered_read (s : State) (p : PortId) (page offset length : Half) (ready : s.Ready) :
    Answered s p (s.answerRead p page offset length).state := by
  unfold State.answerRead
  simp only
  split
  · split
    · exact .stream _ _ ready
    · exact .same
  · exact .same

theorem answered_mapQuery (s : State) (p : PortId) (page : Half) : Answered s p (s.answerMapQuery page).state := by
  unfold State.answerMapQuery
  split
  · exact .same
  · exact .same

theorem answered_open (s : State) (p : PortId) (list : List Half) : Answered s p (s.answerOpen p list).state := by
  unfold State.answerOpen
  split
  · exact .same
  next pages _ =>
  split
  · exact .same
  next shape =>
  unfold State.openChecked
  split
  · exact .same
  split
  · exact .same
  split
  · exact .same
  split
  · exact .same
  split
  · exact .same
  next i lowest =>
  split
  · exact .same
  push Not at shape
  exact .opened pages i (fun e => shape.1 (by rw [e]; rfl)) shape.2.1 shape.2.2
    (by simpa using List.find?_some lowest)

theorem answered_stage (s : State) (p : PortId) (sid member : Byte) (offset length : Half) (data : List Byte) :
    Answered s p (s.answerStage p sid member offset length data).state := by
  refine answered_namedSession s p sid _ fun i _ => ?_
  simp only
  split
  · exact .same
  next isOpen =>
  split
  · exact .record i _ (not_not.1 isOpen) (not_not.1 isOpen) rfl rfl
  · exact .same

theorem answered_commit (s : State) (p : PortId) (sid : Byte) : Answered s p (s.answerCommit p sid).state := by
  refine answered_namedSession s p sid _ fun i own => ?_
  simp only
  split
  · exact .same
  next isOpen =>
  split
  · exact .record i _ (not_not.1 isOpen) (not_not.1 isOpen) rfl rfl
  · exact .queued i (by simpa using isOpen) own.2

theorem answered_abort (s : State) (p : PortId) (sid : Byte) : Answered s p (s.answerAbort p sid).state := by
  refine answered_namedSession s p sid _ fun i _ => ?_
  simp only
  split
  · next old => exact .abandoned i (.inl old)
  · next old => exact .abandoned i (.inr old)
  · next old =>
    split
    · exact .same
    · next before => exact .unwinding i old (by simpa using before)
  · exact .same
  · exact .same
  · exact .same

theorem answered_collect (s : State) (p : PortId) (sid : Byte) : Answered s p (s.answerCollect p sid).state := by
  refine answered_namedSession s p sid _ fun i _ => ?_
  simp only
  split
  · next old => exact .collected i old
  · exact .same

theorem answered_watchSet (s : State) (p : PortId) (slot : Byte) (first last : Half) :
    Answered s p (s.answerWatchSet p slot first last).state := by
  unfold State.answerWatchSet
  split
  · exact .same
  split
  · exact .same
  split
  · exact .watch _
  · exact .same

theorem answered_watchClear (s : State) (p : PortId) (slot : Byte) : Answered s p (s.answerWatchClear p slot).state := by
  unfold State.answerWatchClear
  split
  · exact .same
  · exact .watch _

theorem answered_noticeFetch (s : State) (p : PortId) : Answered s p (s.answerNoticeFetch p).state := by
  unfold State.answerNoticeFetch
  simp only
  split
  · exact .fetched _
  · split
    · exact .fetched _
    · exact .same

theorem answered_leaseSet (s : State) (p : PortId) (units : Byte) : Answered s p (s.answerLeaseSet p units).state := by
  unfold State.answerLeaseSet
  split
  · exact .lease units
  · exact .same

theorem answered_freeze (s : State) (p : PortId) : Answered s p (s.answerFreeze p).state := by
  unfold State.answerFreeze
  split
  · exact .same
  split
  · exact .frozen
  · exact .same

/-- A request at the start of a frame is taken; elsewhere it changes nothing. -/
theorem takeRequest_cases (s : State) (p : PortId) (params : Nat) (f : State → Answer) (h : Answered s p (f s).state) :
    s.takeRequest p params f = s ∨ Taken s p (s.takeRequest p params f) := by
  unfold State.takeRequest
  split
  · next start => exact .inr ⟨(atFrameStart_iff s p).1 start, f s, params, h, rfl⟩
  · exact .inl rfl

theorem takeReady_cases (s : State) (p : PortId) (params : Nat) (f : State → Answer)
    (h : s.Ready → Answered s p (f s).state) :
    s.takeRequest p params (fun u => u.whenReady f) = s ∨ Taken s p (s.takeRequest p params fun u => u.whenReady f) :=
  takeRequest_cases s p params _ (answered_whenReady s p f h)

/-- What a request command does: nothing, or its port's owner takes it. -/
theorem request_cases (c : Instr) (p : PortId) (s t : State) (port : c.requestPort = some p) (taken : exec c s = .next t) :
    t = s ∨ Taken s p t := by
  cases c <;> simp only [Instr.requestPort, reduceCtorEq, Option.some.injEq] at port <;> subst port
  case read p page offset length =>
    cases taken
    exact takeReady_cases s p 6 _ (answered_read s p page offset length)
  case mapQuery p page =>
    cases taken
    exact takeReady_cases s p 2 _ fun _ => answered_mapQuery s p page
  case status p =>
    cases taken
    exact takeRequest_cases s p 0 _ .status
  case openSession p count pages =>
    change execOpenSession p count pages s = _ at taken
    unfold execOpenSession at taken
    split at taken
    · cases taken; exact .inl rfl
    · cases taken
      exact takeReady_cases s p _ _ fun _ => answered_open s p _
  case stage p sid member offset length data =>
    change execStage p sid member offset length data s = _ at taken
    unfold execStage at taken
    split at taken
    · cases taken; exact .inl rfl
    · cases taken
      exact takeReady_cases s p _ _ fun _ => answered_stage s p sid member offset length _
  case commit p sid =>
    cases taken
    exact takeReady_cases s p 1 _ fun _ => answered_commit s p sid
  case abort p sid =>
    cases taken
    exact takeReady_cases s p 1 _ fun _ => answered_abort s p sid
  case collect p sid =>
    cases taken
    exact takeReady_cases s p 1 _ fun _ => answered_collect s p sid
  case watchSet p slot first last =>
    cases taken
    exact takeReady_cases s p 5 _ fun _ => answered_watchSet s p slot first last
  case watchClear p slot =>
    cases taken
    exact takeReady_cases s p 1 _ fun _ => answered_watchClear s p slot
  case noticeFetch p =>
    cases taken
    exact takeReady_cases s p 0 _ fun _ => answered_noticeFetch s p
  case leaseSet p units =>
    cases taken
    exact takeReady_cases s p 1 _ fun _ => answered_leaseSet s p units
  case freeze p =>
    cases taken
    exact takeReady_cases s p 0 _ fun _ => answered_freeze s p
  case unknownRequestCode p code =>
    change execUnknownRequestCode p code s = _ at taken
    unfold execUnknownRequestCode at taken
    split at taken
    · cases taken; exact .inl rfl
    · cases taken
      exact takeRequest_cases s p 0 _ .same

/-! ### Completions -/

/-- How the completion of the operation in flight is taken, by the engine's sub-step (R73 to R76, R82, R89, R96, R97). -/
inductive Completion : Work → (Bool → State → State) → Prop where
  | begunMark (r : CommitRec) : Completion (.commit r .begunMark) fun ok t => t.begunMarkEnded r ok
  | line (r : CommitRec) (k : Nat) : Completion (.commit r (.line k)) fun ok t => t.lineEnded r k ok
  | dataStamp (r : CommitRec) : Completion (.commit r .dataStamp) fun ok t => t.dataStampEnded r ok
  | void (u : UnwindRec) (b : BlockId) (n : Nat) : Completion (.unwind u (.void b n)) fun ok t => t.unwindVoidEnded u b n ok
  | erase (b : BlockId) : Completion (.erase b .erase) fun ok t => t.eraseEnded b ok
  | freeStamp (b : BlockId) : Completion (.erase b .freeStamp) fun ok t => t.freeStampEnded b ok
  | mountVoid (b : BlockId) (rest : List BlockId) (n : Nat) :
      Completion (.mountVoid b rest (.void n)) fun ok t => t.mountVoidEnded b rest n ok
  | retire (w : Work) (retiring : w.retiring = true) : Completion w fun ok t => t.retireEnded ok

/-! ### Resets -/

/-- Every SRAM table of the part is in its reset state, with the operation in flight cut or none (R3, R91, R112, R181). -/
structure Cleared (s t : State) : Prop where
  bm : t.bm = BlockManager.reset
  map : t.map = MapUnit.reset
  ses : t.ses = SessionUnit.reset
  eng : ∃ fault, t.eng = Engine.reset fault
  mount : ∃ cause, t.mount = Mount.start cause
  streams : ∀ p, (t.port p).stream = none
  flash : t.flash = s.flash ∨ ∃ cut, t.flash = (s.cutFlash cut).flash
  kept : Kept s t

/-! ### Every event -/

/-- The events of the part that are none of a port's frame: what command `c` makes of state `s`. -/
inductive Act (s : State) : Instr → State → Prop where
  | portReset (p : PortId) : Act s (.prstAssert p) (s.portReset p)
  | cleared {c : Instr} {t : State} (h : Cleared s t)
      (fault : t.power.supplied = true → (∀ cut, c ≠ .powerOn cut) → t.eng.markFault = s.eng.markFault)
      (frozen : t.power.supplied = true → (∀ cut, c ≠ .powerOn cut) → t.prot.frozen = s.prot.frozen) : Act s c t
  | power (c : Instr) (w : Power) : Act s c { s with power := w }
  | leaseExpiry (i : SessionId) (old : (s.ses.session i).state = .opened) :
      Act s (.leaseExpiry i) (s.finishSession i .expired)
  | completed (c : Instr) (w : Written) (next : Bool → State → State) (h : Completion s.eng.work next) :
      Act s c (s.completeOp w next)
  | timeout (cut : Cut) (op : FlashOp) (h : s.eng.work.inFlight = some op) :
      Act s (.flashOpTimeout cut) { s with flash := s.flashCut op cut }.opFailed
  | choice : Act s .choiceOfWork s.choiceEvent
  | failure : Act s .failureHandoff { s with ses := s.ses.takePending }
  | boundary {t : State} (taken : execBoundaryHandoff s = .next t) : Act s .boundaryHandoff t
  | unwindRequest (i : SessionId) (h : s.ses.unwindRequest = some i) :
      Act s .unwindRequest ({ s with ses := { s.ses with unwindRequest := none } }.takeUnwind i)
  | flip (r : CommitRec) (work : s.eng.work = .commit r .flipRequested) (free : s.map.flip = none) :
      Act s .flip (State.setWork { s.flipMembers r with map := { (s.flipMembers r).map with flip := some r.flipWork } }
        (.commit r .flipTaken))
  | reload (w : FlipWork) (flip : s.map.flip = some w) (due : w.reloadDue = true) :
      Act s .windowsTableReload ((State.offerTable { s with
        prot := { s.prot with table := reloadedTable (s.currentLine Config.windowsPage 0), tableFault := false } }
          w.serial w.writer).refreshAlerts.noteHandoff { w with reloadDue := false, revocationDue := true })
  | revocation (w : FlipWork) (flip : s.map.flip = some w) (due : w.revocationDue = true) :
      Act s .revocation (State.noteHandoff (State.refreshAlerts { s with
        ses := s.ses.revoke s.prot.table, eng := s.eng.withdrawDenied s.ses s.prot.table })
          { w with revocationDue := false })
  | sessionEnd (w : FlipWork) (flip : s.map.flip = some w) (due : w.sessionEndDue = true) (loaded : w.reloadDue = false) :
      Act s .flipEndOfSession (State.noteHandoff (State.refreshAlerts { s with
        ses := if (s.ses.session w.session).state = .programming then s.ses.endSession w.session (.done w.serial)
               else s.ses }) { w with sessionEndDue := false })
  | notices (w : FlipWork) (flip : s.map.flip = some w) (due : w.noticesDue = true) (loaded : w.reloadDue = false) :
      Act s .flipNoticeHandoff
        ((s.offerFlip w.serial w.writer w.pages).refreshAlerts.noteHandoff { w with noticesDue := false })
  | scan (h : s.mount.position < 512) (stage : s.mount.stage = .scan) :
      Act s .mountBlockScan (s.scanBlock ⟨s.mount.position, h⟩)
  | build (runs : s.mountRuns = true) (stage : s.mount.stage = .scan) (scanned : 512 ≤ s.mount.position) :
      Act s .mountTableBuild s.buildTables
  | load (stage : s.mount.stage = .built) :
      Act s .windowsTableLoad (State.mountVoidNext { s with
        prot := { s.prot with table := (tableOfLine (s.currentLine Config.windowsPage 0)).1
                              tableFault := (tableOfLine (s.currentLine Config.windowsPage 0)).2 }
        mount := { s.mount with stage := .voiding, voidList := [] } } s.mount.voidList)

/-- The events of the part: what command `c` makes of state `s`. -/
inductive Event (s : State) : Instr → State → Prop where
  /-- The command is no event here. -/
  | nothing (c : Instr) : Event s c s
  | request {c : Instr} {p : PortId} {t : State} (port : c.requestPort = some p) (taken : exec c s = .next t) : Event s c t
  | csFall (p : PortId) (high : (s.port p).csLow = false) :
      Event s (.csFall p) (s.setPort p ((s.port p).fallen (s.portHeld p)))
  | csRise (p : PortId) :
      Event s (.chipSelectRise p) ((s.endStream p).setPort p (((s.endStream p).port p).risen (s.portHeld p)))
  | nextPage (p : PortId) (st : Stream) (phase : (s.port p).decoder = .stream) (stream : (s.port p).stream = some st) :
      Event s (.readStreamNextPage p) ((s.setPort p (s.port p).sampledByte).deliverPageEnd p st)
  | streamEnd (p : PortId) (st : Stream) (phase : (s.port p).decoder = .stream) (stream : (s.port p).stream = some st) :
      Event s (.readStreamEnd p) ((s.setPort p (s.port p).sampledByte).deliverLast p st)
  | run (r : SckRun) :
      Event s (.replyByteDelivery r) ((r.edges.foldl (State.sckEdge r.port) s).gatherStatus r.port r.gather)
  | prstFall (p : PortId) : Event s (.prstAssert p) (s.setPort p { s.port p with prstLow := true })
  | prstRise (p : PortId) : Event s (.prstRelease p) (s.setPort p { s.port p with
      prstLow := false, decoder := if s.running && !(s.port p).csLow then .idle else (s.port p).decoder })
  | act {c : Instr} {t : State} (h : Act s c t) : Event s c t

/-! ### Resets are events -/

theorem held_stream (s t : State) (h : t.ports = s.ports.map Port.held) (p : PortId) : (t.port p).stream = none := by
  rw [held_port s t h p]; rfl

theorem freed_stream (s t : State) (h : t.ports = (s.ports.map Port.held).map Port.freed) (p : PortId) :
    (t.port p).stream = none := by
  have e : t.port p = (Port.held (s.port p)).freed := by simp [State.port, h]
  rw [e]; rfl

theorem cutFlash_ports (s : State) (cut : Cut) : (s.cutFlash cut).ports = s.ports := by rw [cutFlash_frame]

theorem resetAssert_event (cut : Cut) (s t : State) (taken : execResetAssert cut s = .next t) :
    Event s (.resetAssert cut) t := by
  have kept := resetAssert_kept cut s t taken
  unfold execResetAssert at taken
  split at taken
  · cases taken; exact .nothing _
  split at taken
  · cases taken
    exact .act <| .cleared ⟨rfl, rfl, rfl, ⟨_, rfl⟩, ⟨_, rfl⟩,
      held_stream s _ (congrArg (Vector.map Port.held) (cutFlash_ports s cut)), .inr ⟨cut, rfl⟩, kept⟩
      (fun _ _ => rfl) fun _ _ => rfl
  · cases taken; exact .act (.power _ _)

theorem resetRelease_event (s t : State) (taken : execResetRelease s = .next t) : Event s .resetRelease t := by
  have kept := resetRelease_kept s t taken
  unfold execResetRelease at taken
  split at taken
  · simp only at taken
    split at taken
    · cases taken
      exact .act <| .cleared ⟨rfl, rfl, rfl, ⟨_, rfl⟩, ⟨_, rfl⟩, freed_stream s _ rfl, .inl rfl, kept⟩ (fun _ _ => rfl) fun _ _ => rfl
    · cases taken; exact .act (.power _ _)
  · cases taken; exact .nothing _

theorem powerLoss_event (cut : Cut) (s t : State) (taken : execPowerLoss cut s = .next t) : Event s (.powerLoss cut) t := by
  have kept := powerLoss_kept cut s t taken
  unfold execPowerLoss at taken
  split at taken
  · cases taken
    exact .act <| .cleared ⟨rfl, rfl, rfl, ⟨_, rfl⟩, ⟨_, rfl⟩,
      held_stream s _ (congrArg (Vector.map Port.held) (cutFlash_ports s cut)), .inr ⟨cut, rfl⟩, kept⟩
      (fun supplied => by cases supplied) fun supplied => by cases supplied
  · cases taken; exact .nothing _

theorem powerOn_event (cut : Cut) (s t : State) (taken : execPowerOn cut s = .next t) : Event s (.powerOn cut) t := by
  have kept := powerOn_kept cut s t taken
  unfold execPowerOn at taken
  simp only at taken
  generalize before : (if s.power.supplied then s.supplyLost cut else s) = u at taken
  have flash : u.flash = s.flash ∨ ∃ cut, u.flash = (s.cutFlash cut).flash := by
    subst before
    split
    · exact .inr ⟨cut, rfl⟩
    · exact .inl rfl
  split at taken
  · cases taken
    exact .act <| .cleared ⟨rfl, rfl, rfl, ⟨_, rfl⟩, ⟨_, rfl⟩, held_stream u _ rfl, flash, kept⟩
      (fun _ other => absurd rfl (other cut)) fun _ other => absurd rfl (other cut)
  · cases taken
    refine .act <| .cleared ⟨rfl, rfl, rfl, ⟨_, rfl⟩, ⟨_, rfl⟩, freed_stream u _ ?_, flash, kept⟩
      (fun _ other => absurd rfl (other cut)) fun _ other => absurd rfl (other cut)
    exact congrArg (Vector.map Port.freed) (held_held u)

/-! ### Completions are events -/

theorem retireMark_event (w : Written) (s t : State) (taken : execRetireMarkCompletion w s = .next t) :
    Event s (.retireMarkCompletion w) t := by
  unfold execRetireMarkCompletion at taken
  split at taken
  · next retiring => cases taken; exact .act <| .completed _ w _ (.retire _ retiring)
  · cases taken; exact .nothing _

theorem mountVoid_event (w : Written) (s t : State) (taken : execMountVoidCompletion w s = .next t) :
    Event s (.mountVoidCompletion w) t := by
  unfold execMountVoidCompletion at taken
  split at taken
  · next work => cases taken; exact .act <| .completed _ w _ (by rw [work]; exact .mountVoid _ _ _)
  · next work => cases taken; exact .act <| .completed _ w _ (.retire _ (by rw [work]; rfl))
  · cases taken; exact .nothing _

/-- Every command of the model is one of the events. -/
theorem exec_event (c : Instr) (s t : State) (taken : exec c s = .next t) : Event s c t := by
  cases c
  case csFall p =>
    change execCsFall p s = _ at taken
    unfold execCsFall at taken
    split at taken
    · cases taken; exact .nothing _
    · next high => cases taken; exact .csFall p (by simpa using high)
  case chipSelectRise p =>
    change execChipSelectRise p s = _ at taken
    unfold execChipSelectRise at taken
    split at taken
    · cases taken; exact .csRise p
    · cases taken; exact .nothing _
  case readStreamNextPage p =>
    change execReadStreamNextPage p s = _ at taken
    unfold execReadStreamNextPage at taken
    split at taken
    · next st phase stream =>
      split at taken
      · cases taken; exact .nextPage p st phase stream
      · cases taken; exact .nothing _
    · cases taken; exact .nothing _
  case readStreamEnd p =>
    change execReadStreamEnd p s = _ at taken
    unfold execReadStreamEnd at taken
    split at taken
    · next st phase stream =>
      split at taken
      · cases taken; exact .streamEnd p st phase stream
      · cases taken; exact .nothing _
    · cases taken; exact .nothing _
  case prstAssert p =>
    change execPrstAssert p s = _ at taken
    unfold execPrstAssert at taken
    split at taken
    · cases taken; exact .nothing _
    split at taken
    · cases taken; exact .act <| .portReset p
    · cases taken; exact .prstFall p
  case prstRelease p =>
    change execPrstRelease p s = _ at taken
    unfold execPrstRelease at taken
    simp only at taken
    split at taken
    · cases taken; exact .prstRise p
    · cases taken; exact .nothing _
  case resetAssert cut => exact resetAssert_event cut s t taken
  case resetRelease => exact resetRelease_event s t taken
  case powerOn cut => exact powerOn_event cut s t taken
  case powerLoss cut => exact powerLoss_event cut s t taken
  case leaseExpiry i =>
    change execLeaseExpiry i s = _ at taken
    unfold execLeaseExpiry at taken
    split at taken
    · next old => cases taken; exact .act <| .leaseExpiry i old
    · cases taken; exact .nothing _
  case flashOpTimeout cut =>
    change execFlashOpTimeout cut s = _ at taken
    unfold execFlashOpTimeout at taken
    split at taken
    · next op inFlight => cases taken; exact .act <| .timeout cut op inFlight
    · cases taken; exact .nothing _
  case choiceOfWork => cases taken; exact .act <| .choice
  case begunMarkCompletion w =>
    change execBegunMarkCompletion w s = _ at taken
    unfold execBegunMarkCompletion at taken
    split at taken
    · next work => cases taken; exact .act <| .completed _ w _ (by rw [work]; exact .begunMark _)
    · cases taken; exact .nothing _
  case lineProgramCompletion w =>
    change execLineProgramCompletion w s = _ at taken
    unfold execLineProgramCompletion at taken
    split at taken
    · next work => cases taken; exact .act <| .completed _ w _ (by rw [work]; exact .line _ _)
    · cases taken; exact .nothing _
  case dataStampCompletion w =>
    change execDataStampCompletion w s = _ at taken
    unfold execDataStampCompletion at taken
    split at taken
    · next work => cases taken; exact .act <| .completed _ w _ (by rw [work]; exact .dataStamp _)
    · cases taken; exact .nothing _
  case retireMarkCompletion w => exact retireMark_event w s t taken
  case failureHandoff => cases taken; exact .act <| .failure
  case boundaryHandoff => exact .act (.boundary taken)
  case unwindRequest =>
    change execUnwindRequest s = _ at taken
    unfold execUnwindRequest at taken
    split at taken
    · cases taken; exact .nothing _
    · next i asked => cases taken; exact .act <| .unwindRequest i asked
  case voidCompletion w =>
    change execVoidCompletion w s = _ at taken
    unfold execVoidCompletion at taken
    split at taken
    · next work => cases taken; exact .act <| .completed _ w _ (by rw [work]; exact .void _ _ _)
    · cases taken; exact .nothing _
  case flip =>
    change execFlip s = _ at taken
    unfold execFlip at taken
    split at taken
    · next r work free => cases taken; exact .act <| .flip r work free
    · cases taken; exact .nothing _
  case windowsTableReload =>
    change execWindowsTableReload s = _ at taken
    unfold execWindowsTableReload at taken
    split at taken
    · next w flip =>
      split at taken
      · next due => cases taken; exact .act <| .reload w flip due
      · cases taken; exact .nothing _
    · cases taken; exact .nothing _
  case revocation =>
    change execRevocation s = _ at taken
    unfold execRevocation at taken
    split at taken
    · next w flip =>
      split at taken
      · next due => cases taken; exact .act <| .revocation w flip due
      · cases taken; exact .nothing _
    · cases taken; exact .nothing _
  case flipEndOfSession =>
    change execFlipEndOfSession s = _ at taken
    unfold execFlipEndOfSession at taken
    split at taken
    · next w flip =>
      split at taken
      · next due =>
        rw [Bool.and_eq_true, Bool.not_eq_true'] at due
        cases taken; exact .act <| .sessionEnd w flip due.1 due.2
      · cases taken; exact .nothing _
    · cases taken; exact .nothing _
  case flipNoticeHandoff =>
    change execFlipNoticeHandoff s = _ at taken
    unfold execFlipNoticeHandoff at taken
    split at taken
    · next w flip =>
      split at taken
      · next due =>
        rw [Bool.and_eq_true, Bool.not_eq_true'] at due
        cases taken; exact .act <| .notices w flip due.1 due.2
      · cases taken; exact .nothing _
    · cases taken; exact .nothing _
  case eraseCompletion w =>
    change execEraseCompletion w s = _ at taken
    unfold execEraseCompletion at taken
    split at taken
    · next work => cases taken; exact .act <| .completed _ w _ (by rw [work]; exact .erase _)
    · cases taken; exact .nothing _
  case freeStampCompletion w =>
    change execFreeStampCompletion w s = _ at taken
    unfold execFreeStampCompletion at taken
    split at taken
    · next work => cases taken; exact .act <| .completed _ w _ (by rw [work]; exact .freeStamp _)
    · cases taken; exact .nothing _
  case mountBlockScan =>
    change execMountBlockScan s = _ at taken
    unfold execMountBlockScan at taken
    split at taken
    · next below =>
      split at taken
      · next runs => cases taken; exact .act <| .scan below runs.2
      · cases taken; exact .nothing _
    · cases taken; exact .nothing _
  case mountTableBuild =>
    change execMountTableBuild s = _ at taken
    unfold execMountTableBuild at taken
    split at taken
    · next runs => cases taken; exact .act <| .build runs.1 runs.2.1 runs.2.2
    · cases taken; exact .nothing _
  case windowsTableLoad =>
    change execWindowsTableLoad s = _ at taken
    unfold execWindowsTableLoad at taken
    split at taken
    · next runs => cases taken; exact .act <| .load runs.2
    · cases taken; exact .nothing _
  case mountVoidCompletion w => exact mountVoid_event w s t taken
  case replyByteDelivery r => cases taken; exact .run r
  all_goals exact .request rfl taken

/-- A step is an event on the state with the queue's rest, or, on an empty queue, nothing. -/
theorem step_event {s t : State} (taken : step s = .next t) :
    (s.pending = [] ∧ t = s) ∨ ∃ c rest, s.pending = c :: rest ∧ Event { s with pending := rest } c t := by
  rcases Laws.step_cases taken with idle | ⟨c, rest, front, run⟩
  · exact .inl idle
  · exact .inr ⟨c, rest, front, exec_event c _ t run⟩

end Sys2Proof.Proofs.Events

/-! The laws that `Kept` gathers, kept by every event and so by every step (O56). -/

namespace Sys2Proof.Proofs.KeptEvents

open Sys2Proof Sys2Proof.Machine Sys2Proof.Laws Sys2Proof.Proofs.Events

/-- However a completion is taken, it makes a move of the engine. -/
theorem completion_move {w : Work} {next : Bool → State → State} (h : Completion w next) (ok : Bool) (t : State) :
    EngineMove t (next ok t) := by
  cases h with
  | begunMark r => exact begunMarkEnded_move t r ok
  | line r k => exact lineEnded_move t r k ok
  | dataStamp r => exact dataStampEnded_move t r ok
  | void u b n => exact unwindVoidEnded_move t u b n ok
  | erase b => exact eraseEnded_move t b ok
  | freeStamp b => exact freeStampEnded_move t b ok
  | mountVoid b rest n => exact mountVoidEnded_move t b rest n ok
  | retire _ _ => exact retireEnded_move t ok

theorem boundary_move (s t : State) (taken : execBoundaryHandoff s = .next t) : EngineMove s t := by
  unfold execBoundaryHandoff at taken
  split at taken
  · next r _ =>
    simp only at taken
    split at taken
    · next programming =>
      cases taken
      refine EngineMove.trans ?_ (setWork_move _ _)
      exact session_move s r.session _ (by simp [programming]) (by simp [programming])
        (.holding _ _ _ (by simp [programming, SessionState.holds]) (by simp [programming, SessionState.holds])
          rfl rfl (.inl rfl))
    · cases taken; exact startUnwind_move s r
  · cases taken; exact .refl s

theorem mount_kept (s : State) (m : Mount) : Kept s { s with mount := m } :=
  ⟨id, id, id, id, fun _ => id, id, id, id, id, id, id, id⟩

/-- The windows table and TABLE_FAULT concern none of these laws. -/
theorem table_kept (s : State) (table : WindowsTable) (fault : Bool) :
    Kept s { s with prot := { s.prot with table := table, tableFault := fault } } :=
  ⟨id, id, id, id, fun _ => id, id, id, id, id, id, id, id⟩

theorem offerTable_kept (s : State) (n : Nat) (writer : PortId) : Kept s (s.offerTable n writer).refreshAlerts := by
  obtain ⟨only, took⟩ := offerTable_spec s n writer
  refine notices_kept only fun q ok => ?_
  rw [took]
  split
  · exact offer_ok _ _ ok
  · exact ok

theorem offerFlip_kept (s : State) (n : Nat) (writer : PortId) (pages : List PageId) :
    Kept s (s.offerFlip n writer pages).refreshAlerts := by
  obtain ⟨only, took⟩ := offerFlip_spec s n writer pages
  refine notices_kept only fun q ok => ?_
  obtain ⟨same, all⟩ := took q
  by_cases silent : q = writer ∨ (s.port q).prstLow = true
  · rw [same silent]; exact ok
  · push Not at silent
    exact tookAll_ok (all silent.1 (by simpa using silent.2)) ok

theorem scanBlock_kept (s : State) (b : BlockId) : Kept s (s.scanBlock b) := by
  unfold State.scanBlock
  refine Kept.trans ?_ (mount_kept _ _)
  unfold State.placeRow
  split
  · exact .ofBm s _ fun _ => refresh_space _
  · exact .ofBm s _ fun _ => refresh_space _
  · exact .ofBm s _ fun _ => refresh_space _
  · exact .ofBm s _ fun _ => refresh_space _
  · exact .ofBm s _ fun space => space
  · exact mount_kept s _

/-- A failure that the Session Unit takes ends no session, so that ALERT_n stands as it is (R49). -/
theorem takePending_kept (s : State) : Kept s { s with ses := s.ses.takePending } := by
  unfold SessionUnit.takePending
  split
  · next f _ =>
    refine Kept.trans (t := { s with ses := s.ses.takeFailure f.session f.reason }) ?_ (.ofMove (hands_move _ none _))
    unfold SessionUnit.takeFailure
    split
    · next programming =>
      exact sessionRecord_kept f.session _ (by simp [programming]) (by simp)
        (.holding _ _ _ (by simp [programming, SessionState.holds]) rfl rfl rfl (.inl rfl))
    · exact .refl s
  · exact .refl s

theorem act_kept {s t : State} {c : Instr} (h : Act s c t) : Kept s t := by
  cases h with
  | portReset p => exact portReset_kept p s
  | cleared h => exact h.kept
  | power w => exact ⟨id, id, id, id, fun _ => id, id, id, id, id, id, id, id⟩
  | leaseExpiry i old => exact .ofMove (finishSession_move s i _ (by rw [old]; simp))
  | completed c w next h => exact completeOp_kept s w next fun ok t => completion_move h ok t
  | timeout cut op h => exact .ofMoveFlash _ (wf_flashCut s op cut) (opFailed_move _)
  | choice => exact .ofMove (choiceEvent_move s)
  | failure => exact takePending_kept s
  | boundary taken => exact .ofMove (boundary_move s t taken)
  | unwindRequest i h => exact .ofMove ((hands_move s s.ses.failure none).trans (takeUnwind_move _ i))
  | flip r work free =>
    exact (flipMembers_kept s r).trans (flipRest_kept _ _ _)
  | reload w flip due =>
    exact (table_kept s _ false).trans ((offerTable_kept _ _ _).trans (noteHandoff_kept _ _))
  | revocation w flip due =>
    refine (engine_kept (s.eng.withdrawDenied s.ses s.prot.table)).trans (Kept.trans ?_ (noteHandoff_kept _ _))
    exact sessionUnit_kept (s := { s with eng := s.eng.withdrawDenied s.ses s.prot.table }) _ (revoke_move s.ses s.prot.table)
  | sessionEnd w flip due loaded =>
    refine (sessionUnit_kept _ ?_).trans (noteHandoff_kept _ _)
    split
    · next programming => exact endSession_move _ _ _ (by rw [programming]; simp)
    · exact .refl _
  | notices w flip due loaded => exact (offerFlip_kept s _ _ _).trans (noteHandoff_kept _ _)
  | scan h stage => exact scanBlock_kept s _
  | build runs stage scanned => exact buildTables_kept s
  | load stage =>
    refine Kept.trans ?_ (.ofMove (mountVoidNext_move _ _))
    exact ⟨id, id, id, id, fun _ => id, id, id, id, id, id, id, id⟩

/-- Every event keeps the laws. -/
theorem event_kept {s t : State} {c : Instr} (h : Event s c t) : Kept s t := by
  cases h with
  | nothing => exact .refl s
  | request port taken => exact request_kept _ _ s t port taken
  | csFall p high =>
    refine .ofPort s p _ rfl id fun ok => ?_
    exact ⟨fun low => (nomatch low), fun _ => rfl, takenOk_none⟩
  | csRise p => exact risen_kept p s
  | nextPage p st phase stream =>
    exact (bits_kept s p _ _).trans (deliverPageEnd_kept _ p st (by rw [port_setPort]; exact phase))
  | streamEnd p st phase stream =>
    exact (bits_kept s p _ _).trans (deliverLast_kept _ p st (by rw [port_setPort]; exact phase))
  | run r => exact replyByte_kept r s _ rfl
  | prstFall p => exact .ofPort s p _ rfl id id
  | prstRise p =>
    refine .ofPort s p _ rfl id fun ok => ⟨fun high => ?_, fun request => ?_, ok.2.2⟩
    · obtain ⟨stream, status, level, decoder⟩ := ok.1 high
      refine ⟨stream, status, level, ?_⟩
      simp only
      split
      · exact .inl rfl
      · exact decoder
    · simp only at request
      split at request
      · cases request
      · exact ok.2.1 request
  | act h => exact act_kept h

theorem step_kept {s t : State} (taken : step s = .next t) : Kept s t := by
  rcases step_event taken with ⟨_, same⟩ | ⟨c, rest, _, event⟩
  · rw [same]; exact .refl s
  · have rest_kept : Kept s { s with pending := rest } := ⟨id, id, id, id, fun _ => id, id, id, id, id, id, id, id⟩
    exact rest_kept.trans (event_kept event)

/-- Settles O56: every event keeps the laws that `Kept` gathers, these three among them. -/
theorem flashAlertAndNoticeLawsKept : Obligations.FlashAlertAndNoticeLawsKept := by
  unfold Obligations.FlashAlertAndNoticeLawsKept
  intro s t taken
  have kept := step_kept taken
  exact ⟨kept.flash, kept.alert, kept.notice⟩

end Sys2Proof.Proofs.KeptEvents

/-! The events of a port's frame: together they change the frame, the pins, and what the owners of its requests answer. -/

namespace Sys2Proof.Proofs.Frames

open Sys2Proof Sys2Proof.Machine Sys2Proof.Laws Sys2Proof.Proofs.Events

/-- Only ports and pins changed. -/
structure Link (s t : State) : Prop where
  frame : t = { s with bm := t.bm, ports := t.ports }
  lists : t.bm = { s.bm with table := t.bm.table }
  classes : ∀ b, (t.bm.block b).map (fun r => (r.cls, r.eraseCount)) = (s.bm.block b).map (fun r => (r.cls, r.eraseCount))

theorem Link.refl (s : State) : Link s s := ⟨rfl, rfl, fun _ => rfl⟩

theorem Link.trans {s t u : State} (h : Link s t) (k : Link t u) : Link s u :=
  ⟨by rw [k.frame, h.frame], by rw [k.lists, h.lists], fun b => (k.classes b).trans (h.classes b)⟩

theorem link_port (s : State) (p : PortId) (r : Port) : Link s (s.setPort p r) := ⟨rfl, rfl, fun _ => rfl⟩

theorem link_pins (s : State) (bm : BlockManager) {down up : Option BlockId} (h : s.bm.PinsMoved bm down up) :
    Link s { s with bm := bm } := by
  refine ⟨rfl, h.1, fun b => ?_⟩
  rw [h.2]
  cases s.bm.block b <;> rfl

theorem link_endStream (s : State) (p : PortId) : Link s (s.endStream p) :=
  (link_pins s _ (pins_unpinPage s.bm (streamPin (s.port p).stream))).trans (link_port _ p _)

theorem link_translate (s : State) (page : PageId) : Link s (s.translate page) :=
  link_pins s _ (pins_pinPage s.bm (s.map.currentBlock page))

theorem link_deliverLast (s : State) (p : PortId) (st : Stream) : Link s (s.deliverLast p st) :=
  (link_endStream s p).trans (link_port _ p _)

theorem link_deliverPageEnd (s : State) (p : PortId) (st : Stream) : Link s (s.deliverPageEnd p st) := by
  unfold State.deliverPageEnd
  split
  · exact ((link_pins s _ (pins_unpinPage s.bm st.pinned)).trans (link_translate _ _)).trans (link_port _ p _)
  · exact .refl s

theorem link_deliverData (s : State) (p : PortId) (st : Stream) : Link s (s.deliverData p st) := by
  unfold State.deliverData
  split
  · exact link_deliverLast s p st
  · split
    · exact link_deliverPageEnd s p st
    · exact link_port s p _

theorem link_deliverByte (s : State) (p : PortId) : Link s (s.deliverByte p) := by
  unfold State.deliverByte
  simp only
  split
  · exact .refl s
  · exact .refl s
  · exact link_port s p _
  · exact link_port s p _
  · exact link_port s p _
  · split
    · exact .refl s
    · exact link_port s p _
  · split
    · exact link_deliverData s p _
    · exact .refl s

theorem link_gatherStatus (s : State) (p : PortId) (owners : List StatusOwner) : Link s (s.gatherStatus p owners) := by
  rcases gatherStatus_cases s p owners with same | ⟨_, _, _, _, taken⟩
  · rw [same]; exact .refl s
  · rw [taken]; exact link_port s p _

theorem link_createStream (s : State) (p : PortId) (start length : Nat) : Link s (s.createStream p start length) := by
  unfold State.createStream
  simp only
  split
  · exact (link_translate s _).trans (link_port _ p _)
  · exact .refl s

/-- What a frame does to the part, step by step: to its port and the pins, or by a request that is taken. -/
inductive Talk : State → State → Prop where
  | refl (s : State) : Talk s s
  | trans {s t u : State} : Talk s t → Talk t u → Talk s u
  | link {s t : State} : Link s t → Talk s t
  | answered {s t : State} (p : PortId) : Answered s p t → Talk s t

theorem talk_taken {s t : State} {p : PortId} (h : Taken s p t) : Talk s t := by
  obtain ⟨_, a, params, answered, rfl⟩ := h
  exact .trans (.answered p answered) (.link (link_port _ p _))

theorem talk_request {s t : State} {c : Instr} {p : PortId} (port : c.requestPort = some p) (taken : exec c s = .next t) :
    Talk s t := by
  rcases request_cases c p s t port taken with same | done
  · rw [same]; exact .refl s
  · exact talk_taken done

theorem talk_edge {p : PortId} {s t : State} (h : EdgeMove p s t) : Talk s t := by
  cases h with
  | gather received request bits high count => exact .link (link_port s p _)
  | deliver => exact .link (link_deliverByte s p)
  | status owners => exact .link (link_gatherStatus s p owners)
  | request _ c port taken => exact talk_request port taken

theorem talk_run (s : State) (r : SckRun) :
    Talk s ((r.edges.foldl (State.sckEdge r.port) s).gatherStatus r.port r.gather) := by
  have moves := run_moves s r
  generalize (r.edges.foldl (State.sckEdge r.port) s).gatherStatus r.port r.gather = t at moves ⊢
  induction moves with
  | refl => exact .refl s
  | tail _ move ih => exact ih.trans (talk_edge move)

/-- An event is of a port's frame, or one of the other events. -/
theorem event_talk {s t : State} {c : Instr} (h : Event s c t) : Talk s t ∨ Act s c t := by
  cases h with
  | act h => exact .inr h
  | nothing => exact .inl (.refl s)
  | request port taken => exact .inl (talk_request port taken)
  | csFall p high => exact .inl (.link (link_port s p _))
  | csRise p => exact .inl (.link ((link_endStream s p).trans (link_port _ p _)))
  | nextPage p st phase stream => exact .inl (.link ((link_port s p _).trans (link_deliverPageEnd _ p st)))
  | streamEnd p st phase stream => exact .inl (.link ((link_port s p _).trans (link_deliverLast _ p st)))
  | run r => exact .inl (talk_run s r)
  | prstFall p => exact .inl (.link (link_port s p _))
  | prstRise p => exact .inl (.link (link_port s p _))

/-- A property of the state that ports, pins and requests keep is kept by whatever a frame does. -/
theorem Talk.keeps {P : State → Prop} {s t : State} (h : Talk s t) (link : ∀ s t, Link s t → P s → P t)
    (answered : ∀ s t p, Answered s p t → P s → P t) (start : P s) : P t := by
  induction h with
  | refl s => exact start
  | trans _ _ ih ih' => exact ih' (ih start)
  | link h => exact link _ _ h start
  | answered p h => exact answered _ _ p h start

/-- A property that the frames, the other events and the queue's rest keep is kept by every step. -/
theorem step_keeps {P : State → Prop} {s t : State} (taken : step s = .next t)
    (rest : ∀ (s : State) (l : List Instr), P s → P { s with pending := l })
    (talk : ∀ s t, Talk s t → P s → P t) (act : ∀ s t c, Act s c t → P s → P t) (start : P s) : P t := by
  rcases step_event taken with ⟨_, same⟩ | ⟨c, l, _, event⟩
  · rw [same]; exact start
  · rcases event_talk event with t | a
    · exact talk _ _ t (rest s l start)
    · exact act _ _ c a (rest s l start)

/-! ### What leaves the blocks, the map, the array, the mount and the engine's work as they are -/

/-- Nothing of the array, the map, the mount, the engine's work and the classes, counts and lists of the blocks changed. -/
structure Steady (s t : State) : Prop where
  flash : t.flash = s.flash
  map : t.map = s.map
  mount : t.mount = s.mount
  work : t.eng.work = s.eng.work
  markFault : t.eng.markFault = s.eng.markFault
  lists : t.bm = { s.bm with table := t.bm.table }
  classes : ∀ b, (t.bm.block b).map (fun r => (r.cls, r.eraseCount)) = (s.bm.block b).map (fun r => (r.cls, r.eraseCount))

theorem Link.steady {s t : State} (h : Link s t) : Steady s t := by
  refine ⟨?_, ?_, ?_, ?_, ?_, h.lists, h.classes⟩ <;> rw [h.frame]

/-- READ touches the frame of its own port only. -/
theorem createStream_kept (s : State) (p : PortId) (start length : Nat) : RequestKept p s (s.createStream p start length) := by
  have link := link_createStream s p start length
  constructor
  case bm => exact link.lists
  case classes => exact link.classes
  case others =>
    intro q other
    unfold State.createStream
    split
    · exact ⟨by simp only; rw [port_setPort_ne _ _ _ _ other]; rfl, rfl⟩
    · exact ⟨rfl, rfl⟩
  all_goals rw [link.frame]

/-- What no request changes (R162, R166), said of what its owner leaves. -/
theorem answered_kept {s t : State} {p : PortId} (h : Answered s p t) : RequestKept p s t := by
  cases h with
  | same => exact .refl p s
  | stream start length ready => exact createStream_kept s p start length
  | status => exact setPort_kept p s _
  | lease units => exact setPort_kept p s _
  | watch n => exact setNotice_kept p s n
  | fetched n => exact refresh_kept p s _ (setNotice_kept p s n)
  | frozen => exact ses_kept p s s.ses s.eng.queue s.eng.start true
  | opened pages i some few distinct free => exact ses_kept p s _ s.eng.queue s.eng.start s.prot.frozen
  | record i r old new members owner => exact ses_kept p s _ s.eng.queue s.eng.start s.prot.frozen
  | queued i old own => exact ses_kept p s _ _ s.eng.start s.prot.frozen
  | abandoned i old => exact refresh_kept p s _ (ses_kept p s _ _ _ s.prot.frozen)
  | unwinding i old before => exact ses_kept p s _ s.eng.queue s.eng.start s.prot.frozen
  | collected i old => exact refresh_kept p s _ (ses_kept p s _ s.eng.queue s.eng.start s.prot.frozen)

/-- A request that its port's owner takes keeps what no request changes. -/
theorem request_leaves {c : Instr} {p : PortId} {s t : State} (port : c.requestPort = some p) (taken : exec c s = .next t) :
    RequestKept p s t := by
  rcases request_cases c p s t port taken with same | ⟨_, a, params, answered, done⟩
  · rw [same]; exact .refl p s
  · rw [done]; exact taken_kept p s a params (answered_kept answered)

/-- Settles O4: by the cases of a request, each of which keeps the rest of the part (`RequestKept`). -/
theorem requestsLeaveTheRest : Obligations.RequestsLeaveTheRest := by
  unfold Obligations.RequestsLeaveTheRest
  intro c p s t port taken
  obtain ⟨flash, map, mount, power, pending, work, pointer, markFault, table, tableFault, bm, classes, others⟩ :=
    request_leaves port taken
  exact ⟨flash, map, mount, power, pending, work, pointer, markFault, table, tableFault, bm, classes, others⟩

theorem RequestKept.steady {p : PortId} {s t : State} (h : RequestKept p s t) : Steady s t :=
  ⟨h.flash, h.map, h.mount, h.work, h.markFault, h.bm, h.classes⟩

end Sys2Proof.Proofs.Frames

/-! The session laws of a step (O57): `Kept` has claims, buffers, FROZEN and attachment; the lists of the engine queue and the session
in the engine are kept event by event here. -/

namespace Sys2Proof.Proofs.SessionLaws

open Sys2Proof Sys2Proof.Machine Sys2Proof.Laws Sys2Proof.Proofs.Events Sys2Proof.Proofs.Frames Sys2Proof.Proofs.KeptEvents

/-! ### The engine queue (R66) -/

theorem link_queue (s t : State) (h : Link s t) (law : s.QueueLaw) : t.QueueLaw := by
  rw [h.frame]; exact law

theorem answered_queue (s t : State) (p : PortId) (h : Answered s p t) (law : s.QueueLaw) : t.QueueLaw := by
  cases h with
  | same => exact law
  | stream start length _ => exact link_queue s _ (link_createStream s p start length) law
  | status => exact law
  | lease units => exact law
  | watch n => exact law
  | fetched n => exact law
  | frozen => exact law
  | opened pages i some few distinct free =>
    exact queue_ses s _ (sameQueued_set s.ses i _ (by simp [free]) (by simp [openedSession])) law
  | record i r old new members owner =>
    exact queue_ses s _ (sameQueued_set s.ses i r (by simp [old]) (by simp [new])) law
  | queued i old own => exact queue_enqueue s p i _ law old own rfl rfl
  | abandoned i old => exact queue_finish s i _ law
  | unwinding i old before =>
    exact queue_ses s _ (sameQueued_set s.ses i _ (by simp [old]) (by simp)) law
  | collected i old => exact queue_ses s _ (sameQueued_release s.ses i (by simp [old])) law

theorem completion_queue {w : Work} {next : Bool → State → State} (h : Completion w next) (ok : Bool) (t : State)
    (law : t.QueueLaw) : (next ok t).QueueLaw := by
  cases h with
  | begunMark r => exact (begunMarkEnded_aside t r ok).law law
  | line r k => exact (lineEnded_aside t r k ok).law law
  | dataStamp r => exact (dataStampEnded_aside t r ok).law law
  | void u b n => exact (unwindVoidEnded_aside t u b n ok).law law
  | erase b => exact (eraseEnded_aside t b ok).law law
  | freeStamp b => exact (freeStampEnded_aside t b ok).law law
  | mountVoid b rest n => exact queue_mountVoidEnded t b rest n ok law
  | retire _ _ => exact queue_retireEnded t ok law

theorem boundary_aside (s t : State) (taken : execBoundaryHandoff s = .next t) : Aside s t := by
  unfold execBoundaryHandoff at taken
  split at taken
  · simp only at taken
    split at taken
    · next programming =>
      cases taken
      exact ⟨sameQueued_set s.ses _ _ (by simp [programming]) (by simp [programming]), rfl, rfl⟩
    · cases taken; exact startUnwind_aside s _
  · cases taken; exact .refl s

/-- The hand-offs of a flip that concern no session leave the sessions, the lists and the start hand-off. -/
theorem noteHandoff_aside (s : State) (w : FlipWork) : Aside s (s.noteHandoff w) := by
  refine ⟨.refl _, ?_, ?_⟩ <;> (unfold State.noteHandoff Engine.takeReport; simp only; split <;> [split; skip] <;> rfl)

theorem flipMember_frame (r : CommitRec) (s : State) (m : Nat) :
    State.flipMember r s m = { s with bm := (State.flipMember r s m).bm, map := (State.flipMember r s m).map } := by
  unfold State.flipMember
  split <;> rfl

theorem flipMembers_frame (s : State) (r : CommitRec) :
    s.flipMembers r = { s with bm := (s.flipMembers r).bm, map := (s.flipMembers r).map } := by
  unfold State.flipMembers
  generalize List.range r.pages.length = members
  induction members generalizing s with
  | nil => rfl
  | cons m rest ih =>
    rw [List.foldl_cons, ih, flipMember_frame]

theorem scanBlock_frame (s : State) (b : BlockId) :
    s.scanBlock b = { s with bm := (s.scanBlock b).bm, mount := (s.scanBlock b).mount } := by
  unfold State.scanBlock State.placeRow
  simp only
  split <;> rfl

theorem buildTables_frame (s : State) : ∃ (bm : BlockManager) (map : MapUnit) (mount : Mount),
    s.buildTables = { s with bm := bm, map := map, mount := mount } ∧ map.flip = s.map.flip := by
  unfold State.buildTables MapUnit.built
  exact ⟨_, _, _, rfl, rfl⟩

theorem act_queue (s t : State) (c : Instr) (h : Act s c t) (law : s.QueueLaw) : t.QueueLaw := by
  cases h with
  | portReset p => exact queue_portReset s p law
  | cleared h =>
    obtain ⟨fault, eng⟩ := h.eng
    exact queue_reset t h.ses fault eng
  | power w => exact law
  | leaseExpiry i old => exact queue_finish s i _ law
  | completed c w next h => exact queue_completeOp s w next (fun ok t => completion_queue h ok t) law
  | timeout cut op h => exact queue_opFailed _ law
  | choice => exact queue_choiceEvent s law
  | failure => exact queue_ses s _ (takePending_aside s.ses) law
  | boundary taken => exact (boundary_aside s t taken).law law
  | unwindRequest i h =>
    refine (takeUnwind_aside _ i).law ?_
    exact law
  | flip r work free =>
    rw [flipMembers_frame]; exact law
  | reload w flip due =>
    refine (noteHandoff_aside _ _).law ?_
    rw [(offerTable_spec _ _ _).1.frame]; exact law
  | revocation w flip due =>
    have withdrawn := queue_revoke s s.prot.table law
    generalize s.ses.revoke s.prot.table = ses at withdrawn ⊢
    exact (noteHandoff_aside _ _).law withdrawn
  | sessionEnd w flip due loaded =>
    refine (noteHandoff_aside _ _).law (queue_ses s _ ?_ law)
    split
    · next programming => exact sameQueued_end s.ses _ _ (by simp [programming])
    · exact .refl _
  | notices w flip due loaded =>
    refine (noteHandoff_aside _ _).law ?_
    rw [(offerFlip_spec _ _ _ _).1.frame]; exact law
  | scan h stage => rw [scanBlock_frame]; exact law
  | build runs stage scanned =>
    obtain ⟨bm, map, mount, built, _⟩ := buildTables_frame s
    rw [built]; exact law
  | load stage =>
    refine queue_mountVoidNext _ _ ?_
    exact law

/-! ### The session in the engine (R36, R64) -/

theorem link_engine (s t : State) (h : Link s t) (law : s.EngineLaw) : t.EngineLaw := by
  rw [h.frame]; exact law

theorem answered_engine (s t : State) (p : PortId) (h : Answered s p t) (law : s.EngineLaw) : t.EngineLaw := by
  have ok := (engineLaw_iff s).1 law
  cases h with
  | same => exact law
  | stream start length _ => exact link_engine s _ (link_createStream s p start length) law
  | status => exact law
  | lease units => exact law
  | watch n => exact law
  | fetched n => exact law
  | frozen => exact law
  | opened pages i some few distinct free =>
    exact (engineLaw_iff _).2 (engine_claims (u := s.ses.setSession i _) rfl rfl rfl
      (engine_set i _ (by simp [InEng, free]) (by simp [openedSession]) ok))
  | record i r old new members owner =>
    exact (engineLaw_iff _).2 (engine_set i r (by simp [InEng, old]) (by simp [new]) ok)
  | queued i old own =>
    exact (engineLaw_iff _).2 (engine_set i _ (by simp [InEng, old]) (by simp) ok)
  | abandoned i old =>
    exact engine_finishSession s i _ (by rcases old with old | old <;> simp [InEng, old]) law
  | unwinding i old before => exact abort_engine s i _ law old before
  | collected i old =>
    exact (engineLaw_iff _).2 (engine_release i (by simp [InEng, old]) ok)

theorem completion_engine {w : Work} {next : Bool → State → State} (h : Completion w next) (ok : Bool) (t : State)
    (law : t.EngineLaw) (work : t.eng.work = w) : (next ok t).EngineLaw := by
  have engine := (engineLaw_iff t).1 law
  rw [work] at engine
  cases h with
  | begunMark r => exact begunMarkEnded_engine t r ok (engine.base (by simp)) (engine.commit r _ rfl (by simp)).1
  | line r k => exact lineEnded_engine t r k ok (engine.base (by simp)) (engine.commit r _ rfl (by simp)).1
  | dataStamp r =>
    obtain ⟨session, handed⟩ := engine.commit r _ rfl (by simp)
    exact dataStampEnded_engine t r ok (engine.base (by simp)) session handed
  | void u b n => exact unwindVoidEnded_engine t u b n ok engine.unwindBase
  | erase b => exact eraseEnded_engine t b ok law (by rw [work]; rfl)
  | freeStamp b => exact freeStampEnded_engine t b ok law (by rw [work]; rfl)
  | mountVoid b rest n => exact mountVoidEnded_engine t b rest n ok law (by rw [work]; rfl)
  | retire _ _ => exact retireEnded_engine t ok law

/-- A hand-off of a flip that leaves the sessions, as far as the engine is concerned, and the end of session still due or taken. -/
theorem handoff_engine {s : State} {w w' : FlipWork} (law : s.EngineLaw) (flip : s.map.flip = some w)
    (t : State) (work : t.eng.work = s.eng.work) (map : t.map = s.map) (ok : EngineOk t.ses s.eng.work s.map.flip)
    (others : w.reloadDue = false → w.revocationDue = false → w'.reloadDue = false ∧ w'.revocationDue = false)
    (session : w'.session = w.session) (due : w'.sessionEndDue = w.sessionEndDue) : (t.noteHandoff w').EngineLaw := by
  have engine := (engineLaw_iff s).1 law
  refine noteHandoff_engine s w w' t.ses t.eng law flip session work (fun other => ?_) (fun r taken => ?_) _ ⟨rfl, ?_, ?_⟩
  · obtain ⟨reload, revocation, ends⟩ := engine.reported w flip other
    obtain ⟨reload', revocation'⟩ := others reload revocation
    exact ⟨reload', revocation', due.trans ends, ok⟩
  · rw [taken] at ok
    obtain ⟨f, flip', _, _, dueState, overState⟩ := ok.taken r rfl
    rw [flip] at flip'
    cases flip'
    refine ⟨fun j inside => (Option.some.inj (ok.only j inside)).symm, ?_, ok.request, ?_, ?_⟩
    · cases failure : t.ses.failure with
      | none => rfl
      | some f => obtain ⟨x, step, unwinding, _⟩ := ok.failure f failure; cases unwinding
    · rw [due]; exact dueState
    · rw [due]; exact overState
  · show { t.map with flip := w'.rest } = _
    rw [map]
  · unfold State.noteHandoff
    simp only
    split <;> rfl

/-- The session that the engine waits for leaves the engine when it ends. -/
theorem endSession_leaves {u : SessionUnit} {r : CommitRec} {flip : Option FlipWork}
    (ok : EngineOk u (.commit r .flipTaken) flip) (programming : (u.session r.session).state = .programming)
    (o : SessionOutcome) :
    (∀ j, InEng (u.endSession r.session o) j → j = r.session) ∧ (u.endSession r.session o).failure = none
    ∧ (∀ j, (u.endSession r.session o).unwindRequest = some j →
        ((u.endSession r.session o).session j).state = .unwinding)
    ∧ ¬ InEng (u.endSession r.session o) r.session := by
  obtain ⟨ended, same, _, failure, request⟩ := endSession_ends u r.session o
  refine ⟨fun j inside => ?_, ?_, fun j asked => ?_, ?_⟩
  · by_contra other
    unfold InEng at inside
    rw [same j other] at inside
    exact other (Option.some.inj (ok.only j inside)).symm
  · rw [failure]
    cases pending : u.failure with
    | none => rfl
    | some f => obtain ⟨x, step, unwinding, _⟩ := ok.failure f pending; cases unwinding
  · rw [request] at asked
    have unwinding := ok.request j asked
    have other : j ≠ r.session := by
      rintro rfl
      rw [programming] at unwinding; cases unwinding
    rw [same j other]; exact unwinding
  · unfold InEng
    rw [ended]
    split <;> simp [Session.finishedAs, Session.freeSlot]

/-- The end of session of a flip ends the session that the engine waits for (R50, R86). -/
theorem sessionEnd_engine (s : State) (w : FlipWork) (flip : s.map.flip = some w) (due : w.sessionEndDue = true)
    (law : s.EngineLaw) : (State.noteHandoff (State.refreshAlerts { s with
      ses := if (s.ses.session w.session).state = .programming then s.ses.endSession w.session (.done w.serial)
             else s.ses }) { w with sessionEndDue := false }).EngineLaw := by
  have engine := (engineLaw_iff s).1 law
  refine noteHandoff_engine s w { w with sessionEndDue := false } _ s.eng law flip rfl rfl (fun other => ?_)
    (fun r taken => ?_) _ ⟨rfl, rfl, ?_⟩
  · obtain ⟨_, _, ends⟩ := engine.reported w flip other
    rw [due] at ends; cases ends
  · obtain ⟨f, flip', session, _, dueState, _⟩ := engine.taken r taken
    rw [flip] at flip'
    cases flip'
    obtain ⟨programming, _⟩ := dueState due
    rw [taken] at engine
    rw [session, if_pos programming]
    obtain ⟨only, failure, request, out⟩ := endSession_leaves engine programming (.done w.serial)
    exact ⟨only, failure, request, fun k => (nomatch k), fun _ => out⟩
  · unfold State.noteHandoff
    simp only
    split <;> rfl

theorem act_engine (s t : State) (c : Instr) (h : Act s c t) (mountLaw : s.MountLaw) (law : s.EngineLaw) :
    t.EngineLaw := by
  have ok := (engineLaw_iff s).1 law
  cases h with
  | portReset p =>
    refine (engineLaw_iff _).2 ?_
    rw [portReset_ses, portReset_eng, portReset_map]
    exact engine_portReset p ok
  | cleared h =>
    obtain ⟨fault, eng⟩ := h.eng
    exact engine_reset t h.map h.ses fault eng
  | power w => exact law
  | leaseExpiry i old => exact engine_finishSession s i _ (by simp [InEng, old]) law
  | completed c w next h =>
    exact completeOp_engine s w next (fun ok t law work => completion_engine h ok t law work) law
  | timeout cut op h => exact opFailed_engine _ law
  | choice => exact choiceEvent_engine s law
  | failure => exact failureHandoff_engine s _ law rfl
  | boundary taken => exact boundaryHandoff_engine s t law taken
  | unwindRequest i h =>
    exact unwindRequest_engine s _ law (by unfold execUnwindRequest; rw [h])
  | flip r work free =>
    rw [flipMembers_frame]
    exact flip_engine s r _ _ r.flipWork law work rfl rfl rfl
  | reload w flip due =>
    have offer := (offerTable_spec { s with
      prot := { s.prot with table := reloadedTable (s.currentLine Config.windowsPage 0), tableFault := false } }
        w.serial w.writer).1.frame
    refine handoff_engine law flip _ ?_ ?_ ?_ (fun reload => ?_) rfl rfl
    · rw [offer]; rfl
    · rw [offer]; rfl
    · rw [offer]; exact ok
    · rw [due] at reload; cases reload
  | revocation w flip due =>
    have revoked := engine_revoke s.prot.table ok
    generalize s.ses.revoke s.prot.table = ses at revoked ⊢
    refine handoff_engine law flip _ rfl rfl ?_ (fun reload revocation => ?_) rfl rfl
    · exact revoked
    · rw [due] at revocation; cases revocation
  | sessionEnd w flip due loaded => exact sessionEnd_engine s w flip due law
  | notices w flip due loaded =>
    have offer := (offerFlip_spec s w.serial w.writer w.pages).1.frame
    refine handoff_engine law flip _ ?_ ?_ ?_ (fun reload revocation => ⟨reload, revocation⟩) rfl rfl
    · rw [offer]; rfl
    · rw [offer]; rfl
    · rw [offer]; exact ok
  | scan h stage => rw [scanBlock_frame]; exact law
  | build runs stage scanned =>
    obtain ⟨bm, map, mount, built, flip⟩ := buildTables_frame s
    rw [built, engineLaw_iff]
    simp only [flip]; exact ok
  | load stage =>
    have idle : s.eng.work = .idle := mountLaw.2.1 (.inr stage)
    refine mountVoidNext_engine _ _ ?_ (by simp only [idle]; rfl)
    exact law

/-! ### Every step -/

theorem step_queue {s t : State} (taken : step s = .next t) (law : s.QueueLaw) : t.QueueLaw :=
  step_keeps taken (fun _ _ law => law) (fun _ _ talk law => talk.keeps link_queue answered_queue law) act_queue law

theorem step_engine {s t : State} (taken : step s = .next t) (mountLaw : s.MountLaw) (law : s.EngineLaw) :
    t.EngineLaw := by
  rcases step_event taken with ⟨_, same⟩ | ⟨c, rest, _, event⟩
  · rw [same]; exact law
  · rcases event_talk event with talk | act
    · exact talk.keeps link_engine answered_engine law
    · exact act_engine _ _ c act mountLaw law

/-- At most one session is in PROGRAMMING or UNWINDING: the one that the engine holds the record of (R36, R64). -/
theorem inEngine_unique {s : State} (law : s.EngineLaw) {i j : SessionId} (inside : s.InEngine i ∧ s.InEngine j) :
    i = j := by
  have held := law.1 i inside.1
  rw [law.1 j inside.2] at held
  exact (Option.some.inj held).symm

/-- Settles O57: the session laws of `Kept`, and the engine queue and the session in the engine, event by event. -/
theorem sessionLawsKept : Obligations.SessionLawsKept := by
  unfold Obligations.SessionLawsKept
  intro s t taken
  have kept := step_kept taken
  refine ⟨kept.claim, kept.buffer, kept.freeze, kept.attach, fun _ mountLaw => ⟨step_queue taken, fun law => ?_⟩⟩
  have law' := step_engine taken mountLaw law
  refine ⟨law', fun i j inside => ?_⟩
  rcases inside with before | after
  · exact inEngine_unique law before
  · exact inEngine_unique law' after

end Sys2Proof.Proofs.SessionLaws

/-! The laws of the blocks, of the mount, of the mount's voiding (O60), of the Free Pool's order (O58) and of the pins (O59). `Kind`
says of each event which part of the Block Manager, the map and the mount it can touch; each law is then kept kind by kind. -/

namespace Sys2Proof.Proofs.BlockLaws

open Sys2Proof Sys2Proof.Machine Sys2Proof.Laws Sys2Proof.Proofs.Events Sys2Proof.Proofs.Frames Sys2Proof.Proofs.KeptEvents
open Sys2Proof.Proofs.SessionLaws

/-! ### Frames -/

theorem classOf_of_classes {bm bm' : BlockManager}
    (h : ∀ b, (bm'.block b).map (fun r => (r.cls, r.eraseCount)) = (bm.block b).map (fun r => (r.cls, r.eraseCount)))
    (b : BlockId) : bm'.classOf b = bm.classOf b ∧ bm'.eraseCount b = bm.eraseCount b := by
  have same := h b
  unfold BlockManager.classOf BlockManager.eraseCount
  cases new : bm'.block b with
  | none =>
    cases old : bm.block b with
    | none => exact ⟨rfl, rfl⟩
    | some r => rw [new, old] at same; cases same
  | some r' =>
    cases old : bm.block b with
    | none => rw [new, old] at same; cases same
    | some r =>
      rw [new, old] at same
      simp only [Option.map_some, Option.some.injEq, Prod.mk.injEq] at same
      exact ⟨by simp [same.1], by simp [same.2]⟩

theorem steady_quiet {s t : State} (h : Steady s t) (members : MembersOk s.ses → MembersOk t.ses) : Quiet s t :=
  ⟨fun b => (classOf_of_classes h.classes b).1, by rw [h.lists], by rw [h.lists], by rw [h.lists],
    fun q => by rw [h.map], h.mount, .inl h.work, members⟩

/-- The member lists of the sessions stay within R35, whatever a request's owner answers. -/
theorem answered_members {s t : State} {p : PortId} (h : Answered s p t) (ok : MembersOk s.ses) : MembersOk t.ses := by
  cases h with
  | same => exact ok
  | stream start length _ => rw [(link_createStream s p start length).frame]; exact ok
  | status => exact ok
  | lease units => exact ok
  | watch n => exact ok
  | fetched n => exact ok
  | frozen => exact ok
  | opened pages i some few distinct free =>
    exact members_setSession s.ses i _ ok distinct few fun _ => some
  | record i r old new members owner => exact members_same s i r members (by simp [old]) ok
  | queued i old own => exact members_same s i _ rfl (by simp [old]) ok
  | abandoned i old =>
    exact members_kept (.finish s.ses i _ (by rcases old with old | old <;> simp [old])) ok
  | unwinding i old before => exact members_same s i _ rfl (by simp [old]) ok
  | collected i old => exact members_kept (.release s.ses i) ok

theorem link_quiet {s t : State} (h : Link s t) : Quiet s t :=
  steady_quiet h.steady fun ok => by rw [h.frame]; exact ok

theorem answered_quiet {s t : State} {p : PortId} (h : Answered s p t) : Quiet s t :=
  steady_quiet (RequestKept.steady (answered_kept h)) (answered_members h)

/-! ### The other events -/

/-- The engine's own moves after the operation in flight, or at a choice of work or a hand-off. -/
structure Ends (s t : State) : Prop where
  noScan : s.mount.stage ≠ .scan
  noBuilt : s.mount.stage ≠ .built
  ends : ∃ m, EndsOk { s with flash := m } t
  ports : s.SamePorts t
  voids : WorkVoids s.eng.work → WorkVoids t.eng.work ∨ t.mount = s.mount.finish

/-- The blocks, the map's entries, the array and the mount are as they were; of the engine's work at most the wait for a flip has
ended. -/
structure Rested (s t : State) : Prop where
  bm : t.bm = s.bm
  pages : t.map.pages = s.map.pages
  still : Untouched s t
  work : t.eng.work = s.eng.work ∨ (∃ r, s.eng.work = .commit r .flipTaken) ∧ t.eng.work = .idle
  ports : s.SamePorts t
  members : MembersOk s.ses → MembersOk t.ses

/-- A change of the sessions, the ports, the protection, the notices and the pins of the part alone. -/
theorem rested_of {s t : State} (flash : t.flash = s.flash) (bm : t.bm = s.bm) (map : t.map = s.map) (mount : t.mount = s.mount)
    (eng : t.eng = s.eng) (ports : s.SamePorts t) (members : MembersOk s.ses → MembersOk t.ses) : Rested s t :=
  ⟨bm, by rw [map], .of s t flash (by rw [map]) eng mount bm, .inl (by rw [eng]), ports, members⟩

/-- The events of the engine: the end of the operation in flight, the choice of work, and two hand-offs. -/
inductive EngineEvent (s : State) : State → Prop where
  | completed (w : Written) (next : Bool → State → State) (h : Completion s.eng.work next) :
      EngineEvent s (s.completeOp w next)
  | timeout (cut : Cut) (op : FlashOp) (h : s.eng.work.inFlight = some op) :
      EngineEvent s { s with flash := s.flashCut op cut }.opFailed
  | choice : EngineEvent s s.choiceEvent
  | boundary {t : State} (taken : execBoundaryHandoff s = .next t) : EngineEvent s t
  | unwindRequest (i : SessionId) : EngineEvent s ({ s with ses := { s.ses with unwindRequest := none } }.takeUnwind i)

/-- What an event other than a frame's does to the blocks, the map, the mount and the engine's work. -/
inductive Kind (s : State) : State → Prop where
  | cleared {t : State} (h : Cleared s t) : Kind s t
  | engine {t : State} (h : EngineEvent s t) : Kind s t
  | rested {t : State} (h : Rested s t) : Kind s t
  | portReset (p : PortId) : Kind s (s.portReset p)
  | flip (r : CommitRec) (work : s.eng.work = .commit r .flipRequested) (x : Option FlipWork) :
      Kind s (State.setWork { s.flipMembers r with map := { (s.flipMembers r).map with flip := x } } (.commit r .flipTaken))
  | scan (h : s.mount.position < 512) (stage : s.mount.stage = .scan) : Kind s (s.scanBlock ⟨s.mount.position, h⟩)
  | build (stage : s.mount.stage = .scan) (scanned : 512 ≤ s.mount.position) : Kind s s.buildTables
  | load (stage : s.mount.stage = .built) (prot : Protection) :
      Kind s (State.mountVoidNext { s with prot := prot, mount := { s.mount with stage := .voiding, voidList := [] } }
        s.mount.voidList)

/-- An operation in flight has ended: the engine takes it as its sub-step says. -/
theorem completion_ends {w : Work} {next : Bool → State → State} (h : Completion w next) (ok : Bool) {t : State}
    (base : Base t) (work : t.eng.work = w) (holds : w.HoldsBlocks t.bm) :
    EndsOk t (next ok t) ∧ (WorkVoids w → WorkVoids (next ok t).eng.work ∨ (next ok t).mount = t.mount.finish) := by
  cases h with
  | begunMark r => exact ⟨begunMarkEnded_ok t base r (progOk_of holds (by simp)) ok, False.elim⟩
  | line r k => exact ⟨lineEnded_ok t base r (progOk_of holds (by simp)) k ok, False.elim⟩
  | dataStamp r => exact ⟨dataStampEnded_ok t base r (progOk_of holds (by simp)) ok, False.elim⟩
  | void u b n => exact ⟨unwindVoidEnded_ok t base u b n holds ok, False.elim⟩
  | erase b => exact ⟨eraseEnded_ok t base b holds ok, False.elim⟩
  | freeStamp b => exact ⟨freeStampEnded_ok t base b holds ok, False.elim⟩
  | mountVoid b rest n =>
    exact ⟨mountVoidEnded_ok t base b rest n holds (by rw [work]; trivial) ok, fun _ => mountVoidEnded_voids t b rest n ok⟩
  | retire _ retiring =>
    rw [← work] at holds ⊢
    exact ⟨retireEnded_ok t base holds ok, retireEnded_voids t ok⟩

theorem completed_ends (s : State) (law : Law s) (w : Written) {next : Bool → State → State} (h : Completion s.eng.work next) :
    Ends s (s.completeOp w next) ∨ Rested s (s.completeOp w next) := by
  unfold State.completeOp
  split
  · next op inFlight =>
    have busy : s.eng.work ≠ .idle := by rintro idle; rw [idle] at inFlight; cases inFlight
    obtain ⟨noScan, noBuilt⟩ := stage_of_working s law busy
    obtain ⟨ends, voids⟩ := completion_ends h (s.readBackOk op (s.flashAfter op w))
      (t := { s with flash := s.flashAfter op w }) (base_of _ law noScan) rfl (work_of s law)
    exact .inl ⟨noScan, noBuilt, ⟨_, ends⟩, (completion_move h _ _).port, voids⟩
  · exact .inr (rested_of rfl rfl rfl rfl rfl (fun _ => rfl) id)

theorem timeout_ends (s : State) (law : Law s) (cut : Cut) (op : FlashOp) (inFlight : s.eng.work.inFlight = some op) :
    Ends s { s with flash := s.flashCut op cut }.opFailed := by
  have busy : s.eng.work ≠ .idle := by rintro idle; rw [idle] at inFlight; cases inFlight
  obtain ⟨noScan, noBuilt⟩ := stage_of_working s law busy
  exact ⟨noScan, noBuilt, ⟨_, opFailed_ok _ (base_of _ law noScan) (work_of s law)⟩, (opFailed_move _).port,
    opFailed_voids { s with flash := s.flashCut op cut }⟩

theorem choice_ends (s : State) (law : Law s) : Ends s s.choiceEvent ∨ Rested s s.choiceEvent := by
  by_cases due : s.running = true ∧ s.mount.condition = .ready ∧ s.eng.work = .idle
  · have ended : s.mount.stage = .ended := law.2.1.1 due.2.1
    have noScan : s.mount.stage ≠ .scan := by simp [ended]
    exact .inl ⟨noScan, by simp [ended], ⟨s.flash, choiceEvent_ok s (base_of s law noScan) (work_of s law)⟩,
      (choiceEvent_move s).port, fun voids => by rw [due.2.2] at voids; exact voids.elim⟩
  · rw [show s.choiceEvent = s from if_neg due]
    exact .inr (rested_of rfl rfl rfl rfl rfl (fun _ => rfl) id)

/-- The engine begins to unwind a commit whose targets it holds. -/
theorem startUnwind_ends {s : State} (law : Law s) {r : CommitRec} {step : CommitStep}
    (work : s.eng.work = .commit r step) (untaken : step ≠ .flipTaken) : Ends s (s.startUnwind r) := by
  have busy : s.eng.work ≠ .idle := by rw [work]; simp
  obtain ⟨noScan, noBuilt⟩ := stage_of_working s law busy
  have holds := work_of s law
  rw [work] at holds
  exact ⟨noScan, noBuilt, ⟨s.flash, unwindNext_ok s (base_of s law noScan) r.toUnwind (progOk_of holds untaken).hold⟩,
    (startUnwind_move s r).port, fun voids => by rw [work] at voids; exact voids.elim⟩

/-- The engine's record changes, with the blocks it holds the same. -/
theorem setCommit_ends {s : State} (law : Law s) {r r' : CommitRec} {step step' : CommitStep}
    (work : s.eng.work = .commit r step) (holds : (Work.commit r' step').HoldsBlocks s.bm) :
    Ends s (s.setWork (.commit r' step')) := by
  have busy : s.eng.work ≠ .idle := by rw [work]; simp
  obtain ⟨noScan, noBuilt⟩ := stage_of_working s law busy
  exact ⟨noScan, noBuilt, ⟨s.flash, work_ok s (base_of s law noScan) _ holds⟩, fun _ => rfl,
    fun voids => by rw [work] at voids; exact voids.elim⟩

theorem law_ses {s : State} {u : SessionUnit} (law : Law s) (members : MembersOk s.ses → MembersOk u) :
    Law { s with ses := u } := quiet_law (.of s _ rfl rfl rfl (.inl rfl) members) law

/-- The boundary and a requested unwinding are marked in the record of a commit; the blocks it holds are the same. -/
theorem still_holds {bm : BlockManager} {r : CommitRec} {step : CommitStep} (holds : (Work.commit r step).HoldsBlocks bm)
    (untaken : step ≠ .flipTaken)
    (step' : CommitStep) (unflipped : step' = .flipRequested → step = .flipRequested) (a b : Bool) :
    (Work.commit { r with boundaryHanded := a, unwindRequested := b } step').HoldsBlocks bm := by
  obtain ⟨nodup, length, current, upTo, targets, last⟩ := holds
  exact ⟨nodup, length, current, upTo, fun _ => targets untaken, fun flip => last (unflipped flip)⟩

/-- A change of the sessions alone, before a move of the engine. -/
theorem Ends.ofSes {s t : State} {u : SessionUnit} (h : Ends { s with ses := u } t) : Ends s t := by
  obtain ⟨noScan, noBuilt, ⟨m, ends⟩, ports, voids⟩ := h
  exact ⟨noScan, noBuilt, ⟨m, ends⟩, ports, voids⟩

theorem boundary_ends (s t : State) (law : Law s) (taken : execBoundaryHandoff s = .next t) :
    Ends s t ∨ Rested s t := by
  unfold execBoundaryHandoff at taken
  split at taken
  · next r work =>
    simp only at taken
    split at taken
    · next programming =>
      cases taken
      have members := members_same s r.session { s.ses.session r.session with boundaryPassed := true } rfl
        (by simp [programming]) ((blockLaw_iff s).1 law.1).2.2.2
      have holds := work_of s law
      rw [work] at holds
      exact .inl (Ends.ofSes (setCommit_ends (law_ses law fun _ => members) work
        (still_holds holds (by simp) .dataStamp (by simp) true r.unwindRequested)))
    · cases taken; exact .inl (startUnwind_ends law work (by simp))
  · cases taken; exact .inr (rested_of rfl rfl rfl rfl rfl (fun _ => rfl) id)

theorem unwindRequest_ends (s : State) (law : Law s) (i : SessionId) :
    Ends s ({ s with ses := { s.ses with unwindRequest := none } }.takeUnwind i)
    ∨ Rested s ({ s with ses := { s.ses with unwindRequest := none } }.takeUnwind i) := by
  have still : Rested s { s with ses := { s.ses with unwindRequest := none } } :=
    rested_of rfl rfl rfl rfl rfl (fun _ => rfl) id
  have law' : Law { s with ses := { s.ses with unwindRequest := none } } := law_ses law id
  have mark : ∀ r step, s.eng.work = .commit r step → step ≠ .flipTaken →
      Ends s (State.setWork { s with ses := { s.ses with unwindRequest := none } }
        (.commit { r with unwindRequested := true } step)) := fun r step work untaken => by
    have holds := work_of s law
    rw [work] at holds
    exact Ends.ofSes (setCommit_ends law' work (still_holds holds untaken step id r.boundaryHanded true))
  unfold State.takeUnwind
  split
  · next r step work =>
    split
    · split
      · exact .inl (mark r _ work (by simp))
      · exact .inl (mark r _ work (by simp))
      · exact .inl (mark r _ work (by simp))
      · exact .inl (mark r _ work (by simp))
      · exact .inl (Ends.ofSes (startUnwind_ends law' work (by simp)))
      · exact .inr still
      · exact .inr still
    · exact .inr still
  · exact .inr still

theorem engine_ends {s t : State} (h : EngineEvent s t) (law : Law s) : Ends s t ∨ Rested s t := by
  cases h with
  | completed w next h => exact completed_ends s law w h
  | timeout cut op h => exact .inl (timeout_ends s law cut op h)
  | choice => exact choice_ends s law
  | boundary taken => exact boundary_ends s t law taken
  | unwindRequest i => exact unwindRequest_ends s law i

/-- A hand-off of a flip concerns, of the engine's work, the wait for that flip alone. -/
theorem handoff_rested {s t : State} (w : FlipWork) (flash : t.flash = s.flash) (bm : t.bm = s.bm) (map : t.map = s.map)
    (mount : t.mount = s.mount) (work : t.eng.work = s.eng.work) (fault : t.eng.markFault = s.eng.markFault)
    (start : ∀ h, t.eng.start = some h → ∃ k, s.eng.start = some k ∧ h.kind = k.kind) (ports : t.ports = s.ports)
    (members : MembersOk s.ses → MembersOk t.ses) : Kind s (t.refreshAlerts.noteHandoff w) := by
  have eng : (t.refreshAlerts.noteHandoff w).eng = t.eng ∨
      (∃ r, s.eng.work = .commit r .flipTaken) ∧ (t.refreshAlerts.noteHandoff w).eng = { t.eng with work := .idle } := by
    unfold State.noteHandoff Engine.takeReport
    simp only
    split
    · split
      · next r waits => exact .inr ⟨⟨r, work.symm.trans waits⟩, rfl⟩
      · exact .inl rfl
    · exact .inl rfl
  have work' : (t.refreshAlerts.noteHandoff w).eng.work = s.eng.work
      ∨ (∃ r, s.eng.work = .commit r .flipTaken) ∧ (t.refreshAlerts.noteHandoff w).eng.work = .idle := by
    rcases eng with same | ⟨waits, same⟩
    · exact .inl (by rw [same, work])
    · exact .inr ⟨waits, by rw [same]⟩
  refine .rested ⟨bm, by rw [← map]; rfl, ⟨flash, by rw [← map]; rfl, ?_, mount, fun b => ?_, work'.imp_right And.right, ?_⟩, work',
    fun p => ?_, members⟩
  · rcases eng with same | ⟨_, same⟩ <;> rw [same] <;> exact fault
  · show t.bm.classOf b = _ ∧ t.bm.eraseCount b = _
    rw [bm]; exact ⟨rfl, rfl⟩
  · rcases eng with same | ⟨_, same⟩ <;> rw [same] <;> exact start
  · have port : (t.refreshAlerts.noteHandoff w).port p = t.refreshAlerts.port p := rfl
    rw [port, port_refreshAlerts]
    unfold State.port
    rw [ports]

/-- A start hand-off that is refused keeps its kind (R48). -/
theorem withdrawn_start {e e' : Engine} (gone : StartHandoff → Bool) (withdrawn : e'.start = e.start.map fun h => h.without (gone h))
    (h : StartHandoff) (start : e'.start = some h) : ∃ k, e.start = some k ∧ h.kind = k.kind := by
  rw [withdrawn] at start
  cases before : e.start with
  | none => rw [before] at start; cases start
  | some k =>
    rw [before] at start
    cases start
    exact ⟨k, rfl, rfl⟩

theorem act_kind {s t : State} {c : Instr} (h : Act s c t) : Kind s t := by
  cases h with
  | portReset p => exact .portReset p
  | cleared h => exact .cleared h
  | power w => exact .rested (rested_of rfl rfl rfl rfl rfl (fun _ => rfl) id)
  | leaseExpiry i old =>
    have move := finishSession_move s i .expired (by simp [old])
    refine .rested ⟨rfl, rfl, ⟨rfl, rfl, rfl, rfl, fun _ => ⟨rfl, rfl⟩, .inl rfl, ?_⟩, .inl rfl, move.port, members_kept move.ses⟩
    exact withdrawn_start _ rfl
  | completed c w next h => exact .engine (.completed w next h)
  | timeout cut op h => exact .engine (.timeout cut op h)
  | choice => exact .engine .choice
  | failure => exact .rested (rested_of rfl rfl rfl rfl rfl (fun _ => rfl) (members_kept (takePending_move s.ses)))
  | boundary taken => exact .engine (.boundary taken)
  | unwindRequest i h => exact .engine (.unwindRequest i)
  | flip r work free => exact .flip r work _
  | reload w flip due =>
    have offer := (offerTable_spec { s with
      prot := { s.prot with table := reloadedTable (s.currentLine Config.windowsPage 0), tableFault := false } }
        w.serial w.writer).1.frame
    rw [offer]
    exact handoff_rested _ rfl rfl rfl rfl rfl rfl (fun h start => ⟨h, start, rfl⟩) rfl id
  | revocation w flip due =>
    have members := members_kept (revoke_move s.ses s.prot.table)
    generalize s.ses.revoke s.prot.table = ses at members ⊢
    exact handoff_rested _ rfl rfl rfl rfl rfl rfl (withdrawn_start _ rfl) rfl members
  | sessionEnd w flip due loaded =>
    refine handoff_rested _ rfl rfl rfl rfl rfl rfl (fun h start => ⟨h, start, rfl⟩) rfl (members_kept ?_)
    split
    · next programming => exact endSession_move _ _ _ (by simp [programming])
    · exact .refl _
  | notices w flip due loaded =>
    rw [(offerFlip_spec s w.serial w.writer w.pages).1.frame]
    exact handoff_rested _ rfl rfl rfl rfl rfl rfl (fun h start => ⟨h, start, rfl⟩) rfl id
  | scan h stage => exact .scan h stage
  | build runs stage scanned => exact .build stage scanned
  | load stage => exact .load stage _

/-! ### The laws, kind by kind -/

theorem portReset_quiet (s : State) (p : PortId) : Quiet s (s.portReset p) := by
  have pins := Quiet.pins s _ (pins_unpinPage s.bm (streamPin (s.port p).stream))
  refine pins.trans (.of _ _ (portReset_bm s p) rfl rfl (.inl rfl) fun ok => ?_)
  rw [portReset_ses]
  exact members_kept (portReset_move s.ses p) ok

theorem rested_law {s t : State} (h : Rested s t) (law : Law s) : Law t :=
  quiet_law (.of s t h.bm h.pages h.still.mount (h.work.imp_right And.right) h.members) law

theorem kind_law {s t : State} (h : Kind s t) (law : Law s) : Law t := by
  cases h with
  | cleared h =>
    obtain ⟨fault, eng⟩ := h.eng
    obtain ⟨cause, mount⟩ := h.mount
    exact reset_law t cause h.bm h.map h.ses (by rw [eng]; rfl) mount
  | engine h =>
    rcases engine_ends h law with h | h
    · obtain ⟨m, ends⟩ := h.ends
      exact endsOk_law _ t law.2 h.noScan h.noBuilt ends
    · exact rested_law h law
  | rested h => exact rested_law h law
  | portReset p => exact quiet_law (portReset_quiet s p) law
  | flip r work x => exact flip_law s r law work x
  | scan h stage => exact scan_law s _ law stage rfl
  | build stage scanned => exact build_law s law stage
  | load stage prot => exact (load_law s law prot stage).1

theorem rested_voiding {s t : State} (h : Rested s t) (V : s.VoidingLaw) : t.VoidingLaw := by
  rcases h.work with same | ⟨⟨r, waits⟩, idle⟩
  · exact voiding_same same h.still.mount V
  · rw [voidingLaw_iff] at V ⊢
    rw [waits] at V
    rw [idle, h.still.mount]
    exact V

theorem scanBlock_stage (s : State) (b : BlockId) :
    (s.scanBlock b).mount.stage = s.mount.stage ∧ (s.scanBlock b).eng = s.eng := by
  unfold State.scanBlock State.placeRow
  simp only
  split <;> exact ⟨rfl, rfl⟩

theorem kind_voiding {s t : State} (h : Kind s t) (law : Law s) (V : s.VoidingLaw) : t.VoidingLaw := by
  cases h with
  | cleared h =>
    obtain ⟨fault, eng⟩ := h.eng
    obtain ⟨cause, mount⟩ := h.mount
    exact (reset_pins t h.bm h.streams (by rw [eng]; rfl) cause mount).2.2
  | engine h =>
    rcases engine_ends h law with h | h
    · obtain ⟨m, ends⟩ := h.ends
      exact voiding_ends ends h.voids V
    · exact rested_voiding h V
  | rested h => exact rested_voiding h V
  | portReset p => exact voiding_same rfl rfl V
  | flip r work x =>
    rw [voidingLaw_iff, work] at V
    rw [flipMembers_frame, voidingLaw_iff]
    exact V
  | scan h stage =>
    obtain ⟨stage', eng⟩ := scanBlock_stage s ⟨s.mount.position, h⟩
    rw [voidingLaw_iff] at V ⊢
    rw [stage', eng]
    exact V
  | build stage scanned =>
    have idle : s.eng.work = .idle := law.2.2.1 (.inl stage)
    obtain ⟨bm, map, mount, built, _⟩ := buildTables_frame s
    have after : s.buildTables.mount.stage = .built := by rw [built_mount]
    have still : s.buildTables.eng = s.eng := by rw [built]
    rw [voidingLaw_iff, still, after, idle]
    exact ⟨False.elim, fun k => (nomatch k)⟩
  | load stage prot => exact (load_law s law prot stage).2.2.2

theorem rested_pool {s t : State} (h : Rested s t) (P : s.PoolLaw) : t.PoolLaw :=
  pool_same (by rw [h.bm]) (fun _ _ => by rw [h.bm]) P

theorem kind_pool {s t : State} (h : Kind s t) (law : Law s) (P : s.PoolLaw) : t.PoolLaw := by
  cases h with
  | cleared h =>
    obtain ⟨fault, eng⟩ := h.eng
    obtain ⟨cause, mount⟩ := h.mount
    exact (reset_pins t h.bm h.streams (by rw [eng]; rfl) cause mount).2.1
  | engine h =>
    rcases engine_ends h law with h | h
    · obtain ⟨m, ends⟩ := h.ends
      exact pool_ends (s := { s with flash := m }) law.1 ends P
    · exact rested_pool h P
  | rested h => exact rested_pool h P
  | portReset p =>
    have pool := pool_pins (pins_unpinPage s.bm (streamPin (s.port p).stream)) P
    unfold State.PoolLaw
    rw [portReset_bm]
    exact pool
  | flip r work x => exact flip_pool s r law work x P
  | scan h stage => exact scan_pool s _ law stage rfl P
  | build stage scanned => exact build_pool s
  | load stage prot => exact (load_law s law prot stage).2.2.1 P

/-- The port reset ends the port's stream with its pin released (R178). -/
theorem portReset_pins (s : State) (p : PortId) (P : s.PinLaw) : (s.portReset p).PinLaw := by
  have held := pin_port s p (s.bm.unpinPage (streamPin (s.port p).stream)) { (s.port p).held with prstLow := true }
    (pins_unpinPage _ _) (fun _ k => (nomatch k)) (fun n => absurd rfl n) P
  have bm := portReset_bm s p
  have mount := portReset_mount s p
  have port := portReset_port s p
  generalize s.portReset p = t at bm mount port ⊢
  refine pin_congr (fun _ => by rw [bm]; rfl) (by rw [bm]; exact held.2.1) (fun q => ?_) (fun ready => ?_) held
  · rw [port]
    split
    · next e => subst e; rw [port_setPort]
    · next other => rw [port_setPort_ne _ _ _ _ other]; rfl
  · unfold State.Ready
    rw [mount]; exact ready

theorem rested_pins {s t : State} (h : Rested s t) (P : s.PinLaw) : t.PinLaw := by
  refine pin_congr (fun b => by rw [h.bm]) ?_ h.ports (fun ready => ?_) P
  · rw [h.bm]; exact P.2.1
  · unfold State.Ready
    rw [h.still.mount]; exact ready

theorem kind_pins {s t : State} (h : Kind s t) (law : Law s) (V : s.VoidingLaw) (P : s.PinLaw) : t.PinLaw := by
  cases h with
  | cleared h =>
    obtain ⟨fault, eng⟩ := h.eng
    obtain ⟨cause, mount⟩ := h.mount
    exact (reset_pins t h.bm h.streams (by rw [eng]; rfl) cause mount).1
  | engine h =>
    rcases engine_ends h law with h | h
    · obtain ⟨m, ends⟩ := h.ends
      exact pin_ends (s := { s with flash := m }) law.2 V ends h.ports P
    · exact rested_pins h P
  | rested h => exact rested_pins h P
  | portReset p => exact portReset_pins s p P
  | flip r work x => exact flip_pins s r law work x P
  | scan h stage => exact scan_pins s _ law stage P
  | build stage scanned => exact build_pins s law stage P
  | load stage prot => exact (load_law s law prot stage).2.1 P

/-! ### Every step -/

theorem step_law {s t : State} (taken : step s = .next t) (law : Law s) : Law t := by
  rcases step_event taken with ⟨_, same⟩ | ⟨c, rest, _, event⟩
  · rw [same]; exact law
  · rcases event_talk event with talk | act
    · exact talk.keeps (fun _ _ link => quiet_law (link_quiet link)) (fun _ _ _ h => quiet_law (answered_quiet h)) law
    · exact kind_law (act_kind act) law

theorem step_voiding {s t : State} (taken : step s = .next t) (law : Law s) (V : s.VoidingLaw) : t.VoidingLaw := by
  rcases step_event taken with ⟨_, same⟩ | ⟨c, rest, _, event⟩
  · rw [same]; exact V
  · rcases event_talk event with talk | act
    · exact talk.keeps (fun _ _ link => voiding_same link.steady.work link.steady.mount)
        (fun _ _ _ h => voiding_same (answered_kept h).work (answered_kept h).mount) V
    · exact kind_voiding (act_kind act) law V

/-- Settles O60: the blocks and the mount are kept kind by kind of event, and so is the mount's voiding. -/
theorem blockAndMountLawsKept : Obligations.BlockAndMountLawsKept := by
  unfold Obligations.BlockAndMountLawsKept
  intro s t taken law
  exact ⟨step_law taken law, step_voiding taken law⟩

end Sys2Proof.Proofs.BlockLaws

/-! The counters and the flags of a step (O58): `Kept` has LOW_SPACE, SERIAL_END and the mapped count, `Kind` the order of the Free Pool;
the serials given and the two lasting flags are followed event by event here. -/

namespace Sys2Proof.Proofs.Counters

open Sys2Proof Sys2Proof.Machine Sys2Proof.Laws Sys2Proof.Proofs.Events Sys2Proof.Proofs.Frames Sys2Proof.Proofs.KeptEvents
open Sys2Proof.Proofs.SessionLaws Sys2Proof.Proofs.BlockLaws

/-- No serial is given again, and MARK_FAULT and FROZEN outlive the change (R25, R84, R145). -/
structure Lasts (s t : State) : Prop where
  serial : s.map.nextSerial ≤ t.map.nextSerial
  fault : s.eng.markFault = true → t.eng.markFault = true
  frozen : s.prot.frozen = true → t.prot.frozen = true

theorem Lasts.refl (s : State) : Lasts s s := ⟨Nat.le_refl _, id, id⟩

theorem Lasts.trans {s t u : State} (h : Lasts s t) (k : Lasts t u) : Lasts s u :=
  ⟨h.serial.trans k.serial, fun x => k.fault (h.fault x), fun x => k.frozen (h.frozen x)⟩

theorem Lasts.ofMove {s t : State} (h : EngineMove s t) : Lasts s t :=
  ⟨h.serial, h.markFault, fun frozen => by rw [h.prot]; exact frozen⟩

/-- A move of the engine from a state with the same serials and flags. -/
theorem Lasts.ofMoveFrom {s u t : State} (move : EngineMove u t) (map : u.map = s.map) (eng : u.eng = s.eng)
    (frozen : u.prot.frozen = s.prot.frozen) : Lasts s t := by
  obtain ⟨serial, fault, frozen'⟩ := Lasts.ofMove move
  rw [map] at serial
  rw [eng] at fault
  rw [frozen] at frozen'
  exact ⟨serial, fault, frozen'⟩

/-- A hand-off of a flip, noted in a state with the same serials and flags. -/
theorem lasts_handoff {s t : State} (w : FlipWork) (map : t.map = s.map) (fault : t.eng.markFault = s.eng.markFault)
    (frozen : t.prot.frozen = s.prot.frozen) : Lasts s (t.noteHandoff w) := by
  refine ⟨by rw [← map]; exact Nat.le_refl _, fun set => ?_, fun set => frozen.trans set⟩
  rw [← fault] at set
  unfold State.noteHandoff Engine.takeReport
  simp only
  split
  · split <;> exact set
  · exact set

theorem link_lasts {s t : State} (h : Link s t) : Lasts s t := by
  rw [h.frame]; exact ⟨Nat.le_refl _, id, id⟩

theorem answered_lasts {s t : State} {p : PortId} (h : Answered s p t) : Lasts s t := by
  have kept := answered_kept h
  refine ⟨by rw [kept.map], fun fault => by rw [kept.markFault]; exact fault, fun frozen => ?_⟩
  cases h with
  | stream start length _ => rw [(link_createStream s p start length).frame]; exact frozen
  | frozen => rfl
  | _ => exact frozen

theorem talk_lasts {s t : State} (h : Talk s t) : Lasts s t := by
  induction h with
  | refl s => exact .refl s
  | trans _ _ ih ih' => exact ih.trans ih'
  | link h => exact link_lasts h
  | answered p h => exact answered_lasts h

theorem flipMember_serial (r : CommitRec) (s : State) (m : Nat) :
    (State.flipMember r s m).map.nextSerial = s.map.nextSerial := by
  unfold State.flipMember
  split <;> rfl

theorem flipMembers_serial (s : State) (r : CommitRec) : (s.flipMembers r).map.nextSerial = s.map.nextSerial := by
  unfold State.flipMembers
  generalize List.range r.pages.length = members
  induction members generalizing s with
  | nil => rfl
  | cons m rest ih => rw [List.foldl_cons, ih, flipMember_serial]

/-- Every event but a reset, the loss of the supply and the building of the tables. -/
theorem act_lasts {s t : State} {c : Instr} (h : Act s c t) :
    (Cleared s t ∧ (t.power.supplied = true → (∀ cut, c ≠ .powerOn cut) →
      t.eng.markFault = s.eng.markFault ∧ t.prot.frozen = s.prot.frozen))
    ∨ (t = s.buildTables ∧ ¬ s.Ready) ∨ Lasts s t := by
  cases h with
  | cleared h fault frozen => exact .inl ⟨h, fun on other => ⟨fault on other, frozen on other⟩⟩
  | build runs stage scanned =>
    refine .inr (.inl ⟨rfl, fun ready => ?_⟩)
    have mounting := (Bool.and_eq_true _ _ ▸ runs).2
    rw [decide_eq_true_iff, ready] at mounting
    cases mounting
  | portReset p =>
    exact .inr (.inr ⟨by rw [portReset_map], fun fault => by rw [portReset_eng]; exact fault,
      fun frozen => by rw [portReset_prot]; exact frozen⟩)
  | power w => exact .inr (.inr ⟨Nat.le_refl _, id, id⟩)
  | leaseExpiry i old => exact .inr (.inr (.ofMove (finishSession_move s i _ (by simp [old]))))
  | completed c w next h =>
    refine .inr (.inr ?_)
    unfold State.completeOp
    split
    · next op _ => exact .ofMoveFrom (completion_move h _ _) rfl rfl rfl
    · exact .refl s
  | timeout cut op h => exact .inr (.inr (.ofMoveFrom (opFailed_move _) rfl rfl rfl))
  | choice => exact .inr (.inr (.ofMove (choiceEvent_move s)))
  | failure => exact .inr (.inr ⟨Nat.le_refl _, id, id⟩)
  | boundary taken => exact .inr (.inr (.ofMove (boundary_move s t taken)))
  | unwindRequest i h => exact .inr (.inr (.ofMoveFrom (takeUnwind_move _ i) rfl rfl rfl))
  | flip r work free =>
    have serial := flipMembers_serial s r
    rw [flipMembers_frame]
    exact .inr (.inr ⟨serial.ge, id, id⟩)
  | reload w flip due =>
    rw [(offerTable_spec _ _ _).1.frame]
    exact .inr (.inr (lasts_handoff _ rfl rfl rfl))
  | revocation w flip due =>
    generalize s.ses.revoke s.prot.table = ses
    exact .inr (.inr (lasts_handoff _ rfl rfl rfl))
  | sessionEnd w flip due loaded => exact .inr (.inr (lasts_handoff _ rfl rfl rfl))
  | notices w flip due loaded =>
    rw [(offerFlip_spec _ _ _ _).1.frame]
    exact .inr (.inr (lasts_handoff _ rfl rfl rfl))
  | scan h stage =>
    rw [scanBlock_frame]
    exact .inr (.inr ⟨Nat.le_refl _, id, id⟩)
  | load stage => exact .inr (.inr (.ofMoveFrom (mountVoidNext_move _ _) rfl rfl rfl))

theorem step_pool {s t : State} (taken : step s = .next t) (law : Law s) (P : s.PoolLaw) : t.PoolLaw := by
  have steady : ∀ {s t : State}, Steady s t → s.PoolLaw → t.PoolLaw := fun same P =>
    pool_same (by rw [same.lists]) (fun b _ => (classOf_of_classes same.classes b).2) P
  rcases step_event taken with ⟨_, same⟩ | ⟨c, rest, _, event⟩
  · rw [same]; exact P
  · rcases event_talk event with talk | act
    · exact talk.keeps (fun _ _ link => steady link.steady) (fun _ _ _ h => steady (RequestKept.steady (answered_kept h))) P
    · exact kind_pool (act_kind act) law P

/-- The serials of a part that stays READY, and the flags of one that keeps its supply (R25, R84, R145). -/
theorem step_lasts {s t : State} (taken : step s = .next t) :
    (s.Ready → t.Ready → s.map.nextSerial ≤ t.map.nextSerial)
    ∧ (t.power.supplied = true → (∀ rest cut, s.pending ≠ .powerOn cut :: rest) →
        (s.eng.markFault = true → t.eng.markFault = true) ∧ (s.prot.frozen = true → t.prot.frozen = true)) := by
  have of : ∀ {s t : State}, Lasts s t → (s.Ready → t.Ready → s.map.nextSerial ≤ t.map.nextSerial)
      ∧ (s.eng.markFault = true → t.eng.markFault = true) ∧ (s.prot.frozen = true → t.prot.frozen = true) :=
    fun lasts => ⟨fun _ _ => lasts.serial, lasts.fault, lasts.frozen⟩
  rcases step_event taken with ⟨_, same⟩ | ⟨c, rest, front, event⟩
  · rw [same]; exact ⟨fun _ _ => Nat.le_refl _, fun _ _ => ⟨id, id⟩⟩
  · rcases event_talk event with talk | act
    · obtain ⟨serial, flags⟩ := of (talk_lasts talk)
      exact ⟨serial, fun _ _ => flags⟩
    · rcases act_lasts act with ⟨cleared, flags⟩ | ⟨built, mounting⟩ | lasts
      · obtain ⟨cause, mount⟩ := cleared.mount
        refine ⟨fun _ ready => ?_, fun on other => ?_⟩
        · unfold State.Ready at ready
          rw [mount] at ready; cases ready
        · obtain ⟨fault, frozen⟩ := flags on fun cut powerOn => other rest cut (powerOn ▸ front)
          exact ⟨fun set => fault.trans set, fun set => frozen.trans set⟩
      · refine ⟨fun ready => absurd ready mounting, fun _ _ => ?_⟩
        obtain ⟨bm, map, mount, frame, _⟩ := buildTables_frame { s with pending := rest }
        rw [built, frame]
        exact ⟨id, id⟩
      · obtain ⟨serial, flags⟩ := of lasts
        exact ⟨serial, fun _ _ => flags⟩

/-- Settles O58: the counts by `Kept`, the Free Pool's order kind by kind of event, serials and flags by `Lasts`. -/
theorem countersAndFlagsKept : Obligations.CountersAndFlagsKept := by
  unfold Obligations.CountersAndFlagsKept
  intro s t taken
  have kept := step_kept taken
  obtain ⟨serial, flags⟩ := step_lasts taken
  exact ⟨kept.space, kept.serial, kept.mapped, fun block mount => step_pool taken ⟨block, mount⟩, serial, flags⟩

end Sys2Proof.Proofs.Counters

/-! The laws of the ports (O59): the lease settings and the frames by `Kept`; the pins by following the read streams through the events
of a frame, and kind by kind through the other events. -/

namespace Sys2Proof.Proofs.Pins

open Sys2Proof Sys2Proof.Machine Sys2Proof.Laws Sys2Proof.Proofs.Events Sys2Proof.Proofs.Frames Sys2Proof.Proofs.KeptEvents
open Sys2Proof.Proofs.BlockLaws

/-- A port in REQUEST has no stream: a stream stands behind a reply (R175). -/
theorem no_stream_of_request {s : State} {p : PortId} (P : s.PinLaw) (request : (s.port p).decoder = .request) :
    (s.port p).stream = none := by
  by_contra stream
  rcases (P.2.2 p stream).2 with phase | phase | phase <;> rw [request] at phase <;> cases phase

/-- READ pins the first page of its stream for its port (R173). -/
theorem stream_pins {s : State} {p : PortId} (B : s.BlockLaw) (P : s.PinLaw) (receiving : s.Receiving p) (ready : s.Ready)
    (start length n : Nat) (st : Status) (fields : List Byte) :
    ((s.createStream p start length).setPort p
      (((s.createStream p start length).port p).answered n st fields)).PinLaw := by
  have none := no_stream_of_request P receiving.1
  unfold State.createStream
  split
  · next h =>
    simp only [port_setPort, setPort_setPort]
    refine pin_port s p _ _ ?_ (fun b pinned => current_data B pinned) (fun _ => ⟨ready, .inl rfl⟩) P
    unfold pinOf
    rw [none]
    exact pins_pinPage s.bm _
  · exact pin_frame s p _ rfl (fun stream => absurd none stream) P

/-- A request that its port's owner takes keeps the pins equal to the streams. -/
theorem taken_pins {s t : State} {p : PortId} (B : s.BlockLaw) (P : s.PinLaw) (h : Taken s p t) : t.PinLaw := by
  obtain ⟨receiving, a, n, answered, rfl⟩ := h
  have none := no_stream_of_request P receiving.1
  have same : ∀ {u : State} (st : Status) (fields : List Byte), u.bm = s.bm → u.mount = s.mount → s.SamePorts u →
      (u.setPort p ((u.port p).answered n st fields)).PinLaw := fun st fields bm mount ports => by
    refine pin_frame _ p _ rfl (fun _ => .inr (.inl rfl)) (pin_congr (s := s) (fun _ => by rw [bm]) ?_ ports ?_ P)
    · rw [bm]; exact P.2.1
    · unfold State.Ready
      rw [mount]; exact id
  unfold Answer.taken
  generalize a.state = u at answered ⊢
  cases answered with
  | same => exact same _ _ rfl rfl fun _ => rfl
  | stream start length ready => exact stream_pins B P receiving ready start length n _ _
  | status =>
    rw [setPort_setPort, port_setPort]
    exact pin_frame s p _ rfl (fun stream => absurd none stream) P
  | lease units =>
    rw [setPort_setPort, port_setPort]
    exact pin_frame s p _ rfl (fun stream => absurd none stream) P
  | watch notice => exact same _ _ rfl rfl fun _ => rfl
  | fetched notice => exact same _ _ rfl rfl fun _ => by rw [port_refreshAlerts]; rfl
  | frozen => exact same _ _ rfl rfl fun _ => rfl
  | opened pages i some few distinct free => exact same _ _ rfl rfl fun _ => rfl
  | record i r old new members owner => exact same _ _ rfl rfl fun _ => rfl
  | queued i old own => exact same _ _ rfl rfl fun _ => rfl
  | abandoned i old =>
    exact same _ _ rfl rfl (finishSession_move s i .abandoned (by rcases old with old | old <;> simp [old])).port
  | unwinding i old before => exact same _ _ rfl rfl fun _ => rfl
  | collected i old => exact same _ _ rfl rfl fun _ => by rw [port_refreshAlerts]; rfl

theorem request_pins {s t : State} {c : Instr} {p : PortId} (B : s.BlockLaw) (P : s.PinLaw) (port : c.requestPort = some p)
    (taken : exec c s = .next t) : t.PinLaw := by
  rcases request_cases c p s t port taken with same | done
  · rw [same]; exact P
  · exact taken_pins B P done

theorem edge_law {p : PortId} {s t : State} (h : EdgeMove p s t) (law : Law s) : Law t :=
  (talk_edge h).keeps (fun _ _ link => quiet_law (link_quiet link)) (fun _ _ _ h => quiet_law (answered_quiet h)) law

theorem run_pins (s : State) (r : SckRun) (law : Law s) (P : s.PinLaw) :
    ((r.edges.foldl (State.sckEdge r.port) s).gatherStatus r.port r.gather).PinLaw := by
  have moves := run_moves s r
  generalize (r.edges.foldl (State.sckEdge r.port) s).gatherStatus r.port r.gather = t at moves ⊢
  suffices both : Law t ∧ t.PinLaw from both.2
  induction moves with
  | refl => exact ⟨law, P⟩
  | tail _ move ih =>
    obtain ⟨law, P⟩ := ih
    exact ⟨edge_law move law, edgeMove_pins move law.1 P fun _ port taken => request_pins law.1 P port taken⟩

theorem event_pins {s t : State} {c : Instr} (h : Event s c t) (frame : s.FrameLaw) (law : Law s) (V : s.VoidingLaw)
    (P : s.PinLaw) : t.PinLaw := by
  cases h with
  | act h => exact kind_pins (act_kind h) law V P
  | nothing => exact P
  | request port taken => exact request_pins law.1 P port taken
  | csFall p high => exact pin_frame s p _ rfl (fun stream => absurd ((frame p).1 high).1 stream) P
  | csRise p =>
    have ended := portHeld_endStream s p
    refine pin_frame _ p _ (by rw [ended]; rfl) (fun stream => ?_) (endStream_pins s p P)
    rw [ended] at stream
    exact absurd rfl stream
  | nextPage p st phase stream =>
    refine deliverPageEnd_pins _ p st law.1 ?_ ?_ (pin_frame s p _ rfl (fun _ => .inl rfl) P)
    · rw [port_setPort]; exact phase
    · rw [port_setPort]; exact stream
  | streamEnd p st phase stream => exact deliverLast_pins _ p st (pin_frame s p _ rfl (fun _ => .inl rfl) P)
  | run r => exact run_pins s r law P
  | prstFall p => exact pin_frame s p _ rfl (fun _ => .inl rfl) P
  | prstRise p =>
    refine pin_frame s p _ rfl (fun stream => .inl ?_) P
    have selected : (s.port p).csLow = true := by
      by_contra high
      exact stream ((frame p).1 (by simpa using high)).1
    simp [selected]

/-- Settles O59: leases and frames by `Kept`, pins by following the streams. -/
theorem portLawsKept : Obligations.PortLawsKept := by
  unfold Obligations.PortLawsKept
  intro s t taken
  have kept := step_kept taken
  refine ⟨kept.lease, kept.frame, fun frame block mount V P => ?_⟩
  rcases step_event taken with ⟨_, same⟩ | ⟨c, rest, _, event⟩
  · rw [same]; exact P
  · exact event_pins event frame ⟨block, mount⟩ V P

end Sys2Proof.Proofs.Pins

/-! Groups become visible whole or not at all (O15): what the array holds of the group at work and of all groups, kept event by
event; what the tables show at the end of pass 1; and what a cut leaves for the next mount. -/

namespace Sys2Proof.Proofs.Groups

open Sys2Proof Sys2Proof.Machine Sys2Proof.Laws Sys2Proof.Proofs.Events Sys2Proof.Proofs.Frames Sys2Proof.Proofs.KeptEvents
open Sys2Proof.Proofs.SessionLaws Sys2Proof.Proofs.BlockLaws

theorem free_pool {s : State} (law : Law s) : ∀ b ∈ s.bm.freePool, s.bm.classOf b = some .free :=
  ((blockLaw_iff s).1 law.1).1.free

theorem law_members {s : State} (law : Law s) : MembersOk s.ses := ((blockLaw_iff s).1 law.1).2.2.2

/-! ### Events that touch no stamp -/

/-- The groups after an event: the laws of pass 1 and of the stamps, and of all groups while no retire mark has failed; and the array
itself during pass 1. -/
structure GroupsKept (s t : State) : Prop where
  scan : t.ScanLaw
  stamps : t.StampLaw
  array : s.eng.markFault = false → t.eng.markFault = false → s.ArrayLaw → t.ArrayLaw
  still : s.mount.stage = .scan → t.flash = s.flash

theorem untouched_groups {s t : State} (h : Untouched s t) (entry : ∀ q, t.map.entry q = s.map.entry q)
    (work : t.eng.work = s.eng.work ∨ t.eng.work = .idle ∧ ∃ r, s.eng.work = .commit r .flipTaken)
    (scan : s.ScanLaw) (stamps : s.StampLaw) : GroupsKept s t :=
  ⟨h.scan scan, h.law stamps, fun _ _ A => h.array entry work A, fun _ => h.flash⟩

theorem steady_groups {s t : State} (h : Steady s t)
    (start : ∀ k, t.eng.start = some k → ∃ k', s.eng.start = some k' ∧ k.kind = k'.kind)
    (scan : s.ScanLaw) (stamps : s.StampLaw) : GroupsKept s t :=
  untouched_groups ⟨h.flash, by rw [h.map], h.markFault, h.mount, classOf_of_classes h.classes, .inl h.work, start⟩
    (fun q => by rw [h.map]) (.inl h.work) scan stamps

/-- A request's owner leaves the start hand-off, but for a refusal of it (R48). -/
theorem answered_start {s t : State} {p : PortId} (h : Answered s p t) (k : StartHandoff) (start : t.eng.start = some k) :
    ∃ k', s.eng.start = some k' ∧ k.kind = k'.kind := by
  cases h with
  | stream first length _ =>
    rw [(link_createStream s p first length).frame] at start
    exact ⟨k, start, rfl⟩
  | abandoned i old => exact withdrawn_start _ rfl k start
  | queued i old own => exact ⟨k, start, rfl⟩
  | unwinding i old before => exact ⟨k, start, rfl⟩
  | same | status | lease | watch | fetched | frozen | opened | record | collected => exact ⟨k, start, rfl⟩

theorem rested_groups {s t : State} (h : Rested s t) (scan : s.ScanLaw) (stamps : s.StampLaw) : GroupsKept s t :=
  untouched_groups h.still (fun q => by unfold MapUnit.entry; rw [h.pages]) (h.work.imp_right fun ⟨waits, idle⟩ => ⟨idle, waits⟩)
    scan stamps

theorem portReset_untouched (s : State) (p : PortId) : Untouched s (s.portReset p) :=
  have pins := Untouched.pins s _ (pins_unpinPage s.bm (streamPin (s.port p).stream))
  pins.trans ⟨rfl, rfl, rfl, rfl, fun b => by rw [portReset_bm]; exact ⟨rfl, rfl⟩, .inl rfl, withdrawn_start _ rfl⟩

/-! ### The engine's moves -/

/-- A move of the engine that leaves array `m`: the stamps stand in order, the group at work is carried on, and a block to be voided
is still to be voided or holds no candidate. -/
structure Carries (s : State) (m : Memory) (t : State) : Prop where
  move : EngineMove { s with flash := m } t
  stamps : StampsOk t
  serial : ∀ S, s.eng.work.unflipped = some S → Carried m t S
  voids : t.eng.markFault = false → ∀ b ∈ s.toVoid, b ∈ t.toVoid ∨ m.candidate b = none

theorem no_voids {s t : State} {m : Memory} (law : Law s) (busy : s.eng.work ≠ .idle)
    (other : ∀ b l st, s.eng.work ≠ .mountVoid b l st) :
    t.eng.markFault = false → ∀ b ∈ s.toVoid, b ∈ t.toVoid ∨ m.candidate b = none := by
  intro _ b mem
  rw [toVoid_working law.2 busy other] at mem
  cases mem

/-- A commit whose unwinding was requested programs no last data stamp: past the boundary it is PROGRAMMING (R77, R80). -/
theorem unwound_early {s : State} (engine : s.EngineLaw) {r : CommitRec} (work : s.eng.work = .commit r .dataStamp)
    (requested : r.unwindRequested = true) : r.member + 1 < r.pages.length := by
  obtain ⟨_, handed, asked, last⟩ := engine.2.1 r .dataStamp work (by simp)
  by_contra few
  have programming := (handed (last (.inr ⟨rfl, by omega⟩))).1
  rw [asked requested] at programming
  cases programming

theorem inFlight_retire {w : Work} {op : FlashOp} (retiring : w.retiring = true) (inFlight : w.inFlight = some op) :
    ∃ b, op = .retire b := by
  cases w with
  | idle => cases inFlight
  | commit r step =>
    cases step with
    | retire n =>
      obtain ⟨b, _, rfl⟩ := Option.map_eq_some_iff.1 inFlight
      exact ⟨b, rfl⟩
    | begunMark | line | boundary | dataStamp | flipRequested | flipTaken => cases retiring
  | unwind u step =>
    cases step with
    | void => cases retiring
    | retire b n => cases inFlight; exact ⟨b, rfl⟩
  | erase b step =>
    cases step with
    | erase | freeStamp => cases retiring
    | retire n => cases inFlight; exact ⟨b, rfl⟩
  | mountVoid b rest step =>
    cases step with
    | void => cases retiring
    | retire n => cases inFlight; exact ⟨b, rfl⟩

/-- The end of an operation that left `m`, taken as its sub-step says: `ok` where the read-back verified it. -/
theorem completion_carries {s : State} (law : Law s) (engine : s.EngineLaw) {next : Bool → State → State}
    (h : Completion s.eng.work next) {m : Memory} {op : FlashOp} (inFlight : s.eng.work.inFlight = some op)
    (ground : Ground { s with flash := m }) (mid : WorkMid m s.map.nextSerial s.eng.markFault s.eng.work)
    (ok : Bool) (verified : ok = true → s.Verified op m) : Carries s m (next ok { s with flash := m }) := by
  have holds := work_of s law
  have move := completion_move h ok { s with flash := m }
  generalize work : s.eng.work = w at h
  rw [work] at inFlight mid holds
  cases h with
  | begunMark r =>
    have lt := (progOk_of holds (by simp)).lt
    refine ⟨move, begunMarkEnded_stamps _ r ok ground mid lt, fun S serial => ?_, no_voids law (by simp [work]) (by simp [work])⟩
    rw [work] at serial; cases serial
    exact begunMarkEnded_carried _ r ok mid lt
  | line r k =>
    have lt := (progOk_of holds (by simp)).lt
    refine ⟨move, lineEnded_stamps _ r k ok ground mid lt, fun S serial => ?_, no_voids law (by simp [work]) (by simp [work])⟩
    rw [work] at serial; cases serial
    exact lineEnded_carried _ r k ok mid lt
  | dataStamp r =>
    have lt := (progOk_of holds (by simp)).lt
    obtain ⟨b, current, rfl⟩ := Option.map_eq_some_iff.1 inFlight
    have target := currentTarget_some current
    refine ⟨move, dataStampEnded_stamps _ r ok ground mid lt (unwound_early engine work) fun good b' member => ?_,
      fun S serial => ?_, no_voids law (by simp [work]) (by simp [work])⟩
    · exact verified_candidate s m r b' work mid lt member (by
        obtain rfl : b = b' := by simpa [target] using member
        exact verified good)
    · rw [work] at serial; cases serial
      exact dataStampEnded_carried _ r ok mid lt (unwound_early engine work)
  | void u b n =>
    cases inFlight
    refine ⟨move, unwindVoidEnded_stamps _ u b n ok ground mid (holds.1.2 b holds.2) verified, fun S serial => ?_,
      no_voids law (by simp [work]) (by simp [work])⟩
    rw [work] at serial; cases serial
    exact unwindVoidEnded_carried _ u b n ok mid verified
  | erase b =>
    cases inFlight
    refine ⟨move, eraseEnded_stamps _ b ok ground fun good j _ high => ?_, fun S serial => ?_,
      no_voids law (by simp [work]) (by simp [work])⟩
    · have erased := verified good (4096 + j) (by omega)
      rwa [show dataAddr b (4096 + j) = spareAddr b j from (Nat.add_assoc ..).symm] at erased
    · rw [work] at serial; cases serial
  | freeStamp b =>
    cases inFlight
    refine ⟨move, freeStampEnded_stamps _ b ok ground mid holds verified, fun S serial => ?_,
      no_voids law (by simp [work]) (by simp [work])⟩
    rw [work] at serial; cases serial
  | mountVoid b rest n =>
    cases inFlight
    refine ⟨move, mountVoidEnded_stamps _ b rest n ok ground (law_members law), fun S serial => ?_, fun _ x mem => ?_⟩
    · rw [work] at serial; cases serial
    · unfold State.toVoid at mem
      rw [work] at mem
      exact mountVoidEnded_toVoid { s with flash := m } b rest n ok verified x mem
  | retire _ retiring =>
    subst work
    obtain ⟨c, rfl⟩ := inFlight_retire retiring inFlight
    have mark : ok = true → ∀ b, s.eng.work.inFlight = some (.retire b) → m.read (spareAddr b 33) ≠ 0xFF := fun good b own => by
      obtain rfl : c = b := by simpa [inFlight] using own
      exact verified good
    refine ⟨move, retireEnded_stamps _ ok ground (law_members law) mid holds retiring mark,
      fun S serial => retireEnded_carried { s with flash := m } ok mid holds retiring mark S serial, fun sound => ?_⟩
    by_cases voiding : ∃ b rest step, s.eng.work = .mountVoid b rest step
    · obtain ⟨b, rest, step, work⟩ := voiding
      rw [work] at retiring
      cases step with
      | void n => cases retiring
      | retire n =>
        intro x mem
        unfold State.toVoid at mem
        rw [work] at mem
        exact retireEnded_toVoid { s with flash := m } b rest n ok work (fun good => mark good b (by rw [work]; rfl)) sound x mem
    · push Not at voiding
      exact no_voids law (by rintro idle; rw [idle] at retiring; cases retiring) voiding sound

theorem failed_carries {s : State} (law : Law s) (engine : s.EngineLaw) {m : Memory} {op : FlashOp}
    (inFlight : s.eng.work.inFlight = some op) (ground : Ground { s with flash := m })
    (mid : WorkMid m s.map.nextSerial s.eng.markFault s.eng.work) : Carries s m (State.opFailed { s with flash := m }) := by
  have holds := work_of s law
  refine ⟨opFailed_move _, opFailed_stamps _ op ground (law_members law) mid holds inFlight (fun r work => unwound_early engine work),
    fun S serial => opFailed_carried { s with flash := m } mid holds inFlight (fun r work => unwound_early engine work) S serial,
    fun sound => ?_⟩
  by_cases voiding : ∃ b rest step, s.eng.work = .mountVoid b rest step
  · obtain ⟨b, rest, step, work⟩ := voiding
    intro x mem
    unfold State.toVoid at mem
    rw [work] at mem
    exact opFailed_toVoid { s with flash := m } b rest step work sound x mem
  · push Not at voiding
    exact no_voids law (by rintro idle; rw [idle] at inFlight; cases inFlight) voiding sound

/-- A move of the engine that leaves the array alone, from a commit or an unwinding, or from no work. -/
theorem carries_still {s t : State} (law : Law s) (move : EngineMove s t) (stamps : StampsOk t)
    (serial : ∀ S, s.eng.work.unflipped = some S → Carried s.flash t S)
    (same : t = s ∨ s.toVoid = []) : Carries s s.flash t := by
  refine ⟨move, stamps, serial, fun _ b mem => ?_⟩
  rcases same with rfl | none
  · exact .inl mem
  · rw [none] at mem; cases mem

/-- Array `m` holds all groups as the array of `s` does: the operation in flight adds to the group at work only. -/
def KeepsArray (s : State) (m : Memory) : Prop :=
  s.eng.markFault = false → Arrayed s.flash s.map.entry s.eng.work.unflipped s.toVoid →
    Arrayed m s.map.entry s.eng.work.unflipped s.toVoid

theorem op_keepsArray {s : State} (law : Law s) (stamps : StampsOk s) {m : Memory} {op : FlashOp}
    (inFlight : s.eng.work.inFlight = some op) (wrote : OpWrote s op m) : KeepsArray s m :=
  fun sound => op_arrayed s law stamps sound inFlight wrote

theorem same_keepsArray (s : State) : KeepsArray s s.flash := fun _ A => A

theorem idle_voids {s : State} (idle : s.eng.work = .idle) (stage : s.mount.stage ≠ .built) : s.toVoid = [] := by
  unfold State.toVoid
  rw [idle]
  exact if_neg stage

theorem takeUnwind_other (s : State) (i : SessionId) (other : ∀ r step, s.eng.work ≠ .commit r step) : s.takeUnwind i = s := by
  unfold State.takeUnwind
  split
  · next r step work => exact absurd work (other r step)
  · rfl

theorem stamps_ses {s : State} {u : SessionUnit} (h : StampsOk s) : StampsOk { s with ses := u } :=
  ⟨h.next, h.below, h.free, h.work, h.start⟩

/-- The engine's own events, while no pass of a mount runs. -/
theorem engine_carries {s t : State} (h : EngineEvent s t) (law : Law s) (engine : s.EngineLaw) (stamps : StampsOk s) :
    ∃ m, Carries s m t ∧ KeepsArray s m := by
  have holds := work_of s law
  have pool := free_pool law
  cases h with
  | completed w next h =>
    unfold State.completeOp
    split
    · next op inFlight =>
      have wrote := opWrote_after s op w inFlight (line_in_range s stamps.work inFlight)
      obtain ⟨ground, mid⟩ := op_ended s _ op stamps pool holds inFlight wrote
      exact ⟨_, completion_carries law engine h inFlight ground mid _ (verified_ok s op _).1, op_keepsArray law stamps inFlight wrote⟩
    · exact ⟨_, carries_still law (.refl s) stamps (fun S serial _ => .inl serial) (.inl rfl), same_keepsArray s⟩
  | timeout cut op inFlight =>
    have wrote := opWrote_cut s op cut (line_in_range s stamps.work inFlight)
    obtain ⟨ground, mid⟩ := op_ended s _ op stamps pool holds inFlight wrote
    exact ⟨_, failed_carries law engine inFlight ground mid, op_keepsArray law stamps inFlight wrote⟩
  | choice =>
    refine ⟨_, carries_still law (choiceEvent_move s) (choiceEvent_stamps s stamps pool (law_members law)) ?_ ?_, same_keepsArray s⟩
    all_goals by_cases due : s.running = true ∧ s.mount.condition = .ready ∧ s.eng.work = .idle
    · intro S serial
      rw [due.2.2] at serial; cases serial
    · rw [show s.choiceEvent = s from if_neg due]
      exact fun S serial _ => .inl serial
    · have ended : s.mount.stage = .ended := law.2.1.1 due.2.1
      exact .inr (idle_voids due.2.2 (by simp [ended]))
    · exact .inl (if_neg due)
  | boundary taken =>
    refine ⟨_, carries_still law (boundary_move s t taken) (boundaryHandoff_stamps s t stamps pool holds taken)
      (fun S serial => boundaryHandoff_carried s t stamps holds taken S serial) ?_, same_keepsArray s⟩
    unfold execBoundaryHandoff at taken
    split at taken
    · next r work => exact .inr (toVoid_working law.2 (by simp [work]) (by simp [work]))
    · cases taken; exact .inl rfl
  | unwindRequest i =>
    have stamps' := stamps_ses (u := { s.ses with unwindRequest := none }) stamps
    refine ⟨_, ⟨?_, takeUnwind_stamps _ i stamps' pool holds,
      fun S serial => takeUnwind_carried { s with ses := { s.ses with unwindRequest := none } } i stamps' holds S serial, ?_⟩,
      same_keepsArray s⟩
    · exact (hands_move s s.ses.failure none).trans (takeUnwind_move _ i)
    · by_cases commit : ∃ r step, s.eng.work = .commit r step
      · obtain ⟨r, step, work⟩ := commit
        exact no_voids law (by simp [work]) (by simp [work])
      · push Not at commit
        have other := takeUnwind_other { s with ses := { s.ses with unwindRequest := none } } i commit
        rw [other]
        exact fun _ b mem => .inl mem

theorem engine_groups {s t : State} (h : EngineEvent s t) (law : Law s) (engine : s.EngineLaw) (scan : s.ScanLaw)
    (stamps : s.StampLaw) : GroupsKept s t := by
  rcases engine_ends h law with ends | rested
  · obtain ⟨m, _, mount, _⟩ := ends.ends
    obtain ⟨m, carries, keeps⟩ := engine_carries h law engine (stampsOk_of stamps ends.noScan)
    refine ⟨scan_ends ends.noScan mount, stampLaw_of carries.stamps, fun sound after A => ?_, fun k => absurd k ends.noScan⟩
    exact ends_array ends.noScan mount carries.move (keeps sound ((arrayLaw_iff s ends.noScan).1 A)) after carries.serial
      (carries.voids after)
  · exact rested_groups rested scan stamps

/-! ### Every event -/

/-- The array after a reset is that before it, or what the cut left; and the next mount recovers it (R3, R91, R92). -/
theorem cleared_groups {s t : State} (h : Cleared s t) (law : Law s) (stamps : s.StampLaw) : GroupsKept s t := by
  obtain ⟨fault, eng⟩ := h.eng
  obtain ⟨cause, mount⟩ := h.mount
  obtain ⟨scan', stamps'⟩ := reset_stamps t h.bm fault eng cause mount
  refine ⟨scan', stamps', fun sound _ A => ?_, fun stage => ?_⟩
  · rw [arrayLaw_scan t (by rw [mount]; rfl)]
    rcases h.flash with same | ⟨cut, left⟩
    · rw [same]; exact still_recovers s stamps sound A
    · rw [left]; exact cut_recovers s cut law stamps sound A
  · rcases h.flash with same | ⟨cut, left⟩
    · exact same
    · have idle : s.eng.work = .idle := law.2.2.1 (.inl stage)
      rw [left]
      unfold State.cutFlash
      rw [idle]; rfl

theorem flip_groups {s : State} (law : Law s) (stamps : s.StampLaw) {r : CommitRec}
    (work : s.eng.work = .commit r .flipRequested) (x : Option FlipWork) :
    GroupsKept s (State.setWork { s.flipMembers r with map := { (s.flipMembers r).map with flip := x } } (.commit r .flipTaken)) := by
  obtain ⟨noScan, _⟩ := stage_of_working s law (by rw [work]; simp)
  have ok := stampsOk_of stamps noScan
  refine ⟨scan_of_stage ?_, stampLaw_of (flip_stamps s r law ok work x), fun sound _ A => ?_, fun k => absurd k noScan⟩
  · rw [flipMembers_frame]; exact noScan
  · exact flip_array s r law ok work sound x noScan A

/-- Pass 1 takes a block: the array stays as it is (R114, R116). -/
theorem scan_groups {s : State} (law : Law s) (scan : s.ScanLaw) (stamps : s.StampLaw) (h : s.mount.position < 512)
    (stage : s.mount.stage = .scan) : GroupsKept s (s.scanBlock ⟨s.mount.position, h⟩) := by
  have flash : (s.scanBlock ⟨s.mount.position, h⟩).flash = s.flash := by
    rw [scanBlock_frame]
  obtain ⟨stage', _⟩ := scanBlock_stage s ⟨s.mount.position, h⟩
  refine ⟨scan_scan s h stage scan, scan_stamps s _ law stage rfl stamps, fun _ _ A => ?_, fun _ => flash⟩
  rw [arrayLaw_scan s stage] at A
  rw [arrayLaw_scan _ (stage'.trans stage), flash]
  exact A

theorem build_groups {s : State} (law : Law s) (scan : s.ScanLaw) (stamps : s.StampLaw) (stage : s.mount.stage = .scan)
    (scanned : 512 ≤ s.mount.position) : GroupsKept s s.buildTables := by
  obtain ⟨bm, map, mount, same, _⟩ := buildTables_frame s
  refine ⟨scan_of_stage (by rw [built_mount]; simp), build_stamps s law stage scanned scan stamps,
    fun _ _ A => build_array s law stage scanned scan A, fun _ => by rw [same]⟩

theorem mountVoidNext_mount (s : State) (l : List BlockId) :
    (s.mountVoidNext l).mount = s.mount ∨ (s.mountVoidNext l).mount = s.mount.finish := by
  cases l with
  | cons b rest => exact .inl rfl
  | nil => exact .inr (choiceEvent_mount _)

/-- Where the mount-void list is what is still to be voided, it stays so when the engine turns to it (R123). -/
theorem mountVoidNext_array {s : State} {l : List BlockId} (noScan : s.mount.stage ≠ .scan)
    (A : Arrayed s.flash s.map.entry none l) : (s.mountVoidNext l).ArrayLaw := by
  have move := mountVoidNext_move s l
  have stage : (s.mountVoidNext l).mount.stage ≠ .scan := by
    rcases mountVoidNext_mount s l with e | e <;> rw [e]
    · exact noScan
    · simp [Mount.finish]
  have entry : (s.mountVoidNext l).map.entry = s.map.entry := funext fun q => by unfold MapUnit.entry; rw [move.pages]
  rw [arrayLaw_iff _ stage, move.flash, entry]
  exact A.carry (fun S serial => (nomatch serial)) fun b mem => .inl (mountVoidNext_toVoid s l b mem)

/-- The mount begins to void: the blocks to be voided are those of its list (R123). -/
theorem load_groups {s : State} (law : Law s) (stamps : s.StampLaw) (stage : s.mount.stage = .built) (prot : Protection) :
    GroupsKept s (State.mountVoidNext { s with prot := prot, mount := { s.mount with stage := .voiding, voidList := [] } }
      s.mount.voidList) := by
  have noScan : s.mount.stage ≠ .scan := by simp [stage]
  have idle : s.eng.work = .idle := law.2.2.1 (.inr stage)
  have unready : ¬ s.Ready := fun ready => by have := law.2.1.1 ready; rw [stage] at this; cases this
  have ok := stampsOk_of stamps noScan
  have pool := free_pool law
  have start := noStart_of stamps unready
  have members := law_members law
  refine ⟨?_, stampLaw_of (mountVoidNext_stamps _ _ ⟨ok.next, ok.below, ok.free, pool, start⟩ members),
    fun _ _ A => mountVoidNext_array (by simp) ?_, fun k => absurd k noScan⟩
  · exact scan_ends (s := { s with mount := { s.mount with stage := .voiding, voidList := [] } }) (by simp)
      (mountVoidNext_mount _ _)
  · have arrayed := (arrayLaw_iff s noScan).1 A
    have voids : s.toVoid = s.mount.voidList := by
      unfold State.toVoid
      rw [idle]
      exact if_pos stage
    rw [idle, voids] at arrayed
    exact arrayed

theorem kind_groups {s t : State} (h : Kind s t) (law : Law s) (engine : s.EngineLaw) (scan : s.ScanLaw) (stamps : s.StampLaw) :
    GroupsKept s t := by
  cases h with
  | cleared h => exact cleared_groups h law stamps
  | engine h => exact engine_groups h law engine scan stamps
  | rested h => exact rested_groups h scan stamps
  | portReset p =>
    exact untouched_groups (portReset_untouched s p) (fun _ => rfl) (.inl rfl) scan stamps
  | flip r work x => exact flip_groups law stamps work x
  | scan h stage => exact scan_groups law scan stamps h stage
  | build stage scanned => exact build_groups law scan stamps stage scanned
  | load stage prot => exact load_groups law stamps stage prot

theorem GroupsKept.trans {s t u : State} (h : GroupsKept s t) (k : GroupsKept t u) (mount : t.mount = s.mount)
    (fault : t.eng.markFault = s.eng.markFault) : GroupsKept s u :=
  ⟨k.scan, k.stamps, fun before after A => k.array (fault.trans before) after (h.array before (fault.trans before) A),
    fun stage => (k.still (by rw [mount]; exact stage)).trans (h.still stage)⟩

/-- A frame touches no group. -/
theorem talk_groups {s t : State} (h : Talk s t) (scan : s.ScanLaw) (stamps : s.StampLaw) :
    GroupsKept s t ∧ t.mount = s.mount ∧ t.eng.markFault = s.eng.markFault := by
  induction h with
  | refl s => exact ⟨⟨scan, stamps, fun _ _ A => A, fun _ => rfl⟩, rfl, rfl⟩
  | trans _ _ ih ih' =>
    obtain ⟨first, mount, fault⟩ := ih scan stamps
    obtain ⟨second, mount', fault'⟩ := ih' first.scan first.stamps
    exact ⟨first.trans second mount fault, mount'.trans mount, fault'.trans fault⟩
  | link h =>
    have steady := h.steady
    exact ⟨steady_groups steady (fun k start => ⟨k, by rw [h.frame] at start; exact start, rfl⟩) scan stamps,
      steady.mount, steady.markFault⟩
  | answered p h =>
    have steady := RequestKept.steady (answered_kept h)
    exact ⟨steady_groups steady (answered_start h) scan stamps, steady.mount, steady.markFault⟩

theorem step_groups {s t : State} (taken : step s = .next t) (law : Law s) (engine : s.EngineLaw) (scan : s.ScanLaw)
    (stamps : s.StampLaw) : GroupsKept s t := by
  rcases step_event taken with ⟨_, same⟩ | ⟨c, rest, _, event⟩
  · rw [same]; exact (talk_groups (.refl s) scan stamps).1
  · have kept : GroupsKept { s with pending := rest } t := by
      rcases event_talk event with talk | act
      · exact (talk_groups talk scan stamps).1
      · exact kind_groups (act_kind act) law engine scan stamps
    exact ⟨kept.scan, kept.stamps, kept.array, kept.still⟩

/-! ### What a mount shows -/

/-- At the end of pass 1 the tables map each page as the array shows it (R117 to R121). -/
theorem tableBuild_shows {s t : State} (mountLaw : s.MountLaw) (scan : s.ScanLaw) (due : s.Due .mountTableBuild)
    (taken : exec .mountTableBuild s = .next t) : t.flash = s.flash ∧ ∀ q e, t.map.entry q = some e ↔ s.flash.Shows q e := by
  obtain ⟨_, stage, scanned⟩ := id due
  have built : t = s.buildTables := by
    have run : exec .mountTableBuild s = .next s.buildTables := if_pos due
    rw [run] at taken
    cases taken; rfl
  obtain ⟨few, tally, _⟩ := scan stage
  have tallied : s.mount.tally = s.flash.tallied 512 := by rw [tally, show s.mount.position = 512 by omega]
  obtain ⟨bm, map, mount, same, _⟩ := buildTables_frame s
  rw [built]
  exact ⟨by rw [same], built_shows s mountLaw tallied⟩

/-- A loss of the supply or a reset cuts the operation in flight (R3, R91). -/
theorem cut_flash {s t : State} {cut : Cut} {c : Instr} (supplied : s.power.supplied = true)
    (reset : c = .powerLoss cut ∨ c = .resetAssert cut ∧ s.power.resetLow = false) (taken : exec c s = .next t) :
    t.flash = (s.cutFlash cut).flash := by
  rcases reset with rfl | ⟨rfl, high⟩
  · have run : exec (.powerLoss cut) s = .next (s.supplyLost cut) := if_pos supplied
    rw [run] at taken
    cases taken; rfl
  · have run : execResetAssert cut s = .next t := taken
    unfold execResetAssert at run
    rw [if_neg (by simp [high]), if_pos supplied] at run
    cases run; rfl

/-- An operation leaves the data of every other block. -/
theorem data_other {s : State} {op : FlashOp} {m : Memory} (h : OpWrote s op m) {b : BlockId} (other : b ≠ op.block) {o : Nat}
    (low : o < 4096) : m.read (dataAddr b o) = s.flash.read (dataAddr b o) := by
  have apart : b.val ≠ op.block.val := fun e => other (Fin.ext e)
  refine h.outside _ ?_
  cases op with
  | line c k =>
    have := h.line k rfl
    simp only [FlashOp.start, FlashOp.size, dataAddr, Config.blockBytes, Config.lineBytes, FlashOp.block] at *
    omega
  | _ c =>
    simp only [FlashOp.start, FlashOp.size, spareAddr, dataAddr, Config.blockBytes, Config.pageBytes, FlashOp.block] at *
    omega

/-- A cut leaves the bytes of every mapped page. -/
theorem cut_mapped {s : State} (law : Law s) (stamps : s.StampLaw) (cut : Cut) {q : PageId} {e : MapEntry}
    (mapped : s.map.entry q = some e) {o : Nat} (low : o < 4096) :
    (s.cutFlash cut).flash.read (dataAddr e.block o) = s.flash.read (dataAddr e.block o) := by
  cases inFlight : s.eng.work.inFlight with
  | none =>
    unfold State.cutFlash
    rw [inFlight]
  | some op =>
    have busy : s.eng.work ≠ .idle := by rintro idle; rw [idle] at inFlight; cases inFlight
    have ok := stampsOk_of stamps (stage_of_working s law busy).1
    have wrote := opWrote_cut s op cut (line_in_range s ok.work inFlight)
    rw [cutFlash_some s cut op inFlight]
    exact data_other wrote (mapped_spare s law inFlight wrote mapped) low

/-- What a cut leaves of the group of a commit (R73 to R76, R91, R92). -/
structure CutCommit (m : Memory) (next : Nat) (r : CommitRec) (step : CommitStep) : Prop where
  group : GroupMid m next false r step
  below : Below m next
  lt : r.member < r.pages.length
  upTo : ∀ k, k ≤ r.member → ∃ b, r.targets[k]? = some (some b)

theorem cut_commit {s : State} (law : Law s) (stamps : s.StampLaw) (sound : s.eng.markFault = false) (cut : Cut) {r : CommitRec}
    {step : CommitStep} (work : s.eng.work = .commit r step) : CutCommit (s.cutFlash cut).flash s.map.nextSerial r step := by
  have ok := stampsOk_of stamps (stage_of_working s law (by rw [work]; simp)).1
  have holds := work_of s law
  obtain ⟨below, mid⟩ := cut_group s cut ok (free_pool law) holds
  rw [work] at mid holds
  rw [sound] at mid
  obtain ⟨_, _, lt, upTo, _⟩ := holds
  exact ⟨mid, below, lt, upTo⟩

theorem CutCommit.within {m : Memory} {next : Nat} {r : CommitRec} {step : CommitStep} (h : CutCommit m next r step) :
    m.GroupWithin r (r.member + 1) := h.group.base.within rfl

theorem CutCommit.shown {m : Memory} {next : Nat} {r : CommitRec} {step : CommitStep} (h : CutCommit m next r step) :
    m.GroupComplete r.serial ↔ ∃ b, r.targets[r.pages.length - 1]? = some (some b)
      ∧ m.candidate b = some (r.stamp (r.pages.length - 1)) :=
  group_shown m next r step h.group h.below h.lt h.upTo

/-- From the request of the flip on the group is complete (R85, R86). -/
theorem CutCommit.complete {m : Memory} {next : Nat} {r : CommitRec} {step : CommitStep} (h : CutCommit m next r step)
    (flip : step = .flipRequested ∨ step = .flipTaken) : m.GroupComplete r.serial := by
  obtain ⟨last, stamped⟩ := h.group.stamped flip
  obtain ⟨b, target⟩ := h.upTo r.member (Nat.le_refl _)
  have index : r.pages.length - 1 = r.member := by omega
  rw [h.shown, index]
  exact ⟨b, target, stamped b target⟩

/-- No stamp has a higher serial than the group of the commit. -/
theorem CutCommit.top {m : Memory} {next : Nat} {r : CommitRec} {step : CommitStep} (h : CutCommit m next r step)
    (b : BlockId) (st : DataStamp) (k : m.candidate b = some st) : st.serial ≤ r.serial := by
  have below := h.below b st ((candidate_iff m b st).1 k).2.2.2
  have serial := h.group.base.stampable.1
  omega

theorem cut_unwind {s : State} (law : Law s) (stamps : s.StampLaw) (sound : s.eng.markFault = false) (cut : Cut) {u : UnwindRec}
    {step : UnwindStep} (work : s.eng.work = .unwind u step) : ¬ (s.cutFlash cut).flash.GroupComplete u.serial := by
  have ok := stampsOk_of stamps (stage_of_working s law (by rw [work]; simp)).1
  obtain ⟨below, mid⟩ := cut_group s cut ok (free_pool law) (work_of s law)
  rw [work, sound] at mid
  exact group_hidden _ _ u mid below

theorem cut_array {s : State} (law : Law s) (stamps : s.StampLaw) (sound : s.eng.markFault = false) (A : s.ArrayLaw)
    (noScan : s.mount.stage ≠ .scan) (cut : Cut) :
    Arrayed (s.cutFlash cut).flash s.map.entry s.eng.work.unflipped s.toVoid :=
  cut_arrayed s cut law (stampsOk_of stamps noScan) sound ((arrayLaw_iff s noScan).1 A)

/-- After a cut, a page that no complete commit holds is shown as the Page Map had it (R92, R120). -/
theorem cut_shows_mapped {s : State} (law : Law s) (stamps : s.StampLaw) (sound : s.eng.markFault = false) (A : s.ArrayLaw)
    (noScan : s.mount.stage ≠ .scan) (cut : Cut) (q : PageId)
    (other : ∀ (r : CommitRec) (step : CommitStep), s.eng.work = .commit r step → q ∈ r.pages →
      ¬ (s.cutFlash cut).flash.GroupComplete r.serial) (e : MapEntry) :
    (s.cutFlash cut).flash.Shows q e ↔ s.map.entry q = some e := by
  refine (cut_array law stamps sound A noScan cut).shows_mapped q (fun b st candidate unflipped complete page => ?_) e
  generalize work : s.eng.work = w at unflipped
  cases w with
  | idle | erase | mountVoid => cases unflipped
  | unwind u step =>
    obtain serial : u.serial = st.serial := Option.some.inj unflipped
    exact cut_unwind law stamps sound cut work (serial ▸ complete)
  | commit r step =>
    have serial : r.serial = st.serial := by
      unfold Work.unflipped at unflipped
      simp only at unflipped
      split at unflipped
      · cases unflipped
      · exact Option.some.inj unflipped
    obtain ⟨_, _, own⟩ := (cut_commit law stamps sound cut work).within b st candidate serial.symm
    refine other r step work ?_ (serial ▸ complete)
    have mem := page_mem (candidate_stamp candidate)
    rw [page, own] at mem
    exact mem

/-- Settles O15: the groups event by event (`GroupsKept`), the tables at the end of pass 1, and what a cut leaves. -/
theorem groupsShownWhole : Obligations.GroupsShownWhole := by
  unfold Obligations.GroupsShownWhole
  refine ⟨fun s t taken blocks mountLaw engine scan stamps => ?_, fun s t => tableBuild_shows, ?_⟩
  · have kept := step_groups taken ⟨blocks, mountLaw⟩ engine scan stamps
    exact ⟨kept.scan, kept.stamps, kept.array, kept.still⟩
  · intro s t cut c blocks mountLaw stamps supplied reset taken sound
    have law : Law s := ⟨blocks, mountLaw⟩
    rw [cut_flash supplied reset taken]
    refine ⟨fun r step work => ?_, fun u step work => cut_unwind law stamps sound cut work, fun A noScan q => ⟨?_, ?_, ?_⟩⟩
    · have left := cut_commit law stamps sound cut work
      exact ⟨left.shown, left.complete⟩
    · intro r step i work page complete e
      have left := cut_commit law stamps sound cut work
      obtain ⟨_, _, _, some, _, distinct⟩ := left.group.base.stampable
      exact shows_target (cut_array law stamps sound A noScan cut).agrees r _ left.within distinct left.top some complete i q page e
    · exact cut_shows_mapped law stamps sound A noScan cut q
    · exact fun e mapped o low => cut_mapped law stamps cut mapped low

end Sys2Proof.Proofs.Groups

/-! The machine's step (O1), and the part right after reset: what its tables, ports and flags hold (O2), and that the laws hold of it
(O55). -/

namespace Sys2Proof.Proofs.AtReset

open Sys2Proof Sys2Proof.Machine Sys2Proof.Laws

/-- Settles O1: the step is the case split on the queue. -/
theorem stepTakesTheFrontCommand : Obligations.StepTakesTheFrontCommand := by
  refine ⟨fun c s rest => rfl, fun s empty => ?_⟩
  unfold step
  rw [empty]

/-! ### The records of the state at reset -/

theorem reset_port (p : PortId) : State.reset.port p = Port.reset := by simp [State.reset, State.port]

theorem reset_session (i : SessionId) : State.reset.ses.session i = Session.freeSlot := by
  simp [State.reset, SessionUnit.reset, SessionUnit.session]

theorem reset_claim (q : PageId) : State.reset.ses.claim q = none := by
  simp [State.reset, SessionUnit.reset, SessionUnit.claim]

theorem reset_notice (p : PortId) : State.reset.notice p = NoticePort.reset := by simp [State.reset, State.notice]

theorem reset_tables : State.reset.TablesReset := clear_reset State.reset State.reset rfl rfl rfl ⟨false, rfl⟩ rfl rfl ⟨.powerOn, rfl⟩

theorem reset_alert (p : PortId) : State.reset.alertAsserted p = false := by
  unfold State.alertAsserted
  rw [reset_port]
  rfl

/-- Settles O2: the tables are those of a clear, and every port is that of Table 43. -/
theorem resetLeaves : Obligations.ResetLeaves := by
  refine ⟨reset_tables, rfl, rfl, rfl, rfl, rfl, fun p => ?_⟩
  rw [reset_port]
  exact ⟨rfl, rfl, rfl, rfl, rfl, rfl, reset_alert p⟩

/-! ### The laws at reset -/

theorem reset_alertLaw : State.reset.AlertLaw := by
  intro p
  simp [reset_alert, State.OwnsFinished, reset_session, Session.freeSlot, reset_notice, NoticePort.reset]

theorem reset_noticeLaw : State.reset.NoticeLaw := by
  intro p
  rw [reset_notice]
  simp [NoticePort.reset]

theorem reset_claimLaw : State.reset.ClaimLaw := by
  intro page i
  simp [reset_claim, reset_session, Session.freeSlot, SessionState.holds]

theorem reset_bufferLaw : State.reset.BufferLaw := by
  refine ⟨fun i => by simp [reset_session, Session.freeSlot, SessionState.holds], ?_⟩
  unfold SessionUnit.buffersInUse
  simp only [reset_session]
  decide

theorem reset_frameLaw : State.reset.FrameLaw := by
  intro p
  rw [reset_port]
  exact ⟨fun _ => ⟨rfl, rfl, rfl, .inl rfl⟩, fun request => (nomatch request), fun g taken => (nomatch taken)⟩

theorem reset_attachLaw : State.reset.AttachLaw := by
  intro p
  unfold SessionUnit.attached SessionUnit.attachedTo
  simp [reset_session, Session.freeSlot]

theorem reset_mappedLaw : State.reset.MappedLaw := by
  unfold State.MappedLaw
  simp [State.reset, MapUnit.reset, MapUnit.entry]

/-- A blank array holds no group, so that a mount recovers it. -/
theorem reset_arrayLaw : State.reset.ArrayLaw :=
  (arrayLaw_scan State.reset rfl).2 (blank_recovers State.reset.flash fun _ => rfl)

/-- Settles O55, law by law. -/
theorem lawsAtReset : Obligations.LawsAtReset := by
  obtain ⟨blockLaw, mountLaw⟩ := reset_law State.reset .powerOn rfl rfl rfl rfl rfl
  obtain ⟨pinLaw, poolLaw, voidingLaw⟩ := reset_pins State.reset rfl (fun p => by rw [reset_port]; rfl) rfl .powerOn rfl
  obtain ⟨scanLaw, stampLaw⟩ := reset_stamps State.reset rfl false rfl .powerOn rfl
  have leaseLaw : State.reset.LeaseLaw := fun p => by rw [reset_port]; decide
  exact ⟨wf_nil, rfl, reset_alertLaw, reset_noticeLaw, reset_claimLaw, reset_bufferLaw, fun _ => reset_claim _, rfl, leaseLaw,
    reset_frameLaw, blockLaw, mountLaw, queue_reset _ rfl false rfl, reset_attachLaw, engine_reset _ rfl rfl false rfl, pinLaw,
    poolLaw, reset_mappedLaw, voidingLaw, scanLaw, stampLaw, reset_arrayLaw⟩

end Sys2Proof.Proofs.AtReset

/-! Requests in a frame: the taking of a request by its parameter bytes, NOT_READY while MOUNTING (O3), and the answers to READ (O5),
MAP_QUERY (O6) and LEASE_SET (O18). -/

namespace Sys2Proof.Proofs.Requests

open Sys2Proof Sys2Proof.Machine Sys2Proof.Laws

/-! ### The frame of a request -/

/-- Table 45 and R167 count the bytes of every request's frame. -/
theorem length_frame {c : Instr} {p : PortId} {bytes : List Byte} (formed : c.wellFormed = true) (port : c.requestPort = some p)
    (frame : encodeFrame c = some bytes) : bytes.length = 1 + FrameLength.params c := by
  have counted : FrameLength.Statement c := by
    cases c with
    | openSession q count pages => exact FrameLength.openSession q count pages
    | stage q sid member offset length data => exact FrameLength.stage q sid member offset length data
    | _ => exact fun _ => rfl
  have lengths := counted formed
  rw [frame, port] at lengths
  exact Option.some.inj lengths

/-- Every request but STATUS and an unknown code asks whether the part is READY. -/
theorem exec_asks_ready {c : Instr} {p : PortId} (formed : c.wellFormed = true) (port : c.requestPort = some p)
    (known : c ≠ .status p) (named : ∀ code, c ≠ .unknownRequestCode p code) (s : State) :
    ∃ f, exec c s = .next (s.takeRequest p (FrameLength.params c) fun t => t.whenReady f) := by
  cases c <;> simp only [Instr.requestPort, reduceCtorEq, Option.some.injEq] at port <;> subst port
  case status => exact absurd rfl known
  case unknownRequestCode code => exact absurd rfl (named code)
  case openSession q count pages =>
    have exact_length : pages.length = openPageCount count := of_decide_eq_true formed
    refine ⟨State.answerOpen q pages, ?_⟩
    show execOpenSession q count pages s = .next (s.takeRequest q (1 + 2 * openPageCount count) _)
    rw [execOpenSession, openOperands_eq count pages exact_length, ← exact_length]
  case stage q sid member offset length data =>
    have exact_length : data.length = stageDataCount length := of_decide_eq_true formed
    refine ⟨State.answerStage q sid member offset length data, ?_⟩
    show execStage q sid member offset length data s = .next (s.takeRequest q (6 + stageDataCount length) _)
    rw [execStage, stageOperands_eq length data exact_length, ← exact_length]
  all_goals exact ⟨_, rfl⟩

/-- Settles O3: the owner of the request is not asked. -/
theorem mountingRefusesRequests : Obligations.MountingRefusesRequests := by
  intro c p bytes s formed frame port known named receiving mounting
  obtain ⟨f, taking⟩ := exec_asks_ready formed port known named s
  rw [taking, Freeze.takeRequest_mounting s p _ f receiving mounting, length_frame formed port frame, Nat.add_comm]

/-! ### READ -/

theorem exec_read_ready (p : PortId) (page offset length : Half) (s : State) (receiving : s.Receiving p) (ready : s.Ready) :
    exec (.read p page offset length) s = .next ((s.answerRead p page offset length).taken p 6) :=
  congrArg Host.Outcome.next (takeRequest_ready s p 6 _ receiving ready)

theorem readInRange_iff (page offset length : Half) : readInRange page offset length = true ↔
    page.toNat ≤ 463 ∧ 1 ≤ length.toNat ∧ length.toNat ≤ 16384
      ∧ 4096 * page.toNat + offset.toNat + length.toNat ≤ 1900544 := by
  simp [readInRange, Config.maxRead, Config.pageBytes, Config.logicalBytes, and_assoc]

/-- The stream of a READ stands on its first page, which is translated and pinned (R173). -/
theorem createStream_eq (s : State) (p : PortId) (start length : Nat) (first : PageId) (page : first.val = start / 4096) :
    s.createStream p start length = State.setPort { s with bm := s.bm.pinPage (s.map.currentBlock first) } p
      { s.port p with stream := some { page := first, position := start % 4096, pinned := s.map.currentBlock first,
                                       bytesLeft := length } } := by
  have low : start / Config.pageBytes < 464 := page ▸ first.isLt
  have named : (⟨start / Config.pageBytes, low⟩ : PageId) = first := Fin.ext page.symm
  unfold State.createStream
  rw [dif_pos low, named]
  rfl

/-- Settles O5: the range checks, the permission of every page, and the stream. -/
theorem readAnswers : Obligations.ReadAnswers := by
  intro p page offset length s receiving ready start c
  have run := exec_read_ready p page offset length s receiving ready
  refine ⟨fun out => ?out, fun h1 h2 h3 h4 => ?_⟩
  case out =>
    have bad : ¬ readInRange page offset length = true := by rw [readInRange_iff]; omega
    rw [run, State.answerRead, if_neg bad, refuse_taken]
    rfl
  have good : readInRange page offset length = true := (readInRange_iff ..).2 ⟨h1, h2, h3, h4⟩
  intro last
  refine ⟨fun ⟨q, low, high, denied⟩ => ?_, fun allowed => ?_⟩
  · have barred : ¬ s.prot.table.canReadRange p (start / 4096) last = true := fun all => by
      rw [(canReadRange_iff ..).1 all q low high] at denied
      cases denied
    rw [run, State.answerRead, if_pos good]
    show Host.Outcome.next (Answer.taken (if s.prot.table.canReadRange p (start / 4096) last then _ else _) p 6) = _
    rw [if_neg barred, refuse_taken]
    rfl
  · have may : s.prot.table.canReadRange p (start / 4096) last = true := (canReadRange_iff ..).2 allowed
    refine ⟨⟨start / 4096, by omega⟩, _, rfl, pins_pinPage s.bm _, ?_⟩
    rw [run, State.answerRead, if_pos good]
    show Host.Outcome.next (Answer.taken (if s.prot.table.canReadRange p (start / 4096) last then _ else _) p 6) = _
    rw [if_pos may, taken_eq, createStream_eq s p start length.toNat ⟨start / 4096, by omega⟩ rfl, State.replied, port_setPort,
      setPort_setPort]
    rfl

/-! ### MAP_QUERY -/

theorem exec_mapQuery_ready (p : PortId) (page : Half) (s : State) (receiving : s.Receiving p) (ready : s.Ready) :
    exec (.mapQuery p page) s = .next ((s.answerMapQuery page).taken p 2) :=
  congrArg Host.Outcome.next (takeRequest_ready s p 2 _ receiving ready)

theorem pageOfHalf_none {page : Half} (high : 463 < page.toNat) : pageOfHalf page = none := dif_neg (by omega)

/-- The entry of a page as MAP_QUERY spells it (R33). -/
theorem mapFields_eq (s : State) (q : PageId) (entry : List Byte) (unmapped : s.map.entry q = none → entry = [0x00, 0, 0, 0, 0, 0xFF])
    (mapped : ∀ e, s.map.entry q = some e → entry = 0x01 :: (natBytes4 e.serial ++ [BitVec.ofNat 8 e.writer.val])) :
    s.mapFields q = entry := by
  unfold State.mapFields
  cases e : s.map.entry q with
  | none => exact (unmapped e).symm
  | some e' => exact (mapped e' e).symm

theorem claimFields_eq (s : State) (q : PageId) (claim : List Byte) (unclaimed : s.ses.claim q = none → claim = [0x00, 0xFF])
    (owned : ∀ i o, s.ses.claim q = some i → (s.ses.session i).owner = some o → claim = [0x01, BitVec.ofNat 8 o.val])
    (detached : ∀ i, s.ses.claim q = some i → (s.ses.session i).owner = none → claim = [0x02, 0xFF]) : s.claimFields q = claim := by
  unfold State.claimFields
  cases c : s.ses.claim q with
  | none => exact (unclaimed c).symm
  | some i =>
    cases o : (s.ses.session i).owner with
    | none => simp only [o]; exact (detached i c o).symm
    | some o' => simp only [o]; exact (owned i o' c o).symm

/-- Settles O6: the page, its entry and its claim. -/
theorem mapQueryAnswers : Obligations.MapQueryAnswers := by
  intro p s receiving ready
  refine ⟨fun page high => ?_, fun q entry claim unmapped mapped unclaimed owned detached => ?_⟩
  · rw [exec_mapQuery_ready p page s receiving ready, State.answerMapQuery, pageOfHalf_none high]
    rfl
  · rw [exec_mapQuery_ready p _ s receiving ready, State.answerMapQuery, pageOfHalf_pageHalf]
    show Host.Outcome.next (Answer.taken { state := s, status := .ok, fields := s.mapFields q ++ s.claimFields q } p 2) = _
    rw [mapFields_eq s q entry unmapped mapped, claimFields_eq s q claim unclaimed owned detached]
    rfl

/-! ### LEASE_SET -/

theorem exec_leaseSet_ready (p : PortId) (units : Byte) (s : State) (receiving : s.Receiving p) (ready : s.Ready) :
    exec (.leaseSet p units) s = .next ((s.answerLeaseSet p units).taken p 1) :=
  congrArg Host.Outcome.next (takeRequest_ready s p 1 _ receiving ready)

/-- Settles O18: the range of the units, and the port's setting. -/
theorem leaseSetAnswers : Obligations.LeaseSetAnswers := by
  intro p units s receiving ready
  have run := exec_leaseSet_ready p units s receiving ready
  refine ⟨fun out => ?_, fun low high => ?_⟩
  · rw [run, State.answerLeaseSet, if_neg (by show ¬ (_ ∧ _ ≤ 250); omega)]
    rfl
  · rw [run, State.answerLeaseSet, if_pos ⟨low, high⟩]
    rfl

end Sys2Proof.Proofs.Requests

/-! STATUS (O7): the fields of all owners, how they spell, and the taking of the groups of some owners again while SCK rests. -/

namespace Sys2Proof.Proofs.StatusReply

open Sys2Proof Sys2Proof.Machine Sys2Proof.Laws

/-! ### The fields -/

/-- The sum of Table 55's flags holds each flag at its bit, and no other bit. -/
theorem statusFlags_bits (t : TablesGroup) (fault : Bool) (w : ProtectionGroup) :
    (statusFlags t fault w).getLsbD 0 = t.lowSpace ∧ (statusFlags t fault w).getLsbD 1 = t.serialEnd
    ∧ (statusFlags t fault w).getLsbD 2 = fault ∧ (statusFlags t fault w).getLsbD 3 = w.tableFault
    ∧ (statusFlags t fault w).getLsbD 4 = w.frozen ∧ ∀ k, 5 ≤ k → (statusFlags t fault w).getLsbD k = false := by
  unfold statusFlags natByte
  refine and_assoc.1 (and_assoc.1 (and_assoc.1 (and_assoc.1 ⟨?low, fun k high => ?above⟩)))
  case low =>
    generalize t.lowSpace = a
    generalize t.serialEnd = b
    generalize w.tableFault = d
    generalize w.frozen = e
    revert a b fault d e
    decide
  case above =>
    rw [BitVec.getLsbD_ofNat, Nat.testBit_lt_two_pow, Bool.and_false]
    refine Nat.lt_of_lt_of_le (m := 2 ^ 5) ?_ (Nat.pow_le_pow_right (by decide) high)
    split_ifs <;> decide

theorem fields_spell (g : StatusGroups) (lease : Byte) : g.Spells lease (statusByte .ok :: g.fields lease) := by
  obtain ⟨space, serial, fault, table, frozen, others⟩ := statusFlags_bits g.tables g.markFault g.protection
  exact ⟨statusFlags g.tables g.markFault g.protection, sessionStateByte, rfl, rfl, rfl, rfl, rfl, space, serial, fault, table,
    frozen, others, rfl⟩

theorem mem_attached (u : SessionUnit) (p : PortId) (i : SessionId) :
    i ∈ u.attached p ↔ (u.session i).state ≠ .free ∧ (u.session i).owner = some p := by
  simp [SessionUnit.attached, SessionUnit.attachedTo]

theorem attached_sorted (u : SessionUnit) (p : PortId) : (u.attached p).Pairwise (· < ·) :=
  List.Pairwise.filter _ (by decide)

/-- The sessions group lists the port's sessions in the order of their ids (R177). -/
theorem sessionsGroup_eq (s : State) (p : PortId) (mine : List (SessionId × SessionState))
    (sorted : (mine.map Prod.fst).Pairwise (· < ·))
    (own : ∀ i st, (i, st) ∈ mine ↔ s.Own p i ∧ (s.ses.session i).state = st) : s.sessionsGroup p = mine := by
  have ids : s.ses.attached p = mine.map Prod.fst :=
    (attached_sorted s.ses p).eq_of_mem_iff sorted fun i => by
      rw [mem_attached, List.mem_map]
      constructor
      · intro mem
        exact ⟨(i, _), (own i _).2 ⟨mem, rfl⟩, rfl⟩
      · rintro ⟨⟨j, st⟩, mem, rfl⟩
        exact ((own j st).1 mem).1
  have states : ∀ e ∈ mine, (e.1, (s.ses.session e.1).state) = e := fun e mem => by
    rw [((own e.1 e.2).1 mem).2]
  unfold State.sessionsGroup
  rw [ids, List.map_map]
  exact (List.map_congr_left states).trans (List.map_id _)

/-! ### Taking the groups again -/

theorem takingStatus_iff (r : Port) :
    r.takingStatus = true ↔ r.decoder = .turnaround ∧ r.turnaroundLeft = 2 ∧ r.bits = [] ∧ r.sckHigh = true := by
  simp [Port.takingStatus, and_assoc]

theorem mem_allOwners (o : StatusOwner) : o ∈ StatusOwner.all := by cases o <;> decide

theorem gatherStatus_taking (s : State) (p : PortId) (g : StatusGroups) (owners : List StatusOwner)
    (taken : (s.port p).statusTaken = some g) (taking : (s.port p).takingStatus = true) (some : owners ≠ [])
    (stays : ∃ o, o ∉ g.late ∧ o ∉ owners) :
    s.gatherStatus p owners = s.setPort p { s.port p with
      statusTaken := .some (g.retake (s.statusGroups p) owners)
      reply := statusByte .ok :: (g.retake (s.statusGroups p) owners).fields (s.port p).lease } := by
  obtain ⟨o, early, other⟩ := stays
  have left : StatusOwner.all.any (fun o => decide (o ∉ g.late ++ owners)) = true :=
    List.any_eq_true.2 ⟨o, mem_allOwners o, by simp [early, other]⟩
  unfold State.gatherStatus
  simp only [taken, taking, left, Bool.and_true, Bool.true_and]
  exact if_pos (by simpa using some)

/-- Where every group would be late, where no STATUS is being taken, nothing is taken. -/
theorem gatherStatus_same (s : State) (p : PortId) (owners : List StatusOwner)
    (none : ∀ g, (s.port p).statusTaken = some g → (s.port p).takingStatus = true → ∀ o, o ∈ g.late ∨ o ∈ owners) :
    s.gatherStatus p owners = s := by
  unfold State.gatherStatus
  simp only
  split
  · next g taken =>
    refine if_neg fun h => ?_
    simp only [Bool.and_eq_true, List.any_eq_true, decide_eq_true_eq, List.mem_append] at h
    obtain ⟨⟨taking, _⟩, o, _, out⟩ := h
    exact out (none g taken taking o)
  · rfl

theorem exec_takes (s : State) (p : PortId) (owners : List StatusOwner) :
    exec (.replyByteDelivery ⟨p, [], owners⟩) s = .next (s.gatherStatus p owners) := rfl

/-- STATUS is answered in every condition of the part. -/
theorem exec_status (s : State) (p : PortId) (receiving : s.Receiving p) :
    exec (.status p) s = .next ((s.answerStatus p).taken p 0) := by
  have start := (atFrameStart_iff s p).2 receiving
  show Host.Outcome.next (s.takeRequest p 0 _) = _
  rw [State.takeRequest, if_pos start]

/-- Settles O7: the fields at the status byte, and the groups taken again. -/
theorem statusAnswers : Obligations.StatusAnswers := by
  intro p s mine sorted own r now taking takes
  have groups : s.statusGroups p = now := by
    unfold State.statusGroups
    rw [sessionsGroup_eq s p mine sorted own]
    rfl
  refine ⟨fun receiving => ?_, fun g owners taken at_rest some stays => ?_, fun g owners taken all => ?_, fun idle owners => ?_⟩
  · refine ⟨_, fields_spell now r.lease, ?_⟩
    rw [exec_status s p receiving, State.answerStatus, groups]
    simp only [Answer.taken, State.replied, setPort_setPort, port_setPort]
    rfl
  · refine ⟨_, fields_spell _ r.lease, ?_⟩
    rw [exec_takes, gatherStatus_taking s p g owners taken ((takingStatus_iff _).2 at_rest) some stays, groups]
    rfl
  · rw [exec_takes, gatherStatus_same s p owners fun g' taken' _ => by
      rw [taken] at taken'
      cases taken'
      exact all]
  · rw [exec_takes, gatherStatus_same s p owners fun g taken rests => ?_]
    rcases idle with none | moving
    · rw [none] at taken; cases taken
    · exact absurd ((takingStatus_iff _).1 rests) moving

end Sys2Proof.Proofs.StatusReply

/-! The requests of a session: OPEN (O9, O10), the session checks (O11), STAGE (O12), COMMIT (O13), ABORT (O14) and COLLECT (O17), and
the expiry of a lease (O19). -/

namespace Sys2Proof.Proofs.SessionRequests

open Sys2Proof Sys2Proof.Machine Sys2Proof.Laws

/-! ### OPEN -/

theorem canWriteAll_iff (t : WindowsTable) (p : PortId) (pages : List PageId) :
    t.canWriteAll p pages = true ↔ ∀ q ∈ pages, t.canWrite p q.val = true := List.all_eq_true

theorem exec_open_ready (p : PortId) (count : Byte) (list : List Half) (s : State) (receiving : s.Receiving p) (ready : s.Ready)
    (operands : list.length = openPageCount count) :
    exec (.openSession p count list) s = .next ((s.answerOpen p list).taken p (1 + 2 * list.length)) := by
  show execOpenSession p count list s = _
  rw [execOpenSession, openOperands_eq count list operands]
  exact congrArg Host.Outcome.next (takeRequest_ready s p _ _ receiving ready)

/-- The checks of Table 11 behind those of the list itself. -/
theorem openChecked_eq (s : State) (p : PortId) (pages : List PageId) : s.openChecked p pages =
    if ¬ ∀ q ∈ pages, s.prot.table.canWrite p q.val = true then s.refuse .denied
    else if s.prot.frozen = true ∧ Config.windowsPage ∈ pages then s.refuse .frozen
    else if ∃ q ∈ pages, s.ses.claim q ≠ none then s.refuse .pageBusy
    else if 2 ≤ (s.ses.attached p).length then s.refuse .noSession
    else s.ses.lowestFree.elim (s.refuse .noSession) fun i =>
      if s.ses.freeBuffers < pages.length then s.refuse .noBuffer else s.acceptOpen p pages i := by
  simp only [State.openChecked, ← canWriteAll_iff, Bool.not_eq_true', Bool.and_eq_true, List.contains_iff_mem, List.any_eq_true,
    Option.isSome_iff_ne_none, Config.portSessions, Bool.not_eq_true]
  cases s.ses.lowestFree <;> rfl

theorem lowestFree_none {u : SessionUnit} (full : ∀ i, (u.session i).state ≠ .free) : u.lowestFree = none :=
  List.find?_eq_none.2 fun i _ => by simpa using full i

theorem lowestFree_some {u : SessionUnit} (free : ∃ i, (u.session i).state = .free) : ∃ i, u.lowestFree = some i := by
  obtain ⟨i, empty⟩ := free
  refine Option.isSome_iff_exists.1 (List.find?_isSome.2 ⟨i, List.mem_finRange i, ?_⟩)
  simp [empty]

theorem lowestFree_eq {u : SessionUnit} {i : SessionId} (free : (u.session i).state = .free)
    (lowest : ∀ j, j < i → (u.session j).state ≠ .free) : u.lowestFree = some i :=
  find_lowest _ i (by simp [free]) fun j low => by simpa using lowest j low

/-- OPEN over a list of distinct pages asks the checks of Table 11 (R40). -/
theorem answerOpen_pages (s : State) (p : PortId) (pages : List PageId) (some : pages ≠ []) (few : pages.length ≤ 4)
    (distinct : pages.Nodup) : s.answerOpen p (pages.map pageHalf) = s.openChecked p pages := by
  have good : ¬ (pages.length = 0 ∨ 4 < pages.length ∨ ¬ pages.Nodup) := by
    have := List.length_pos_iff.2 some
    simp only [distinct, not_true_eq_false, or_false]
    omega
  rw [State.answerOpen, pagesOfHalves_map]
  exact if_neg good

/-- A list that is empty, repeats a page or names none is refused (R40). -/
theorem answerOpen_bad (s : State) (p : PortId) (list : List Half)
    (bad : list = [] ∨ ¬ list.Nodup ∨ ∃ h ∈ list, 463 < h.toNat) : s.answerOpen p list = s.refuse .badRequest := by
  rcases pagesOfHalves_spec list with ⟨_, none⟩ | ⟨pages, some, rfl⟩
  · rw [State.answerOpen, none]
  · have repeats : pages.length = 0 ∨ 4 < pages.length ∨ ¬ pages.Nodup := by
      rcases bad with empty | twice | ⟨h, mem, high⟩
      · simp [List.map_eq_nil_iff.1 empty]
      · exact .inr (.inr fun nodup => twice (nodup.map pageHalf_inj))
      · obtain ⟨q, _, rfl⟩ := List.mem_map.1 mem
        have low : (pageHalf q).toNat = q.val := Nat.mod_eq_of_lt (by have := q.isLt; omega)
        omega
    rw [State.answerOpen, some]
    exact if_pos repeats

theorem openPageCount_le (count : Byte) : openPageCount count ≤ 4 := by
  unfold openPageCount
  split <;> omega

/-- Settles O10, check by check. -/
theorem openRefused : Obligations.OpenRefused := by
  intro p count list s receiving ready operands answer
  have refused (st : Status) (h : s.answerOpen p list = s.refuse st) : answer (statusByte st) := by
    show exec _ _ = _
    rw [exec_open_ready p count list s receiving ready operands, h, refuse_taken]
    congr 2
    omega
  refine ⟨fun bad => refused .badRequest (answerOpen_bad s p list bad), ?_⟩
  rintro pages rfl some distinct
  have few : pages.length ≤ 4 := by
    have := openPageCount_le count
    rw [List.length_map] at operands
    omega
  have checked := answerOpen_pages s p pages some few distinct
  rw [openChecked_eq] at checked
  refine ⟨fun ⟨q, mem, barred⟩ => refused .denied ?_, fun may => ⟨fun frozen mem => refused .frozen ?_, fun thawed =>
    ⟨fun busy => refused .pageBusy ?_, fun unclaimed => ⟨fun full => refused .noSession ?_, fun few free many => refused .noBuffer ?_⟩⟩⟩⟩
  · rw [checked, if_pos fun all => by rw [all q mem] at barred; cases barred]
  all_goals rw [checked, if_neg (not_not_intro may)]
  · rw [if_pos ⟨frozen, mem⟩]
  all_goals rw [if_neg thawed]
  · rw [if_pos busy]
  all_goals rw [if_neg (by push Not; exact unclaimed)]
  · by_cases many : 2 ≤ (s.ses.attached p).length
    · rw [if_pos many]
    · rw [if_neg many, lowestFree_none (full.resolve_left many), Option.elim_none]
  · obtain ⟨i, lowest⟩ := lowestFree_some free
    rw [if_neg (by omega), lowest]
    refine if_pos ?_
    unfold SessionUnit.freeBuffers
    show 8 - _ < _
    have := List.length_pos_iff.2 some
    omega

/-- Settles O9: the checks pass, and the slot, the claims, the buffers and the lease are taken together. -/
theorem openAccepted : Obligations.OpenAccepted := by
  intro p pages i s receiving ready some few distinct may thawed unclaimed attached free lowest buffers
  have operands : (pages.map pageHalf).length = openPageCount (BitVec.ofNat 8 pages.length) := by
    rw [List.length_map, openPageCount_ofNat pages.length some few]
  have room : ¬ s.ses.freeBuffers < pages.length := by
    unfold SessionUnit.freeBuffers
    show ¬ 8 - _ < _
    omega
  refine ⟨(s.ses.setSession i (openedSession p pages (s.port p).lease.toNat)).claimPages i pages, ?_, ?_, ?_, ?_, rfl, rfl⟩
  · rw [exec_open_ready p _ _ s receiving ready operands, answerOpen_pages s p pages (List.length_pos_iff.1 some) few distinct,
      openChecked_eq, if_neg (not_not_intro may), if_neg thawed, if_neg (by push Not; exact unclaimed), if_neg (by omega),
      lowestFree_eq free lowest]
    show Host.Outcome.next (Answer.taken (if _ then _ else _) p _) = _
    rw [if_neg room, State.acceptOpen, taken_eq, List.length_map, show 1 + 2 * pages.length + 1 = 2 + 2 * pages.length by omega]
    rfl
  · rw [claimPages_session, session_setSession, if_pos rfl]
    rfl
  · intro j other
    rw [claimPages_session, session_setSession, if_neg other]
  · intro q
    rw [claim_claimPages, setSession_claim]

/-! ### The session checks -/

theorem exec_stage_ready (p : PortId) (sid member : Byte) (offset length : Half) (data : List Byte) (s : State)
    (receiving : s.Receiving p) (ready : s.Ready) (operands : data.length = stageDataCount length) :
    exec (.stage p sid member offset length data) s
      = .next ((s.answerStage p sid member offset length data).taken p (6 + data.length)) := by
  show execStage p sid member offset length data s = _
  rw [execStage, stageOperands_eq length data operands]
  exact congrArg Host.Outcome.next (takeRequest_ready s p _ _ receiving ready)

theorem exec_commit_ready (p : PortId) (sid : Byte) (s : State) (receiving : s.Receiving p) (ready : s.Ready) :
    exec (.commit p sid) s = .next ((s.answerCommit p sid).taken p 1) :=
  congrArg Host.Outcome.next (takeRequest_ready s p 1 _ receiving ready)

theorem exec_collect_ready (p : PortId) (sid : Byte) (s : State) (receiving : s.Receiving p) (ready : s.Ready) :
    exec (.collect p sid) s = .next ((s.answerCollect p sid).taken p 1) :=
  congrArg Host.Outcome.next (takeRequest_ready s p 1 _ receiving ready)

/-- STAGE, COMMIT, ABORT and COLLECT go through the session that their id names. -/
theorem exec_names_session {p : PortId} {sid : Byte} {c : Instr} {n : Nat} {s : State} (receiving : s.Receiving p) (ready : s.Ready)
    (request : (∃ member offset length data, c = .stage p sid member offset length data ∧ data.length = stageDataCount length
        ∧ n = 7 + data.length) ∨ c = .commit p sid ∧ n = 2 ∨ c = .abort p sid ∧ n = 2 ∨ c = .collect p sid ∧ n = 2) :
    ∃ f params, n = params + 1 ∧ exec c s = .next ((s.namedSession p sid f).taken p params) := by
  rcases request with ⟨member, offset, length, data, rfl, operands, rfl⟩ | ⟨rfl, rfl⟩ | ⟨rfl, rfl⟩ | ⟨rfl, rfl⟩
  · exact ⟨_, 6 + data.length, by omega, exec_stage_ready p sid member offset length data s receiving ready operands⟩
  · exact ⟨_, 1, rfl, exec_commit_ready p sid s receiving ready⟩
  · exact ⟨_, 1, rfl, Abort.exec_abort_ready p sid s receiving ready⟩
  · exact ⟨_, 1, rfl, exec_collect_ready p sid s receiving ready⟩

theorem namedSession_none (s : State) (p : PortId) (sid : Byte) (f : SessionId → Answer) (high : 7 < sid.toNat) :
    s.namedSession p sid f = s.refuse .badRequest := by
  have noSlot : sessionOfByte sid = none := dif_neg (by omega)
  rw [State.namedSession, noSlot]

theorem namedSession_foreign (s : State) (p : PortId) (i : SessionId) (f : SessionId → Answer) (foreign : ¬ s.Own p i) :
    s.namedSession p (sidByte i) f = s.refuse .notOwner := by
  have other : ¬ s.ses.attachedTo p i = true := by
    simp only [SessionUnit.attachedTo, bne_iff_ne, Bool.and_eq_true, beq_iff_eq]
    exact foreign
  rw [State.namedSession, sessionOfByte_sid]
  exact if_neg other

/-- Settles O11: both refusals come before the request's own checks. -/
theorem foreignSessionsRefused : Obligations.ForeignSessionsRefused := by
  intro p sid c n s receiving ready request
  obtain ⟨f, params, rfl, run⟩ := exec_names_session receiving ready request
  refine ⟨fun high => ?_, fun i named foreign => ?_⟩
  · rw [run, namedSession_none s p sid f high]
    rfl
  · rw [run, named, namedSession_foreign s p i f foreign]
    rfl

/-! ### STAGE -/

theorem stageInRange_iff (r : Session) (member : Byte) (offset length : Half) : stageInRange r member offset length = true ↔
    member.toNat < r.members.length ∧ 1 ≤ length.toNat ∧ length.toNat ≤ 256 ∧ offset.toNat ≤ 4095
      ∧ offset.toNat % 256 + length.toNat ≤ 256 := by
  simp [stageInRange, and_assoc]

/-- Settles O12: the state, the range, and the bytes staged. -/
theorem stageAnswers : Obligations.StageAnswers := by
  intro p i member offset length data s receiving ready own operands r c allowed
  have run : exec c s = .next (Answer.taken _ p (6 + data.length)) :=
    exec_stage_ready p (sidByte i) member offset length data s receiving ready operands
  rw [State.answerStage, named_own s p i _ own] at run
  have count : 6 + data.length + 1 = 7 + data.length := by omega
  refine ⟨fun elsewhere => ?_, fun opened out => ?_, fun opened good => ?_⟩
  · rw [run, if_pos elsewhere, refuse_taken, count]
    rfl
  · rw [run, if_neg (not_not_intro opened), if_neg (mt (stageInRange_iff ..).1 out), refuse_taken, count]
    rfl
  · refine ⟨_, ?_, fun o => staged_stageBytes _ o _ data⟩
    rw [run, if_neg (not_not_intro opened), if_pos ((stageInRange_iff ..).2 good), taken_eq, count]
    rfl

/-! ### COMMIT -/

theorem mergedLine_eq (flash : Memory) (buffer : Buffer) (base : Option BlockId) (k : Nat) :
    mergedLine flash buffer base k = (List.range 256).map fun j => mergedByte flash buffer base (256 * k + j) := rfl

/-- The merged line 0 is the one whose bytes are the merged bytes. -/
theorem mergedLine_zero {flash : Memory} {buffer : Buffer} {base : Option BlockId} {bytes : List Byte}
    (h : bytes.length = 256 ∧ ∀ o, o < 256 → bytes[o]? = some (mergedByte flash buffer base o)) :
    mergedLine flash buffer base 0 = bytes := by
  obtain ⟨length, merged⟩ := h
  rw [mergedLine_eq]
  refine List.ext_getElem? fun o => ?_
  rw [List.getElem?_map, Nat.mul_zero]
  by_cases low : o < 256
  · rw [List.getElem?_range low, merged o low, Option.map_some, Nat.zero_add]
  · rw [List.getElem?_eq_none (by simpa using low), List.getElem?_eq_none (by omega), Option.map_none]

/-- Settles O13: the state, the judgement of the merged line, and the queue. -/
theorem commitAnswers : Obligations.CommitAnswers := by
  intro p i s merged receiving ready own r line c
  have run : exec c s = .next (Answer.taken _ p 1) := exec_commit_ready p (sidByte i) s receiving ready
  have judged : s.mergedWindowsLine i = merged := mergedLine_zero line
  rw [State.answerCommit, named_own s p i _ own, judged] at run
  refine ⟨fun elsewhere => ?_, fun opened flagged malformed => ?_, fun opened sound => ?_⟩
  · rw [run, if_pos elsewhere]
    rfl
  · have bad : (r.windowsLine && judgeLine merged == .malformed) = true := by simp [flagged, malformed]
    rw [run, if_neg (not_not_intro opened), if_pos bad]
    rfl
  · have good : ¬ (r.windowsLine && judgeLine merged == .malformed) = true := by
      simpa only [Bool.and_eq_true, beq_iff_eq] using sound
    rw [run, if_neg (not_not_intro opened), if_neg good]
    rfl

/-! ### ABORT -/

/-- Settles O14, state by state. -/
theorem abortEndsOrUnwinds : Obligations.AbortEndsOrUnwinds := by
  intro p i s receiving ready own r
  have run := Abort.exec_abort_ready p (sidByte i) s receiving ready
  rw [State.answerAbort, named_own s p i _ own] at run
  refine ⟨fun early => ⟨s.finishSession i .abandoned, ?_, finishSession_early s i .abandoned⟩, fun programming passed => ?_,
    fun programming before => ?_⟩
  · rw [run]
    rcases early with opened | queued
    · simp only [show (s.ses.session i).state = _ from opened]
      rfl
    · simp only [show (s.ses.session i).state = _ from queued]
      rfl
  · rw [run]
    simp only [show (s.ses.session i).state = _ from programming]
    rw [if_pos passed]
    rfl
  · have earlier : ¬ (s.ses.session i).boundaryPassed = true := by rw [show (s.ses.session i).boundaryPassed = false from before]; simp
    rw [run]
    simp only [show (s.ses.session i).state = _ from programming]
    rw [if_neg earlier]
    rfl

/-! ### COLLECT -/

/-- The result record of Table 54, outcome by outcome. -/
theorem resultRecord_eq (i : SessionId) (o : SessionOutcome) (detail : List Byte)
    (done : ∀ n, o = .done n → detail = 0x01 :: (natBytes4 n ++ [0x00, 0xFF]))
    (abandoned : o = .abandoned → detail = [0x02, 0, 0, 0, 0, 0x00, 0xFF])
    (expired : o = .expired → detail = [0x03, 0, 0, 0, 0, 0x00, 0xFF])
    (revoked : o = .revoked → detail = [0x04, 0, 0, 0, 0, 0x00, 0xFF])
    (noSpace : o = .failed .noSpace → detail = [0x05, 0, 0, 0, 0, 0x01, 0xFF])
    (verify : ∀ m, o = .failed (.verify m) → detail = [0x05, 0, 0, 0, 0, 0x02, BitVec.ofNat 8 m])
    (serialEnd : o = .failed .serialEnd → detail = [0x05, 0, 0, 0, 0, 0x03, 0xFF]) :
    resultRecord i o = sidByte i :: detail := by
  cases o with
  | done n => rw [done n rfl]; rfl
  | abandoned => rw [abandoned rfl]; rfl
  | expired => rw [expired rfl]; rfl
  | revoked => rw [revoked rfl]; rfl
  | failed reason =>
    cases reason with
    | noSpace => rw [noSpace rfl]; rfl
    | verify m => rw [verify m rfl, resultRecord]; rfl
    | serialEnd => rw [serialEnd rfl]; rfl

theorem refreshAlerts_follows (s t : State) (ports : t.ports = s.ports) : s.AlertsFollow t.refreshAlerts := by
  refine ⟨fun p => ?_, refreshAlerts_law t⟩
  rw [port_refreshAlerts]
  unfold State.port
  rw [ports]

/-- Settles O17: the state, and the record of the outcome. -/
theorem collectAnswers : Obligations.CollectAnswers := by
  intro p i s receiving ready own
  have run := exec_collect_ready p (sidByte i) s receiving ready
  rw [State.answerCollect, named_own s p i _ own] at run
  refine ⟨fun early => ?_, fun o detail finished outcome done abandoned expired revoked noSpace verify serialEnd => ?_⟩
  · rw [run, if_neg early]
    rfl
  · refine ⟨State.refreshAlerts { s with ses := s.ses.release i }, ?_, rfl, release_ends s.ses i, refreshAlerts_follows s _ rfl⟩
    rw [run, if_pos finished, outcome, Option.getD_some,
      resultRecord_eq i o detail done abandoned expired revoked noSpace verify serialEnd]
    rfl

/-! ### The lease -/

/-- Settles O19: a timer runs in OPEN alone (R54). -/
theorem leaseExpires : Obligations.LeaseExpires := by
  intro i s
  have meaning : exec (.leaseExpiry i) s = execLeaseExpiry i s := rfl
  refine ⟨fun opened => ⟨_, ?_, finishSession_early s i .expired⟩, fun elsewhere => ?_⟩
  · rw [meaning, execLeaseExpiry, if_pos opened]
  · rw [meaning, execLeaseExpiry, if_neg elsewhere]

end Sys2Proof.Proofs.SessionRequests

/-! The windows table: which window decides (O24), and the judgement of its line (O25). -/

namespace Sys2Proof.Proofs.Permissions

open Sys2Proof Sys2Proof.Machine Sys2Proof.Laws

/-! ### The deciding window -/

theorem covers_iff (w : Window) (page : Nat) : w.covers page = true ↔ w.valid = true ∧ w.first ≤ page ∧ page ≤ w.last := by
  simp [Window.covers, and_assoc]

theorem permissions_of_none {t : WindowsTable} {page : Nat} (none : t.deciding page = none) (p : PortId) :
    t.canRead p page = true ∧ t.canWrite p page = true := by
  simp [WindowsTable.canRead, WindowsTable.canWrite, none]

theorem permissions_of_some {t : WindowsTable} {page : Nat} {w : Window} (decides : t.deciding page = some w) (p : PortId) :
    t.canRead p page = w.readSet.getLsbD p.val ∧ t.canWrite p page = w.writeSet.getLsbD p.val := by
  simp [WindowsTable.canRead, WindowsTable.canWrite, decides]

theorem deciding_none {ws : List Window} {page : Nat} (none : ∀ w ∈ ws, ¬ (w.valid = true ∧ w.first ≤ page ∧ page ≤ w.last)) :
    (WindowsTable.windows ws).deciding page = .none :=
  List.find?_eq_none.2 fun w mem => mt (covers_iff w page).1 (none w mem)

/-- The first window that covers the page decides (R132). -/
theorem deciding_first {before after : List Window} {w : Window} {page : Nat}
    (earlier : ∀ v ∈ before, ¬ (v.valid = true ∧ v.first ≤ page ∧ page ≤ v.last))
    (covers : w.valid = true ∧ w.first ≤ page ∧ page ≤ w.last) :
    (WindowsTable.windows (before ++ w :: after)).deciding page = some w := by
  show (before ++ w :: after).find? _ = some w
  rw [List.find?_append, List.find?_eq_none.2 fun v mem => mt (covers_iff v page).1 (earlier v mem),
    Option.none_or]
  exact List.find?_cons_of_pos ((covers_iff w page).2 covers)

/-- Settles O24. -/
theorem firstCoveringWindowDecides : Obligations.FirstCoveringWindowDecides := by
  intro p page
  obtain ⟨read, write⟩ := permissions_of_none (t := .empty) (page := page) rfl p
  refine ⟨read, write, fun ws => ⟨fun none => permissions_of_none (deciding_none none) p, ?_⟩⟩
  rintro before after w rfl earlier valid first last
  exact permissions_of_some (deciding_first earlier ⟨valid, first, last⟩) p

/-! ### The windows line -/

theorem allErased_iff (line : List Byte) : allErased line = true ↔ ∀ v ∈ line, v = 0xFF := by
  simp [allErased, Memory.erased]

theorem slice_two (line : List Byte) (k : Nat) (h : k + 2 ≤ line.length) :
    slice line k 2 = [line.getD k 0xFF, line.getD (k + 1) 0xFF] := by
  rw [slice_succ line k 1 (by omega), slice_succ line (k + 1) 0 (by omega), slice_zero]

/-- A CRC field agrees with the bytes it covers. -/
theorem crc_iff (line covered : List Byte) (k : Nat) (h : k + 2 ≤ line.length) : slice line k 2 = crcBytes covered ↔
    (line.getD k 0xFF).toNat * 256 + (line.getD (k + 1) 0xFF).toNat = (crc16 covered).toNat := by
  rw [slice_two line k h]
  exact half_iff _ _ _

theorem windowRecord_eq (line : List Byte) (length : line.length = 256) (w : Nat) (h : w < 8) : windowRecord line w =
    { valid := decide (line.getD (2 + 8 * w) 0xFF = 0x01)
      first := (line.getD (3 + 8 * w) 0xFF).toNat * 256 + (line.getD (3 + 8 * w + 1) 0xFF).toNat
      last := (line.getD (5 + 8 * w) 0xFF).toNat * 256 + (line.getD (5 + 8 * w + 1) 0xFF).toNat
      readSet := line.getD (7 + 8 * w) 0xFF, writeSet := line.getD (8 + 8 * w) 0xFF } := by
  unfold windowRecord
  rw [natOfBytes_slice2 line _ (by omega), natOfBytes_slice2 line _ (by omega)]
  rfl

/-- The tests of R130 on a record. -/
theorem windowRecordOk_iff (line : List Byte) (length : line.length = 256) (w : Nat) (h : w < 8) : windowRecordOk line w = true ↔
    (line.getD (2 + 8 * w) 0xFF = 0x00 ∨ line.getD (2 + 8 * w) 0xFF = 0x01) ∧ line.getD (9 + 8 * w) 0xFF = 0x00
    ∧ (line.getD (2 + 8 * w) 0xFF = 0x01 →
        (line.getD (3 + 8 * w) 0xFF).toNat * 256 + (line.getD (3 + 8 * w + 1) 0xFF).toNat
          ≤ (line.getD (5 + 8 * w) 0xFF).toNat * 256 + (line.getD (5 + 8 * w + 1) 0xFF).toNat
        ∧ (line.getD (5 + 8 * w) 0xFF).toNat * 256 + (line.getD (5 + 8 * w + 1) 0xFF).toNat ≤ 463) := by
  unfold windowRecordOk byteAt
  simp only [windowRecord_eq line length w h, Bool.and_eq_true, Bool.or_eq_true, beq_iff_eq, Bool.not_eq_true', decide_eq_false_iff_not,
    decide_eq_true_eq, and_assoc, ← imp_iff_not_or]
  rfl

/-- Settles O25: the tests of R130, and the eight records. -/
theorem windowsLineJudged : Obligations.WindowsLineJudged := by
  intro line length b half sound
  have sound_iff : (slice line 0 2 = [0xD6, 0x47] ∧ slice line 66 2 = crcBytes (slice line 0 66)
      ∧ (List.range 8).all (windowRecordOk line) = true) ↔ sound := by
    rw [slice_two line 0 (by omega), crc_iff line _ 66 (by omega), List.all_eq_true]
    simp only [List.cons.injEq, and_true, List.mem_range, and_assoc]
    refine and_congr_right fun _ => and_congr_right fun _ => and_congr_right fun _ => forall_congr' fun w => forall_congr' fun h => ?_
    exact windowRecordOk_iff line length w h
  refine ⟨fun erased => ?_, fun ⟨v, mem, programmed⟩ bad => ?_, fun ⟨v, mem, programmed⟩ good => ?_⟩
  · rw [judgeLine, if_pos ((allErased_iff line).2 erased)]
  all_goals have some : ¬ allErased line = true := fun all => programmed ((allErased_iff line).1 all v mem)
  · rw [judgeLine, if_neg some, if_neg (mt sound_iff.1 bad)]
  · refine ⟨(List.range 8).map (windowRecord line), ?_, by simp, fun w h => ?_⟩
    · rw [judgeLine, if_neg some, if_pos (sound_iff.2 good)]
    · rw [List.getElem?_map, List.getElem?_range h, Option.map_some, windowRecord_eq line length w h]

end Sys2Proof.Proofs.Permissions

/-! WATCH_SET (O20) and NOTICE_FETCH (O22). -/

namespace Sys2Proof.Proofs.Watches

open Sys2Proof Sys2Proof.Machine Sys2Proof.Laws

/-! ### WATCH_SET -/

theorem exec_watchSet_ready (p : PortId) (slot : Byte) (first last : Half) (s : State) (receiving : s.Receiving p)
    (ready : s.Ready) : exec (.watchSet p slot first last) s = .next ((s.answerWatchSet p slot first last).taken p 5) :=
  congrArg Host.Outcome.next (takeRequest_ready s p 5 _ receiving ready)

/-- A slot number above 3, and a range that is empty or ends above page 463. -/
theorem answerWatchSet_bad (p : PortId) (slot : Byte) (first last : Half) (s : State)
    (bad : 3 < slot.toNat ∨ last.toNat < first.toNat ∨ 463 < last.toNat) :
    s.answerWatchSet p slot first last = s.refuse .badRequest := by
  unfold State.answerWatchSet
  by_cases high : 3 < slot.toNat
  · rw [slot_none slot high]
  · rw [slot_some slot (by omega)]
    exact if_pos (bad.resolve_left high)

theorem answerWatchSet_good (p : PortId) (slot : Byte) (first last : Half) (s : State) (named : slot.toNat < 4)
    (range : ¬ (last.toNat < first.toNat ∨ 463 < last.toNat)) :
    s.answerWatchSet p slot first last =
      if s.prot.table.canReadRange p first.toNat last.toNat then
        { state := s.setNotice p ((s.notice p).setWatch ⟨slot.toNat, named⟩ (some { first := first.toNat, last := last.toNat }))
          status := .ok, fields := [] }
      else s.refuse .denied := by
  unfold State.answerWatchSet
  rw [slot_some slot (by omega)]
  exact if_neg range

/-- Settles O20: the slot, the range, the permission over it, and the slot written. -/
theorem watchSetAnswers : Obligations.WatchSetAnswers := by
  intro p slot first last s receiving ready c bad
  have run := exec_watchSet_ready p slot first last s receiving ready
  refine ⟨fun out => ?_, fun good ⟨q, low, high, denied⟩ => ?_, fun good allowed => ?_⟩
  · rw [run, answerWatchSet_bad p slot first last s out]
    rfl
  all_goals
    have named : slot.toNat < 4 := Nat.lt_of_not_le fun high => good (.inl high)
    rw [answerWatchSet_good p slot first last s named fun out => good (.inr out)] at run
  · have barred : ¬ s.prot.table.canReadRange p first.toNat last.toNat = true := fun all => by
      rw [(canReadRange_iff ..).1 all q low high] at denied
      cases denied
    rw [run, if_neg barred]
    rfl
  · refine ⟨((s.notice p).setWatch ⟨slot.toNat, named⟩ (some { first := first.toNat, last := last.toNat })).watches, ?_,
      fun k => WatchClear.setWatch_watches _ _ k _⟩
    rw [run, if_pos ((canReadRange_iff ..).2 allowed)]
    rfl

/-! ### NOTICE_FETCH -/

theorem exec_noticeFetch_ready (p : PortId) (s : State) (receiving : s.Receiving p) (ready : s.Ready) :
    exec (.noticeFetch p) s = .next ((s.answerNoticeFetch p).taken p 0) :=
  congrArg Host.Outcome.next (takeRequest_ready s p 0 _ receiving ready)

/-- A notice as its fields spell it (R156). -/
theorem noticeRecord_eq (e : Notice) (left : Nat) (kind page : List Byte)
    (changed : ∀ q, e.kind = .pageChanged q → kind = [0x01] ∧ page = natBytes2 q.val)
    (table : e.kind = .tableChanged → kind = [0x02] ∧ page = [0xFF, 0xFF]) :
    noticeRecord e left = kind ++ page ++ natBytes4 e.serial ++ [BitVec.ofNat 8 e.writer.val, BitVec.ofNat 8 left] := by
  unfold noticeRecord
  cases k : e.kind with
  | pageChanged q => obtain ⟨rfl, rfl⟩ := changed q k; rfl
  | tableChanged => obtain ⟨rfl, rfl⟩ := table k; rfl

theorem answerNoticeFetch_empty (p : PortId) (s : State) (empty : (s.notice p).queue = []) :
    s.answerNoticeFetch p =
      if (s.notice p).overrun then
        { state := (s.setNotice p { s.notice p with overrun := false }).refreshAlerts, status := .ok, fields := overrunRecord }
      else s.refuse .empty := by
  unfold State.answerNoticeFetch
  simp only
  split
  · next e rest queue => rw [empty] at queue; cases queue
  · rfl

/-- Settles O22: the head of the queue, the overrun record, or EMPTY. -/
theorem noticeFetchAnswers : Obligations.NoticeFetchAnswers := by
  intro p s receiving ready
  have run := exec_noticeFetch_ready p s receiving ready
  refine ⟨fun e rest kind page queue changed table => ?_, fun empty overrun => ?_, fun empty quiet => ?_⟩
  · refine ⟨(s.setNotice p { s.notice p with queue := rest }).refreshAlerts, ?_, rfl, notice_alerts s p _⟩
    simp only [State.answerNoticeFetch, queue] at run
    rw [run, taken_eq, noticeRecord_eq e rest.length kind page changed table]
    rfl
  · refine ⟨(s.setNotice p { s.notice p with overrun := false }).refreshAlerts, ?_, rfl, notice_alerts s p _⟩
    rw [run, answerNoticeFetch_empty p s empty, if_pos overrun]
    rfl
  · rw [run, answerNoticeFetch_empty p s empty, if_neg (by simp [quiet])]
    rfl

end Sys2Proof.Proofs.Watches

/-! Frames on the wire: a request is delimited at its last parameter byte and spells itself again (O54); and a command that is no
event changes nothing (O53). -/

namespace Sys2Proof.Proofs.FrameBytes

open Sys2Proof Sys2Proof.Machine Sys2Proof.Laws

/-! ### Delimiting -/

/-- The bytes of a frame spell a request: its code, its parameter bytes, and whatever follows (R164, R166, R167). -/
inductive Spells (p : PortId) : List Byte → Instr → Prop where
  | read (a b c d e f : Byte) (rest : List Byte) :
      Spells p (0x10 :: a :: b :: c :: d :: e :: f :: rest) (.read p (halfOfBytes a b) (halfOfBytes c d) (halfOfBytes e f))
  | mapQuery (a b : Byte) (rest : List Byte) : Spells p (0x11 :: a :: b :: rest) (.mapQuery p (halfOfBytes a b))
  | status (rest : List Byte) : Spells p (0x12 :: rest) (.status p)
  | openSession (count : Byte) (list rest : List Byte) (length : list.length = 2 * openPageCount count) :
      Spells p (0x20 :: count :: (list ++ rest)) (.openSession p count (halvesOfBytes list))
  | stage (sid m a b c d : Byte) (data rest : List Byte) (length : data.length = stageDataCount (halfOfBytes c d)) :
      Spells p (0x21 :: sid :: m :: a :: b :: c :: d :: (data ++ rest))
        (.stage p sid m (halfOfBytes a b) (halfOfBytes c d) data)
  | commit (sid : Byte) (rest : List Byte) : Spells p (0x22 :: sid :: rest) (.commit p sid)
  | abort (sid : Byte) (rest : List Byte) : Spells p (0x23 :: sid :: rest) (.abort p sid)
  | collect (sid : Byte) (rest : List Byte) : Spells p (0x24 :: sid :: rest) (.collect p sid)
  | watchSet (slot a b c d : Byte) (rest : List Byte) :
      Spells p (0x30 :: slot :: a :: b :: c :: d :: rest) (.watchSet p slot (halfOfBytes a b) (halfOfBytes c d))
  | watchClear (slot : Byte) (rest : List Byte) : Spells p (0x31 :: slot :: rest) (.watchClear p slot)
  | noticeFetch (rest : List Byte) : Spells p (0x32 :: rest) (.noticeFetch p)
  | leaseSet (units : Byte) (rest : List Byte) : Spells p (0x40 :: units :: rest) (.leaseSet p units)
  | freeze (rest : List Byte) : Spells p (0x41 :: rest) (.freeze p)
  | unknown (code : Byte) (rest : List Byte) (unknown : code ∉ requestCodes) : Spells p (code :: rest) (.unknownRequestCode p code)

/-- The decoder finds what the bytes spell. -/
theorem decodeFrame_of_spells {p : PortId} {l : List Byte} {c : Instr} (h : Spells p l c) : decodeFrame p l = some c := by
  cases h with
  | openSession count list rest length => simp [decodeFrame, ← length]
  | stage sid m a b c d data rest length => simp [decodeFrame, ← length]
  | unknown code rest unknown =>
    simp only [requestCodes, List.mem_cons, List.not_mem_nil, or_false, not_or] at unknown
    simp only [decodeFrame, unknown, if_false]
  | _ => rfl

theorem spells_of_decodeFrame {p : PortId} {l : List Byte} {c : Instr} (h : decodeFrame p l = some c) : Spells p l c := by
  cases l with
  | nil => cases h
  | cons code ps =>
    unfold decodeFrame at h
    dsimp only at h
    by_cases read : code = 0x10
    · subst read
      rw [if_pos rfl] at h
      split at h <;> cases h
      exact .read ..
    rw [if_neg read] at h
    by_cases query : code = 0x11
    · subst query
      rw [if_pos rfl] at h
      split at h <;> cases h
      exact .mapQuery ..
    rw [if_neg query] at h
    by_cases status : code = 0x12
    · subst status
      rw [if_pos rfl] at h
      cases h
      exact .status ps
    rw [if_neg status] at h
    by_cases opens : code = 0x20
    · subst opens
      rw [if_pos rfl] at h
      split at h
      · next count rest =>
        split at h <;> cases h
        next enough =>
        have spelled := Spells.openSession (p := p) count (rest.take (2 * openPageCount count)) (rest.drop (2 * openPageCount count))
          (List.length_take_of_le enough)
        rwa [List.take_append_drop] at spelled
      · cases h
    rw [if_neg opens] at h
    by_cases stages : code = 0x21
    · subst stages
      rw [if_pos rfl] at h
      split at h
      · next sid m a b c d rest =>
        split at h <;> cases h
        next enough =>
        have spelled := Spells.stage (p := p) sid m a b c d (rest.take (stageDataCount (halfOfBytes c d)))
          (rest.drop (stageDataCount (halfOfBytes c d))) (List.length_take_of_le enough)
        rwa [List.take_append_drop] at spelled
      · cases h
    rw [if_neg stages] at h
    by_cases commits : code = 0x22
    · subst commits
      rw [if_pos rfl] at h
      split at h <;> cases h
      exact .commit ..
    rw [if_neg commits] at h
    by_cases aborts : code = 0x23
    · subst aborts
      rw [if_pos rfl] at h
      split at h <;> cases h
      exact .abort ..
    rw [if_neg aborts] at h
    by_cases collects : code = 0x24
    · subst collects
      rw [if_pos rfl] at h
      split at h <;> cases h
      exact .collect ..
    rw [if_neg collects] at h
    by_cases sets : code = 0x30
    · subst sets
      rw [if_pos rfl] at h
      split at h <;> cases h
      exact .watchSet ..
    rw [if_neg sets] at h
    by_cases clears : code = 0x31
    · subst clears
      rw [if_pos rfl] at h
      split at h <;> cases h
      exact .watchClear ..
    rw [if_neg clears] at h
    by_cases fetches : code = 0x32
    · subst fetches
      rw [if_pos rfl] at h
      cases h
      exact .noticeFetch ps
    rw [if_neg fetches] at h
    by_cases leases : code = 0x40
    · subst leases
      rw [if_pos rfl] at h
      split at h <;> cases h
      exact .leaseSet ..
    rw [if_neg leases] at h
    by_cases freezes : code = 0x41
    · subst freezes
      rw [if_pos rfl] at h
      cases h
      exact .freeze ps
    rw [if_neg freezes] at h
    cases h
    refine .unknown code ps ?_
    simp only [requestCodes, List.mem_cons, List.not_mem_nil, or_false, not_or]
    exact ⟨read, query, status, opens, stages, commits, aborts, collects, sets, clears, fetches, leases, freezes⟩

/-- What follows the last parameter byte is ignored (R164). -/
theorem spells_append {p : PortId} {l : List Byte} {c : Instr} (h : Spells p l c) (more : List Byte) : Spells p (l ++ more) c := by
  cases h with
  | openSession count list rest length =>
    rw [List.cons_append, List.cons_append, List.append_assoc]
    exact .openSession count list (rest ++ more) length
  | stage sid m a b c d data rest length =>
    rw [show 0x21 :: sid :: m :: a :: b :: c :: d :: (data ++ rest) ++ more
      = 0x21 :: sid :: m :: a :: b :: c :: d :: (data ++ (rest ++ more)) by simp]
    exact .stage sid m a b c d data (rest ++ more) length
  | unknown code rest unknown => exact .unknown code (rest ++ more) unknown
  | read => exact .read ..
  | mapQuery => exact .mapQuery ..
  | status => exact .status _
  | commit => exact .commit ..
  | abort => exact .abort ..
  | collect => exact .collect ..
  | watchSet => exact .watchSet ..
  | watchClear => exact .watchClear ..
  | noticeFetch => exact .noticeFetch _
  | leaseSet => exact .leaseSet ..
  | freeze => exact .freeze _

/-- No request is spelled before its last parameter byte. -/
theorem spells_length {p : PortId} {l : List Byte} {c : Instr} (h : Spells p l c) : 1 + FrameLength.params c ≤ l.length := by
  cases h with
  | openSession count list rest length => simp only [FrameLength.params, List.length_cons, List.length_append]; omega
  | stage sid m a b c d data rest length => simp only [FrameLength.params, List.length_cons, List.length_append]; omega
  | _ => simp only [FrameLength.params, List.length_cons]; omega

/-- A well-formed request is spelled by its own frame (R166, R186). -/
theorem spells_encode {p : PortId} {c : Instr} {bytes : List Byte} (formed : c.wellFormed = true) (port : c.requestPort = some p)
    (frame : encodeFrame c = some bytes) : Spells p bytes c := by
  cases c <;> simp only [Instr.requestPort, reduceCtorEq, Option.some.injEq] at port <;> subst port <;> cases frame
  case read q page offset length =>
    have spelled := Spells.read (p := q) (page.extractLsb' 8 8) (page.extractLsb' 0 8) (offset.extractLsb' 8 8)
      (offset.extractLsb' 0 8) (length.extractLsb' 8 8) (length.extractLsb' 0 8) []
    rwa [halfOfBytes_split, halfOfBytes_split, halfOfBytes_split] at spelled
  case mapQuery q page =>
    have spelled := Spells.mapQuery (p := q) (page.extractLsb' 8 8) (page.extractLsb' 0 8) []
    rwa [halfOfBytes_split] at spelled
  case watchSet q slot first last =>
    have spelled := Spells.watchSet (p := q) slot (first.extractLsb' 8 8) (first.extractLsb' 0 8) (last.extractLsb' 8 8)
      (last.extractLsb' 0 8) []
    rwa [halfOfBytes_split, halfOfBytes_split] at spelled
  case openSession q count pages =>
    have counted : pages.length = openPageCount count := of_decide_eq_true formed
    have length : (pages.flatMap halfBytes).length = 2 * openPageCount count := by rw [length_halves, counted]
    have list : halvesOfBytes (pages.flatMap halfBytes) = pages := by
      have split := halvesOfBytes_flatMap pages []
      rwa [List.append_nil, List.take_of_length_le (by rw [length_halves])] at split
    have spelled := Spells.openSession (p := q) count (pages.flatMap halfBytes) [] length
    rwa [List.append_nil, list] at spelled
  case stage q sid member offset length data =>
    have counted : data.length = stageDataCount length := of_decide_eq_true formed
    have spelled := Spells.stage (p := q) sid member (offset.extractLsb' 8 8) (offset.extractLsb' 0 8) (length.extractLsb' 8 8)
      (length.extractLsb' 0 8) data [] (by rw [halfOfBytes_split, counted])
    rwa [halfOfBytes_split, halfOfBytes_split, List.append_nil] at spelled
  case unknownRequestCode code => exact .unknown code [] (of_decide_eq_true formed)
  case status => exact .status []
  case commit sid => exact .commit sid []
  case abort sid => exact .abort sid []
  case collect sid => exact .collect sid []
  case watchClear slot => exact .watchClear slot []
  case noticeFetch => exact .noticeFetch []
  case leaseSet units => exact .leaseSet units []
  case freeze => exact .freeze []

/-- No proper beginning of a frame spells a request: what it spells, the frame would, with bytes to spare. -/
theorem decodeFrame_take {p : PortId} {c : Instr} {bytes : List Byte} (formed : c.wellFormed = true)
    (port : c.requestPort = some p) (frame : encodeFrame c = some bytes) {n : Nat} (short : n < bytes.length) :
    decodeFrame p (bytes.take n) = none := by
  by_contra taken
  obtain ⟨c', spelled⟩ := Option.ne_none_iff_exists'.1 taken
  have early := spells_of_decodeFrame spelled
  have whole := decodeFrame_of_spells (spells_append early (bytes.drop n))
  rw [List.take_append_drop, decodeFrame_of_spells (spells_encode formed port frame)] at whole
  cases whole
  have long := spells_length early
  rw [List.length_take, ← Requests.length_frame formed port frame] at long
  omega

/-- Settles O54: bytes, bits, and the run of SCK that clocks the frame in. -/
theorem framesRoundTrip : Obligations.FramesRoundTrip := by
  intro c p bytes more formed port frame
  have spelled := spells_encode formed port frame
  have decoded := decodeFrame_of_spells spelled
  have short : ∀ n, n < bytes.length → decodeFrame p (bytes.take n) = none := fun n => decodeFrame_take formed port frame
  refine ⟨decodeFrame_of_spells (spells_append spelled more), short, fun tail => ?_, fun n few => ?_, sampledBits_clock,
    fun s receiving first => ?_⟩
  · rw [decodeBits, arrivedBytes_wire]
    exact decodeFrame_of_spells (spells_append spelled _)
  · rw [decodeBits, arrivedBytes_take]
    exact short _ (by omega)
  · rw [UnknownCode.exec_edges, clock_request s p c bytes receiving first decoded short, ← afterRequest_exec c p _ port]

/-! ### Commands that are no event -/

/-- A retire mark is due in every state of the engine that waits for one on a block. -/
theorem retireMark_idle (s : State) (w : Written) (idle : ¬ s.Due (.retireMarkCompletion w)) :
    exec (.retireMarkCompletion w) s = .next s := by
  show execRetireMarkCompletion w s = _
  unfold execRetireMarkCompletion
  split
  · next retiring =>
    have none : s.eng.work.inFlight = none := by
      by_contra busy
      obtain ⟨op, inFlight⟩ := Option.ne_none_iff_exists'.1 busy
      obtain ⟨b, rfl⟩ := Groups.inFlight_retire retiring inFlight
      exact idle ⟨b, inFlight⟩
    rw [State.completeOp, none]
  · rfl

/-- A completion of no operation of its kind. -/
theorem completion_idle (s : State) (w : Written) {c : Instr} (idle : ¬ s.Due c)
    (completion : c ∈ [.begunMarkCompletion w, .lineProgramCompletion w, .dataStampCompletion w, .voidCompletion w,
      .eraseCompletion w, .freeStampCompletion w, .mountVoidCompletion w]) : exec c s = .next s := by
  simp only [List.mem_cons, List.not_mem_nil, or_false] at completion
  rcases completion with rfl | rfl | rfl | rfl | rfl | rfl | rfl
  · show execBegunMarkCompletion w s = _
    unfold execBegunMarkCompletion
    split
    · next r work => exact absurd ⟨r, work⟩ idle
    · rfl
  · show execLineProgramCompletion w s = _
    unfold execLineProgramCompletion
    split
    · next r k work => exact absurd ⟨r, k, work⟩ idle
    · rfl
  · show execDataStampCompletion w s = _
    unfold execDataStampCompletion
    split
    · next r work => exact absurd ⟨r, work⟩ idle
    · rfl
  · show execVoidCompletion w s = _
    unfold execVoidCompletion
    split
    · next u b n work => exact absurd ⟨u, b, n, work⟩ idle
    · rfl
  · show execEraseCompletion w s = _
    unfold execEraseCompletion
    split
    · next b work => exact absurd ⟨b, work⟩ idle
    · rfl
  · show execFreeStampCompletion w s = _
    unfold execFreeStampCompletion
    split
    · next b work => exact absurd ⟨b, work⟩ idle
    · rfl
  · show execMountVoidCompletion w s = _
    unfold execMountVoidCompletion
    split
    · next b rest n work => exact absurd ⟨b, rest, _, work⟩ idle
    · next b rest n work => exact absurd ⟨b, rest, _, work⟩ idle
    · rfl

/-- A hand-off of a flip that does not stand. -/
theorem flipHandoff_idle (s : State) {c : Instr} (idle : ¬ s.Due c)
    (handoff : c ∈ [.windowsTableReload, .revocation, .flipEndOfSession, .flipNoticeHandoff]) : exec c s = .next s := by
  simp only [List.mem_cons, List.not_mem_nil, or_false] at handoff
  rcases handoff with rfl | rfl | rfl | rfl
  · show execWindowsTableReload s = _
    unfold execWindowsTableReload
    split
    · next w flip => exact if_neg fun due => idle ⟨w, flip, due⟩
    · rfl
  · show execRevocation s = _
    unfold execRevocation
    split
    · next w flip => exact if_neg fun due => idle ⟨w, flip, due⟩
    · rfl
  · show execFlipEndOfSession s = _
    unfold execFlipEndOfSession
    split
    · next w flip => exact if_neg fun due => idle ⟨w, flip, by simpa using due⟩
    · rfl
  · show execFlipNoticeHandoff s = _
    unfold execFlipNoticeHandoff
    split
    · next w flip => exact if_neg fun due => idle ⟨w, flip, by simpa using due⟩
    · rfl

theorem nextPage_idle (s : State) (p : PortId) (idle : ¬ s.Due (.readStreamNextPage p)) :
    exec (.readStreamNextPage p) s = .next s := by
  show execReadStreamNextPage p s = _
  unfold execReadStreamNextPage
  split
  · next st phase stream =>
    refine if_neg fun pageEnd => idle ⟨phase, st, stream, ?_⟩
    simpa [Stream.atPageEnd] using pageEnd
  · rfl

theorem streamEnd_idle (s : State) (p : PortId) (idle : ¬ s.Due (.readStreamEnd p)) : exec (.readStreamEnd p) s = .next s := by
  show execReadStreamEnd p s = _
  unfold execReadStreamEnd
  split
  · next st phase stream =>
    refine if_neg fun last => idle ⟨phase, st, stream, ?_⟩
    simpa [Stream.atEnd] using last
  · rfl

/-- Settles O53, command by command. -/
theorem noEventChangesNothing : Obligations.NoEventChangesNothing := by
  refine ⟨UnknownCode.exec_request_of_not_receiving, fun c s idle => ?_⟩
  cases c with
  | begunMarkCompletion w | lineProgramCompletion w | dataStampCompletion w | voidCompletion w | eraseCompletion w
  | freeStampCompletion w | mountVoidCompletion w => exact completion_idle s w idle (by simp)
  | retireMarkCompletion w => exact retireMark_idle s w idle
  | windowsTableReload | revocation | flipEndOfSession | flipNoticeHandoff => exact flipHandoff_idle s idle (by simp)
  | readStreamNextPage p => exact nextPage_idle s p idle
  | readStreamEnd p => exact streamEnd_idle s p idle
  | flashOpTimeout cut =>
    have none : s.eng.work.inFlight = none := not_not.1 idle
    show execFlashOpTimeout cut s = _
    rw [execFlashOpTimeout, none]
  | choiceOfWork => exact congrArg Host.Outcome.next (if_neg idle)
  | failureHandoff =>
    have none : s.ses.failure = none := not_not.1 idle
    show execFailureHandoff s = _
    rw [execFailureHandoff, SessionUnit.takePending, none]
  | boundaryHandoff =>
    show execBoundaryHandoff s = _
    unfold execBoundaryHandoff
    split
    · next r work => exact absurd ⟨r, work⟩ idle
    · rfl
  | unwindRequest =>
    have none : s.ses.unwindRequest = none := not_not.1 idle
    show execUnwindRequest s = _
    rw [execUnwindRequest, none]
  | flip =>
    show execFlip s = _
    unfold execFlip
    split
    · next r work free => exact absurd ⟨⟨r, work⟩, free⟩ idle
    · rfl
  | mountBlockScan =>
    show execMountBlockScan s = _
    unfold execMountBlockScan
    split
    · next below => exact if_neg fun ⟨runs, stage⟩ => idle ⟨runs, stage, below⟩
    · rfl
  | mountTableBuild => exact if_neg idle
  | windowsTableLoad => exact if_neg idle
  | leaseExpiry i => exact if_neg idle
  | csFall p => exact if_pos (by simpa [State.Due] using idle)
  | chipSelectRise p => exact if_neg idle
  | prstAssert p => exact if_pos (by simpa [State.Due] using idle)
  | prstRelease p => exact if_neg idle
  | resetAssert cut => exact if_pos (by simpa [State.Due] using idle)
  | resetRelease => exact if_neg idle
  | powerLoss cut => exact if_neg idle
  | _ => exact absurd trivial idle

end Sys2Proof.Proofs.FrameBytes

/-! Chip select (O26, O27) and the edges of SCK (O28, O29): the bits of a byte, the byte of the part's, the request that is spelled,
and the bytes of a read stream. -/

namespace Sys2Proof.Proofs.ChipSelect

open Sys2Proof Sys2Proof.Machine Sys2Proof.Laws

/-! ### Chip select -/

theorem portHeld_false {s : State} {p : PortId}
    (free : ¬ ((s.port p).prstLow = true ∨ s.power.resetLow = true ∨ s.power.supplied = false)) : s.portHeld p = false := by
  rw [← Bool.not_eq_true, portHeld_iff]
  exact free

/-- Settles O26. -/
theorem chipSelectFalls : Obligations.ChipSelectFalls := by
  intro p s high r held
  have run : exec (.csFall p) s = .next (s.setPort p ((s.port p).fallen (s.portHeld p))) := if_neg (by simp [high])
  refine ⟨fun free => ?_, fun low => ?_⟩
  · rw [run, portHeld_false free]
    rfl
  · rw [run, (portHeld_iff s p).2 low]
    rfl

/-- Settles O27: the stream's pin is released, and the frame is over. -/
theorem chipSelectRises : Obligations.ChipSelectRises := by
  intro p s low r held
  have run : exec (.chipSelectRise p) s
      = .next ((s.endStream p).setPort p (((s.endStream p).port p).risen (s.portHeld p))) := if_pos low
  rw [endStream_eq, portHeld_endStream] at run
  refine ⟨s.bm.unpinPage (streamPin (s.port p).stream), pins_unpinPage s.bm _, fun free => ?_, fun held => ?_⟩
  · rw [run, portHeld_false free]
    rfl
  · rw [run, (portHeld_iff s p).2 held]
    rfl

/-! ### An edge of SCK -/

theorem exec_edge (s : State) (p : PortId) (e : SckEdge) :
    exec (.replyByteDelivery ⟨p, [e], []⟩) s = .next (State.sckEdge p s e) := UnknownCode.exec_edges s p [e]

/-- The rise that completes a byte outside REQUEST delivers a byte of the part's, whatever SDI carries. -/
theorem exec_eighth {s : State} {p : PortId} (sdi : Bool) (low : (s.port p).sckHigh = false) (bits : (s.port p).bits.length = 7)
    (past : (s.port p).decoder ≠ .request) (notIdle : (s.port p).decoder ≠ .idle) (notIgnored : (s.port p).decoder ≠ .ignored) :
    exec (.replyByteDelivery ⟨p, [.rise sdi], []⟩) s = .next ((s.setPort p (s.port p).sampledByte).deliverByte p) := by
  rw [exec_edge]
  show Host.Outcome.next (s.sckRise p sdi) = _
  rw [sckRise_eighth s p sdi low notIdle notIgnored (by omega), if_neg past]

/-- In REQUEST the byte that has arrived follows it. -/
theorem exec_eighth_request {s : State} {p : PortId} (sdi : Bool) (low : (s.port p).sckHigh = false)
    (bits : (s.port p).bits.length = 7) (request : (s.port p).decoder = .request) :
    exec (.replyByteDelivery ⟨p, [.rise sdi], []⟩) s
      = .next (((s.setPort p (s.port p).sampledByte).deliverByte p).arrive p (byteOfBits ((s.port p).bits ++ [sdi]))) := by
  rw [exec_edge]
  show Host.Outcome.next (s.sckRise p sdi) = _
  rw [sckRise_eighth s p sdi low (by simp [request]) (by simp [request]) (by omega), if_pos request]

/-- Eight bits spell the byte whose bits they are, the most significant first (R163). -/
theorem byteOfBits_eq {bits : List Bool} (byte : Byte) (length : bits.length = 8)
    (spelled : ∀ k, k < 8 → bits[k]? = some (byte.getLsbD (7 - k))) : byteOfBits bits = byte := by
  have same : bits = byteBits byte := List.ext_getElem? fun k => by
    by_cases low : k < 8
    · rw [spelled k low]
      interval_cases k <;> rfl
    · rw [List.getElem?_eq_none (by omega), List.getElem?_eq_none (by simp [byteBits]; omega)]
  rw [same, byteOfBits_byteBits]

/-- Between two bytes the port stands as the last one left it. -/
theorem sampled_port (s : State) (p : PortId) : (s.setPort p (s.port p).sampledByte).port p = (s.port p).sampledByte :=
  port_setPort s p _

/-- The byte of the part's in REQUEST is 0xFF (R164). -/
theorem deliverByte_request (s : State) (p : PortId) (phase : (s.port p).decoder = .request) :
    s.deliverByte p = s.setPort p { s.port p with sdo := some 0xFF } := by
  simp only [State.deliverByte, phase, State.driveOnes]

theorem deliverByte_reply (s : State) (p : PortId) (b : Byte) (rest : List Byte) (phase : (s.port p).decoder = .reply)
    (reply : (s.port p).reply = b :: rest) :
    s.deliverByte p = s.setPort p { s.port p with
      sdo := some b, reply := rest
      decoder := if rest ≠ [] then .reply else if (s.port p).stream.isSome then .stream else .spent } := by
  simp only [State.deliverByte, phase, reply]

theorem deliverByte_stream (s : State) (p : PortId) (st : Stream) (phase : (s.port p).decoder = .stream)
    (stream : (s.port p).stream = some st) : s.deliverByte p = s.deliverData p st := by
  simp only [State.deliverByte, phase, stream]

/-! ### The edges of a byte -/

section Eighth

variable {s : State} {p : PortId} (sdi : Bool)

/-- The port with its byte complete. -/
def done (s : State) (p : PortId) : Port := { s.port p with bits := [], sckHigh := true }

theorem sckRise_high (high : (s.port p).sckHigh = true) : s.sckRise p sdi = s := by
  unfold State.sckRise
  exact if_pos high

theorem sckRise_unheard (low : (s.port p).sckHigh = false) (unheard : (s.port p).decoder = .idle ∨ (s.port p).decoder = .ignored) :
    s.sckRise p sdi = s.setPort p { s.port p with sckHigh := true } := by
  unfold State.sckRise
  simp only
  rw [if_neg (by simp [low]), if_pos unheard]

theorem sckRise_bit (low : (s.port p).sckHigh = false) (notIdle : (s.port p).decoder ≠ .idle)
    (notIgnored : (s.port p).decoder ≠ .ignored) (few : (s.port p).bits.length < 7) :
    s.sckRise p sdi = s.setPort p { s.port p with bits := (s.port p).bits ++ [sdi], sckHigh := true } := by
  unfold State.sckRise
  simp only
  rw [if_neg (by simp [low]), if_neg (by simp [notIdle, notIgnored]), if_pos few]

theorem eighth_turnaround (low : (s.port p).sckHigh = false) (bits : (s.port p).bits.length = 7)
    (phase : (s.port p).decoder = .turnaround) :
    exec (.replyByteDelivery ⟨p, [.rise sdi], []⟩) s = .next (s.setPort p { done s p with
      sdo := some 0xFF, turnaroundLeft := (s.port p).turnaroundLeft - 1
      decoder := if (s.port p).turnaroundLeft ≤ 1 then .reply else .turnaround }) := by
  rw [exec_eighth sdi low bits (by simp [phase]) (by simp [phase]) (by simp [phase]),
    UnknownCode.deliverByte_turnaround _ p (by rw [sampled_port]; exact phase), sampled_port, setPort_setPort]
  rfl

theorem eighth_spent (low : (s.port p).sckHigh = false) (bits : (s.port p).bits.length = 7) (phase : (s.port p).decoder = .spent) :
    exec (.replyByteDelivery ⟨p, [.rise sdi], []⟩) s = .next (s.setPort p { done s p with sdo := some 0xFF }) := by
  rw [exec_eighth sdi low bits (by simp [phase]) (by simp [phase]) (by simp [phase]),
    UnknownCode.deliverByte_spent _ p (by rw [sampled_port]; exact phase), sampled_port, setPort_setPort]
  rfl

theorem eighth_reply (low : (s.port p).sckHigh = false) (bits : (s.port p).bits.length = 7) {b : Byte} {rest : List Byte}
    (phase : (s.port p).decoder = .reply) (reply : (s.port p).reply = b :: rest) :
    exec (.replyByteDelivery ⟨p, [.rise sdi], []⟩) s = .next (s.setPort p { done s p with
      sdo := some b, reply := rest
      decoder := if rest ≠ [] then .reply else if (s.port p).stream.isSome then .stream else .spent }) := by
  rw [exec_eighth sdi low bits (by simp [phase]) (by simp [phase]) (by simp [phase]),
    deliverByte_reply _ p b rest (by rw [sampled_port]; exact phase) (by rw [sampled_port]; exact reply), sampled_port, setPort_setPort]
  rfl

/-- In REQUEST the byte is put behind those of the frame (R166). -/
theorem eighth_request (low : (s.port p).sckHigh = false) (bits : (s.port p).bits.length = 7)
    (phase : (s.port p).decoder = .request) :
    exec (.replyByteDelivery ⟨p, [.rise sdi], []⟩) s
      = .next ((s.setPort p { done s p with sdo := some 0xFF }).arrive p (byteOfBits ((s.port p).bits ++ [sdi]))) := by
  rw [exec_eighth_request sdi low bits phase, deliverByte_request _ p (by rw [sampled_port]; exact phase), sampled_port,
    setPort_setPort]
  rfl

end Eighth

theorem arrive_none {s : State} {p : PortId} {b : Byte} (none : decodeFrame p ((s.port p).request ++ [b]) = .none) :
    s.arrive p b = s.setPort p { s.port p with request := (s.port p).request ++ [b], received := (s.port p).received + 1 } := by
  unfold State.arrive
  simp only [none]

theorem arrive_some {s : State} {p : PortId} {b : Byte} {c : Instr} (some : decodeFrame p ((s.port p).request ++ [b]) = .some c) :
    s.arrive p b = (s.setPort p { s.port p with request := [], received := 0 }).afterRequest c := by
  unfold State.arrive
  simp only [some]

/-! ### SDO -/

/-- A bit of the byte being sent stands on SDO from the fall before its rise. -/
theorem sdoLevel_low {s : State} {p : PortId} (driven : (s.port p).sdo ≠ none) (low : (s.port p).sckHigh = false) :
    s.sdoLevel p = some ((s.sending p).getLsbD (7 - (s.port p).bits.length)) := by
  obtain ⟨last, sdo⟩ := Option.ne_none_iff_exists'.1 driven
  unfold State.sdoLevel
  simp only [sdo, low, Option.map_some, Bool.false_eq_true, if_false]

theorem getLsbD_ones (k : Nat) (low : k < 8) : (0xFF : Byte).getLsbD k = true := by
  interval_cases k <;> rfl

theorem sending_ones {s : State} {p : PortId}
    (phase : (s.port p).decoder = .request ∨ (s.port p).decoder = .turnaround ∨ (s.port p).decoder = .spent) :
    s.sending p = 0xFF := by
  unfold State.sending
  rcases phase with phase | phase | phase <;> simp only [phase]

theorem sending_reply {s : State} {p : PortId} {b : Byte} {rest : List Byte} (phase : (s.port p).decoder = .reply)
    (reply : (s.port p).reply = b :: rest) : s.sending p = b := by
  unfold State.sending
  simp only [phase, reply, List.headD_cons]

/-- Through its rise a bit of the reply stays on SDO. -/
theorem reply_bit {s : State} {p : PortId} (sdi : Bool) (driven : (s.port p).sdo ≠ none) (low : (s.port p).sckHigh = false)
    (few : (s.port p).bits.length ≤ 7) {b : Byte} {rest : List Byte} (phase : (s.port p).decoder = .reply)
    (reply : (s.port p).reply = b :: rest) :
    ∃ t, exec (.replyByteDelivery ⟨p, [.rise sdi], []⟩) s = .next t ∧ t.sdoLevel p = s.sdoLevel p := by
  rw [sdoLevel_low driven low, sending_reply phase reply]
  by_cases last : (s.port p).bits.length = 7
  · refine ⟨_, eighth_reply sdi low last phase reply, ?_⟩
    unfold State.sdoLevel
    simp [last, done]
  · refine ⟨s.setPort p { s.port p with bits := (s.port p).bits ++ [sdi], sckHigh := true }, ?_, ?_⟩
    · rw [exec_edge]
      exact congrArg Host.Outcome.next (sckRise_bit sdi low (by simp [phase]) (by simp [phase]) (by omega))
    · obtain ⟨sent, sdo⟩ := Option.ne_none_iff_exists'.1 driven
      have sending : (s.setPort p { s.port p with bits := (s.port p).bits ++ [sdi], sckHigh := true }).sending p = b :=
        sending_reply (by simp [phase]) (by rw [port_setPort]; exact reply)
      have index : 8 - ((s.port p).bits.length + 1) = 7 - (s.port p).bits.length := by omega
      unfold State.sdoLevel
      simp only [sending]
      simp [sdo, index]

/-- Settles O28, phase by phase. -/
theorem replyBytesDelivered : Obligations.ReplyBytesDelivered := by
  intro p s sdi r e
  have edge : e = .next (s.sckRise p sdi) := exec_edge s p (.rise sdi)
  refine ⟨UnknownCode.exec_edges s p [], fun elsewhere owners => ?noStatus, fun x edges owners => ⟨_, exec_edge s p x, rfl⟩,
    exec_edge s p .fall, fun high => edge.trans (congrArg _ (sckRise_high sdi high)),
    fun low unheard => edge.trans (congrArg _ (sckRise_unheard sdi low unheard)),
    fun low notIdle notIgnored few => edge.trans (congrArg _ (sckRise_bit sdi low notIdle notIgnored few)),
    fun low bits => ?eighth, fun undriven => ?undriven, fun driven low few => ⟨fun phase => ?ones, fun b rest phase reply => ?bit⟩⟩
  case noStatus =>
    rw [StatusReply.exec_takes, StatusReply.gatherStatus_same s p owners fun g _ taking => ?_]
    exact absurd ((StatusReply.takingStatus_iff _).1 taking).1 elsewhere
  case eighth =>
    refine ⟨fun request byte spelled => ?_, eighth_spent sdi low bits, fun turnaround two => ?_, fun turnaround one => ?_,
      fun b rest reply bytes => ⟨fun more => ?_, fun last silent => ?_, fun last streams => ?_⟩⟩
    · have run : e = _ := eighth_request sdi low bits request
      rw [byteOfBits_eq byte (by simp [bits]) spelled] at run
      refine ⟨fun none => ?_, fun c some => ⟨?_, ?_, ?_⟩⟩
      · rw [run, arrive_none (by rw [port_setPort]; exact none), port_setPort, setPort_setPort]
        rfl
      · exact ⟨by rw [port_setPort]; exact request, by rw [port_setPort], by rw [port_setPort]⟩
      · rw [run, arrive_some (by rw [port_setPort]; exact some), afterRequest_exec c p _ (decodeFrame_port p _ c some), port_setPort,
          setPort_setPort]
        rfl
      · exact ⟨_, run⟩
    · refine (eighth_turnaround sdi low bits turnaround).trans ?_
      rw [show (s.port p).turnaroundLeft = 2 from two]
      show Host.Outcome.next (s.setPort p { done s p with sdo := some 0xFF, turnaroundLeft := 1, decoder := .turnaround }) = _
      rw [← show (s.port p).decoder = .turnaround from turnaround]
      rfl
    · refine (eighth_turnaround sdi low bits turnaround).trans ?_
      rw [show (s.port p).turnaroundLeft = 1 from one]
      rfl
    all_goals refine (eighth_reply sdi low bits reply bytes).trans ?_
    · rw [if_pos more, ← show (s.port p).decoder = .reply from reply]
      rfl
    · rw [if_neg (not_not_intro last), if_neg (mt Option.isSome_iff_ne_none.1 (not_not_intro silent)), last]
      rfl
    · rw [if_neg (not_not_intro last), if_pos (Option.isSome_iff_ne_none.2 streams), last]
      rfl
  case undriven =>
    unfold State.sdoLevel
    simp only [show (s.port p).sdo = none from undriven, Option.map_none]
  case ones =>
    rw [sdoLevel_low driven low, sending_ones phase, getLsbD_ones _ (by omega)]
  case bit =>
    refine ⟨?_, reply_bit sdi driven low few phase reply⟩
    rw [sdoLevel_low driven low, sending_reply phase reply]

/-! ### Read streams -/

theorem streamByte_eq {s : State} {st : Stream} {byte : Byte}
    (pinned : ∀ b, st.pinned = some b → byte = s.flash.read (4160 * b.val + st.position)) (unpinned : st.pinned = none → byte = 0xFF) :
    s.streamByte st = byte := by
  unfold State.streamByte
  cases pin : st.pinned with
  | none => exact (unpinned pin).symm
  | some b => exact (pinned b pin).symm

/-- The eighth rise in a stream delivers a data byte. -/
theorem eighth_stream {s : State} {p : PortId} {st : Stream} (sdi : Bool) (low : (s.port p).sckHigh = false)
    (bits : (s.port p).bits.length = 7) (phase : (s.port p).decoder = .stream) (stream : (s.port p).stream = some st) :
    exec (.replyByteDelivery ⟨p, [.rise sdi], []⟩) s = .next ((s.setPort p (s.port p).sampledByte).deliverData p st) := by
  rw [exec_eighth sdi low bits (by simp [phase]) (by simp [phase]) (by simp [phase]),
    deliverByte_stream _ p st (by rw [sampled_port]; exact phase) (by rw [sampled_port]; exact stream)]

theorem exec_nextPage {s : State} {p : PortId} {st : Stream} (phase : (s.port p).decoder = .stream)
    (stream : (s.port p).stream = some st) (due : st.atPageEnd = true) :
    exec (.readStreamNextPage p) s = .next ((s.setPort p (s.port p).sampledByte).deliverPageEnd p st) := by
  show execReadStreamNextPage p s = _
  unfold execReadStreamNextPage
  simp only [phase, stream]
  exact if_pos due

theorem exec_streamEnd {s : State} {p : PortId} {st : Stream} (phase : (s.port p).decoder = .stream)
    (stream : (s.port p).stream = some st) (due : st.atEnd = true) :
    exec (.readStreamEnd p) s = .next ((s.setPort p (s.port p).sampledByte).deliverLast p st) := by
  show execReadStreamEnd p s = _
  unfold execReadStreamEnd
  simp only [phase, stream]
  exact if_pos due

theorem sampled_streamByte (s : State) (p : PortId) (st : Stream) :
    (s.setPort p (s.port p).sampledByte).streamByte st = s.streamByte st := rfl

/-- Within a page the position and the count of bytes move. -/
theorem deliverOrdinary_sampled (s : State) (p : PortId) (st : Stream) :
    (s.setPort p (s.port p).sampledByte).deliverOrdinary p st = s.setPort p { done s p with
      sdo := some (s.streamByte st)
      stream := some { st with position := st.position + 1, bytesLeft := st.bytesLeft - 1 } } := by
  rw [State.deliverOrdinary, sampled_port, setPort_setPort, sampled_streamByte]
  rfl

/-- At a page's end the pin moves to the block of the next page (R174). -/
theorem deliverPageEnd_sampled (s : State) (p : PortId) (st : Stream) (page : PageId) (next : page.val = st.page.val + 1) :
    (s.setPort p (s.port p).sampledByte).deliverPageEnd p st
      = State.setPort { s with bm := (s.bm.unpinPage st.pinned).pinPage (s.map.currentBlock page) } p { done s p with
          sdo := some (s.streamByte st)
          stream := some { page := page, position := 0, pinned := s.map.currentBlock page, bytesLeft := st.bytesLeft - 1 } } := by
  have inside : st.page.val + 1 < 464 := next ▸ page.isLt
  have named : (⟨st.page.val + 1, inside⟩ : PageId) = page := Fin.ext next.symm
  rw [State.deliverPageEnd, dif_pos inside, named, sampled_port, sampled_streamByte]
  exact setPort_setPort { s with bm := (s.bm.unpinPage st.pinned).pinPage (s.map.currentBlock page) } p _ _

/-- With the last byte the pin is released and the frame is SPENT (R175). -/
theorem deliverLast_sampled (s : State) (p : PortId) (st : Stream) (stream : (s.port p).stream = some st) :
    (s.setPort p (s.port p).sampledByte).deliverLast p st
      = State.setPort { s with bm := s.bm.unpinPage st.pinned } p { done s p with
          stream := none, decoder := .spent, sdo := some (s.streamByte st) } := by
  rw [State.deliverLast, endStream_eq, portHeld_endStream, sampled_port, sampled_streamByte]
  have pin : streamPin (s.port p).sampledByte.stream = st.pinned := by
    show streamPin (s.port p).stream = _
    rw [stream]; rfl
  rw [pin]
  exact setPort_setPort { s with bm := s.bm.unpinPage st.pinned } p _ _

/-- One pin is released, and then another is taken. -/
theorem pins_moved (bm : BlockManager) (down up : Option BlockId) : bm.PinsMoved ((bm.unpinPage down).pinPage up) down up := by
  obtain ⟨first, released⟩ := pins_unpinPage bm down
  obtain ⟨second, taken⟩ := pins_pinPage (bm.unpinPage down) up
  refine ⟨by rw [second, first], fun c => ?_⟩
  rw [taken, released, Option.map_map]
  simp only [Function.comp_def, reduceCtorEq, if_false, Nat.add_zero, Nat.sub_zero]

/-- Settles O29: within a page, at its end, and with the last byte. -/
theorem streamDelivers : Obligations.StreamDelivers := by
  intro p s st byte phase stream pinned unpinned r eighth
  have data : s.streamByte st = byte := streamByte_eq pinned unpinned
  refine ⟨fun driven low few => ?_, fun more inside c => ?_, fun more edge page next => ?_, fun last => ?_⟩
  · have sending : s.sending p = byte := by
      unfold State.sending
      simp only [phase, stream]
      exact data
    rw [sdoLevel_low driven low, sending]
  · rintro ⟨low, bits, sdi, rfl⟩
    have notEnd : ¬ st.atEnd = true := by simp [Stream.atEnd]; omega
    have notPageEnd : ¬ st.atPageEnd = true := by simp [Stream.atPageEnd]; omega
    rw [eighth_stream sdi low bits phase stream, State.deliverData, if_neg notEnd, if_neg notPageEnd, deliverOrdinary_sampled, data]
    rfl
  · refine ⟨_, pins_moved s.bm st.pinned (s.map.currentBlock page), fun c event => ?_⟩
    have notEnd : ¬ st.atEnd = true := by simp [Stream.atEnd]; omega
    have pageEnd : st.atPageEnd = true := by simp [Stream.atPageEnd]; omega
    have run : exec c s = .next ((s.setPort p (s.port p).sampledByte).deliverPageEnd p st) := by
      rcases event with ⟨low, bits, sdi, rfl⟩ | rfl
      · rw [eighth_stream sdi low bits phase stream, State.deliverData, if_neg notEnd, if_pos pageEnd]
      · exact exec_nextPage phase stream pageEnd
    rw [run, deliverPageEnd_sampled s p st page next, data]
    rfl
  · refine ⟨_, pins_unpinPage s.bm st.pinned, fun c event => ?_⟩
    have atEnd : st.atEnd = true := by simp [Stream.atEnd]; omega
    have run : exec c s = .next ((s.setPort p (s.port p).sampledByte).deliverLast p st) := by
      rcases event with ⟨low, bits, sdi, rfl⟩ | rfl
      · rw [eighth_stream sdi low bits phase stream, State.deliverData, if_pos atEnd]
      · exact exec_streamEnd phase stream atEnd
    rw [run, deliverLast_sampled s p st stream, data]
    rfl

end Sys2Proof.Proofs.ChipSelect

/-! The resets: of a port (O30), by RESET_n (O31, O32) and by the supply (O33). -/

namespace Sys2Proof.Proofs.Resets

open Sys2Proof Sys2Proof.Machine Sys2Proof.Laws

/-! ### The port reset -/

theorem exec_prstAssert_up {s : State} {p : PortId} (high : (s.port p).prstLow = false)
    (up : s.power.supplied = true ∧ s.power.resetLow = false) : exec (.prstAssert p) s = .next (s.portReset p) := by
  show execPrstAssert p s = _
  rw [execPrstAssert, if_neg (by simp [high]), if_pos ((running_iff s).2 up)]

theorem exec_prstAssert_down {s : State} {p : PortId} (high : (s.port p).prstLow = false)
    (down : ¬ (s.power.supplied = true ∧ s.power.resetLow = false)) :
    exec (.prstAssert p) s = .next (s.setPort p { s.port p with prstLow := true }) := by
  show execPrstAssert p s = _
  rw [execPrstAssert, if_neg (by simp [high]), if_neg (mt (running_iff s).1 down)]

theorem exec_prstRelease {s : State} {p : PortId} (low : (s.port p).prstLow = true) : exec (.prstRelease p) s =
    .next (s.setPort p { s.port p with
      prstLow := false, decoder := if s.running && !(s.port p).csLow then .idle else (s.port p).decoder }) := if_pos low

/-- A change of the pins, the sessions, the notices, the ports and the engine. -/
theorem state_eq {s t : State} {e : Engine} (flash : t.flash = s.flash) (map : t.map = s.map) (prot : t.prot = s.prot)
    (mount : t.mount = s.mount) (power : t.power = s.power) (pending : t.pending = s.pending) (eng : t.eng = e) :
    t = { s with bm := t.bm, ses := t.ses, notices := t.notices, ports := t.ports, eng := e } := by
  cases t
  simp only at flash map prot mount power pending eng
  rw [flash, map, prot, mount, power, pending, eng]

theorem endsAtReset_iff (p : PortId) (r : Session) : endsAtReset p r = true ↔
    r.owner = some p ∧ (r.state = .opened ∨ r.state = .queued ∨ r.state = .finished) := by
  simp [endsAtReset, or_assoc]

theorem alertLaw_portReset (s : State) (p : PortId) : (s.portReset p).AlertLaw := refreshAlerts_law _

/-- The port's own record at its reset (R178). -/
theorem cleared_portReset (s : State) (p : PortId) : Port.Cleared (s.port p) ((s.portReset p).port p) true := by
  rw [portReset_port, if_pos rfl]
  rfl

/-- Settles O30. -/
theorem portReset : Obligations.PortReset := by
  intro p s up ends
  refine ⟨fun high held => ⟨s.portReset p, exec_prstAssert_up high held, ?_⟩, fun high down => exec_prstAssert_down high down,
    fun low => ⟨fun held high => ?_, fun other => ?_⟩⟩
  · have notice := portReset_notice s p
    have port := portReset_port s p
    have own := cleared_portReset s p
    have alerts := alertLaw_portReset s p
    have frame := state_eq (portReset_flash s p) (portReset_map s p) (portReset_prot s p) (portReset_mount s p)
      (portReset_power s p) (portReset_pending s p) (portReset_eng s p)
    have pins : s.bm.PinsMoved (s.portReset p).bm (streamPin (s.port p).stream) none := by
      rw [portReset_bm]; exact pins_unpinPage s.bm _
    have ses := portReset_ses s p
    generalize s.portReset p = t at notice port own alerts frame pins ses ⊢
    have session (i : SessionId) : t.ses.session i = resetRecord p (s.ses.session i) := by rw [ses, session_portReset]
    have claim (q : PageId) : t.ses.claim q = (s.ses.claim q).bind fun i =>
        if endsAtReset p (s.ses.session i) then none else some i := by rw [ses, claim_portReset]
    refine ⟨frame, pins, own, fun q other => ⟨?_, ?_⟩, ?_, alerts, fun i out => ?_, fun i owner engine => ?_, fun i foreign => ?_,
      fun page i claimed out => ?_, fun page kept => ?_, ?_, ?_⟩
    · rw [port, if_neg other]
    · rw [notice, if_neg other]
    · rw [notice, if_pos rfl]
      simp [NoticePort.reset]
    · rw [session, resetRecord, if_pos ((endsAtReset_iff p _).2 out)]
    · have stays : ¬ endsAtReset p (s.ses.session i) = true := fun out => by
        rcases ((endsAtReset_iff p _).1 out).2 with k | k | k <;> rcases engine with e | e <;> rw [k] at e <;> cases e
      rw [session, resetRecord, if_neg stays, if_pos ⟨owner, engine⟩]
    · have stays : ¬ endsAtReset p (s.ses.session i) = true := fun out => foreign ((endsAtReset_iff p _).1 out).1
      rw [session, resetRecord, if_neg stays, if_neg fun own => foreign own.1]
    · rw [claim, claimed, Option.bind_some, if_pos ((endsAtReset_iff p _).2 out)]
    · rw [claim]
      cases claimed : s.ses.claim page with
      | none => rfl
      | some i => rw [Option.bind_some, if_neg fun out => kept i claimed ((endsAtReset_iff p _).1 out)]
    · rw [ses, failure_portReset]
    · rw [ses, unwindRequest_portReset]
  · rw [exec_prstRelease low, if_pos (by simp [(running_iff s).2 held, high])]
  · have stays : ¬ (s.running && !(s.port p).csLow) = true := by
      simpa only [Bool.and_eq_true, running_iff, Bool.not_eq_true'] using other
    rw [exec_prstRelease low, if_neg stays]

/-! ### RESET_n and the supply -/

/-- Settles O31. -/
theorem resetAssertDiscards : Obligations.ResetAssertDiscards := by
  intro cut s high
  have meaning : exec (.resetAssert cut) s = execResetAssert cut s := rfl
  refine ⟨fun supplied => ?_, fun off => ?_⟩
  · have run : exec (.resetAssert cut) s = .next { (s.cutFlash cut).clearSram s.eng.markFault s.prot.frozen s.prot.tableFault with
        power := { s.power with resetLow := true } } := by
      rw [meaning, execResetAssert, if_neg (by simp [high]), if_pos supplied]
    refine ⟨_, run, cutFlash_cut s _ cut rfl, clear_reset s _ rfl rfl rfl ⟨_, rfl⟩ rfl rfl ⟨_, rfl⟩,
      held_cleared s _ (congrArg (Vector.map Port.held) (Events.cutFlash_ports s cut)), rfl, rfl, rfl, ?_⟩
    show (s.cutFlash cut).pending = _
    rw [cutFlash_frame]
  · rw [meaning, execResetAssert, if_neg (by simp [high]), if_neg (by simp [off])]

/-- Settles O32. -/
theorem resetReleaseMounts : Obligations.ResetReleaseMounts := by
  intro s low
  have meaning : exec .resetRelease s = execResetRelease s := rfl
  refine ⟨fun supplied => ?_, fun off => ?_⟩
  · have run : exec .resetRelease s
        = .next (State.mountStart { s with power := { s.power with resetLow := false } } .resetLine) := by
      rw [meaning, execResetRelease, if_pos low, if_pos supplied]
    exact ⟨_, run, rfl, rfl, clear_reset s _ rfl rfl rfl ⟨_, rfl⟩ rfl rfl ⟨_, rfl⟩, rfl, rfl, rfl, rfl, rfl, rfl,
      freed_cleared s _ rfl⟩
  · rw [meaning, execResetRelease, if_pos low, if_neg (by simp [off])]

/-- The part with its supply back: MARK_FAULT, FROZEN and TABLE_FAULT are cleared, and the mount waits (R112, R126). -/
def supplied (s : State) : State :=
  { s.clearSram false false false with mount := Mount.start .powerOn, power := { s.power with supplied := true } }

theorem exec_powerOn_off {cut : Cut} {s : State} (off : s.power.supplied = false) : exec (.powerOn cut) s =
    .next (if s.power.resetLow then supplied s else (supplied s).mountStart .powerOn) := by
  have stays : (if s.power.supplied then s.supplyLost cut else s) = s := if_neg (by simp [off])
  show execPowerOn cut s = _
  unfold execPowerOn
  simp only [stays]
  exact (apply_ite Host.Outcome.next (s.power.resetLow = true) (supplied s) ((supplied s).mountStart .powerOn)).symm

/-- A power-on of a supplied part is the loss of its supply and its return (log entry 19). -/
theorem exec_powerOn_on {cut : Cut} {s : State} (on : s.power.supplied = true) :
    exec (.powerOn cut) s = exec (.powerOn cut) (s.supplyLost cut) := by
  rw [exec_powerOn_off (s := s.supplyLost cut) rfl]
  have lost : (if s.power.supplied then s.supplyLost cut else s) = s.supplyLost cut := if_pos on
  show execPowerOn cut s = _
  unfold execPowerOn
  simp only [lost]
  exact (apply_ite Host.Outcome.next (s.power.resetLow = true) (supplied (s.supplyLost cut))
    ((supplied (s.supplyLost cut)).mountStart .powerOn)).symm

/-- Settles O33; with RESET_n low the ports stay held. -/
theorem supplyLossAndReturn : Obligations.SupplyLossAndReturn := by
  intro cut s
  refine ⟨fun on => ⟨s.supplyLost cut, if_pos on, cutFlash_cut s _ cut rfl,
    clear_reset s _ rfl rfl rfl ⟨_, rfl⟩ rfl rfl ⟨_, rfl⟩,
    held_cleared s _ (congrArg (Vector.map Port.held) (Events.cutFlash_ports s cut)), rfl, ?_, exec_powerOn_on on⟩, fun off => ?_⟩
  · show (s.cutFlash cut).pending = _
    rw [cutFlash_frame]
  · rw [exec_powerOn_off off]
    cases low : s.power.resetLow with
    | true =>
      have held : (supplied s).ports = s.ports.map Port.held := rfl
      refine ⟨supplied s, rfl, rfl, rfl, clear_reset s _ rfl rfl rfl ⟨_, rfl⟩ rfl rfl ⟨_, rfl⟩, rfl, rfl, rfl, rfl, rfl, rfl,
        fun p => ?_⟩
      rw [held_port s _ held p]
      exact ⟨rfl, by simp [Port.held], by simp [Port.held]⟩
    | false =>
      have freed : ((supplied s).mountStart .powerOn).ports = (s.ports.map Port.held).map Port.freed :=
        congrArg (Vector.map Port.freed) (held_held s)
      refine ⟨(supplied s).mountStart .powerOn, rfl, rfl, rfl, clear_reset s _ rfl rfl rfl ⟨_, rfl⟩ rfl rfl ⟨_, rfl⟩, rfl, rfl, rfl,
        rfl, rfl, rfl, fun p => ?_⟩
      simpa using freed_cleared s _ freed p

end Sys2Proof.Proofs.Resets

/-! The engine's choice of work (O34 to O36): a reclaim erase, the start of a commit, a start that fails or waits. -/

namespace Sys2Proof.Proofs.Choices

open Sys2Proof Sys2Proof.Machine Sys2Proof.Laws

/-! ### What the choice comes to -/

/-- With a block to erase and a reserve that calls for it, or no session queued, the choice is that erase (R69 cases 1 and 3). -/
theorem choose_erase {s : State} {b : BlockId} (oldest : s.bm.oldestUnpinned = some b)
    (calls : s.bm.freePool.length < 4 ∨ ∀ p, s.eng.queueOf p = []) : s.choose = s.reclaimStart b := by
  unfold State.choose BlockManager.reserveErase
  rw [oldest]
  by_cases low : s.bm.freePool.length < Config.reserve
  · rw [if_pos low]
  · have idle : s.eng.nextQueued = none := nextQueued_none _ (calls.resolve_left low)
    rw [if_neg low, idle]

/-- With neither a block to erase nor a session queued, the engine rests (R69 case 4). -/
theorem choose_rest {s : State} (pinned : s.bm.oldestUnpinned = none) (empty : ∀ p, s.eng.queueOf p = []) :
    s.choose = s := by
  unfold State.choose BlockManager.reserveErase
  rw [pinned, nextQueued_none _ empty, ite_self]

/-- With no reserve erase to make, the start of the next session is checked (R69 case 2, R70). -/
theorem choose_check {s : State} {p : PortId} {i : SessionId}
    (reserve : ¬ (s.bm.freePool.length < 4 ∧ ∃ b ∈ s.bm.dirtyList, s.bm.pins b = 0)) (next : s.eng.NextIs p i) :
    s.choose = s.startCheck p i := by
  unfold State.choose
  rw [no_reserve reserve, nextQueued_some _ p i next]

/-- The start check goes on to the serial request when the free blocks suffice. -/
theorem startCheck_enough {s : State} {i : SessionId} (p : PortId)
    (enough : (s.ses.session i).members.length ≤ s.bm.freePool.length) : s.startCheck p i = s.askSerial p i := if_pos enough

/-- The Map Unit refuses a serial above the last one (R24). -/
theorem serialEndOf_iff (n : Nat) : serialEndOf n = true ↔ 0xFFFFFF00 < n := decide_eq_true_iff

/-- Settles O34: the reserve erase and the erase of an engine with no session queued are the same step. -/
theorem choiceErases : Obligations.ChoiceErases := by
  intro s due noStart
  refine ⟨fun b before after list pinned free calls => ?_, fun allPinned empty => ?_⟩
  · have oldest : s.bm.oldestUnpinned = some b := oldestUnpinned_split s.bm b before after list pinned free
    have apart : b ∉ before := fun member => pinned b member free
    obtain ⟨dirty, pool, retired, reclassed⟩ := eraseStart_spec s.bm b
    refine ⟨s.bm.eraseStart b, ?_, ?_, pool, retired, reclassed⟩
    · rw [choose_due due noStart, choose_erase oldest calls]
      rfl
    · rw [dirty, list, removeBlock_split b before after apart]
  · rw [choose_due due noStart, choose_rest (oldestUnpinned_none s.bm allPinned) empty]

/-! ### A start hand-off -/

/-- A hand-off whose session has left QUEUED is taken and changes nothing else (R48, R71). -/
theorem takeStart_refused {s : State} {h : StartHandoff} (gone : h.live = false ∨ (s.ses.session h.session).state ≠ .queued) :
    s.takeStart h = { s with eng := { s.eng with start := none } } := by
  refine if_neg fun ⟨live, queued⟩ => ?_
  rcases gone with dead | left
  · exact Bool.noConfusion (dead.symm.trans live)
  · exact left queued

/-- An accepted start (R48, R72). -/
theorem takeStart_start {s : State} {h : StartHandoff} {serial : Nat} {bases : List (Option BlockId)}
    (kind : h.kind = .start serial bases) (live : h.live = true) (queued : (s.ses.session h.session).state = .queued) :
    s.takeStart h = State.commitStart { s with eng := { s.eng with start := none } } h serial bases := by
  unfold State.takeStart
  rw [if_pos ⟨live, queued⟩, kind]

/-- An accepted failure of a start ends the session (R70, R24). -/
theorem takeStart_failed {s : State} {h : StartHandoff} {reason : FailReason}
    (kind : h.kind = .checkFailed ∧ reason = .noSpace ∨ h.kind = .serialRefused ∧ reason = .serialEnd)
    (live : h.live = true) (queued : (s.ses.session h.session).state = .queued) :
    s.takeStart h = State.finishSession { s with eng := { s.eng with start := none } } h.session (.failed reason) := by
  unfold State.takeStart
  rw [if_pos ⟨live, queued⟩]
  rcases kind with ⟨kind, rfl⟩ | ⟨kind, rfl⟩ <;> rw [kind]

/-- The engine without a session, where no start hand-off stands. -/
theorem dequeue_without (e : Engine) (i : SessionId) (noStart : e.start = none) : e.Without (e.dequeue i) i :=
  ⟨rfl, queueOf_dequeue e i, by
    show e.start = _
    rw [noStart, Option.map_none]⟩

/-- Settles O35: the choice hands the start over, and the next one takes it. -/
theorem choiceStartsCommit : Obligations.ChoiceStartsCommit := by
  refine ⟨fun s p i due noStart reserve next => ?_, fun s h serial bases due start kind => ?_⟩
  · intro r queued enough serial map start
    have notEnd : serialEndOf s.map.nextSerial = false := by
      rw [← Bool.not_eq_true, serialEndOf_iff]
      omega
    rw [choose_due due noStart, choose_check reserve next, startCheck_enough p enough, State.askSerial, if_neg (by simp [notEnd])]
    have isQueued : (s.ses.session i).state = .queued := queued
    simp only [State.handStart, isQueued, decide_true]
    rfl
  · intro r taken
    rw [takeStart_due due start]
    refine ⟨fun live queued writer owner => ?_, fun gone => congrArg Host.Outcome.next (takeStart_refused gone)⟩
    have record : State.startRecord taken h serial bases
        = { session := h.session, serial := serial, writer := writer, pages := r.members, windowsLine := r.windowsLine,
            bases := bases, targets := r.members.map fun _ => none, member := 0, tries := 0,
            unwindRequested := false, boundaryHanded := false } := by
      show CommitRec.mk _ _ (r.owner.getD h.port) _ _ _ _ _ _ _ _ = _
      rw [owner]
      rfl
    refine ⟨_, taken.eng.dequeue h.session, congrArg Host.Outcome.next (takeStart_start kind live queued),
      dequeue_without _ _ rfl, ?_⟩
    rw [← record]
    exact beginMember_spec _ _

/-- A failed start is handed over with its session off its list (R66, R70, R72). -/
theorem handFailedStart_eq {s : State} {i : SessionId} (p : PortId) (kind : StartKind)
    (queued : (s.ses.session i).state = .queued) :
    ∃ e : Engine, s.handFailedStart p i kind = { s with eng := e }
      ∧ e = { s.eng with queue := e.queue, start := some { session := i, port := p, kind := kind, live := true } }
      ∧ ∀ q, e.queueOf q = (s.eng.queueOf q).filter (· != i) := by
  refine ⟨{ s.eng.dequeue i with start := some { session := i, port := p, kind := kind, live := true } }, ?_, rfl,
    queueOf_dequeue s.eng i⟩
  simp only [State.handFailedStart, State.handStart, queued, decide_true]

/-- Settles O36. -/
theorem choiceFailsOrWaits : Obligations.ChoiceFailsOrWaits := by
  refine ⟨fun s p i due noStart reserve next queued => ?_, fun s h reason due start kind => ?_⟩
  · intro n fails
    have check : exec .choiceOfWork s = .next (s.startCheck p i) := by
      rw [choose_due due noStart, choose_check reserve next]
    have handed {kind : StartKind} (failed : s.startCheck p i = s.handFailedStart p i kind) : fails kind := by
      obtain ⟨e, eq, engine, queues⟩ := handFailedStart_eq p kind queued
      exact ⟨e, check.trans (congrArg Host.Outcome.next (failed.trans eq)), engine, queues⟩
    refine ⟨fun few => handed ?_, fun enough last => handed ?_, fun wait soon => ?_⟩
    · have short : ¬ n ≤ s.bm.freePool.length := by omega
      exact (if_neg short).trans (if_pos few)
    · exact (startCheck_enough p enough).trans (if_pos ((serialEndOf_iff _).2 last))
    · have short : ¬ n ≤ s.bm.freePool.length := by omega
      have reclaimable : ¬ s.bm.freePool.length + s.bm.dirtyList.length < n := by omega
      exact check.trans (congrArg Host.Outcome.next ((if_neg short).trans (if_neg reclaimable)))
  · intro taken
    rw [takeStart_due due start]
    exact ⟨fun live queued => ⟨_, congrArg Host.Outcome.next (takeStart_failed kind live queued), finishSession_early taken _ _⟩,
      fun gone => congrArg Host.Outcome.next (takeStart_refused gone)⟩

end Sys2Proof.Proofs.Choices

/-! Flash operations: what a program writes (O37), how an operation ends (O38 to O40) and how its time limit ends it (O41). -/

namespace Sys2Proof.Proofs.Operations

open Sys2Proof Sys2Proof.Machine Sys2Proof.Laws

/-! ### The bytes of a program -/

/-- The page list of a stamp: its pages, then 0xFFFF up to four entries (R184). -/
theorem pageListBytes_eq (pages : List PageId) (few : pages.length ≤ 4) :
    pageListBytes pages = pages.flatMap (fun q => natBytes2 q.val) ++ List.replicate (2 * (4 - pages.length)) 0xFF := by
  match pages, few with
  | [], _ => rfl
  | [_], _ => rfl
  | [_, _], _ => rfl
  | [_, _, _], _ => rfl
  | [_, _, _, _], _ => rfl
  | _ :: _ :: _ :: _ :: _ :: _, few => simp only [List.length_cons] at few; omega

/-- The line program of a commit writes merged content (R45, R74). -/
theorem intended_line {s : State} {r : CommitRec} {step : CommitStep} (commits : s.eng.work = .commit r step) (b : BlockId)
    (k : Nat) :
    s.intendedBytes (.line b k) = (List.range 256).map fun j =>
      mergedByte s.flash ((s.ses.session r.session).buffers.getD r.member []) (r.bases.getD r.member none) (256 * k + j) := by
  unfold State.intendedBytes
  rw [commits]
  exact SessionRequests.mergedLine_eq _ _ _ k

/-- The data stamp program of a commit writes the stamp of its member (R75, R184). -/
theorem intended_dataStamp {s : State} {r : CommitRec} {step : CommitStep} (commits : s.eng.work = .commit r step) (b : BlockId) :
    s.intendedBytes (.dataStamp b) = dataStampBytes
      { count := r.pages.length, index := r.member, pages := r.pages, serial := r.serial, writer := r.writer } := by
  unfold State.intendedBytes
  rw [commits]

/-- Settles O37: the addresses and the short programs are the definitions; the check value is computed. -/
theorem whatIsProgrammed : Obligations.WhatIsProgrammed := by
  refine ⟨fun b => ⟨rfl, rfl, rfl, rfl, rfl, rfl, rfl, rfl, rfl, rfl, rfl, rfl, fun k => ⟨rfl, rfl⟩⟩, fun s b => ?_, by decide +kernel⟩
  refine ⟨rfl, rfl, rfl, rfl, fun r step commits => ⟨fun k => intended_line commits b k, fun few => ?_⟩⟩
  intro list head
  have pages : pageListBytes r.pages = list := pageListBytes_eq r.pages few
  rw [intended_dataStamp commits, dataStampBytes, pages]
  rfl

/-! ### An operation completes

Each completion finds the engine at its sub-step (log entry 3). -/

theorem exec_begunMark {s : State} (w : Written) {r : CommitRec} (work : s.eng.work = .commit r .begunMark) :
    exec (.begunMarkCompletion w) s = .next (s.completeOp w fun ok t => t.begunMarkEnded r ok) := by
  show execBegunMarkCompletion w s = _
  unfold execBegunMarkCompletion
  rw [work]

theorem exec_line {s : State} (w : Written) {r : CommitRec} {k : Nat} (work : s.eng.work = .commit r (.line k)) :
    exec (.lineProgramCompletion w) s = .next (s.completeOp w fun ok t => t.lineEnded r k ok) := by
  show execLineProgramCompletion w s = _
  unfold execLineProgramCompletion
  rw [work]

theorem exec_dataStamp {s : State} (w : Written) {r : CommitRec} (work : s.eng.work = .commit r .dataStamp) :
    exec (.dataStampCompletion w) s = .next (s.completeOp w fun ok t => t.dataStampEnded r ok) := by
  show execDataStampCompletion w s = _
  unfold execDataStampCompletion
  rw [work]

theorem exec_void {s : State} (w : Written) {u : UnwindRec} {b : BlockId} {n : Nat} (work : s.eng.work = .unwind u (.void b n)) :
    exec (.voidCompletion w) s = .next (s.completeOp w fun ok t => t.unwindVoidEnded u b n ok) := by
  show execVoidCompletion w s = _
  unfold execVoidCompletion
  rw [work]

theorem exec_mountVoid {s : State} (w : Written) {b : BlockId} {rest : List BlockId} {n : Nat} (work : s.eng.work = .mountVoid b rest (.void n)) :
    exec (.mountVoidCompletion w) s = .next (s.completeOp w fun ok t => t.mountVoidEnded b rest n ok) := by
  show execMountVoidCompletion w s = _
  unfold execMountVoidCompletion
  rw [work]

theorem exec_mountRetire {s : State} (w : Written) {b : BlockId} {rest : List BlockId} {n : Nat} (work : s.eng.work = .mountVoid b rest (.retire n)) :
    exec (.mountVoidCompletion w) s = .next (s.completeOp w fun ok t => t.retireEnded ok) := by
  show execMountVoidCompletion w s = _
  unfold execMountVoidCompletion
  rw [work]

theorem exec_erase {s : State} (w : Written) {b : BlockId} (work : s.eng.work = .erase b .erase) :
    exec (.eraseCompletion w) s = .next (s.completeOp w fun ok t => t.eraseEnded b ok) := by
  show execEraseCompletion w s = _
  unfold execEraseCompletion
  rw [work]

theorem exec_freeStamp {s : State} (w : Written) {b : BlockId} (work : s.eng.work = .erase b .freeStamp) :
    exec (.freeStampCompletion w) s = .next (s.completeOp w fun ok t => t.freeStampEnded b ok) := by
  show execFreeStampCompletion w s = _
  unfold execFreeStampCompletion
  rw [work]

/-- An operation completes as its end is taken: what it programs has the length of its field (R2). -/
theorem completes {s : State} {c : Instr} {op : FlashOp} {w : Written} {next : Bool → State → State}
    (flight : s.eng.work.inFlight = some op) (run : exec c s = .next (s.completeOp w next))
    (ends : ∀ (m : Memory) (ok : Bool) (P : Prop), (ok = true ↔ P) →
      State.OpEnds { s with flash := m } (next ok { s with flash := m }) P) : s.Completes c op w :=
  completes_of_ends s c op w next flight run (intended_length s op flight) ends

/-- Settles O38. -/
theorem commitProgramsEnd : Obligations.CommitProgramsEnd := by
  intro r b w s target
  refine ⟨fun work => ?_, fun k work => ?_, fun work => ?_⟩
  · exact completes (by simp [work, Work.inFlight, target]) (exec_begunMark w work)
      fun _ ok P verified => begunMarkEnded_ends _ r ok P verified work
  · exact completes (by simp [work, Work.inFlight, target]) (exec_line w work)
      fun _ ok P verified => lineEnded_ends _ r k ok P verified work
  · exact completes (by simp [work, Work.inFlight, target]) (exec_dataStamp w work)
      fun _ ok P verified => dataStampEnded_ends _ r ok P verified work

/-- A retire mark completes alike in every engine state that makes one (R76, R83, R89, R99). -/
theorem completes_retireMark {s : State} {b : BlockId} (w : Written) (retiring : s.eng.work.retiring = true)
    (flight : s.eng.work.inFlight = some (.retire b)) : s.Completes (.retireMarkCompletion w) (.retire b) w :=
  completes (next := fun ok t => t.retireEnded ok) flight (if_pos retiring)
    fun _ ok P verified => retireEnded_ends _ ok P verified retiring

/-- Settles O39. -/
theorem discardMarksEnd : Obligations.DiscardMarksEnd := by
  intro b n w s
  refine ⟨fun u work => ?_, fun rest work => ?_, fun r work target => ?_, fun u work => ?_, fun work => ?_, fun rest work => ?_⟩
  · exact completes (by rw [work]; rfl) (exec_void w work)
      fun _ ok P verified => unwindVoidEnded_ends _ u b n ok P verified work
  · exact completes (by rw [work]; rfl) (exec_mountVoid w work)
      fun _ ok P verified => mountVoidEnded_ends _ b rest n ok P verified work
  · exact completes_retireMark w (by rw [work]; rfl) (by simp [work, Work.inFlight, target])
  · exact completes_retireMark w (by rw [work]; rfl) (by rw [work]; rfl)
  · exact completes_retireMark w (by rw [work]; rfl) (by rw [work]; rfl)
  · have retiring : s.eng.work.retiring = true := by rw [work]; rfl
    have flight : s.eng.work.inFlight = some (.retire b) := by rw [work]; rfl
    exact ⟨completes_retireMark w retiring flight, completes flight (exec_mountRetire w work)
      fun _ ok P verified => retireEnded_ends _ ok P verified retiring⟩

/-- Settles O40. -/
theorem reclaimOpsEnd : Obligations.ReclaimOpsEnd := by
  intro b w s
  refine ⟨fun work => ?_, fun work => ?_⟩
  · exact completes (by rw [work]; rfl) (exec_erase w work) fun _ ok P verified => eraseEnded_ends _ b ok P verified work
  · exact completes (by rw [work]; rfl) (exec_freeStamp w work) fun _ ok P verified => freeStampEnded_ends _ b ok P verified work

/-! ### The time limit -/

/-- Settles O41: the array is as a cut leaves it, and the engine takes a failed read-back. -/
theorem timeoutFails : Obligations.TimeoutFails := by
  intro cut op s flight
  have run : exec (.flashOpTimeout cut) s = .next ({ s with flash := s.flashCut op cut } : State).opFailed := by
    show execFlashOpTimeout cut s = _
    unfold execFlashOpTimeout
    rw [flight]
  exact ⟨s.flashCut op cut, _, cutFlash_cut s _ cut (cutFlash_some s cut op flight).symm, run, opFailed_ends _ op flight⟩

end Sys2Proof.Proofs.Operations

/-! The hand-offs of the engine (O42, O43), the flip (O44) and the hand-offs that it leaves (O45 to O48). -/

namespace Sys2Proof.Proofs.HandOffs

open Sys2Proof Sys2Proof.Machine Sys2Proof.Laws

/-! ### Failure, boundary, unwind request -/

/-- Settles O42. -/
theorem failureTaken : Obligations.FailureTaken :=
  fun s f failed => ⟨s.ses.takePending, takePending_spec s.ses f failed, rfl⟩

/-- BOUNDARY_HANDOFF where the engine waits for it, with the session still PROGRAMMING (R77). -/
theorem exec_boundary_passed {s : State} {r : CommitRec} (work : s.eng.work = .commit r .boundary)
    (programming : (s.ses.session r.session).state = .programming) :
    exec .boundaryHandoff s = .next (State.setWork { s with
        ses := s.ses.setSession r.session { s.ses.session r.session with boundaryPassed := true } }
      (.commit { r with boundaryHanded := true } .dataStamp)) := by
  show execBoundaryHandoff s = _
  unfold execBoundaryHandoff
  rw [work]
  exact if_pos programming

/-- BOUNDARY_HANDOFF of a session that is no longer PROGRAMMING (R49). -/
theorem exec_boundary_refused {s : State} {r : CommitRec} (work : s.eng.work = .commit r .boundary)
    (left : (s.ses.session r.session).state ≠ .programming) : exec .boundaryHandoff s = .next (s.startUnwind r) := by
  show execBoundaryHandoff s = _
  unfold execBoundaryHandoff
  rw [work]
  exact if_neg left

/-- UNWIND_REQUEST is taken once: the request is cleared, and the engine does what it asks (R80). -/
theorem exec_unwindRequest {s : State} {i : SessionId} (asked : s.ses.unwindRequest = some i) :
    exec .unwindRequest s = .next (State.takeUnwind { s with ses := { s.ses with unwindRequest := none } } i) := by
  show execUnwindRequest s = _
  unfold execUnwindRequest
  rw [asked]

/-- A commit with an operation in flight notes the request (R80). -/
theorem takeUnwind_noted {s : State} {r : CommitRec} {step : CommitStep} (work : s.eng.work = .commit r step)
    (flight : s.eng.work.inFlight.isSome) :
    s.takeUnwind r.session = s.setWork (.commit { r with unwindRequested := true } step) := by
  rw [work] at flight
  unfold State.takeUnwind
  rw [work]
  cases step with
  | begunMark | line | dataStamp | retire => exact if_pos rfl
  | boundary | flipRequested | flipTaken => exact absurd flight (by simp [Work.inFlight])

/-- A commit that waits for the boundary acts on the request at once (R80). -/
theorem takeUnwind_boundary {s : State} {r : CommitRec} (work : s.eng.work = .commit r .boundary) :
    s.takeUnwind r.session = s.startUnwind r := by
  unfold State.takeUnwind
  rw [work]
  exact if_pos rfl

/-- An engine that no longer commits the session, or has requested its flip, does nothing (log entry 14). -/
theorem takeUnwind_past {s : State} {i : SessionId}
    (past : ∀ r step, s.eng.work = .commit r step → r.session = i → step = .flipRequested ∨ step = .flipTaken) :
    s.takeUnwind i = s := by
  unfold State.takeUnwind
  cases work : s.eng.work with
  | idle | unwind | erase | mountVoid => rfl
  | commit r step =>
    by_cases own : r.session = i
    · rcases past r step work own with rfl | rfl <;> exact if_pos own
    · exact if_neg own

/-- Settles O43. -/
theorem boundaryAndUnwindRequest : Obligations.BoundaryAndUnwindRequest := by
  refine ⟨fun s r work => ⟨exec_boundary_passed work, fun left => ?_⟩, fun s i asked => ?_⟩
  · exact ⟨_, exec_boundary_refused work left, startUnwind_spec s r⟩
  · intro s'
    rw [exec_unwindRequest asked]
    refine ⟨fun r step work own flight => ?_, fun r work own => ?_, fun past => ?_⟩
    · subst own
      exact congrArg Host.Outcome.next (takeUnwind_noted (s := s') work flight)
    · subst own
      exact ⟨_, congrArg Host.Outcome.next (takeUnwind_boundary (s := s') work), startUnwind_spec s' r⟩
    · exact congrArg Host.Outcome.next (takeUnwind_past (s := s') past)

/-! ### The flip -/

/-- FLIP where the engine requests it and no hand-off of an earlier flip stands (R28; log entry 15). -/
theorem exec_flip {s : State} {r : CommitRec} (work : s.eng.work = .commit r .flipRequested) (free : s.map.flip = none) :
    exec .flip s = .next (State.setWork { s.flipMembers r with map := { (s.flipMembers r).map with flip := some r.flipWork } }
      (.commit r .flipTaken)) := by
  show execFlip s = _
  unfold execFlip
  rw [work, free]

/-- The hand-offs of a flip, with the reload decided by membership (R138). -/
theorem flipWork_eq (r : CommitRec) : r.flipWork =
    { session := r.session, serial := r.serial, writer := r.writer, pages := r.pages,
      reloadDue := r.windowsLine && decide (Config.windowsPage ∈ r.pages), revocationDue := false,
      sessionEndDue := true, noticesDue := true } := by
  rw [CommitRec.flipWork, List.contains_eq_mem]

/-- Settles O44: the members of the flip are independent of each other, so that each acts as it would alone. -/
theorem flipPoints : Obligations.FlipPoints := by
  intro s r law work free
  have flipped := flipMembers_spec (flipReady law work)
  have run := exec_flip work free
  generalize s.flipMembers r = u at flipped run
  have index {m : Nat} {q : PageId} (page : r.pages[m]? = some q) : m < r.pages.length := (List.getElem?_eq_some_iff.1 page).1
  have all : r.pages.take r.pages.length = r.pages := List.take_length
  refine ⟨_, run, ?_, fun m q b page target => ⟨flipped.entry m q b (index page) page target, ?_⟩,
    fun q outside => flipped.others q fun m _ page => outside (List.mem_of_getElem? page), ?_, ?_, ?_, ?_,
    fun q member b current => ?_, fun b noTarget notCurrent => ?_, ?_, flipped.freePool, flipped.retiredSet⟩
  · rw [flipped.frame]
    rfl
  · exact flipped.data m q b (index page) page target
  · have mapped := flipped.mapped
    rwa [all] at mapped
  · exact (congrArg MapUnit.nextSerial flipped.map :)
  · exact (congrArg MapUnit.serialEnd flipped.map :)
  · exact congrArg some (flipWork_eq r)
  · obtain ⟨m, page⟩ := List.mem_iff_getElem?.1 member
    exact flipped.dirty m q b (index page) page current
  · exact flipped.same b (fun m _ target => noTarget (List.mem_of_getElem? target))
      fun m q _ page => notCurrent q (List.mem_of_getElem? page)
  · have dirty := flipped.dirtyList
    rwa [all] at dirty

/-! ### The reload of the windows table -/

theorem reloadedTable_empty {line : List Byte} (empty : judgeLine line = .empty) : reloadedTable line = .empty := by
  unfold judgeLine at empty
  unfold reloadedTable
  split at empty
  · next erased => exact if_pos erased
  · split at empty <;> cases empty

theorem reloadedTable_wellFormed {line : List Byte} {ws : List Window} (sound : judgeLine line = .wellFormed ws) :
    reloadedTable line = .windows ws := by
  unfold judgeLine at sound
  unfold reloadedTable
  split at sound
  · cases sound
  · next written =>
    rw [if_neg written]
    split at sound <;> cases sound
    rfl

/-- A state in which only notices changed, with its notices named. -/
theorem noticeOnly_eq {s t : State} (only : NoticeOnly s t) : ∃ notices, t = { s with notices := notices } :=
  ⟨t.notices, only.frame⟩

theorem took_of_offer {n n' : NoticePort} {o : Notice} (offered : n' = n.offer o) : n.Took n' o := by
  rw [offered]
  exact offer_took n o

theorem exec_reload {s : State} {w : FlipWork} (flip : s.map.flip = some w) (due : w.reloadDue = true) :
    exec .windowsTableReload s = .next ((State.offerTable { s with
        prot := { s.prot with table := reloadedTable (s.currentLine Config.windowsPage 0), tableFault := false } }
      w.serial w.writer).refreshAlerts.noteHandoff { w with reloadDue := false, revocationDue := true }) := by
  show execWindowsTableReload s = _
  unfold execWindowsTableReload
  rw [flip]
  exact if_pos due

/-- Settles O45. -/
theorem reloadPutsInForce : Obligations.ReloadPutsInForce := by
  intro s w bytes flip due line
  have run := exec_reload flip due
  rw [currentLine_eq s bytes line] at run
  obtain ⟨only, notice⟩ := offerTable_spec
    { s with prot := { s.prot with table := reloadedTable bytes, tableFault := false } } w.serial w.writer
  obtain ⟨notices, eq⟩ := noticeOnly_eq only
  rw [eq] at run notice
  refine ⟨_, run, rfl, reloadedTable_empty, fun ws => reloadedTable_wellFormed, rfl, rfl, fun p spared => ?_, fun p other free => ?_,
    alertsFollow_handoff s _ _ fun _ => rfl, handoffTaken_of_same s _ _ rfl rfl⟩
  · refine (notice p).trans (if_neg fun ⟨other, free⟩ => ?_)
    rcases spared with writer | low
    · exact other writer
    · exact Bool.noConfusion (low.symm.trans free)
  · exact took_of_offer ((notice p).trans (if_pos ⟨other, free⟩))

/-! ### Revocation -/

theorem exec_revocation {s : State} {w : FlipWork} (flip : s.map.flip = some w) (due : w.revocationDue = true) :
    exec .revocation s = .next (State.noteHandoff (State.refreshAlerts { s with
      ses := s.ses.revoke s.prot.table, eng := s.eng.withdrawDenied s.ses s.prot.table }) { w with revocationDue := false }) := by
  show execRevocation s = _
  unfold execRevocation
  rw [flip]
  exact if_pos due

/-- The sessions that a table denies (R62, R139). -/
theorem deniedRecord_iff (t : WindowsTable) (r : Session) : deniedRecord t r = true ↔ (r.state = .opened ∨ r.state = .queued)
    ∧ ∃ o, r.owner = some o ∧ ∃ q ∈ r.members, t.canWrite o q.val = false := by
  unfold deniedRecord
  rw [Bool.and_eq_true, Bool.or_eq_true, beq_iff_eq, beq_iff_eq]
  refine and_congr Iff.rfl ?_
  cases r.owner with
  | none => simp
  | some o =>
    simp only [Bool.not_eq_true', ← Bool.not_eq_true, SessionRequests.canWriteAll_iff, Option.some.injEq, exists_eq_left', not_forall,
      exists_prop]

/-- Settles O46: the pass over the sessions acts on each of them as on its record. -/
theorem revocationRevokes : Obligations.RevocationRevokes := by
  intro s w revoked flip due denied
  obtain rfl : revoked = fun i => deniedRecord s.prot.table (s.ses.session i) := by
    funext i
    rw [Bool.eq_iff_iff, denied i, deniedRecord_iff]
  have run := exec_revocation flip due
  have session := session_revoke s.ses s.prot.table
  have claim := claim_revoke s.ses s.prot.table
  have failure := failure_revoke s.ses s.prot.table
  have unwindRequest := unwindRequest_revoke s.ses s.prot.table
  generalize s.ses.revoke s.prot.table = u at run session claim failure unwindRequest
  refine ⟨_, s.eng.withdrawDenied s.ses s.prot.table, run, rfl, session, claim, failure, unwindRequest, rfl, fun p => ?_,
    alertsFollow_handoff s _ _ fun _ => rfl, handoffTaken_of_same _ _ _ rfl rfl⟩
  show (s.eng.queue.map _)[p.val] = _
  rw [Vector.getElem_map]
  rfl

/-! ### The end of the session, and the notices -/

theorem exec_flipEnd {s : State} {w : FlipWork} (flip : s.map.flip = some w) (due : w.sessionEndDue = true)
    (loaded : w.reloadDue = false) :
    exec .flipEndOfSession s = .next (State.noteHandoff (State.refreshAlerts { s with
      ses := if (s.ses.session w.session).state = .programming then s.ses.endSession w.session (.done w.serial) else s.ses })
        { w with sessionEndDue := false }) := by
  show execFlipEndOfSession s = _
  unfold execFlipEndOfSession
  rw [flip]
  exact if_pos (by simp [due, loaded])

/-- Settles O47. -/
theorem flipEndsSession : Obligations.FlipEndsSession := by
  intro s w flip due loaded r
  refine ⟨_, exec_flipEnd flip due loaded, rfl, fun programming => ?_, fun left => if_neg left,
    alertsFollow_handoff s _ _ fun _ => rfl, handoffTaken_of_same s _ _ rfl rfl⟩
  show s.ses.EndedWith (if _ then _ else _) _ _
  rw [if_pos programming]
  exact endSession_ends s.ses w.session (.done w.serial)

theorem exec_flipNotices {s : State} {w : FlipWork} (flip : s.map.flip = some w) (due : w.noticesDue = true)
    (loaded : w.reloadDue = false) :
    exec .flipNoticeHandoff s
      = .next ((s.offerFlip w.serial w.writer w.pages).refreshAlerts.noteHandoff { w with noticesDue := false }) := by
  show execFlipNoticeHandoff s = _
  unfold execFlipNoticeHandoff
  rw [flip]
  exact if_pos (by simp [due, loaded])

/-- Settles O48. -/
theorem flipNoticesOffered : Obligations.FlipNoticesOffered := by
  intro s w flip due loaded
  have run := exec_flipNotices flip due loaded
  obtain ⟨only, notice⟩ := offerFlip_spec s w.serial w.writer w.pages
  obtain ⟨notices, eq⟩ := noticeOnly_eq only
  rw [eq] at run notice
  exact ⟨_, run, rfl, fun p => (notice p).1, fun p => (notice p).2,
    alertsFollow_handoff s _ _ fun _ => rfl, handoffTaken_of_same s _ _ rfl rfl⟩

end Sys2Proof.Proofs.HandOffs

/-! Mounting: the stamps of a spare area (O49), the scan of a block (O50), the tables (O51) and the windows table (O52). -/

namespace Sys2Proof.Proofs.Mounting

open Sys2Proof Sys2Proof.Machine Sys2Proof.Laws

/-! ### The stamps -/

theorem natOfBytes_slice3 (l : List Byte) (k : Nat) (h : k + 3 ≤ l.length) : natOfBytes (slice l k 3) =
    (l.getD k 0xFF).toNat * 65536 + ((l.getD (k + 1) 0xFF).toNat * 256 + (l.getD (k + 2) 0xFF).toNat) := by
  rw [slice_succ l k 2 (by omega), Permissions.slice_two l (k + 1) (by omega)]
  simp only [natOfBytes, List.foldl_cons, List.foldl_nil, Nat.add_assoc, Nat.reduceAdd]
  omega

theorem natOfBytes_slice4 (l : List Byte) (k : Nat) (h : k + 4 ≤ l.length) : natOfBytes (slice l k 4) =
    ((l.getD k 0xFF).toNat * 256 + (l.getD (k + 1) 0xFF).toNat) * 65536
      + ((l.getD (k + 2) 0xFF).toNat * 256 + (l.getD (k + 3) 0xFF).toNat) := by
  rw [slice_succ l k 3 (by omega), slice_succ l (k + 1) 2 (by omega), Permissions.slice_two l (k + 2) (by omega)]
  simp only [natOfBytes, List.foldl_cons, List.foldl_nil, Nat.add_assoc, Nat.reduceAdd]
  omega

/-- A byte field holds a number below 256. -/
theorem byte_iff (b : Byte) (n : Nat) (h : n < 256) : b = BitVec.ofNat 8 n ↔ b.toNat = n := by
  rw [← BitVec.toNat_inj, BitVec.toNat_ofNat, Nat.mod_eq_of_lt (show n < 2 ^ 8 from h)]

/-- The free stamp of a spare area, by its fields (R4). -/
theorem freeStampCount_iff (spare : List Byte) (length : spare.length = 64) (count : Nat) : freeStampCount spare = some count ↔
    (spare.getD 0 0xFF).toNat = 0xA5
    ∧ (spare.getD 4 0xFF).toNat * 256 + (spare.getD (4 + 1) 0xFF).toNat = (crc16 (spare.take 4)).toNat
    ∧ count = (spare.getD 1 0xFF).toNat * 65536 + ((spare.getD 2 0xFF).toNat * 256 + (spare.getD (2 + 1) 0xFF).toNat) := by
  have field : natOfBytes (slice spare 1 3) = _ := natOfBytes_slice3 spare 1 (by omega)
  have crc : slice spare 4 2 = crcBytes (slice spare 0 4) ↔ _ := Permissions.crc_iff spare (slice spare 0 4) 4 (by omega)
  rw [← byte_iff _ 0xA5 (by decide), ← field]
  unfold freeStampCount
  rw [Option.ite_none_right_eq_some, crc, and_assoc, Option.some.injEq, eq_comm (b := count)]
  rfl

/-- The data stamp of a spare area, by its fields (R6). -/
theorem dataStamp_iff (spare : List Byte) (st : DataStamp) : dataStamp spare = some st ↔
    (byteAt spare 8 = 0x5A ∧ slice spare 24 2 = crcBytes (slice spare 8 16))
    ∧ (st.count = (byteAt spare 9).toNat ∧ 1 ≤ st.count ∧ st.count ≤ 4)
    ∧ (st.index = (byteAt spare 10).toNat ∧ st.index < st.count)
    ∧ (stampPages spare st.count = some st.pages ∧ st.pages.Nodup
      ∧ ∀ i ∈ List.range 4, st.count ≤ i → stampPage spare i = 0xFFFF)
    ∧ (st.serial = natOfBytes (slice spare 19 4) ∧ 1 ≤ st.serial ∧ st.serial ≤ Config.lastSerial)
    ∧ st.writer.val = (byteAt spare 23).toNat := by
  constructor
  · intro valid
    unfold dataStamp at valid
    dsimp only at valid
    split at valid
    case isFalse => cases valid
    case isTrue tests =>
      obtain ⟨mark, crc, low, high, index, rest, first, last⟩ := tests
      split at valid
      case h_2 => cases valid
      case h_1 pages list =>
        split at valid
        case isFalse => cases valid
        case isTrue writer =>
          split at valid
          case isFalse => cases valid
          case isTrue nodup =>
            cases valid
            exact ⟨⟨mark, crc⟩, ⟨rfl, low, high⟩, ⟨rfl, index⟩, ⟨list, nodup, rest⟩, ⟨rfl, first, last⟩, rfl⟩
  · obtain ⟨count, index, pages, serial, writer, small⟩ := st
    rintro ⟨⟨mark, crc⟩, ⟨count, low, high⟩, ⟨index, below⟩, ⟨list, nodup, rest⟩, ⟨serial, first, last⟩, writer⟩
    dsimp only at *
    subst count index serial writer
    unfold dataStamp
    dsimp only
    rw [if_pos ⟨mark, crc, low, high, below, rest, first, last⟩, list]
    exact (dif_pos small).trans (if_pos nodup)

/-- Settles O49. -/
theorem stampsJudged : Obligations.StampsJudged := by
  intro spare length b half
  refine ⟨freeStampCount_iff spare length, fun st => ?_⟩
  have serial : natOfBytes (slice spare 19 4) = half 19 * 65536 + half 21 := natOfBytes_slice4 spare 19 (by omega)
  have crc : slice spare 24 2 = crcBytes (slice spare 8 16) ↔ half 24 = (crc16 ((spare.drop 8).take 16)).toNat :=
    Permissions.crc_iff spare _ 24 (by omega)
  have page (i : Nat) (low : i < 4) : stampPage spare i = half (11 + 2 * i) := natOfBytes_slice2 spare _ (by omega)
  rw [dataStamp_iff, stampPages_iff, crc, serial, show byteAt spare 8 = 0x5A ↔ b 8 = 0x5A from byte_iff _ 0x5A (by decide)]
  constructor
  · rintro ⟨⟨mark, crc⟩, ⟨count, low, high⟩, ⟨index, below⟩, ⟨⟨listed, pages⟩, nodup, rest⟩, ⟨serial, first, last⟩, writer⟩
    refine ⟨mark, crc, count, low, high, index, below, listed, fun i q entry => ?_, nodup, fun i past small => ?_, serial, first, last,
      writer⟩
    · have inside : i < st.pages.length := (List.getElem?_eq_some_iff.1 entry).1
      rw [← page i (by omega)]
      exact pages i q entry
    · rw [← page i small]
      exact rest i (List.mem_range.2 small) past
  · rintro ⟨mark, crc, count, low, high, index, below, listed, pages, nodup, rest, serial, first, last, writer⟩
    refine ⟨⟨mark, crc⟩, ⟨count, low, high⟩, ⟨index, below⟩, ⟨⟨listed, fun i q entry => ?_⟩, nodup, fun i small past => ?_⟩,
      ⟨serial, first, last⟩, writer⟩
    · have inside : i < st.pages.length := (List.getElem?_eq_some_iff.1 entry).1
      rw [page i (by omega)]
      exact pages i q entry
    · have small : i < 4 := List.mem_range.1 small
      rw [page i small]
      exact rest i past small

/-! ### The scan of a block -/

/-- What a scan of one block changes (R114). -/
theorem scanBlock_frame (s : State) (b : BlockId) :
    s.scanBlock b = { s with bm := (s.scanBlock b).bm, mount := (s.scanBlock b).mount }
    ∧ (s.scanBlock b).mount = { s.mount with
        position := s.mount.position + 1, tally := (s.scanBlock b).mount.tally,
        largestSerial := largestWith s.mount.largestSerial (s.flash.spare b) } := by
  unfold State.scanBlock
  dsimp only
  cases classify (s.flash.spare b) <;> exact ⟨rfl, rfl⟩

/-- The block and the tally follow the row of Table 26 (R114, R116). -/
theorem scanBlock_row {s : State} {b : BlockId} {row : ScanRow} (matched : classify (s.flash.spare b) = row) :
    (s.scanBlock b).bm = (s.placeRow b row).bm ∧ (s.scanBlock b).mount.tally = (s.placeRow b row).mount.tally := by
  subst matched
  exact ⟨rfl, rfl⟩

theorem programmed_iff (spare : List Byte) (k : Nat) : programmed (byteAt spare k) = true ↔ spare.getD k 0xFF ≠ 0xFF := bne_iff_ne

theorem largestWith_some {spare : List Byte} {st : DataStamp} (valid : dataStamp spare = some st) (n : Nat) :
    largestWith n spare = max n st.serial := by
  rw [largestWith, valid]

theorem largestWith_none {spare : List Byte} (invalid : dataStamp spare = none) (n : Nat) : largestWith n spare = n := by
  rw [largestWith, invalid]

/-! The rows of Table 26, each behind those above it. -/

theorem classify_retired {spare : List Byte} (retired : spare.getD 33 0xFF ≠ 0xFF) :
    classify spare = .retired ((freeStampCount spare).getD 0) :=
  if_pos ((programmed_iff spare 33).2 retired)

theorem classify_voided {spare : List Byte} (kept : spare.getD 33 0xFF = 0xFF) (voided : spare.getD 32 0xFF ≠ 0xFF) :
    classify spare = .voided ((freeStampCount spare).getD 0) :=
  (if_neg fun marked => (programmed_iff spare 33).1 marked kept).trans (if_pos ((programmed_iff spare 32).2 voided))

/-- Past the discard marks the row is a matter of the free stamp, the slot and the data stamp. -/
theorem classify_unmarked {spare : List Byte} (kept : spare.getD 33 0xFF = 0xFF) (unvoided : spare.getD 32 0xFF = 0xFF) :
    classify spare = (freeStampCount spare).elim .unknownErase fun c =>
      if slotErased spare && discardErased spare then .free c else (dataStamp spare).elim (.torn c) .candidate := by
  have notRetired : ¬ retireProgrammed spare = true := fun marked => (programmed_iff spare 33).1 marked kept
  have notVoided : ¬ voidProgrammed spare = true := fun marked => (programmed_iff spare 32).1 marked unvoided
  unfold classify
  dsimp only
  rw [if_neg notRetired, if_neg notVoided]
  cases freeStampCount spare with
  | none => rfl
  | some c => cases dataStamp spare <;> rfl

/-- Settles O50: one case per row. -/
theorem scanPlaces : Obligations.ScanPlaces := by
  intro s b due position spare byte count clean
  obtain ⟨runs, stage, low⟩ := due
  have run : exec .mountBlockScan s = .next (s.scanBlock b) := by
    have same : (⟨s.mount.position, low⟩ : BlockId) = b := Fin.ext position
    rw [← same]
    exact (dif_pos low).trans (if_pos ⟨runs, stage⟩)
  obtain ⟨frame, mount⟩ := scanBlock_frame s b
  have cleanIff : (slotErased spare && discardErased spare) = true ↔ clean := clean_iff spare (length_spare s.flash b)
  have unmarked {row : ScanRow} (kept : byte 33 = 0xFF) (unvoided : byte 32 = 0xFF)
      (is : (freeStampCount spare).elim .unknownErase (fun c =>
        if slotErased spare && discardErased spare then .free c else (dataStamp spare).elim (.torn c) .candidate) = row) :=
    scanBlock_row (s := s) (b := b) ((classify_unmarked kept unvoided).trans is)
  refine ⟨s.scanBlock b, run, frame, ?_, fun st valid => ?_, fun invalid => ?_, fun retired => ?_, fun kept voided => ?_,
    fun kept unvoided unstamped => ?_, fun kept unvoided stamped => ⟨fun isClean => ?_, fun dirty torn => ?_,
      fun st page dirty valid member => ?_⟩⟩
  · rw [← position]
    exact mount.trans (by rw [mount])
  · rw [mount]
    exact largestWith_some valid _
  · rw [mount]
    exact largestWith_none invalid _
  · obtain ⟨bm, tally⟩ := scanBlock_row (classify_retired (spare := s.flash.spare b) retired)
    rw [bm, tally]
    exact ⟨rfl, fun x => block_place s.bm b x _, fun x => mem_insertBlock b s.bm.retiredSet x, rfl, rfl, rfl⟩
  · obtain ⟨bm, tally⟩ := scanBlock_row (classify_voided (spare := s.flash.spare b) kept voided)
    rw [bm, tally]
    exact ⟨rfl, placeDirty_placed s.bm b count⟩
  · obtain ⟨bm, tally⟩ := unmarked (row := .unknownErase) kept unvoided (by rw [unstamped]; rfl)
    rw [bm, tally]
    exact ⟨rfl, placeDirty_placed s.bm b 0⟩
  all_goals
    obtain ⟨n, free⟩ := Option.ne_none_iff_exists'.1 stamped
    have counted : count = n := congrArg (Option.getD · 0) free
  · obtain ⟨bm, tally⟩ := unmarked (row := .free n) kept unvoided (by rw [free]; exact if_pos (cleanIff.2 isClean))
    rw [bm, tally, counted]
    exact ⟨rfl, fun x => block_place s.bm b x _, rfl⟩
  · obtain ⟨bm, tally⟩ := unmarked (row := .torn n) kept unvoided
      (by rw [free, torn]; exact if_neg fun isClean => dirty (cleanIff.1 isClean))
    rw [bm, tally, counted]
    exact ⟨rfl, placeDirty_placed s.bm b n⟩
  · obtain ⟨bm, tally⟩ := unmarked (row := .candidate st) kept unvoided
      (by rw [free, valid]; exact if_neg fun isClean => dirty (cleanIff.1 isClean))
    have own : st.page = page := Option.some.inj ((page_at (stampOk_valid spare st valid)).symm.trans member)
    rw [bm, tally, ← own]
    exact ⟨rfl, tallyAdd_entered st b s.mount.tally⟩

/-! ### The tables -/

/-- The record of a block that no scan row placed, without a current version on it (R118, R120). -/
theorem builtRecord_dirty {s : State} {b : BlockId} (unplaced : s.bm.block b = none)
    (blocks : ((s.mount.tally.flatMap TallyEntry.members).map Candidate.block).Nodup)
    (other : ∀ e c, CurrentVersion s.mount.tally e c → c.block ≠ b) :
    s.buildTables.bm.block b
      = some { cls := .dirty, eraseCount := (freeStampCount (s.flash.spare b)).getD 0, pins := 0 } := by
  rw [built_block, State.builtRecord, unplaced, builtData_none blocks b other]

/-- The record of a block with a current version on it (R120). -/
theorem builtRecord_data {s : State} {e : TallyEntry} {c : Candidate} (unplaced : s.bm.block c.block = none)
    (blocks : ((s.mount.tally.flatMap TallyEntry.members).map Candidate.block).Nodup)
    (current : CurrentVersion s.mount.tally e c) :
    s.buildTables.bm.block c.block = some
      { cls := .data { page := c.page, serial := e.serial, index := c.index, count := e.count, writer := e.writer },
        eraseCount := (freeStampCount (s.flash.spare c.block)).getD 0, pins := 0 } := by
  rw [built_block, State.builtRecord, unplaced, builtData_some blocks current]

/-- The record of a block that a scan row placed (R114). -/
theorem builtRecord_placed {s : State} {b : BlockId} {r : BlockRec} (placed : s.bm.block b = some r) :
    s.buildTables.bm.block b = some { r with pins := 0 } := by
  rw [built_block, State.builtRecord, placed]

/-- What the building of the tables changes (R121). -/
theorem built_frame (s : State) : s.buildTables =
    { s with bm := s.buildTables.bm, map := s.buildTables.map, mount := s.buildTables.mount } := by
  obtain ⟨bm, map, mount, frame⟩ : ∃ bm map mount, s.buildTables = { s with bm := bm, map := map, mount := mount } :=
    ⟨_, _, _, rfl⟩
  rw [frame]

/-- The Map Unit with the tables built (R27, R121). -/
theorem built_map (s : State) : s.buildTables.map =
    s.map.built (builtPages (completeCandidates (judgeTally s.mount.tally))) s.mount.largestSerial := by
  unfold State.buildTables
  dsimp only

theorem flip_built (m : MapUnit) (pages : Vector (Option MapEntry) 464) (largest : Nat) :
    (m.built pages largest).flip = m.flip := rfl

/-- The voiding list is of the incomplete entries of the judged tally (R118, R119). -/
theorem built_voidList (s : State) : s.buildTables.mount.voidList = voidingList (judgeTally s.mount.tally) := by
  have mount := built_mount s
  rw [mount]

/-- The mapped count is that of the built Page Map (R23, R121). -/
theorem built_mapped_count (s : State) :
    s.buildTables.map.mapped = ((List.finRange 464).filter fun q => (s.buildTables.map.entry q).isSome).length := by
  rw [built_map]
  generalize builtPages (completeCandidates (judgeTally s.mount.tally)) = pages
  show (pages.toList.filter fun e => e.isSome).length = _
  rw [toList_map, List.filter_map, List.length_map]
  rfl

/-- A page that no complete group holds stays unmapped (R120). -/
theorem built_unmapped {s : State} {q : PageId}
    (none_holds : ∀ e ∈ s.mount.tally, e.Complete s.mount.tally → ∀ c ∈ e.members, c.page ≠ q) :
    s.buildTables.map.entry q = none := by
  rw [built_entry, Option.map_eq_none_iff, Option.eq_none_iff_forall_not_mem]
  intro x current
  obtain ⟨candidate, page⟩ := currentVersion_mem _ q x current
  obtain ⟨e, entry, complete, member, -⟩ := (mem_cands s.mount.tally x).1 candidate
  exact none_holds e entry complete x.2 member page

/-- Settles O51. -/
theorem tablesBuilt : Obligations.TablesBuilt := by
  intro s law due tally count
  obtain ⟨-, -, scanning, blocks, -, -⟩ := law
  obtain ⟨-, -, candidates⟩ := scanning due.2.1
  have unplaced {e : TallyEntry} {c : Candidate} (entry : e ∈ tally) (member : c ∈ e.members) : s.bm.block c.block = none :=
    (candidates c (List.mem_flatMap.2 ⟨e, entry, member⟩)).2
  have run : exec .mountTableBuild s = .next s.buildTables := if_pos due
  obtain ⟨bm, collected⟩ := built_lists s
  obtain ⟨pool, dirty, -, retired⟩ := collect_spec bm
  rw [← collected] at pool dirty retired
  refine ⟨s.buildTables, run, built_frame s, fun e c current => ⟨?_, ?_⟩, fun q => built_unmapped, fun e entry c member superseded => ?_,
    fun b r => builtRecord_placed, built_mapped_count s, ?_, ?_, ?_, pool, dirty,
    retired, ?_, ⟨?_, ?_⟩, ?_⟩
  · obtain ⟨-, -, best⟩ := (current_iff blocks e c).1 current
    rw [built_entry, best]
    rfl
  · have ⟨entry, _, member, _⟩ := current
    exact builtRecord_data (unplaced entry member) blocks current
  · refine builtRecord_dirty (unplaced entry member) blocks fun f d current same => superseded ?_
    have ⟨entry', _, member', _⟩ := current
    obtain ⟨rfl, rfl⟩ := candidate_unique blocks entry' entry member' member same
    exact current
  · rw [built_map]
    rfl
  · rw [built_map]
    rfl
  · rw [built_map, flip_built]
  · rw [collected]
    exact refresh_space _
  · rw [built_voidList]
    exact voidingList_sorted _
  · rw [built_voidList]
    exact mem_voidingList tally
  · have mount := built_mount s
    rw [mount]

/-! ### The windows table -/

/-- Settles O52: the line is judged, and the mount goes on to voiding or ends. -/
theorem windowsLoaded : Obligations.WindowsLoaded := by
  intro s bytes due line
  have run : exec .windowsTableLoad s = .next (State.mountVoidNext { s with
      prot := { s.prot with table := (tableOfLine (s.currentLine Config.windowsPage 0)).1
                            tableFault := (tableOfLine (s.currentLine Config.windowsPage 0)).2 }
      mount := { s.mount with stage := .voiding, voidList := [] } } s.mount.voidList) := if_pos due
  rw [currentLine_eq s bytes line] at run
  refine ⟨_, { s.prot with table := (tableOfLine bytes).1, tableFault := (tableOfLine bytes).2 }, run, rfl,
    fun empty => ?_, fun ws sound => ?_, fun malformed => ?_, mountVoidNext_spec _ _⟩
  · rw [tableOfLine, empty]
    exact ⟨rfl, rfl⟩
  · rw [tableOfLine, sound]
    exact ⟨rfl, rfl⟩
  · rw [tableOfLine, malformed]
    exact ⟨rfl, rfl⟩

end Sys2Proof.Proofs.Mounting
